-- ==== Sys2Proof/Word.lean ====
section
/-! DEFINITION. The word types of the Z7 and the plainest arithmetic on naturals that every other file shares. -/

namespace Sys2Proof

/-- A 64-bit register value (03 R56). -/
abbrev Word := BitVec 64

/-- One byte of memory, the smallest unit the manual addresses (11 R279). -/
abbrev Byte := BitVec 8

/-- Bits `hi` down to `lo` of `x`, as Table 0.3 writes `bits(x, hi, lo)`. -/
def bits (x hi lo : Nat) : Nat := x / 2 ^ lo % 2 ^ (hi + 1 - lo)

/-- Bit `i` of `x`. -/
def bit (x i : Nat) : Bool := x / 2 ^ i % 2 = 1

/-- The smallest integer at least `a / b`. -/
def ceilDiv (a b : Nat) : Nat := (a + b - 1) / b

/-- `a` rounded up to a multiple of `b`. -/
def roundUp (a b : Nat) : Nat := ceilDiv a b * b

/-- The integer that the low `n` bits of `x` denote in two's complement (Table 0.3, `sext`). -/
def signedOf (x n : Nat) : Int :=
  let y := x % 2 ^ n
  if 2 * y < 2 ^ n then (y : Int) else (y : Int) - (2 ^ n : Nat)

/-- An integer reduced modulo `2 ^ n` (R80). -/
def wrapInt (v : Int) (n : Nat) : Nat := (v % ((2 ^ n : Nat) : Int)).toNat

end Sys2Proof
end

