-- ==== Sys2Proof/Syntax.lean ====
section
/-! DEFINITION. The instructions and events of the Z7, one constructor of `Instr` for each row of spec/opcode_table.json. The operand
fields of a word are those of 05 Tables 5.3 to 5.9; the fields of an event say what happens to what. -/

namespace Sys2Proof

/-- The operand fields of an A32 word (Table 5.3); the constructor stands for OPC. -/
structure A32Word where
  /-- Field D, V0 to V255. -/
  d : BitVec 8
  /-- Field A, V0 to V255. -/
  a : BitVec 8
  /-- Field B, V0 to V127 or a signed imm7. -/
  b : BitVec 7
deriving DecidableEq, Repr

/-- The operand fields of a B32 word (Table 5.5). -/
structure B32Word where
  /-- Guard predicate. -/
  g : BitVec 3
  /-- Guard negate. -/
  n : Bool
  /-- Signed offset in bundles. -/
  ofs : BitVec 21
deriving DecidableEq, Repr

/-- The operand fields of a 64-bit or 96-bit word of ALU class (Tables 5.6 and 5.7). `lit` is the literal of the 96-bit form; its
presence is LIT. -/
structure AluWord where
  g : BitVec 3
  n : Bool
  d : BitVec 9
  a : BitVec 9
  b : BitVec 9
  c : BitVec 9
  /-- TYPE, a code of Table 5.10. -/
  ty : BitVec 4
  rnd : BitVec 3
  sat : Bool
  sq : Bool
  ind : Bool
  xs : BitVec 2
  /-- Bit 31, reserved. -/
  rsv : Bool
  lit : Option (BitVec 32)
deriving DecidableEq, Repr

/-- The operand fields of a word of memory class (Tables 5.6 and 5.8). -/
structure MemWord where
  g : BitVec 3
  n : Bool
  d : BitVec 9
  a : BitVec 9
  base : BitVec 9
  size : BitVec 3
  scope : BitVec 3
  /-- Bit 15: the read-only hint RO, or VAR (R198). -/
  ro : Bool
  strm : BitVec 3
  pred : BitVec 8
  sq : Bool
  ind : Bool
  xs : BitVec 2
  lit : Option (BitVec 32)
deriving DecidableEq, Repr

/-- The operand fields of a word of async class (Tables 5.6 and 5.9). -/
structure AsyncWord where
  g : BitVec 3
  n : Bool
  d : BitVec 9
  a : BitVec 9
  b : BitVec 9
  c : BitVec 9
  strm : BitVec 3
  pred : BitVec 8
  md : BitVec 3
deriving DecidableEq, Repr

/-- The atomics a host request may carry (Table 16.1). -/
inductive HostOp where
  | fetchAdd | swap | cas
deriving DecidableEq, Repr

/-- What a space-4 request from another package asks for (R365). -/
inductive RemoteKind where
  | read
  | write (value : Nat)
  /-- `op` is an operation code of Table 8.7 (0 to 8), 9 for ATOMC. -/
  | atomic (op : Nat) (var : Bool) (value compare : Nat)
deriving DecidableEq, Repr

/-- A space-4 request that arrives at this package (R365). -/
structure RemoteReq where
  src : Nat
  offset : Nat
  size : Nat
  kind : RemoteKind
  /-- The access of this package that asks, when `src` is its own id. -/
  tag : Nat := 0
  /-- The thread that asks, by a name its package gives it (16 R366). -/
  thr : Nat := 0
  /-- Stream, predecessors and scope, which the access carries (16 R366). -/
  strm : Nat := 0
  pred : Nat := 0
  scope : Nat := 4
  /-- Byte offsets of a write that are not written (08 R205). -/
  masked : List Nat := []
  /-- The 8-byte parts that have been performed, and the value of those read (08 R200; 11 R292). -/
  got : List Nat := []
  value : Nat := 0
deriving DecidableEq, Repr

/-- The messages of SPDM 1.3 and TDISP that the rules of 16 give an effect (R357, R370). -/
inductive SpdmBody where
  | certificate
  /-- A measurement block of Table 16.5. -/
  | measurement (index : Nat)
  /-- Lock, start and stop move a TDI through the states of Table 16.1. -/
  | tdispLock (vf : Nat)
  | tdispStart (vf : Nat)
  | tdispStop (vf : Nat)
deriving DecidableEq, Repr

/-- A message of R370: over the DOE mailbox or MCTP, inside a secured session or not. -/
structure SpdmReq where
  doe : Bool
  secured : Bool
  body : SpdmBody
deriving DecidableEq, Repr

/-- A firmware image offered for staging (R369). -/
structure FirmwareImage where
  /-- True for the Supervisor image, false for the management image. -/
  supervisor : Bool
  svn : Nat
  bytes : List Nat
deriving DecidableEq, Repr

/-- A level of the cache hierarchy that holds a line (10 R256, R263, R264, R265). -/
inductive Level where
  | l1 (core : Nat)
  | l2 (die : Nat)
  | rdc (die : Nat)
  | msc (die : Nat)
deriving DecidableEq, Repr

/-- A structure of translation or prediction that parity protects (20 Table 20.3): the translation buffer of a core or a quad, a quad's
walk-ahead buffer, or a core's peer predictor. -/
inductive ParityUnit where
  | coreTlb (core : Nat)
  | quadTlb (quad : Nat)
  | ahead (quad : Nat)
  | predictor (core : Nat)
deriving DecidableEq, Repr

/-- An error that the protection of Table 20.3 finds; `fixed` says whether the code corrects it. -/
inductive SoftError where
  | register (thr reg : Nat) (fixed : Bool)
  | squadState (ctx : Nat) (fixed : Bool)
  | scratchpad (blk rank offset : Nat) (fixed : Bool)
  | cleanLine (line : Nat) (fixed : Bool)
  | dirtyLine (pa : Nat) (fixed : Bool)
  /-- In the tags, the directory or the sharer vectors of a cache, in the set of a line. -/
  | cacheTags (cache : Level) (line : Nat) (fixed : Bool)
  | bank (quad bank : Nat) (fixed : Bool)
  | unitState (ctx : Nat) (fixed : Bool)
  /-- In an entry, by its place. -/
  | tlb (unit : ParityUnit) (entry : Nat)
  | hbm (pa : Nat) (fixed : Bool)
  | tier (pa : Nat) (fixed : Bool)
  /-- An uncorrectable error in the state of a Reckoner's sequencer (R461). -/
  | sequencer (quad : Nat)
deriving DecidableEq, Repr

/-- What a register write of the host or a master reaches (R4, R359, R374). Pages 0 to 3 are the masters', 4 and above those of VF 1 on. -/
inductive RegTarget where
  | page (n : Nat)
  | dbgWindow
deriving DecidableEq, Repr

/-- The steps of the Z7: every instruction of 05 to 09 and every event of the opcode table. -/
inductive Instr where
  /-- NOP (R132): The all-zero A32 word changes no state and moves the PC to the next instruction. -/
  | nop
  /-- MOV_A32 (R107): Compact form of MOV that copies all 64 bits of Va into Vd. -/
  | movA32 (w : A32Word)
  /-- MOVI_I64_A32 (R108): Compact form of MOVI.i64 that writes the sign-extended imm7 into Vd. -/
  | moviI64A32 (w : A32Word)
  /-- IADD_I32_A32 (R107): Compact IADD.i32 with a register source B. -/
  | iaddI32A32 (w : A32Word)
  /-- IADD_I32_A32_IMM (R108): Compact IADD.i32 with imm7 as source B. -/
  | iaddI32A32Imm (w : A32Word)
  /-- IADD_I64_A32 (R107): Compact IADD.i64 with a register source B. -/
  | iaddI64A32 (w : A32Word)
  /-- IADD_I64_A32_IMM (R108): Compact IADD.i64 with imm7 as source B. -/
  | iaddI64A32Imm (w : A32Word)
  /-- ISUB_I32_A32 (R107): Compact ISUB.i32 with a register source B. -/
  | isubI32A32 (w : A32Word)
  /-- ISUB_I64_A32 (R107): Compact ISUB.i64 with a register source B. -/
  | isubI64A32 (w : A32Word)
  /-- IMUL_I32_A32 (R107): Compact IMUL.i32 with a register source B. -/
  | imulI32A32 (w : A32Word)
  /-- IMUL_I32_A32_IMM (R108): Compact IMUL.i32 with imm7 as source B. -/
  | imulI32A32Imm (w : A32Word)
  /-- IMIN_I32_A32 (R107): Compact IMIN.i32 with a register source B. -/
  | iminI32A32 (w : A32Word)
  /-- IMAX_I32_A32 (R107): Compact IMAX.i32 with a register source B. -/
  | imaxI32A32 (w : A32Word)
  /-- AND_N64_A32 (R107): Compact AND.n64 with a register source B. -/
  | andN64A32 (w : A32Word)
  /-- AND_N64_A32_IMM (R108): Compact AND.n64 with imm7 as source B. -/
  | andN64A32Imm (w : A32Word)
  /-- OR_N64_A32 (R107): Compact OR.n64 with a register source B. -/
  | orN64A32 (w : A32Word)
  /-- XOR_N64_A32 (R107): Compact XOR.n64 with a register source B. -/
  | xorN64A32 (w : A32Word)
  /-- SHL_N32_A32_IMM (R108): Compact SHL.n32 by imm7. -/
  | shlN32A32Imm (w : A32Word)
  /-- SHR_N32_A32_IMM (R108): Compact SHR.n32 by imm7. -/
  | shrN32A32Imm (w : A32Word)
  /-- SHRA_I32_A32_IMM (R108): Compact SHRA.i32 by imm7. -/
  | shraI32A32Imm (w : A32Word)
  /-- SHL_N64_A32_IMM (R108): Compact SHL.n64 by imm7. -/
  | shlN64A32Imm (w : A32Word)
  /-- SHR_N64_A32_IMM (R108): Compact SHR.n64 by imm7. -/
  | shrN64A32Imm (w : A32Word)
  /-- FADD_F32_A32 (R107): Compact FADD.f32 with rounding from $fpmode. -/
  | faddF32A32 (w : A32Word)
  /-- FSUB_F32_A32 (R107): Compact FSUB.f32 with rounding from $fpmode. -/
  | fsubF32A32 (w : A32Word)
  /-- FMUL_F32_A32 (R107): Compact FMUL.f32 with rounding from $fpmode. -/
  | fmulF32A32 (w : A32Word)
  /-- FMIN_F32_A32 (R107): Compact FMIN.f32. -/
  | fminF32A32 (w : A32Word)
  /-- FMAX_F32_A32 (R107): Compact FMAX.f32. -/
  | fmaxF32A32 (w : A32Word)
  /-- FADD_BF16_A32 (R107): Compact FADD.bf16. -/
  | faddBf16A32 (w : A32Word)
  /-- FMUL_BF16_A32 (R107): Compact FMUL.bf16. -/
  | fmulBf16A32 (w : A32Word)
  /-- FADD_F16_A32 (R107): Compact FADD.f16. -/
  | faddF16A32 (w : A32Word)
  /-- FMUL_F16_A32 (R107): Compact FMUL.f16. -/
  | fmulF16A32 (w : A32Word)
  /-- LD_B32_A32 (R107): Compact 4-byte load from Va plus 4 times imm7 on stream 0. -/
  | ldB32A32 (w : A32Word)
  /-- LD_B64_A32 (R107): Compact 8-byte load from Va plus 8 times imm7 on stream 0. -/
  | ldB64A32 (w : A32Word)
  /-- LD_B128_A32 (R107): Compact 16-byte load from Va plus 16 times imm7 on stream 0. -/
  | ldB128A32 (w : A32Word)
  /-- ST_B32_A32 (R107): Compact 4-byte store of Vd to Va plus 4 times imm7 on stream 0. -/
  | stB32A32 (w : A32Word)
  /-- ST_B64_A32 (R107): Compact 8-byte store of Vd to Va plus 8 times imm7 on stream 0. -/
  | stB64A32 (w : A32Word)
  /-- ST_B128_A32 (R107): Compact 16-byte store of Vd to Va plus 16 times imm7 on stream 0. -/
  | stB128A32 (w : A32Word)
  /-- BRA (R133): Direct branch to a bundle at a signed bundle offset for threads whose guard holds. -/
  | bra (w : B32Word)
  /-- BRP (R133): Decrements X3 and branches while it remains non-zero. -/
  | brp (w : B32Word)
  /-- CALL (R137): Pushes the next bundle as link and branches to the target bundle. -/
  | call (w : B32Word)
  /-- BRX (R135): Indirect branch to a space-0 bundle address, with optional landing-pad tag check. -/
  | brx (w : AluWord)
  /-- CALLX (R135): Indirect call that pushes a link and transfers to a checked bundle address. -/
  | callx (w : AluWord)
  /-- RET (R138): Pops the link stack and returns to the linked bundle after checking its REGION. -/
  | ret (w : AluWord)
  /-- PAD (R136): Landing pad carrying a tag; has no effect beyond advancing the PC. -/
  | pad (w : AluWord)
  /-- JSET (R140): Sets the executing lane's bit, or assigns named live lanes, in a rejoin mask. -/
  | jset (w : AluWord)
  /-- JWAIT (R140): Waits until every lane named in a rejoin mask waits at a JWAIT on it. -/
  | jwait (w : AluWord)
  /-- JDROP (R140): Clears the executing lane's bit in a rejoin mask. -/
  | jdrop (w : AluWord)
  /-- EXIT (R143): Ends the thread, clears its rejoin bits and drops its pending loads. -/
  | exit (w : AluWord)
  /-- REGION (R145): Writes the thread's checkpoint slot and sets a new region start. -/
  | region (w : AluWord)
  /-- YIELD (R148): Ends the run and places its threads behind other ready groups of the same priority. -/
  | yield (w : AluWord)
  /-- ELECT (R150): Elects the lowest candidate lane of the member set and makes it the block's leader. -/
  | elect (w : AluWord)
  /-- TRAP (R153): Committing instruction that enters the grid's user handler with a trap frame. -/
  | trap (w : AluWord)
  /-- TRET (R154): Closes the trap frame and restarts the thread from the checkpoint it holds. -/
  | tret (w : AluWord)
  /-- BRK (R155): Stops the thread and freezes its quad when breakpoints are enabled, else acts as NOP. -/
  | brk (w : AluWord)
  /-- SLEEP (R149): Puts the thread to sleep for a count of unfrozen cycles. -/
  | sleep (w : AluWord)
  /-- RDSR (R156): Reads a special register into a V or S register. -/
  | rdsr (w : AluWord)
  /-- WRSR (R157): Writes $fpmode from a register. -/
  | wrsr (w : AluWord)
  /-- RDCLK (R156): Reads $clk into a register. -/
  | rdclk (w : AluWord)
  /-- LAUNCH (R151): Leader reads a launch record and submits one child grid, receiving its launch id. -/
  | launch (w : AsyncWord)
  /-- IADD (R165): Integer add per sub-element, wrapping or saturating. -/
  | iadd (w : AluWord)
  /-- ISUB (R165): Integer subtract per sub-element. -/
  | isub (w : AluWord)
  /-- IADD3 (R165): Three-operand integer add per sub-element. -/
  | iadd3 (w : AluWord)
  /-- IMUL (R165): Integer multiply per sub-element. -/
  | imul (w : AluWord)
  /-- IMULH (R165): Upper half of the exact integer product per sub-element. -/
  | imulh (w : AluWord)
  /-- IMAD (R165): Integer multiply-add per sub-element. -/
  | imad (w : AluWord)
  /-- IMADW (R166): Widening integer multiply-add into double-width sub-elements. -/
  | imadw (w : AluWord)
  /-- IDIV (R165): Truncating integer division per sub-element with defined division by zero. -/
  | idiv (w : AluWord)
  /-- IREM (R165): Integer remainder per sub-element. -/
  | irem (w : AluWord)
  /-- IMIN (R165): Integer minimum per sub-element. -/
  | imin (w : AluWord)
  /-- IMAX (R165): Integer maximum per sub-element. -/
  | imax (w : AluWord)
  /-- ICLAMP (R165): Clamps each sub-element between b and c. -/
  | iclamp (w : AluWord)
  /-- ISAD (R165): Sum of absolute difference plus c per sub-element. -/
  | isad (w : AluWord)
  /-- POPC (R167): Counts set bits per sub-element. -/
  | popc (w : AluWord)
  /-- CLZ (R167): Counts leading zeros per sub-element. -/
  | clz (w : AluWord)
  /-- CTZ (R167): Counts trailing zeros per sub-element. -/
  | ctz (w : AluWord)
  /-- AND (R167): Bitwise AND of 64 bits. -/
  | and (w : AluWord)
  /-- OR (R167): Bitwise OR of 64 bits. -/
  | or (w : AluWord)
  /-- XOR (R167): Bitwise XOR of 64 bits. -/
  | xor (w : AluWord)
  /-- NOT (R167): Bitwise NOT of 64 bits. -/
  | not (w : AluWord)
  /-- ANDN (R167): Bitwise a AND NOT b of 64 bits. -/
  | andn (w : AluWord)
  /-- SHL (R167): Logical left shift per sub-element. -/
  | shl (w : AluWord)
  /-- SHR (R167): Logical right shift per sub-element. -/
  | shr (w : AluWord)
  /-- SHRA (R167): Arithmetic right shift per sub-element. -/
  | shra (w : AluWord)
  /-- ROTL (R167): Left rotate per sub-element. -/
  | rotl (w : AluWord)
  /-- BFX (R168): Extracts a bit field per sub-element. -/
  | bfx (w : AluWord)
  /-- BFI (R168): Inserts a bit field per sub-element. -/
  | bfi (w : AluWord)
  /-- BREV (R167): Reverses bit order per sub-element. -/
  | brev (w : AluWord)
  /-- ICMP (R169): Integer comparison writing a predicate or a mask. -/
  | icmp (w : AluWord)
  /-- SEL (R170): Selects a or b by a predicate. -/
  | sel (w : AluWord)
  /-- PLOP (R170): Sets a predicate from a 4-entry lookup table of two predicates. -/
  | plop (w : AluWord)
  /-- MOV (R171): Copies 64 bits between registers of one form. -/
  | mov (w : AluWord)
  /-- MOVI (R172): Writes a literal, or its upper 32 bits with HI. -/
  | movi (w : AluWord)
  /-- MOVS (R171): Moves a value between thread and squad registers. -/
  | movs (w : AluWord)
  /-- LEA (R173): Adds a scaled index within a tagged pointer's offset field. -/
  | lea (w : AluWord)
  /-- PTRX (R174): Builds or takes apart a tagged pointer. -/
  | ptrx (w : AluWord)
  /-- FADD (R175): Floating-point add rounded once per sub-element. -/
  | fadd (w : AluWord)
  /-- FSUB (R175): Floating-point subtract per sub-element. -/
  | fsub (w : AluWord)
  /-- FMUL (R175): Floating-point multiply per sub-element. -/
  | fmul (w : AluWord)
  /-- FFMA (R175): Fused multiply-add rounded once per sub-element. -/
  | ffma (w : AluWord)
  /-- FMIN (R176): Floating-point minimum propagating NaN. -/
  | fmin (w : AluWord)
  /-- FMAX (R176): Floating-point maximum propagating NaN. -/
  | fmax (w : AluWord)
  /-- FMINN (R176): Floating-point minimum preferring the non-NaN operand. -/
  | fminn (w : AluWord)
  /-- FMAXN (R176): Floating-point maximum preferring the non-NaN operand. -/
  | fmaxn (w : AluWord)
  /-- FCMP (R169): Floating-point comparison writing a predicate or a mask. -/
  | fcmp (w : AluWord)
  /-- FCLASS (R177): Writes the one-hot class of each sub-element. -/
  | fclass (w : AluWord)
  /-- FRND (R178): Rounds each sub-element to an integral value of its format. -/
  | frnd (w : AluWord)
  /-- FDOT2 (R179): Two-term f16 or bf16 dot product accumulated into f32. -/
  | fdot2 (w : AluWord)
  /-- FRCP (R180): Correctly rounded reciprocal. -/
  | frcp (w : AluWord)
  /-- FRSQ (R180): Correctly rounded reciprocal square root. -/
  | frsq (w : AluWord)
  /-- FSQRT (R180): Correctly rounded square root. -/
  | fsqrt (w : AluWord)
  /-- FEXP2 (R180): Correctly rounded base-2 exponential. -/
  | fexp2 (w : AluWord)
  /-- FLOG2 (R180): Correctly rounded base-2 logarithm. -/
  | flog2 (w : AluWord)
  /-- FSIN (R180): Correctly rounded sine. -/
  | fsin (w : AluWord)
  /-- FCOS (R180): Correctly rounded cosine. -/
  | fcos (w : AluWord)
  /-- FTANH (R180): Correctly rounded hyperbolic tangent. -/
  | ftanh (w : AluWord)
  /-- CVT (R181): Converts elements between formats, keeping unwritten slots of a narrowing destination. -/
  | cvt (w : AluWord)
  /-- CVTI (R182): Converts elements with an exact power-of-two scaling from a control literal. -/
  | cvti (w : AluWord)
  /-- PACK (R183): Narrows and packs the elements of two registers, or packs 6-bit elements. -/
  | pack (w : AluWord)
  /-- UNPACK (R183): Widens half-width elements, or unpacks 6-bit elements. -/
  | unpack (w : AluWord)
  /-- QMX (R184): Quantises 32 elements to one MX block with its scale. -/
  | qmx (w : AluWord)
  /-- DQMX (R185): Dequantises one MX block to 32 elements. -/
  | dqmx (w : AluWord)
  /-- SRSEED (R186): Sets the block's stochastic-rounding seed and resets the thread's counter. -/
  | srseed (w : AluWord)
  /-- SHFL (R192): Reads an indexed element of another lane's source, with fallback. -/
  | shfl (w : AluWord)
  /-- SHFLX (R193): Lane exchange with broadcast, up, down or xor indexing. -/
  | shflx (w : AluWord)
  /-- SUBP (R194): Permutes sub-elements of two registers within the thread. -/
  | subp (w : AluWord)
  /-- VOTE (R195): All, any, uniform or ballot vote over the member set. -/
  | vote (w : AluWord)
  /-- LRED (R197): Reduces elements of the member set in the fixed tree order. -/
  | lred (w : AluWord)
  /-- LSCAN (R197): Inclusive or exclusive scan over the member set. -/
  | lscan (w : AluWord)
  /-- MATCH (R196): Writes the mask of contributors whose value matches the thread's own. -/
  | matchLanes (w : AluWord)
  /-- LD (R203): Load of 1 to 64 bytes on an ordering stream. -/
  | ld (w : MemWord)
  /-- ST (R203): Store of 1 to 64 bytes on an ordering stream. -/
  | st (w : MemWord)
  /-- LDW (R204): Per-lane windowed load from one S base. -/
  | ldw (w : MemWord)
  /-- STW (R204): Per-lane windowed store to one S base. -/
  | stw (w : MemWord)
  /-- ATOMC (R206): Atomic compare-exchange returning the old value. -/
  | atomc (w : MemWord)
  /-- RED (R206): Non-returning atomic reduction. -/
  | red (w : MemWord)
  /-- PREF (R211): Brings a line toward L1, L2 or MSC without being an access. -/
  | pref (w : MemWord)
  /-- CJOIN (R213): Enrols the core and block as a member of a die clove. -/
  | cjoin (w : AsyncWord)
  /-- CLEAVE (R213): Withdraws the core and block from a clove. -/
  | cleave (w : AsyncWord)
  /-- ATOM_ADD (R206): Atomic add returning the old value. -/
  | atomAdd (w : MemWord)
  /-- ATOM_SUB (R206): Atomic subtract returning the old value. -/
  | atomSub (w : MemWord)
  /-- ATOM_MIN (R206): Atomic minimum returning the old value. -/
  | atomMin (w : MemWord)
  /-- ATOM_MAX (R206): Atomic maximum returning the old value. -/
  | atomMax (w : MemWord)
  /-- ATOM_AND (R206): Atomic AND returning the old value. -/
  | atomAnd (w : MemWord)
  /-- ATOM_OR (R206): Atomic OR returning the old value. -/
  | atomOr (w : MemWord)
  /-- ATOM_XOR (R206): Atomic XOR returning the old value. -/
  | atomXor (w : MemWord)
  /-- ATOM_EXCH (R206): Atomic exchange returning the old value. -/
  | atomExch (w : MemWord)
  /-- ATOM_FADD (R206): Atomic floating-point add under RNE returning the old value. -/
  | atomFadd (w : MemWord)
  /-- BALLOC (R223): Takes a barrier slot from the quad pool and returns its handle. -/
  | balloc (w : AluWord)
  /-- BREF (R224): Adds a reference to a barrier slot. -/
  | bref (w : AluWord)
  /-- BFREE (R224): Drops a reference, returning the slot to the pool at zero. -/
  | bfree (w : AluWord)
  /-- BEXPECT (R225): Adds expected arrivals and bytes to the current phase. -/
  | bexpect (w : AsyncWord)
  /-- BARRIVE (R226): Adds expected bytes and arrives on a barrier, returning the phase. -/
  | barrive (w : AsyncWord)
  /-- BWAIT (R227): Waits until a barrier phase has completed. -/
  | bwait (w : AsyncWord)
  /-- BTEST (R227): Sets a predicate to whether a barrier phase has completed. -/
  | btest (w : AsyncWord)
  /-- BCOPY (R234): Starts a bulk tensor-box or scratchpad copy crediting a barrier. -/
  | bcopy (w : AsyncWord)
  /-- BGATHER (R239): Starts an indexed gather of embedding table rows into scratchpad. -/
  | bgather (w : AsyncWord)
  /-- BSCATTER (R240): Starts an indexed scatter of scratchpad rows into a table. -/
  | bscatter (w : AsyncWord)
  /-- TRECLD (R236): Reads a tensor record and starts walk-ahead translation of its box. -/
  | trecld (w : AsyncWord)
  /-- TCFG (R241): Writes a tile handle from two S registers. -/
  | tcfg (w : AluWord)
  /-- TINFO (R241): Reads a tile handle into two S registers. -/
  | tinfo (w : AluWord)
  /-- RKACQ (R242): Acquires accumulator banks by count or mask, all or nothing. -/
  | rkacq (w : AluWord)
  /-- RKREL (R243): Releases owned accumulator banks. -/
  | rkrel (w : AluWord)
  /-- MMA (R248): Checks a Reckoner parameter block and passes the command to the sequencer. -/
  | mma (w : AsyncWord)
  /-- RKSTAT (R250): Reads the mask of command ids not in flight. -/
  | rkstat (w : AluWord)
  /-- ACRDR (R244): Reads a row slice of a bank into registers. -/
  | acrdr (w : AluWord)
  /-- ACRDC (R244): Reads a column slice of a bank into registers. -/
  | acrdc (w : AluWord)
  /-- ACWRR (R244): Writes a row slice of a bank from registers. -/
  | acwrr (w : AluWord)
  /-- ACWRC (R244): Writes a column slice of a bank from registers. -/
  | acwrc (w : AluWord)
  /-- RUN_ARBITRATION (R312): At the end of a run the core grants a free issue slot to a ready issue group. -/
  | runArbitration (core slot : Nat)
  /-- STALL_BREAK (R38): A run ends after 256 consecutive cycles without issue. -/
  | stallBreak (core slot : Nat)
  /-- SLEEP_EXPIRY (R149): A sleeping thread's count of unfrozen cycles runs out and it continues. -/
  | sleepExpiry (thr : Nat)
  /-- LOAD_PERFORM (R279): A load's value is bound, its destination written and its bead released. -/
  | loadPerform (acc : Nat)
  /-- STORE_PERFORM (R279): A store takes its coherence place, is performed for its scope and releases its bead. -/
  | storePerform (acc : Nat)
  /-- ATOMIC_PERFORM (R208): An atomic is read and written at the place its address and scope select. -/
  | atomicPerform (acc : Nat)
  /-- PEER_PROBE (R262): A probed L1 answers a peer probe with the line or a miss. -/
  | peerProbe (core line : Nat)
  /-- PAGE_CLASS_TRANSITION (R258): The home slice moves a page between coherence classes, flushing copies first. -/
  | pageClassTransition (ctx va : Nat) (core : Option Nat) (wr : Bool)
  /-- WRITE_NOTICE (R264): A die applies a stamped write notice under hold-back and drops its RDC copy. -/
  | writeNotice (src dst : Nat)
  /-- CLOCK_PROBE (R297): A die answers a clock probe after sending pending notices. -/
  | clockProbe (asker asked : Nat)
  /-- HBM_READ_PACKET (R267): A base die serves a read packet and replies with the sectors. -/
  | hbmReadPacket (stack tag : Nat)
  /-- HBM_WRITE_PACKET (R267): A base die performs a write packet and acknowledges it. -/
  | hbmWritePacket (stack tag : Nat)
  /-- HBM_ATOMIC_PACKET (R268): A base die performs a far atomic packet and returns the old value. -/
  | hbmAtomicPacket (stack tag : Nat)
  /-- PAGE_WALK (R331): A base die reads table entries for a walk, returning the leaf or forwarding the walk. -/
  | pageWalk (walk : Nat)
  /-- OPERAND_LOG_REPLAY (R341): A logged instruction re-translates and performs its access once its page is resident. -/
  | operandLogReplay (acc : Nat)
  /-- FETCH_RETRY (R343): Threads held at a non-resident fetch fetch again once the page is resident. -/
  | fetchRetry (thr : Nat)
  /-- PAGE_MIGRATION (R270): The engine copies a 64 KiB page to a new frame, switches its PTE and unclaims it. -/
  | pageMigration (ctx va : Nat)
  /-- DEMOTION (R270): When free HBM frames fall below the low mark, the engine demotes cold pages. -/
  | demotion (die : Nat)
  /-- COLLAPSE (R272): A write to a duplicated page invalidates all copies before it is performed. -/
  | collapse (ctx va : Nat)
  /-- COLLAPSE_ACK (R272): A holder die drops its copy and acknowledges a collapse invalidate. -/
  | collapseAck (ctx va die : Nat)
  /-- COLLAPSE_TIMEOUT (R450): A silent holder die after two invalidates halts the page's context. -/
  | collapseTimeout (ctx va : Nat)
  /-- CLOVE_LOAD_REQUEST (R273): A clove load reaches its hold slice and joins, opens or waits for a hold, or is a straggler. -/
  | cloveLoadRequest (acc : Nat)
  /-- CLOVE_TIMER_EXPIRY (R215): A hold's timer of 2^e unfrozen cycles expires and releases it. -/
  | cloveTimerExpiry (die clove seq : Nat)
  /-- COPY_COMPLETION (R229): A copy, gather, scatter or TRECLD completes and releases its bead. -/
  | copyCompletion (acc parts : Nat)
  /-- ENGINE_CREDIT (R231): An engine byte credit reaches its barrier slot and is subtracted from BYTES. -/
  | engineCredit (credit : Nat)
  /-- MMA_ACCEPT (R248): The sequencer accepts a command once its ID leaves flight and binds its predecessors. -/
  | mmaAccept (acc : Nat)
  /-- MMA_START (R248): An accepted command starts once its predecessors retired and its bank is free. -/
  | mmaStart (acc : Nat)
  /-- MMA_RETIRE (R249): A command finishes its bank writes, leaves flight and arrives on its DONE barrier. -/
  | mmaRetire (acc : Nat)
  /-- BANK_SWITCH (R324): The arbiter saves the occupant's bank and restores a waiting owner's. -/
  | bankSwitch (quad bank : Nat)
  /-- BANK_HANDOVER (R323): After RKACQ of a non-resident occupant's bank, the old contents are saved and the new owner occupies zeros. -/
  | bankHandover (quad bank : Nat)
  /-- RECKONER_HANG (R461): A command executing or startable without progress for 2^20 cycles declares the Reckoner hung. -/
  | reckonerHang (quad : Nat)
  /-- RECKONER_RESET (R462): A hung Reckoner drops its commands, zeroes its banks and reports lost banks. -/
  | reckonerReset (quad : Nat)
  /-- LAUNCH_ACCEPT (R463): A launch record is checked and the child grid enters its priority queue. -/
  | launchAccept (acc : Nat)
  /-- BLOCK_PLACEMENT (R309): A die places the next block or a restart-list block whole on a quad. -/
  | blockPlacement (die : Nat)
  /-- PROGRESS_SWAP (R316): A core idle for SWAP_IDLE cycles discards a victim block for a waiting block. -/
  | progressSwap (core : Nat)
  /-- CTX_SLICE_EXPIRY (R306): A context's slice on a die expires and it is discarded or given a new slice. -/
  | ctxSliceExpiry (die : Nat)
  /-- SQUAD_DISCARD (R46): Once every live thread is at an eligible point, the squad's state is saved and its slot freed. -/
  | squadDiscard (blk sq : Nat)
  /-- DISCARD_STUCK (R464): A discard not complete after SWAP_IDLE cycles is abandoned or escalated by its cause. -/
  | discardStuck (blk : Nat)
  /-- ASYNC_FAULT_DELIVERY (R410): A held asynchronous fault is taken by its target thread at its next eligible point. -/
  | asyncFaultDelivery (thr : Nat)
  /-- CORE_DUMP_WRITE (R412): After all squads stop, the Supervisor writes frames and the dump and posts CTX_FAULT. -/
  | coreDumpWrite (ctx : Nat)
  /-- QUEUE_LEVEL_RESET (R465): An uncorrectable error in launch queues discards them and halts the context. -/
  | queueLevelReset (ctx : Nat)
  /-- CLAIM (R360): A write to CLAIM makes the master owner when the control plane is unowned. -/
  | claim (master : Nat)
  /-- HANDOVER (R360): The owner writes HANDOVER with GO to offer ownership to a target. -/
  | handover (master : Nat) (value : Word)
  /-- ACCEPT (R360): The target of a pending handover accepts and becomes owner. -/
  | accept (master : Nat)
  /-- EVENT_QUEUE_POST (R359): A waiting event is written to a master's queue once it has a free entry. -/
  | eventQueuePost (page : Nat)
  /-- CTX_START (R362): Reads a context descriptor and root record, creates the context and queues its root grid. -/
  | ctxStart (page : Nat)
  /-- CTX_STOP (R363): Discards every block of the context and frees its resources. -/
  | ctxStop (page : Nat)
  /-- MAP (R477): Writes a leaf PTE, allotting tables, and resolves DEMAND reports for the page. -/
  | map (page : Nat)
  /-- UNMAP (R364): Clears V of a range of pages with a shootdown. -/
  | unmap (page : Nat)
  /-- UNRESOLVABLE (R436): Declares a pending demand report unresolvable so its entries fault at replay. -/
  | unresolvable (page : Nat)
  /-- HOLD_ENTER (R371): Sets HOLDSTAT[CMD], requesting Hold. -/
  | holdEnter (page : Nat)
  /-- HOLD_EXIT (R371): Clears HOLDSTAT[CMD]. -/
  | holdExit (page : Nat)
  /-- QUERY (R359): Posts a QUERY_RESULT event for a context, and copies its dump when asked. -/
  | query (page : Nat)
  /-- POWER_CAP (R15): Sets the module power cap, which lowers ACLK. -/
  | powerCap (page : Nat)
  /-- HOST_READ (R358): A host read through BAR2 is performed at the home L2 slice. -/
  | hostRead (pa size : Nat)
  /-- HOST_WRITE (R358): A host posted write through BAR2 is performed as a sys-scope write. -/
  | hostWrite (pa size value : Nat)
  /-- HOST_ATOMIC (R357): A host FetchAdd, Swap or CAS on BAR2 is performed atomically. -/
  | hostAtomic (op : HostOp) (pa size value compare : Nat)
  /-- HOST_ACCESS_COMPLETION (R279): A completion for a device access to host memory arrives over the link. -/
  | hostAccessCompletion (acc status : Nat)
  /-- SPACE4_REQUEST (R365): A space-4 access arrives at a package and is performed in its export context. -/
  | space4Request (req : RemoteReq)
  /-- SPACE4_ACK (R366): The acknowledgement of a space-4 access arrives, performing it or reporting a refusal. -/
  | space4Ack (acc value : Nat) (refusal : Option Nat)
  /-- LINK_TIMEOUT (R466): A space-4 access with no acknowledgement after 10 ms raises LINK_TIMEOUT. -/
  | linkTimeout (acc : Nat)
  /-- HOLD_ENTRY_OVERRUN (R468): A Hold entry step overruns its bound, or the entry limit forces resets and aborts. -/
  | holdEntryOverrun (step : Nat)
  /-- HOLD_EXITED (R372): Memory leaves self-refresh, blocks are placed again and HOLD_EXITED is posted. -/
  | holdExited (failed : Option Nat)
  /-- DEBUG_ATTACH (R375): A DCTL write naming a context attaches a debug session or sets DENIED. -/
  | debugAttach (value : Word)
  /-- DEBUG_DETACH (R375): A DCTL write of CTX 0 detaches the session, ending freezes and closing the sink. -/
  | debugDetach (value : Word)
  /-- DCMD_FREEZE (R377): A FREEZE command raises a stop on a quad. -/
  | dcmdFreeze (quad : Nat)
  /-- DCMD_RESUME (R383): A RESUME command ends the freeze of a whole set. -/
  | dcmdResume (quad : Nat)
  /-- DCMD_STEP (R384): A STEP command runs one squad of a frozen quad for a count of instructions. -/
  | dcmdStep (quad rank slot count : Nat)
  /-- PC_SAMPLE (R388): Each counting core writes a SAMPLE record every 2^(SPER+8) cycles. -/
  | pcSample (core : Nat)
  /-- REGISTER_WRITE (R4): A write to a control-page or debug-window register without behaviour of its own stores the value. -/
  | registerWrite (target : RegTarget) (offset size value : Nat)
  /-- ILLEGAL_OPCODE (R419): A word at a thread's PC that does not decode, an unassigned A32, B32 or 64-bit opcode, 0xFF, or an instruction running past word 15, raises ILLEGAL_OPCODE. -/
  | illegalOpcode (opc page : Nat) (past : Bool)
  /-- RESERVED_FIELD (R108): An A32 word with OPC 0x00 and another field non-zero, MOV with B non-zero, or MOVI with A non-zero raises RESERVED_FIELD. -/
  | reservedField (word bit : Nat)
  /-- MBOX_UNKNOWN_CODE (R361): A mailbox write whose CODE is not in Table 16.3 completes with REFUSED and changes nothing. -/
  | mboxUnknownCode (page : Nat)
  /-- BARRIER_UPDATE (R221): A BEXPECT, BARRIVE or BTEST update or read reaches the barrier unit of the handle's quad and is applied or refused there. -/
  | barrierUpdate (acc : Nat)
  /-- CLOVE_TABLE_UPDATE (R213): A CJOIN or CLEAVE reaches the die's clove table, is recorded or found mismatched, and its bead is released. -/
  | cloveTableUpdate (acc : Nat)
  /-- COLLAPSE_RESEND (R450): When a holder die has not acknowledged a collapse invalidate within 2^20 counted cycles, the home slice sends the invalidate a second time. -/
  | collapseResend (ctx va die : Nat)
  /-- HOLD_REQ (R371): The HOLD_REQ pin is asserted or deasserted after debounce. -/
  | holdReq (asserted : Bool)
  /-- LINK_DEGRADED (R466): A Krovlink port retrains, loses lanes or goes down. -/
  | linkDegraded (port lanes : Nat)
  /-- TDI_LEAVE_RUN (R368): A bound TDI leaves RUN and the context's keys are destroyed. -/
  | tdiLeaveRun (vf : Nat)
  /-- IDE_INTEGRITY_FAILURE (R467): An IDE integrity check fails on a TDI's stream, destroying keys and halting the context. -/
  | ideIntegrityFailure (vf : Nat)
  /-- SPDM_MESSAGE (R370): The device answers an SPDM or TDISP message over DOE or MCTP. -/
  | spdmMessage (req : SpdmReq)
  /-- FIRMWARE_STAGE (R369): A firmware image is staged in the inactive slot and verified. -/
  | firmwareStage (image : FirmwareImage)
  /-- SCRUB (R453): Periodic scrub of a memory sector corrects or poisons it. -/
  | scrub (err : SoftError)
  /-- HOST_LINK_TRAINED (R357): The PCIe host link trains, at a full or lowered width and rate, and becomes usable again. -/
  | hostLinkTrained (width rate : Nat)
  /-- MIGRATION_EPOCH_END (R270): At each epoch of 2^20 cycles the migration engine promotes and duplicates pages by count. -/
  | migrationEpochEnd
  /-- HANDOVER_LAPSE (R360): A handover not accepted within 100 ms lapses. -/
  | handoverLapse
  /-- HOST_LINK_DOWN (R466): The host link goes down and every outstanding host access fails. -/
  | hostLinkDown
  /-- MODULE_RESET (R369): Module reset verifies and boots firmware and resets all state. -/
  | moduleReset
  /-- HOLD_ENTERED (R371): Write-back and self-refresh finish, power is gated and HOLD_ENTERED is posted. -/
  | holdEntered
  /-- POWER_EXCURSION (R469): A draw above the cap for more than 1 ms lowers ACLK further. -/
  | powerExcursion
  /-- TRACE_RECORD_WRITE (R390): The sink writes a buffered record into a free ring slot and advances TRTAIL. -/
  | traceRecordWrite
deriving DecidableEq, Repr

end Sys2Proof
end

