-- ==== Sys2Proof/WellFormed.lean ====
section
/-! DEFINITION. Which field values an instruction may carry: Tables 6.1, 7.1, 8.1, 8.5, 8.9, 9.1 and 9.2, and the lists of 19 R420.
A violation is named by its word (0 to 2) and by the lowest bit of the offending field, as DETAIL of RESERVED_FIELD names it. -/

namespace Sys2Proof

/-- A field found at fault: word and lowest bit (Table 19.1, DETAIL of RESERVED_FIELD). -/
structure Violation where
  word : Nat
  bit : Nat
deriving DecidableEq, Repr

/-- One check of a field: the violation it names when `bad` holds. -/
def check (bad : Bool) (word bit : Nat) : List Violation :=
  if bad then [⟨word, bit⟩] else []

/-- How an instruction uses one 9-bit register field. -/
inductive FieldUse where
  /-- Written as zero. -/
  | zero
  /-- A register read, in thread form or, with SQ, in squad form. -/
  | reg
  /-- A register written, in thread form or, with SQ, in squad form. -/
  | dest
  /-- The low `k` bits are used, the rest are zero. -/
  | low (k : Nat)
  /-- A fixed squad-form field that is read: codes 0 to 71 (R60). -/
  | sqRead
  /-- A fixed squad-form field that is written, or the base of a range: codes 0 to 63. -/
  | sqWrite
  /-- Any value; the entry's own checks apply. -/
  | any
deriving DecidableEq, Repr

/-- The checks of a register field that stands at bit `pos` of word `word`. -/
def FieldUse.check (u : FieldUse) (f : BitVec 9) (sq indirect : Bool) (word pos : Nat) : List Violation :=
  match u with
  | .zero => Sys2Proof.check (f != 0) word pos
  | .reg => Sys2Proof.check (sq && !indirect && decide (71 < f.toNat)) word pos
  | .dest => Sys2Proof.check (sq && !indirect && decide (63 < f.toNat)) word pos
  | .low k => Sys2Proof.check (decide (2 ^ k ≤ f.toNat)) word (pos + k)
  | .sqRead => Sys2Proof.check (!indirect && decide (71 < f.toNat)) word pos
  | .sqWrite => Sys2Proof.check (decide (63 < f.toNat)) word pos
  | .any => []

/-- How an instruction uses the literal (R112). -/
inductive LitUse where
  | never | may | must
deriving DecidableEq, Repr

/-- The row of a use table for an opcode of ALU class. `tys` has bit `t` set when TYPE `t` is permitted. -/
structure AluUse where
  d : FieldUse
  a : FieldUse
  b : FieldUse
  c : FieldUse
  tys : Nat := 1
  rnd : Bool := false
  sat : Bool := false
  sq : Bool := false
  ind : Bool := false
  lit : LitUse := .never
deriving Repr

/-- The checks every opcode of ALU class has (R111, R112, R420). -/
def AluUse.violations (u : AluUse) (w : AluWord) : List Violation :=
  u.d.check w.d w.sq false 0 14 ++ u.a.check w.a w.sq w.ind 0 23 ++
  (if w.lit.isSome then Sys2Proof.check (w.b != 0) 1 0 else u.b.check w.b w.sq false 1 0) ++
  u.c.check w.c w.sq false 1 9 ++
  Sys2Proof.check (!u.tys.testBit w.ty.toNat) 1 18 ++
  Sys2Proof.check (if u.rnd then w.rnd == 7 else w.rnd != 0) 1 22 ++
  Sys2Proof.check (w.sat && !u.sat) 1 25 ++
  Sys2Proof.check (w.sq && !u.sq) 1 26 ++
  Sys2Proof.check (w.ind && !u.ind) 1 27 ++
  Sys2Proof.check (!w.ind && w.xs != 0) 1 28 ++
  Sys2Proof.check (match u.lit with | .never => w.lit.isSome | .may => false | .must => w.lit.isNone) 1 30 ++
  Sys2Proof.check w.rsv 1 31

/-- Integer types 0 to 7, floating types 8 to 11, and both. -/
def intTypes : Nat := 0xFF
def floatTypes : Nat := 0xF00
def allTypes : Nat := 0xFFF

/-- Rows of Table 7.1 that several opcodes share. -/
def useAB (tys : Nat) (sat : Bool) : AluUse :=
  { d := .dest, a := .reg, b := .reg, c := .zero, tys := tys, sat := sat, sq := true, ind := true, lit := .may }
def useABC (tys : Nat) (sat : Bool) : AluUse := { useAB tys sat with c := .reg }
def useA (tys : Nat) : AluUse := { useAB tys false with b := .zero, lit := .never }
def useFloatAB : AluUse := { useAB floatTypes false with rnd := true }
def useFloatA (tys : Nat) : AluUse := { useA tys with rnd := true }

/-- Rows of Table 8.1: lane instructions with a member mask in C. -/
def useLane : AluUse :=
  { d := .any, a := .any, b := .any, c := .sqRead, tys := allTypes, ind := true, lit := .may }

/-- Rows of Table 6.1 and 9.1 with every field zero but those given. -/
def useZero : AluUse := { d := .zero, a := .zero, b := .zero, c := .zero }

/-- C field of ICMP and FCMP (Table 7.5). -/
def compareViolations (w : AluWord) (codes : Nat) : List Violation :=
  let cond := w.c.toNat % 8
  let red := w.c.toNat / 8 % 4
  let mask := w.c.toNat / 32 % 2 = 1
  Sys2Proof.check (decide (codes ≤ cond)) 1 9 ++
  Sys2Proof.check (red == 3 || (mask && red != 0)) 1 12 ++
  Sys2Proof.check (decide (64 ≤ w.c.toNat)) 1 15 ++
  (if mask then FieldUse.dest.check w.d w.sq false 0 14 else (FieldUse.low 3).check w.d w.sq false 0 14)

/-- The width of a format in bits (Tables 4.1 to 4.3); the formats of 6 bits have 6. -/
def formatBits (code : Nat) : Nat :=
  match code with
  | 0x00 | 0x01 => 8 | 0x02 | 0x03 => 16 | 0x04 | 0x05 => 32 | 0x06 | 0x07 => 64
  | 0x08 | 0x09 => 16 | 0x0A => 32 | 0x0B => 64 | 0x0C | 0x0D => 8 | 0x0E | 0x0F => 6
  | 0x10 => 4 | 0x11 => 8 | 0x12 | 0x13 => 4 | 0x14 | 0x15 => 8 | 0x16 | 0x17 => 6 | 0x18 => 4 | 0x19 => 8
  | _ => 8

/-- The width a format takes inside a register in CVT: 6-bit formats count as 8 (R181). -/
def formatSlot (code : Nat) : Nat := if formatBits code = 6 then 8 else formatBits code

/-- True for the integer formats of Table 4.1. -/
def formatIsInt (code : Nat) : Bool := decide (code ≤ 7) || code == 0x12 || code == 0x13

/-- The number of elements one CVT converts (R181). -/
def cvtCount (dst src : Nat) : Nat := 64 / max (formatSlot src) (formatSlot dst)

/-- Formats, PART and SAT of CVT and CVTI (R181, R182); `df`, `sf`, `pf` are word and bit of the three fields. -/
def cvtViolations (dst src part : Nat) (sat : Bool) (df sf pf : Nat × Nat) : List Violation :=
  Sys2Proof.check (decide (0x13 < dst)) df.1 df.2 ++ Sys2Proof.check (decide (0x13 < src)) sf.1 sf.2 ++
  Sys2Proof.check (decide (64 / min (formatSlot src) (formatSlot dst) < (part + 1) * cvtCount dst src)) pf.1 pf.2 ++
  Sys2Proof.check (sat && !(formatIsInt dst && formatIsInt src)) 1 25

/-- The literal of CVTI (Table 7.9). -/
def cvtiViolations (w : AluWord) : List Violation :=
  match w.lit with
  | none => []
  | some l =>
    let l := l.toNat
    cvtViolations (l % 32) (l / 32 % 32) (l / 1024 % 16) w.sat (2, 0) (2, 5) (2, 10) ++
    Sys2Proof.check (l / 2 ^ 22 != 0) 2 22

/-- OP, TYPE, RND and SAT of LRED and LSCAN (Table 8.1); `top` is the first reserved bit of B. -/
def reduceViolations (w : AluWord) (top : Nat) : List Violation :=
  let op := w.b.toNat % 16
  Sys2Proof.check (decide (8 < op)) 1 0 ++ Sys2Proof.check (decide (2 ^ top ≤ w.b.toNat)) 1 top ++
  Sys2Proof.check (if op < 6 then decide (7 < w.ty.toNat) else decide (w.ty.toNat < 8)) 1 18 ++
  Sys2Proof.check (op != 6 && w.rnd != 0) 1 22 ++ Sys2Proof.check (op != 0 && w.sat) 1 25

/-- The violations of an instruction of ALU class: its row of the use table, then its entry's own limits. -/
def AluWord.violations (u : AluUse) (w : AluWord) (more : List Violation := []) : List Violation :=
  u.violations w ++ more

/-- The row of a use table for an opcode of memory class (Table 8.5). -/
structure MemUse where
  d : FieldUse
  a : FieldUse
  baseSq : Bool := false
  sizes : Nat
  scopes : Nat
  ro : Bool
  ordered : Bool := true
  sq : Bool := false
  ind : Bool := true

/-- The checks every opcode of memory class has. -/
def MemUse.violations (u : MemUse) (w : MemWord) : List Violation :=
  u.d.check w.d w.sq w.ind 0 14 ++ u.a.check w.a false false 0 23 ++
  (if u.baseSq then FieldUse.sqRead.check w.base w.sq false 1 0 else FieldUse.reg.check w.base w.sq false 1 0) ++
  Sys2Proof.check (!u.sizes.testBit w.size.toNat) 1 9 ++
  Sys2Proof.check (!u.scopes.testBit w.scope.toNat) 1 12 ++
  Sys2Proof.check (w.ro && !u.ro) 1 15 ++
  Sys2Proof.check (!u.ordered && w.strm != 0) 1 16 ++ Sys2Proof.check (!u.ordered && w.pred != 0) 1 19 ++
  Sys2Proof.check (w.sq && !u.sq) 1 27 ++ Sys2Proof.check (w.ind && !u.ind) 1 28 ++
  Sys2Proof.check (!w.ind && w.xs != 0) 1 29

/-- Rows of Table 8.5. -/
def useLoad (d : FieldUse) (ro window : Bool) : MemUse :=
  { d := d, a := .zero, baseSq := window, sizes := 0x7F, scopes := 0x7F, ro := ro, sq := !window }
def useAtom : MemUse := { d := .dest, a := .reg, sizes := 0x0C, scopes := 0x7E, ro := false }

/-- SIZE and VAR of the atomic operations (Table 8.7): `op` is the operation code, 8 for FADD. -/
def atomTypeViolations (op : Nat) (size : BitVec 3) (var : Bool) : List Violation :=
  if op = 8 then
    Sys2Proof.check (!(0x0E : Nat).testBit size.toNat || (var && size != 1)) 1 9
  else
    Sys2Proof.check (!(0x0C : Nat).testBit size.toNat) 1 9 ++
    Sys2Proof.check (var && op != 2 && op != 3) 1 15

/-- The violations of an ATOM of operation `op`. -/
def atomViolations (op : Nat) (w : MemWord) : List Violation :=
  ({ useAtom with sizes := 0x0E, ro := true } : MemUse).violations w ++ atomTypeViolations op w.size w.ro

/-- The row of a use table for an opcode of async class (Tables 8.9 and 9.2). `mods` is the number of low bits of MOD in use. -/
structure AsyncUse where
  d : FieldUse
  a : FieldUse
  b : FieldUse
  c : FieldUse
  mods : Nat := 0

/-- The checks every opcode of async class has. -/
def AsyncUse.violations (u : AsyncUse) (w : AsyncWord) : List Violation :=
  u.d.check w.d false false 0 14 ++ u.a.check w.a false false 0 23 ++ u.b.check w.b false false 1 0 ++
  u.c.check w.c false false 1 9 ++ Sys2Proof.check (decide (2 ^ u.mods ≤ w.md.toNat)) 1 (29 + u.mods)

/-- The violations of an instruction: the fields that 19 R420 makes RESERVED_FIELD of. An event has none. -/
def Instr.violations (i : Instr) : List Violation :=
  match i with
  | .movA32 w => Sys2Proof.check (w.b != 0) 0 25
  | .moviI64A32 w => Sys2Proof.check (w.a != 0) 0 17
  -- 06 Table 6.1
  | .brx w | .callx w => AluWord.violations { useZero with a := .reg, b := .any, sq := true } w
  | .ret w | .exit w | .yield w | .tret w => AluWord.violations useZero w
  | .pad w => AluWord.violations { useZero with b := .low 8 } w
  | .jset w => AluWord.violations { useZero with d := .low 3, a := if w.b.getLsbD 0 then .sqRead else .zero, b := .low 1 } w
  | .jwait w | .jdrop w => AluWord.violations { useZero with d := .low 3 } w
  | .region w =>
    AluWord.violations { useZero with a := .any, b := .any, c := .low 7 } w (Sys2Proof.check (w.g != 7) 0 10 ++ Sys2Proof.check w.n 0 13)
  | .elect w => AluWord.violations { useZero with d := .low 3, a := .sqRead } w
  | .trap w | .brk w => AluWord.violations { useZero with b := .any, c := .low 7 } w
  | .sleep w => AluWord.violations { useZero with b := .reg, sq := true, lit := .may } w
  | .rdsr w =>
    AluWord.violations { useZero with d := .dest, b := .low 8, sq := true } w (Sys2Proof.check (decide (0x10 ≤ w.b.toNat % 256)) 1 0)
  | .wrsr w =>
    AluWord.violations { useZero with a := .reg, b := .low 8, sq := true } w (Sys2Proof.check (decide (1 ≤ w.b.toNat % 256)) 1 0)
  | .rdclk w => AluWord.violations { useZero with d := .dest, sq := true } w
  -- 07 Table 7.1
  | .iadd w | .isub w | .imul w | .idiv w => AluWord.violations (useAB intTypes true) w
  | .iadd3 w | .imad w | .isad w => AluWord.violations (useABC intTypes true) w
  | .imadw w => AluWord.violations (useABC 0x3F true) w
  | .imulh w | .irem w | .imin w | .imax w => AluWord.violations (useAB intTypes false) w
  | .iclamp w => AluWord.violations (useABC intTypes false) w
  | .and w | .or w | .xor w | .andn w | .shl w | .shr w | .shra w | .rotl w => AluWord.violations (useAB intTypes false) w
  | .popc w | .clz w | .ctz w | .not w | .brev w => AluWord.violations (useA intTypes) w
  | .bfx w => AluWord.violations (useAB intTypes false) w
  | .bfi w => AluWord.violations (useABC intTypes false) w
  | .icmp w => AluWord.violations { useAB intTypes false with d := .any, c := .any } w (compareViolations w 6)
  | .sel w => AluWord.violations { useAB intTypes false with c := .low 4 } w
  | .plop w => AluWord.violations { useZero with d := .low 3, a := .low 3, b := .low 3, c := .low 4 } w
  | .mov w => AluWord.violations (useA intTypes) w
  | .movi w =>
    AluWord.violations { useZero with d := .dest, c := .low 1, tys := allTypes, sq := true, lit := .must } w
      (Sys2Proof.check (w.c.getLsbD 0 && w.ty != 7) 1 9)
  | .movs w =>
    if w.c.getLsbD 0 then AluWord.violations { useZero with d := .sqWrite, a := .any, c := .low 1, ind := true } w
    else AluWord.violations { useZero with d := .any, a := .sqRead, c := .low 1, ind := true } w
  | .lea w => AluWord.violations { useAB 0xF0 false with c := .low 3 } w
  | .ptrx w =>
    let op := w.c.toNat % 8
    let two := op = 2 || op = 3
    AluWord.violations { useAB 0x80 false with b := if two then .reg else .zero, c := .low 3, lit := if two then .may else .never } w
      (Sys2Proof.check (op == 7) 1 9)
  | .fadd w | .fsub w | .fmul w => AluWord.violations useFloatAB w
  | .ffma w => AluWord.violations { useFloatAB with c := .reg } w
  | .fmin w | .fmax w | .fminn w | .fmaxn w => AluWord.violations (useAB floatTypes false) w
  | .fcmp w => AluWord.violations { useAB floatTypes false with d := .any, c := .any } w (compareViolations w 8)
  | .fclass w => AluWord.violations (useA floatTypes) w
  | .frnd w => AluWord.violations (useFloatA floatTypes) w
  | .fdot2 w => AluWord.violations { useFloatAB with c := .reg, tys := 0x300 } w
  | .frcp w | .frsq w | .fsqrt w | .fexp2 w | .flog2 w | .fsin w | .fcos w | .ftanh w =>
    AluWord.violations (useFloatA 0x700) w
  | .cvt w =>
    AluWord.violations { useFloatA 1 with b := .low 5, c := .any, sat := true } w
      (cvtViolations (w.b.toNat % 32) (w.c.toNat % 32) (w.c.toNat / 32) w.sat (1, 0) (1, 9) (1, 14))
  | .cvti w => AluWord.violations { useFloatA 1 with sat := true, lit := .must } w (cvtiViolations w)
  | .pack w =>
    if w.c.getLsbD 0 then AluWord.violations { useA 2 with c := .low 1 } w
    else AluWord.violations { useAB intTypes true with c := .low 1 } w
  | .unpack w =>
    AluWord.violations { useA (if w.c.getLsbD 0 then 2 else intTypes) with c := .low 2 } w
      (Sys2Proof.check (w.c.getLsbD 0 && w.c.getLsbD 1) 1 10)
  | .qmx w | .dqmx w =>
    AluWord.violations { useFloatA 0x700 with b := .low 5, sq := false } w
      (Sys2Proof.check (decide (w.b.toNat % 32 < 0x14 ∨ 0x19 < w.b.toNat % 32)) 1 0)
  | .srseed w => AluWord.violations { useZero with a := .reg, sq := true, ind := true } w
  -- 08 Table 8.1
  | .shfl w => AluWord.violations useLane w
  | .shflx w => AluWord.violations useLane w (Sys2Proof.check (match w.lit with | some l => decide (2 ^ 18 ≤ l.toNat) | none => false) 2 18)
  | .subp w => AluWord.violations { useLane with c := .any } w
  | .vote w =>
    AluWord.violations { useLane with d := if w.b.toNat % 4 = 3 then .any else .low 3, a := .low 4, b := .low 2, tys := 1, ind := false,
                                      lit := .never } w
  | .lred w => AluWord.violations { useLane with rnd := true, sat := true, lit := .never } w (reduceViolations w 4)
  | .lscan w => AluWord.violations { useLane with rnd := true, sat := true, lit := .never } w (reduceViolations w 5)
  | .matchLanes w => AluWord.violations { useLane with b := .zero, lit := .never } w
  -- 08 Table 8.5
  | .ld w => (useLoad .dest true false).violations w
  | .st w => (useLoad .dest false false).violations w
  | .ldw w => (useLoad .dest true true).violations w
  | .stw w => (useLoad .dest false true).violations w
  | .atomc w => useAtom.violations w
  | .red w =>
    ({ useAtom with d := .any, sizes := 0x0E, ro := true, ind := false } : MemUse).violations w ++
    Sys2Proof.check (w.d == 7 || decide (8 < w.d.toNat)) 0 14 ++ atomTypeViolations w.d.toNat w.size w.ro
  | .pref w =>
    ({ d := .zero, a := .zero, sizes := 1, scopes := 0x49, ro := true, ordered := false, ind := false } : MemUse).violations w
  | .atomAdd w => atomViolations 0 w
  | .atomSub w => atomViolations 1 w
  | .atomMin w => atomViolations 2 w
  | .atomMax w => atomViolations 3 w
  | .atomAnd w => atomViolations 4 w
  | .atomOr w => atomViolations 5 w
  | .atomXor w => atomViolations 6 w
  | .atomExch w => atomViolations 7 w
  | .atomFadd w => atomViolations 8 w
  -- 06 R151, 08 Table 8.9
  | .launch w => AsyncUse.violations { d := .reg, a := .reg, b := .zero, c := .zero } w
  | .cjoin w =>
    if w.md.getLsbD 0 then AsyncUse.violations { d := .zero, a := .sqRead, b := .sqRead, c := .zero, mods := 1 } w
    else AsyncUse.violations { d := .zero, a := .low 6, b := .any, c := .zero, mods := 1 } w ++
      Sys2Proof.check (decide (w.b.toNat < 1 ∨ 192 < w.b.toNat)) 1 0
  | .cleave w =>
    AsyncUse.violations { d := .zero, a := if w.md.getLsbD 0 then .sqRead else .low 6, b := .zero, c := .zero, mods := 1 } w
  -- 09 Tables 9.1 and 9.2
  | .balloc w => AluWord.violations { useZero with d := .sqWrite, a := .low 3, b := .sqRead, lit := .may } w
  | .bref w | .bfree w => AluWord.violations { useZero with a := .sqRead } w
  | .bexpect w => AsyncUse.violations { d := .zero, a := .sqRead, b := .sqRead, c := .sqRead } w
  | .barrive w =>
    AsyncUse.violations { d := .reg, a := .sqRead, b := .sqRead, c := if w.md.getLsbD 0 then .sqRead else .zero, mods := 1 } w
  | .bwait w => AsyncUse.violations { d := .zero, a := .sqRead, b := .reg, c := .zero } w
  | .btest w => AsyncUse.violations { d := .low 3, a := .sqRead, b := .reg, c := .zero } w
  | .bcopy w =>
    AsyncUse.violations { d := .sqRead, a := .reg, b := .reg, c := .reg, mods := 3 } w ++
    Sys2Proof.check (w.md.toNat % 4 == 3) 1 29 ++ Sys2Proof.check (w.md.toNat / 4 == 1 && w.md.toNat % 4 != 0) 1 31
  | .bgather w => AsyncUse.violations { d := .sqRead, a := .reg, b := .reg, c := .reg } w
  | .bscatter w => AsyncUse.violations { d := .sqRead, a := .reg, b := .reg, c := .reg, mods := 1 } w
  | .trecld w => AsyncUse.violations { d := .zero, a := .reg, b := .zero, c := .reg } w
  | .tcfg w => AluWord.violations { useZero with d := .low 4, a := .sqWrite } w
  | .tinfo w => AluWord.violations { useZero with d := .sqWrite, b := .low 4 } w
  | .rkacq w => AluWord.violations { useZero with d := .sqWrite, a := .low 3, b := .sqRead, c := .low 1, lit := .may } w
  | .rkrel w => AluWord.violations { useZero with a := .sqRead } w
  | .mma w => AsyncUse.violations { d := .zero, a := .sqWrite, b := .zero, c := .zero } w
  | .rkstat w => AluWord.violations { useZero with d := .dest, sq := true } w
  | .acrdr w | .acrdc w | .acwrr w | .acwrc w =>
    AluWord.violations { useZero with d := .any, a := .any, b := .low 4, c := .low 3, ind := true } w (Sys2Proof.check (w.xs != 0) 1 28)
  | _ => []

/-- The violation that RESERVED_FIELD names: the lowest word, and in it the lowest bit (R420). -/
def firstViolation : List Violation → Option Violation
  | [] => none
  | v :: vs =>
    match firstViolation vs with
    | none => some v
    | some u => if v.word * 32 + v.bit ≤ u.word * 32 + u.bit then some v else some u

/-- An instruction that has words (the rows of 05 to 09), not an event. -/
def Instr.wordCount (i : Instr) : Nat :=
  match i with
  | .nop => 1
  | .movA32 _ | .moviI64A32 _ | .iaddI32A32 _ | .iaddI32A32Imm _ | .iaddI64A32 _ | .iaddI64A32Imm _ | .isubI32A32 _
  | .isubI64A32 _ | .imulI32A32 _ | .imulI32A32Imm _ | .iminI32A32 _ | .imaxI32A32 _ | .andN64A32 _ | .andN64A32Imm _
  | .orN64A32 _ | .xorN64A32 _ | .shlN32A32Imm _ | .shrN32A32Imm _ | .shraI32A32Imm _ | .shlN64A32Imm _ | .shrN64A32Imm _
  | .faddF32A32 _ | .fsubF32A32 _ | .fmulF32A32 _ | .fminF32A32 _ | .fmaxF32A32 _ | .faddBf16A32 _ | .fmulBf16A32 _
  | .faddF16A32 _ | .fmulF16A32 _ | .ldB32A32 _ | .ldB64A32 _ | .ldB128A32 _ | .stB32A32 _ | .stB64A32 _ | .stB128A32 _
  | .bra _ | .brp _ | .call _ => 1
  | .brx w | .callx w | .ret w | .pad w | .jset w | .jwait w | .jdrop w | .exit w | .region w | .yield w | .elect w
  | .trap w | .tret w | .brk w | .sleep w | .rdsr w | .wrsr w | .rdclk w | .iadd w | .isub w | .iadd3 w | .imul w | .imulh w
  | .imad w | .imadw w | .idiv w | .irem w | .imin w | .imax w | .iclamp w | .isad w | .popc w | .clz w | .ctz w | .and w
  | .or w | .xor w | .not w | .andn w | .shl w | .shr w | .shra w | .rotl w | .bfx w | .bfi w | .brev w | .icmp w | .sel w
  | .plop w | .mov w | .movi w | .movs w | .lea w | .ptrx w | .fadd w | .fsub w | .fmul w | .ffma w | .fmin w | .fmax w
  | .fminn w | .fmaxn w | .fcmp w | .fclass w | .frnd w | .fdot2 w | .frcp w | .frsq w | .fsqrt w | .fexp2 w | .flog2 w
  | .fsin w | .fcos w | .ftanh w | .cvt w | .cvti w | .pack w | .unpack w | .qmx w | .dqmx w | .srseed w | .shfl w
  | .shflx w | .subp w | .vote w | .lred w | .lscan w | .matchLanes w | .balloc w | .bref w | .bfree w | .tcfg w | .tinfo w
  | .rkacq w | .rkrel w | .rkstat w | .acrdr w | .acrdc w | .acwrr w | .acwrc w => if w.lit.isSome then 3 else 2
  | .ld w | .st w | .ldw w | .stw w | .atomc w | .red w | .pref w | .atomAdd w | .atomSub w | .atomMin w | .atomMax w
  | .atomAnd w | .atomOr w | .atomXor w | .atomExch w | .atomFadd w => if w.lit.isSome then 3 else 2
  | .launch _ | .cjoin _ | .cleave _ | .bexpect _ | .barrive _ | .bwait _ | .btest _ | .bcopy _ | .bgather _ | .bscatter _
  | .trecld _ | .mma _ => 2
  | _ => 0

/-- An instruction the decoder may answer: it has words, and no field of it is reserved. -/
def Instr.WellFormed (i : Instr) : Bool := i.wordCount != 0 && i.violations.isEmpty

end Sys2Proof
end

