-- ==== Sys2Proof/Decode.lean ====
section
/-! DEFINITION. From words to instructions and back (05). `decode` is total: it answers an instruction and its length, or the name of the
fault of Table 5.15. `encode` is written from the same tables. Words are naturals below 2^32, little-endian in memory (R3). -/

namespace Sys2Proof

/-- Why bytes are no instruction (Table 5.15, orders 1 and 2; DETAIL of Table 19.1). -/
inductive DecodeError where
  /-- `opc` the opcode, `page` 0 A32, 1 B32, 2 64-bit, `past` the instruction runs past word 15. -/
  | illegalOpcode (opc page : Nat) (past : Bool)
  /-- The first violation of R420. -/
  | reservedField (v : Violation)
  /-- Fewer bytes than one word: no word 15 to run past, the caller gave none. -/
  | noWord
deriving DecidableEq, Repr

/-- Table 5.4 without NOP. -/
def a32Opcode : Nat → Option (A32Word → Instr)
  | 0x01 => some .movA32
  | 0x02 => some .moviI64A32
  | 0x03 => some .iaddI32A32
  | 0x04 => some .iaddI32A32Imm
  | 0x05 => some .iaddI64A32
  | 0x06 => some .iaddI64A32Imm
  | 0x07 => some .isubI32A32
  | 0x08 => some .isubI64A32
  | 0x09 => some .imulI32A32
  | 0x0A => some .imulI32A32Imm
  | 0x0B => some .iminI32A32
  | 0x0C => some .imaxI32A32
  | 0x0D => some .andN64A32
  | 0x0E => some .andN64A32Imm
  | 0x0F => some .orN64A32
  | 0x10 => some .xorN64A32
  | 0x11 => some .shlN32A32Imm
  | 0x12 => some .shrN32A32Imm
  | 0x13 => some .shraI32A32Imm
  | 0x14 => some .shlN64A32Imm
  | 0x15 => some .shrN64A32Imm
  | 0x16 => some .faddF32A32
  | 0x17 => some .fsubF32A32
  | 0x18 => some .fmulF32A32
  | 0x19 => some .fminF32A32
  | 0x1A => some .fmaxF32A32
  | 0x1B => some .faddBf16A32
  | 0x1C => some .fmulBf16A32
  | 0x1D => some .faddF16A32
  | 0x1E => some .fmulF16A32
  | 0x1F => some .ldB32A32
  | 0x20 => some .ldB64A32
  | 0x21 => some .ldB128A32
  | 0x22 => some .stB32A32
  | 0x23 => some .stB64A32
  | 0x24 => some .stB128A32
  | _ => none

/-- The ALU class of Table 5.12. -/
def aluOpcode : Nat → Option (AluWord → Instr)
  | 0x01 => some .brx
  | 0x02 => some .callx
  | 0x03 => some .ret
  | 0x04 => some .pad
  | 0x05 => some .jset
  | 0x06 => some .jwait
  | 0x07 => some .jdrop
  | 0x08 => some .exit
  | 0x09 => some .region
  | 0x0A => some .yield
  | 0x0B => some .elect
  | 0x0C => some .trap
  | 0x0D => some .tret
  | 0x0E => some .brk
  | 0x0F => some .sleep
  | 0x10 => some .rdsr
  | 0x11 => some .wrsr
  | 0x12 => some .rdclk
  | 0x20 => some .iadd
  | 0x21 => some .isub
  | 0x22 => some .iadd3
  | 0x23 => some .imul
  | 0x24 => some .imulh
  | 0x25 => some .imad
  | 0x26 => some .imadw
  | 0x27 => some .idiv
  | 0x28 => some .irem
  | 0x29 => some .imin
  | 0x2A => some .imax
  | 0x2B => some .iclamp
  | 0x2C => some .isad
  | 0x2D => some .popc
  | 0x2E => some .clz
  | 0x2F => some .ctz
  | 0x30 => some .and
  | 0x31 => some .or
  | 0x32 => some .xor
  | 0x33 => some .not
  | 0x34 => some .andn
  | 0x35 => some .shl
  | 0x36 => some .shr
  | 0x37 => some .shra
  | 0x38 => some .rotl
  | 0x39 => some .bfx
  | 0x3A => some .bfi
  | 0x3B => some .brev
  | 0x3C => some .icmp
  | 0x3D => some .sel
  | 0x3E => some .plop
  | 0x40 => some .mov
  | 0x41 => some .movi
  | 0x42 => some .movs
  | 0x43 => some .lea
  | 0x44 => some .ptrx
  | 0x50 => some .fadd
  | 0x51 => some .fsub
  | 0x52 => some .fmul
  | 0x53 => some .ffma
  | 0x54 => some .fmin
  | 0x55 => some .fmax
  | 0x56 => some .fminn
  | 0x57 => some .fmaxn
  | 0x58 => some .fcmp
  | 0x59 => some .fclass
  | 0x5A => some .frnd
  | 0x5B => some .fdot2
  | 0x60 => some .frcp
  | 0x61 => some .frsq
  | 0x62 => some .fsqrt
  | 0x63 => some .fexp2
  | 0x64 => some .flog2
  | 0x65 => some .fsin
  | 0x66 => some .fcos
  | 0x67 => some .ftanh
  | 0x70 => some .cvt
  | 0x71 => some .cvti
  | 0x72 => some .pack
  | 0x73 => some .unpack
  | 0x74 => some .qmx
  | 0x75 => some .dqmx
  | 0x76 => some .srseed
  | 0x80 => some .shfl
  | 0x81 => some .shflx
  | 0x82 => some .subp
  | 0x83 => some .vote
  | 0x84 => some .lred
  | 0x85 => some .lscan
  | 0x86 => some .matchLanes
  | 0xB0 => some .balloc
  | 0xB1 => some .bref
  | 0xB2 => some .bfree
  | 0xC4 => some .tcfg
  | 0xC5 => some .tinfo
  | 0xD0 => some .rkacq
  | 0xD1 => some .rkrel
  | 0xD3 => some .rkstat
  | 0xD4 => some .acrdr
  | 0xD5 => some .acrdc
  | 0xD6 => some .acwrr
  | 0xD7 => some .acwrc
  | _ => none

/-- The memory class of Table 5.12. -/
def memOpcode : Nat → Option (MemWord → Instr)
  | 0x90 => some .ld
  | 0x91 => some .st
  | 0x92 => some .ldw
  | 0x93 => some .stw
  | 0x94 => some .atomc
  | 0x95 => some .red
  | 0x96 => some .pref
  | 0xA0 => some .atomAdd
  | 0xA1 => some .atomSub
  | 0xA2 => some .atomMin
  | 0xA3 => some .atomMax
  | 0xA4 => some .atomAnd
  | 0xA5 => some .atomOr
  | 0xA6 => some .atomXor
  | 0xA7 => some .atomExch
  | 0xA8 => some .atomFadd
  | _ => none

/-- The async class of Table 5.12. -/
def asyncOpcode : Nat → Option (AsyncWord → Instr)
  | 0x13 => some .launch
  | 0x97 => some .cjoin
  | 0x98 => some .cleave
  | 0xB3 => some .bexpect
  | 0xB4 => some .barrive
  | 0xB5 => some .bwait
  | 0xB6 => some .btest
  | 0xC0 => some .bcopy
  | 0xC1 => some .bgather
  | 0xC2 => some .bscatter
  | 0xC3 => some .trecld
  | 0xD2 => some .mma
  | _ => none

/-- The fields of an A32 word (Table 5.3). -/
def a32Fields (w : Nat) : A32Word :=
  { d := BitVec.ofNat 8 (w / 512), a := BitVec.ofNat 8 (w / 131072), b := BitVec.ofNat 7 (w / 33554432) }

/-- The fields of a B32 word (Table 5.5). -/
def b32Fields (w : Nat) : B32Word :=
  { g := BitVec.ofNat 3 (w / 128), n := decide (w / 1024 % 2 = 1), ofs := BitVec.ofNat 21 (w / 2048) }

/-- The fields of an instruction of ALU class (Tables 5.6 and 5.7). -/
def aluFields (w0 w1 : Nat) (lit : Option Nat) : AluWord :=
  { g := BitVec.ofNat 3 (w0 / 1024), n := decide (w0 / 8192 % 2 = 1), d := BitVec.ofNat 9 (w0 / 16384),
    a := BitVec.ofNat 9 (w0 / 8388608), b := BitVec.ofNat 9 w1, c := BitVec.ofNat 9 (w1 / 512),
    ty := BitVec.ofNat 4 (w1 / 262144), rnd := BitVec.ofNat 3 (w1 / 4194304), sat := decide (w1 / 33554432 % 2 = 1),
    sq := decide (w1 / 67108864 % 2 = 1), ind := decide (w1 / 134217728 % 2 = 1), xs := BitVec.ofNat 2 (w1 / 268435456),
    rsv := decide (w1 / 2147483648 % 2 = 1), lit := lit.map (BitVec.ofNat 32) }

/-- The fields of an instruction of memory class (Tables 5.6 and 5.8). -/
def memFields (w0 w1 : Nat) (lit : Option Nat) : MemWord :=
  { g := BitVec.ofNat 3 (w0 / 1024), n := decide (w0 / 8192 % 2 = 1), d := BitVec.ofNat 9 (w0 / 16384),
    a := BitVec.ofNat 9 (w0 / 8388608), base := BitVec.ofNat 9 w1, size := BitVec.ofNat 3 (w1 / 512),
    scope := BitVec.ofNat 3 (w1 / 4096), ro := decide (w1 / 32768 % 2 = 1), strm := BitVec.ofNat 3 (w1 / 65536),
    pred := BitVec.ofNat 8 (w1 / 524288), sq := decide (w1 / 134217728 % 2 = 1), ind := decide (w1 / 268435456 % 2 = 1),
    xs := BitVec.ofNat 2 (w1 / 536870912), lit := lit.map (BitVec.ofNat 32) }

/-- The fields of an instruction of async class (Tables 5.6 and 5.9). -/
def asyncFields (w0 w1 : Nat) : AsyncWord :=
  { g := BitVec.ofNat 3 (w0 / 1024), n := decide (w0 / 8192 % 2 = 1), d := BitVec.ofNat 9 (w0 / 16384),
    a := BitVec.ofNat 9 (w0 / 8388608), b := BitVec.ofNat 9 w1, c := BitVec.ofNat 9 (w1 / 512),
    strm := BitVec.ofNat 3 (w1 / 262144), pred := BitVec.ofNat 8 (w1 / 2097152), md := BitVec.ofNat 3 (w1 / 536870912) }

/-- An instruction whose fields are read: RESERVED_FIELD when one of them is at fault (R420), else the instruction and its length. -/
def accept (i : Instr) (len : Nat) : Except DecodeError (Instr × Nat) :=
  match firstViolation i.violations with
  | some v => .error (.reservedField v)
  | none => .ok (i, len)

/-- The lowest field of an A32 NOP word that is not zero (R108). -/
def nopViolation (w : Nat) : Violation :=
  if w / 512 % 256 ≠ 0 then ⟨0, 9⟩ else if w / 131072 % 256 ≠ 0 then ⟨0, 17⟩ else ⟨0, 25⟩

/-- A one-word instruction: A32 or B32 (R103, R107, R109). -/
def decodeShort (w : Nat) : Except DecodeError (Instr × Nat) :=
  if w % 4 = 0 then
    let opc := w / 4 % 128
    if opc = 0 then (if w = 0 then .ok (.nop, 1) else .error (.reservedField (nopViolation w)))
    else match a32Opcode opc with
      | some k => accept (k (a32Fields w)) 1
      | none => .error (.illegalOpcode opc 0 false)
  else
    let opc := w / 4 % 32
    match opc with
    | 0 => .ok (.bra (b32Fields w), 1)
    | 1 => .ok (.brp (b32Fields w), 1)
    | 2 => .ok (.call (b32Fields w), 1)
    | _ => .error (.illegalOpcode opc 1 false)

/-- The length and the literal bit agree (R112); otherwise RESERVED_FIELD names LEN. -/
def lengthError : DecodeError := .reservedField ⟨0, 0⟩

/-- A 64-bit or 96-bit instruction; `lit` is the literal word when LEN is 0b11. -/
def decodeLong (w0 w1 : Nat) (lit : Option Nat) : Except DecodeError (Instr × Nat) :=
  let opc := w0 / 4 % 256
  let len := if lit.isSome then 3 else 2
  match aluOpcode opc with
  | some k => if decide (w1 / 1073741824 % 2 = 1) = lit.isSome then accept (k (aluFields w0 w1 lit)) len else .error lengthError
  | none =>
    match memOpcode opc with
    | some k => if decide (w1 / 2147483648 % 2 = 1) = lit.isSome then accept (k (memFields w0 w1 lit)) len else .error lengthError
    | none =>
      match asyncOpcode opc with
      | some k => if lit.isSome then .error lengthError else accept (k (asyncFields w0 w1)) 2
      | none => .error (.illegalOpcode opc 2 false)

/-- The instruction that begins with the first of `ws`, the words from a PC to the end of its bundle (R103, R104). -/
def decodeWords (ws : List Nat) : Except DecodeError (Instr × Nat) :=
  match ws with
  | [] => .error .noWord
  | w0 :: rest =>
    if w0 / 2 % 2 = 0 then decodeShort w0
    else
      match w0 % 2, rest with
      | 0, w1 :: _ => decodeLong w0 w1 none
      | _, w1 :: w2 :: _ => if w0 % 2 = 0 then decodeLong w0 w1 none else decodeLong w0 w1 (some w2)
      | _, _ => .error (.illegalOpcode (w0 / 4 % 256) 2 true)

/-- The little-endian words of a list of bytes; bytes past the last whole word are left out (R102). -/
def wordsOf : List Byte → List Nat
  | b0 :: b1 :: b2 :: b3 :: rest => (b0.toNat + 256 * b1.toNat + 65536 * b2.toNat + 16777216 * b3.toNat) :: wordsOf rest
  | _ => []

/-- The bytes of a word, lowest address first (R3). -/
def bytesOfWord (w : Nat) : List Byte :=
  [BitVec.ofNat 8 w, BitVec.ofNat 8 (w / 256), BitVec.ofNat 8 (w / 65536), BitVec.ofNat 8 (w / 16777216)]

/-- Decoding of bytes: the first instruction in them. -/
def decode (bs : List Byte) : Except DecodeError (Instr × Nat) := decodeWords (wordsOf bs)

/-- A guard of word 0 of the long forms. -/
def encodeHead (len opc : Nat) (g : BitVec 3) (n : Bool) (d a : BitVec 9) : Nat :=
  len + 4 * opc + 1024 * g.toNat + 8192 * n.toNat + 16384 * d.toNat + 8388608 * a.toNat

/-- An A32 word (Table 5.3). -/
def encodeA32 (opc : Nat) (w : A32Word) : Nat := 4 * opc + 512 * w.d.toNat + 131072 * w.a.toNat + 33554432 * w.b.toNat

/-- A B32 word (Table 5.5). -/
def encodeB32 (opc : Nat) (w : B32Word) : Nat := 1 + 4 * opc + 128 * w.g.toNat + 1024 * w.n.toNat + 2048 * w.ofs.toNat

/-- The words of an instruction of ALU class (Tables 5.6 and 5.7). -/
def encodeAlu (opc : Nat) (w : AluWord) : List Nat :=
  let w1 := w.b.toNat + 512 * w.c.toNat + 262144 * w.ty.toNat + 4194304 * w.rnd.toNat + 33554432 * w.sat.toNat +
    67108864 * w.sq.toNat + 134217728 * w.ind.toNat + 268435456 * w.xs.toNat + 1073741824 * w.lit.isSome.toNat +
    2147483648 * w.rsv.toNat
  match w.lit with
  | none => [encodeHead 2 opc w.g w.n w.d w.a, w1]
  | some l => [encodeHead 3 opc w.g w.n w.d w.a, w1, l.toNat]

/-- The words of an instruction of memory class (Tables 5.6 and 5.8). -/
def encodeMem (opc : Nat) (w : MemWord) : List Nat :=
  let w1 := w.base.toNat + 512 * w.size.toNat + 4096 * w.scope.toNat + 32768 * w.ro.toNat + 65536 * w.strm.toNat +
    524288 * w.pred.toNat + 134217728 * w.sq.toNat + 268435456 * w.ind.toNat + 536870912 * w.xs.toNat +
    2147483648 * w.lit.isSome.toNat
  match w.lit with
  | none => [encodeHead 2 opc w.g w.n w.d w.a, w1]
  | some l => [encodeHead 3 opc w.g w.n w.d w.a, w1, l.toNat]

/-- The words of an instruction of async class (Tables 5.6 and 5.9). -/
def encodeAsync (opc : Nat) (w : AsyncWord) : List Nat :=
  [encodeHead 2 opc w.g w.n w.d w.a,
   w.b.toNat + 512 * w.c.toNat + 262144 * w.strm.toNat + 2097152 * w.pred.toNat + 536870912 * w.md.toNat]

/-- The words of an instruction; an event has none. -/
def encode (i : Instr) : List Nat :=
  match i with
  | .nop => [0]
  | .movA32 w => [encodeA32 0x01 w]
  | .moviI64A32 w => [encodeA32 0x02 w]
  | .iaddI32A32 w => [encodeA32 0x03 w]
  | .iaddI32A32Imm w => [encodeA32 0x04 w]
  | .iaddI64A32 w => [encodeA32 0x05 w]
  | .iaddI64A32Imm w => [encodeA32 0x06 w]
  | .isubI32A32 w => [encodeA32 0x07 w]
  | .isubI64A32 w => [encodeA32 0x08 w]
  | .imulI32A32 w => [encodeA32 0x09 w]
  | .imulI32A32Imm w => [encodeA32 0x0A w]
  | .iminI32A32 w => [encodeA32 0x0B w]
  | .imaxI32A32 w => [encodeA32 0x0C w]
  | .andN64A32 w => [encodeA32 0x0D w]
  | .andN64A32Imm w => [encodeA32 0x0E w]
  | .orN64A32 w => [encodeA32 0x0F w]
  | .xorN64A32 w => [encodeA32 0x10 w]
  | .shlN32A32Imm w => [encodeA32 0x11 w]
  | .shrN32A32Imm w => [encodeA32 0x12 w]
  | .shraI32A32Imm w => [encodeA32 0x13 w]
  | .shlN64A32Imm w => [encodeA32 0x14 w]
  | .shrN64A32Imm w => [encodeA32 0x15 w]
  | .faddF32A32 w => [encodeA32 0x16 w]
  | .fsubF32A32 w => [encodeA32 0x17 w]
  | .fmulF32A32 w => [encodeA32 0x18 w]
  | .fminF32A32 w => [encodeA32 0x19 w]
  | .fmaxF32A32 w => [encodeA32 0x1A w]
  | .faddBf16A32 w => [encodeA32 0x1B w]
  | .fmulBf16A32 w => [encodeA32 0x1C w]
  | .faddF16A32 w => [encodeA32 0x1D w]
  | .fmulF16A32 w => [encodeA32 0x1E w]
  | .ldB32A32 w => [encodeA32 0x1F w]
  | .ldB64A32 w => [encodeA32 0x20 w]
  | .ldB128A32 w => [encodeA32 0x21 w]
  | .stB32A32 w => [encodeA32 0x22 w]
  | .stB64A32 w => [encodeA32 0x23 w]
  | .stB128A32 w => [encodeA32 0x24 w]
  | .bra w => [encodeB32 0x00 w]
  | .brp w => [encodeB32 0x01 w]
  | .call w => [encodeB32 0x02 w]
  | .brx w => encodeAlu 0x01 w
  | .callx w => encodeAlu 0x02 w
  | .ret w => encodeAlu 0x03 w
  | .pad w => encodeAlu 0x04 w
  | .jset w => encodeAlu 0x05 w
  | .jwait w => encodeAlu 0x06 w
  | .jdrop w => encodeAlu 0x07 w
  | .exit w => encodeAlu 0x08 w
  | .region w => encodeAlu 0x09 w
  | .yield w => encodeAlu 0x0A w
  | .elect w => encodeAlu 0x0B w
  | .trap w => encodeAlu 0x0C w
  | .tret w => encodeAlu 0x0D w
  | .brk w => encodeAlu 0x0E w
  | .sleep w => encodeAlu 0x0F w
  | .rdsr w => encodeAlu 0x10 w
  | .wrsr w => encodeAlu 0x11 w
  | .rdclk w => encodeAlu 0x12 w
  | .launch w => encodeAsync 0x13 w
  | .iadd w => encodeAlu 0x20 w
  | .isub w => encodeAlu 0x21 w
  | .iadd3 w => encodeAlu 0x22 w
  | .imul w => encodeAlu 0x23 w
  | .imulh w => encodeAlu 0x24 w
  | .imad w => encodeAlu 0x25 w
  | .imadw w => encodeAlu 0x26 w
  | .idiv w => encodeAlu 0x27 w
  | .irem w => encodeAlu 0x28 w
  | .imin w => encodeAlu 0x29 w
  | .imax w => encodeAlu 0x2A w
  | .iclamp w => encodeAlu 0x2B w
  | .isad w => encodeAlu 0x2C w
  | .popc w => encodeAlu 0x2D w
  | .clz w => encodeAlu 0x2E w
  | .ctz w => encodeAlu 0x2F w
  | .and w => encodeAlu 0x30 w
  | .or w => encodeAlu 0x31 w
  | .xor w => encodeAlu 0x32 w
  | .not w => encodeAlu 0x33 w
  | .andn w => encodeAlu 0x34 w
  | .shl w => encodeAlu 0x35 w
  | .shr w => encodeAlu 0x36 w
  | .shra w => encodeAlu 0x37 w
  | .rotl w => encodeAlu 0x38 w
  | .bfx w => encodeAlu 0x39 w
  | .bfi w => encodeAlu 0x3A w
  | .brev w => encodeAlu 0x3B w
  | .icmp w => encodeAlu 0x3C w
  | .sel w => encodeAlu 0x3D w
  | .plop w => encodeAlu 0x3E w
  | .mov w => encodeAlu 0x40 w
  | .movi w => encodeAlu 0x41 w
  | .movs w => encodeAlu 0x42 w
  | .lea w => encodeAlu 0x43 w
  | .ptrx w => encodeAlu 0x44 w
  | .fadd w => encodeAlu 0x50 w
  | .fsub w => encodeAlu 0x51 w
  | .fmul w => encodeAlu 0x52 w
  | .ffma w => encodeAlu 0x53 w
  | .fmin w => encodeAlu 0x54 w
  | .fmax w => encodeAlu 0x55 w
  | .fminn w => encodeAlu 0x56 w
  | .fmaxn w => encodeAlu 0x57 w
  | .fcmp w => encodeAlu 0x58 w
  | .fclass w => encodeAlu 0x59 w
  | .frnd w => encodeAlu 0x5A w
  | .fdot2 w => encodeAlu 0x5B w
  | .frcp w => encodeAlu 0x60 w
  | .frsq w => encodeAlu 0x61 w
  | .fsqrt w => encodeAlu 0x62 w
  | .fexp2 w => encodeAlu 0x63 w
  | .flog2 w => encodeAlu 0x64 w
  | .fsin w => encodeAlu 0x65 w
  | .fcos w => encodeAlu 0x66 w
  | .ftanh w => encodeAlu 0x67 w
  | .cvt w => encodeAlu 0x70 w
  | .cvti w => encodeAlu 0x71 w
  | .pack w => encodeAlu 0x72 w
  | .unpack w => encodeAlu 0x73 w
  | .qmx w => encodeAlu 0x74 w
  | .dqmx w => encodeAlu 0x75 w
  | .srseed w => encodeAlu 0x76 w
  | .shfl w => encodeAlu 0x80 w
  | .shflx w => encodeAlu 0x81 w
  | .subp w => encodeAlu 0x82 w
  | .vote w => encodeAlu 0x83 w
  | .lred w => encodeAlu 0x84 w
  | .lscan w => encodeAlu 0x85 w
  | .matchLanes w => encodeAlu 0x86 w
  | .ld w => encodeMem 0x90 w
  | .st w => encodeMem 0x91 w
  | .ldw w => encodeMem 0x92 w
  | .stw w => encodeMem 0x93 w
  | .atomc w => encodeMem 0x94 w
  | .red w => encodeMem 0x95 w
  | .pref w => encodeMem 0x96 w
  | .cjoin w => encodeAsync 0x97 w
  | .cleave w => encodeAsync 0x98 w
  | .atomAdd w => encodeMem 0xA0 w
  | .atomSub w => encodeMem 0xA1 w
  | .atomMin w => encodeMem 0xA2 w
  | .atomMax w => encodeMem 0xA3 w
  | .atomAnd w => encodeMem 0xA4 w
  | .atomOr w => encodeMem 0xA5 w
  | .atomXor w => encodeMem 0xA6 w
  | .atomExch w => encodeMem 0xA7 w
  | .atomFadd w => encodeMem 0xA8 w
  | .balloc w => encodeAlu 0xB0 w
  | .bref w => encodeAlu 0xB1 w
  | .bfree w => encodeAlu 0xB2 w
  | .bexpect w => encodeAsync 0xB3 w
  | .barrive w => encodeAsync 0xB4 w
  | .bwait w => encodeAsync 0xB5 w
  | .btest w => encodeAsync 0xB6 w
  | .bcopy w => encodeAsync 0xC0 w
  | .bgather w => encodeAsync 0xC1 w
  | .bscatter w => encodeAsync 0xC2 w
  | .trecld w => encodeAsync 0xC3 w
  | .tcfg w => encodeAlu 0xC4 w
  | .tinfo w => encodeAlu 0xC5 w
  | .rkacq w => encodeAlu 0xD0 w
  | .rkrel w => encodeAlu 0xD1 w
  | .mma w => encodeAsync 0xD2 w
  | .rkstat w => encodeAlu 0xD3 w
  | .acrdr w => encodeAlu 0xD4 w
  | .acrdc w => encodeAlu 0xD5 w
  | .acwrr w => encodeAlu 0xD6 w
  | .acwrc w => encodeAlu 0xD7 w
  | _ => []

/-- The instruction the decoder reads from a table word: `w` holds the bits with bit 0 the least significant of the first word,
and every bit above is zero. -/
def decodeTableWord (_nbits w : Nat) : Option Instr :=
  match decode (bytesOfWord w ++ bytesOfWord (w / 4294967296) ++ bytesOfWord (w / 18446744073709551616)) with
  | .ok (i, _) => some i
  | .error _ => none

end Sys2Proof
end

