-- ==== Sys2Proof/Machine/Numbers.lean ====
section
/-! DEFINITION. Number formats and exact arithmetic (04): every value is formed exactly as an integer times a power of two, then narrowed
once by `roundTo`. Rounding modes are the codes of R85. -/

namespace Sys2Proof.Machine

/-- The value of a floating-point encoding (R82). A NaN carries its sign and its fraction aligned to 52 bits, so that a payload keeps its
most significant bits in a conversion (R93). A finite value is `m · 2^e` with `m` above zero. -/
inductive FVal where
  | nan (neg : Bool) (frac : Nat)
  | inf (neg : Bool)
  | zero (neg : Bool)
  | fin (neg : Bool) (m : Nat) (e : Int)
deriving DecidableEq, Repr

/-- The fields of `$fpmode` in force for an instruction, with the effective rounding mode (R163, Table 3.4). -/
structure FpMode where
  rnd : Nat
  ftzi32 : Bool
  ftzo32 : Bool
  ftzi16 : Bool
  ftzo16 : Bool
  dnan : Bool
  satn : Bool
deriving DecidableEq, Repr

/-- The mode of an operation that rounds under RNE and flushes nothing (R99, R206). -/
def plainMode : FpMode := { rnd := 1, ftzi32 := false, ftzo32 := false, ftzi16 := false, ftzo16 := false, dnan := true, satn := false }

/-- Exponent bits of a floating format (Table 4.2). -/
def fmtE (code : Nat) : Nat :=
  match code with
  | 0x0B => 11 | 0x0A => 8 | 0x08 => 5 | 0x09 => 8 | 0x0C => 4 | 0x0D => 5 | 0x0E => 3 | 0x0F => 2 | _ => 2

/-- Fraction bits of a floating format. -/
def fmtM (code : Nat) : Nat :=
  match code with
  | 0x0B => 52 | 0x0A => 23 | 0x08 => 10 | 0x09 => 7 | 0x0C => 3 | 0x0D => 2 | 0x0E => 2 | 0x0F => 3 | _ => 1

/-- Bias of a floating format. -/
def fmtBias (code : Nat) : Nat :=
  match code with
  | 0x0B => 1023 | 0x0A => 127 | 0x08 => 15 | 0x09 => 127 | 0x0C => 7 | 0x0D => 15 | 0x0E => 3 | 0x0F => 1 | _ => 1

/-- The formats whose all-ones exponent holds infinity and NaN (Table 4.2). -/
def fmtIeee (code : Nat) : Bool := code == 0x0B || code == 0x0A || code == 0x08 || code == 0x09 || code == 0x0D

/-- The format code of a floating TYPE (Tables 5.10 and 5.14): f16, bf16, f32, f64. -/
def floatCode (ty : Nat) : Nat := ty

/-- The default NaN as a value (Table 4.5). -/
def defaultNan : FVal := .nan false (2 ^ 51)

/-- The value of an encoding of a floating format (R82) or of e8m0 (R83). -/
def decodeFloat (code x : Nat) : FVal :=
  if code = 0x11 then
    if x % 256 = 255 then defaultNan else .fin false 1 ((x % 256 : Nat) - 127 : Int)
  else
    let eb := fmtE code
    let mb := fmtM code
    let f := x % 2 ^ mb
    let e := x / 2 ^ mb % 2 ^ eb
    let neg := x / 2 ^ (mb + eb) % 2 = 1
    if fmtIeee code && e == 2 ^ eb - 1 then
      if f = 0 then .inf neg else .nan neg (f * 2 ^ (52 - mb))
    else if code == 0x0C && e == 15 && f == 7 then .nan neg (7 * 2 ^ 49)
    else if e = 0 then
      if f = 0 then .zero neg else .fin neg f (1 - (fmtBias code : Int) - mb)
    else .fin neg (f + 2 ^ mb) ((e : Int) - fmtBias code - mb)

/-- The magnitude is below the smallest normal value of the format. -/
def isSubnormal (code x : Nat) : Bool :=
  x / 2 ^ fmtM code % 2 ^ fmtE code == 0 && x % 2 ^ fmtM code != 0

/-- The input flush of R92. -/
def flushIn (fp : FpMode) (code x : Nat) : Nat :=
  let on := if code = 0x0A then fp.ftzi32 else if code = 0x08 ∨ code = 0x09 then fp.ftzi16 else false
  if on && isSubnormal code x then x / 2 ^ (fmtM code + fmtE code) % 2 * 2 ^ (fmtM code + fmtE code) else x

/-- An operand as a value, after the input flush. -/
def operand (fp : FpMode) (code x : Nat) : FVal := decodeFloat code (flushIn fp code x)

/-- The rounding decision: the truncated magnitude `n` with remainder `rem` of `2^d` (R85, R90). -/
def roundUpMag (mode : Nat) (neg : Bool) (n rem d r : Nat) : Bool :=
  if rem = 0 then false
  else match mode with
    | 1 => decide (2 ^ d < 2 * rem) || (2 * rem == 2 ^ d && n % 2 == 1)
    | 2 => false
    | 3 => neg
    | 4 => !neg
    | 5 => decide (2 ^ 24 ≤ rem * 2 ^ 24 / 2 ^ d + r)
    | _ => decide (2 ^ d ≤ 2 * rem)

/-- A magnitude `m · 2^e` rounded to a multiple of `2^q`: the number of quanta. -/
def roundQuanta (mode : Nat) (neg : Bool) (m : Nat) (e q : Int) (r : Nat) : Nat :=
  if q ≤ e then m * 2 ^ (e - q).toNat
  else
    let d := (q - e).toNat
    let n := m / 2 ^ d
    if roundUpMag mode neg n (m % 2 ^ d) d r then n + 1 else n

/-- An overflow gives infinity, not the largest finite value (R86). -/
def overflowsToInf (mode : Nat) (neg : Bool) : Bool :=
  match mode with
  | 2 => false
  | 3 => neg
  | 4 => !neg
  | _ => true

/-- The sign bit of a format. -/
def signBit (code : Nat) (neg : Bool) : Nat := if neg then 2 ^ (fmtM code + fmtE code) else 0

/-- The encoding of the largest finite value, without sign. -/
def maxFinite (code : Nat) : Nat :=
  if fmtIeee code then 2 ^ (fmtE code + fmtM code) - 2 ^ fmtM code - 1
  else if code = 0x0C then 0x7E
  else 2 ^ (fmtE code + fmtM code) - 1

/-- The encoding of infinity, without sign. -/
def infinity (code : Nat) : Nat := (2 ^ fmtE code - 1) * 2 ^ fmtM code

/-- The default NaN of a format (Table 4.5). -/
def defaultNanBits (code : Nat) : Nat :=
  if code = 0x0C then 0x7F else infinity code + 2 ^ (fmtM code - 1)

/-- A NaN result in a format: the default under DNAN, otherwise the payload's most significant bits with the quiet bit set (R93). -/
def nanBits (fp : FpMode) (code : Nat) (neg : Bool) (frac : Nat) : Nat :=
  if fp.dnan then defaultNanBits code
  else if code = 0x0C then signBit code neg + 0x7F
  else
    let f := frac / 2 ^ (52 - fmtM code)
    signBit code neg + infinity code + (if f / 2 ^ (fmtM code - 1) % 2 = 1 then f else f + 2 ^ (fmtM code - 1))

/-- A result that overflows or is infinite (R86, Table 4.4); `toInf` is the "IEEE ∞ case". -/
def overflowBits (fp : FpMode) (code : Nat) (neg toInf : Bool) : Nat :=
  let top := signBit code neg + maxFinite code
  if !toInf then top
  else match code with
    | 0x0D => if fp.satn then top else signBit code neg + infinity code
    | 0x0C => if fp.satn then top else if fp.dnan then 0x7F else signBit code neg + 0x7F
    | 0x0E | 0x0F => if fp.satn then top else 0x20
    | 0x10 => top
    | _ => signBit code neg + infinity code

/-- A zero result with its sign (Table 4.4: the FP6 formats give +0 under SATN = 0). -/
def zeroBits (fp : FpMode) (code : Nat) (neg : Bool) : Nat :=
  if (code = 0x0E ∨ code = 0x0F) ∧ !fp.satn then 0 else signBit code neg

/-- The output flush of R92 applies to the format. -/
def flushesOut (fp : FpMode) (code : Nat) : Bool :=
  if code = 0x0A then fp.ftzo32 else if code = 0x08 ∨ code = 0x09 then fp.ftzo16 else false

/-- `n · 2^q` encoded, where `n` is at most `2^(M+1)` (R82); the caller has dealt with overflow. -/
def packFinite (code : Nat) (neg : Bool) (n : Nat) (q : Int) : Nat :=
  let mb := fmtM code
  let (n, q) := if n = 2 ^ (mb + 1) then (2 ^ mb, q + 1) else (n, q)
  if n < 2 ^ mb then signBit code neg + n
  else signBit code neg + (q + mb + fmtBias code).toNat * 2 ^ mb + (n - 2 ^ mb)

/-- round(v, fmt, mode) of R85 with overflow, narrowing and output flush; `r` is the random value of R89. -/
def roundTo (fp : FpMode) (code r : Nat) (v : FVal) : Nat :=
  match v with
  | .nan neg frac => if code = 0x0E ∨ code = 0x0F then (if fp.satn then 0 else 0x20) else if code = 0x10 then 0 else nanBits fp code neg frac
  | .inf neg => overflowBits fp code neg true
  | .zero neg => zeroBits fp code neg
  | .fin neg m e =>
    let mb := fmtM code
    let q := max ((Nat.log2 m : Int) + e - mb) (1 - (fmtBias code : Int) - mb)
    let n := roundQuanta fp.rnd neg m e q r
    if n = 0 then zeroBits fp code neg
    else
      let x := packFinite code neg n q
      let mag := packFinite code false n q
      if maxFinite code < mag then overflowBits fp code neg (overflowsToInf fp.rnd neg)
      else if flushesOut fp code && isSubnormal code mag then signBit code neg
      else x

/-- A value is NaN. -/
def FVal.isNan : FVal → Bool
  | .nan _ _ => true
  | _ => false

/-- The sign of a value. -/
def FVal.neg : FVal → Bool
  | .nan n _ => n
  | .inf n => n
  | .zero n => n
  | .fin n _ _ => n

/-- The value with its sign changed. -/
def FVal.flip : FVal → FVal
  | .nan n f => .nan n f
  | .inf n => .inf !n
  | .zero n => .zero !n
  | .fin n m e => .fin (!n) m e

/-- The first NaN among the operands of an operation, in order (R93). -/
def firstNan : List FVal → Option FVal
  | [] => none
  | v :: vs => if v.isNan then some v else firstNan vs

/-- The exact product (R88, R93). -/
def mulExact (a b : FVal) : FVal :=
  match a, b with
  | .nan _ _, _ | _, .nan _ _ => defaultNan
  | .inf x, .zero _ | .zero x, .inf _ => let _ := x; defaultNan
  | .inf x, y => .inf (x != y.neg)
  | x, .inf y => .inf (x.neg != y)
  | .zero x, y => .zero (x != y.neg)
  | x, .zero y => .zero (x.neg != y)
  | .fin x m e, .fin y n f => .fin (x != y) (m * n) (e + f)

/-- The exponent of a finite value; the larger default for the others. -/
def FVal.expOr (v : FVal) (d : Int) : Int :=
  match v with
  | .fin _ _ e => e
  | _ => d

/-- The value as a multiple of `2^e0`, for `e0` at most its exponent. -/
def FVal.scaled (v : FVal) (e0 : Int) : Int :=
  match v with
  | .fin n m e => (if n then -1 else 1) * ((m * 2 ^ (e - e0).toNat : Nat) : Int)
  | _ => 0

/-- The least exponent among the finite terms. -/
def minExp (vs : List FVal) : Int := vs.foldl (fun e v => min e (v.expOr e)) 4096

/-- A finite integer multiple of a power of two as a value; `zneg` is the sign of an exact zero. -/
def ofScaled (i : Int) (e : Int) (zneg : Bool) : FVal :=
  if i = 0 then .zero zneg else .fin (decide (i < 0)) i.natAbs e

/-- The exact sum of terms (R88, R93): zeros of one sign keep it, any other zero sum is +0, or −0 under RDN. -/
def sumExact (mode : Nat) (vs : List FVal) : FVal :=
  if vs.any FVal.isNan then defaultNan
  else
    let pos := vs.any fun v => v == .inf false
    let neg := vs.any fun v => v == .inf true
    if pos && neg then defaultNan
    else if pos then .inf false
    else if neg then .inf true
    else if vs.all (fun v => v == .zero true) then .zero true
    else if vs.all (fun v => v == .zero false) then .zero false
    else
      let e := minExp vs
      ofScaled (vs.foldl (fun t v => t + v.scaled e) 0) e (mode == 3)

/-- A float operation: NaN operands first, then the exact result (R93, R95). -/
def withNan (ops : List FVal) (v : FVal) : FVal := (firstNan ops).getD v

/-- Order of two values that are not NaN, −0 equal to +0. -/
def compareVal (a b : FVal) : Ordering :=
  let e := minExp [a, b]
  let rank (v : FVal) : Int := match v with | .inf true => -1 | .inf false => 1 | _ => 0
  if rank a ≠ rank b then compare (rank a) (rank b) else compare (a.scaled e) (b.scaled e)

/-- The order of R176, with −0 below +0. -/
def lessVal (a b : FVal) : Bool :=
  match compareVal a b with
  | .lt => true
  | .gt => false
  | .eq => a.neg && !b.neg

/-! ## Integers -/

/-- A value as an integer under a rounding mode (R81, R85, R90): NaN gives none, an infinity its sign. -/
def roundToInt (mode r : Nat) (v : FVal) : Option (Int ⊕ Bool) :=
  match v with
  | .nan _ _ => none
  | .inf n => some (.inr n)
  | .zero _ => some (.inl 0)
  | .fin n m e =>
    let k := roundQuanta mode n m e 0 r
    some (.inl (if n then -(k : Int) else k))

/-- Signedness of an integer format or TYPE code (Table 4.1). -/
def codeSigned (code : Nat) : Bool := if code = 0x12 then true else if code = 0x13 then false else code % 2 == 0

/-- The smallest value of an integer format of `w` bits. -/
def intMin (signed : Bool) (w : Nat) : Int := if signed then -((2 ^ (w - 1) : Nat) : Int) else 0

/-- The largest value of an integer format of `w` bits. -/
def intMax (signed : Bool) (w : Nat) : Int := if signed then ((2 ^ (w - 1) : Nat) : Int) - 1 else ((2 ^ w : Nat) : Int) - 1

/-- clamp(v, t) of R160. -/
def clampInt (signed : Bool) (w : Nat) (v : Int) : Int := max (intMin signed w) (min (intMax signed w) v)

/-- An integer encoding as an exact integer. -/
def decodeInt (code w x : Nat) : Int := if codeSigned code then signedOf x w else ((x % 2 ^ w : Nat) : Int)

/-- An integer as a value. -/
def ofInt (i : Int) : FVal := if i = 0 then .zero false else .fin (decide (i < 0)) i.natAbs 0

/-- A float converted to an integer format (R81). -/
def floatToInt (mode r code : Nat) (v : FVal) : Nat :=
  let w := formatBits code
  let s := codeSigned code
  match roundToInt mode r v with
  | none => 0
  | some (.inr neg) => wrapInt (if neg then intMin s w else intMax s w) w
  | some (.inl i) => wrapInt (clampInt s w i) w

/-- A value converted to e8m0 (R83). -/
def toE8m0 (mode r : Nat) (v : FVal) : Nat :=
  match v with
  | .nan _ _ | .inf _ => 255
  | .zero _ => 0
  | .fin _ m e =>
    -- the set has one value for each power of two: lo = 2^k, hi = 2^(k+1)
    let k := (Nat.log2 m : Int) + e
    let d := Nat.log2 m
    let rem := m - 2 ^ d
    if k < -127 then 0
    else
      let even := (k + 127) % 2 = 0
      let up :=
        if rem = 0 then false
        else match mode with
          | 1 => decide (2 ^ d < 2 * rem) || (2 * rem == 2 ^ d && !even)
          | 2 | 3 => false
          | 4 => true
          | 5 => decide (2 ^ 24 ≤ rem * 2 ^ 24 / 2 ^ d + r)
          | _ => decide (2 ^ d ≤ 2 * rem)
      let k := if up then k + 1 else k
      if 127 < k then 254 else (k + 127).toNat

/-! ## Stochastic rounding -/

/-- One step of the hash of R89. -/
def mix (z : Nat) : Nat :=
  let w := 2 ^ 64
  let z := (z + 0x9E3779B97F4A7C15) % w
  let z := (z ^^^ (z / 2 ^ 30)) * 0xBF58476D1CE4E5B9 % w
  let z := (z ^^^ (z / 2 ^ 27)) * 0x94D049BB133111EB % w
  z ^^^ (z / 2 ^ 31)

/-- srbits of R89: 24 random bits for a sub-element. -/
def srbits (seed bid tid ctr sub : Nat) : Nat :=
  let h := mix (seed ^^^ bid)
  let h := mix (h ^^^ (tid * 2 ^ 40) ^^^ (sub * 2 ^ 32) ^^^ ctr)
  h / 2 ^ 40

end Sys2Proof.Machine
end

