-- ==== Sys2Proof/Machine/Func.lean ====
section
/-! DEFINITION. The functions FRCP to FTANH (04 R96). Rational and square-root results are formed exactly, with a sticky bit for a remainder. The
transcendental ones are formed in fixed point to 900 bits, with a sticky bit, since their values at these operands are never on a
rounding boundary (log 15). -/

namespace Sys2Proof.Machine

/-- `n` with a sticky bit: `2n`, or `2n + 1` when something lies below. -/
def sticky (n : Nat) (more : Bool) : Nat := 2 * n + (if more then 1 else 0)

/-- The integer square root, one bit at a time from bit `k - 1`. -/
def isqrt (k n : Nat) : Nat :=
  (List.range k).foldl (fun r i => let t := r + 2 ^ (k - 1 - i); if t * t ≤ n then t else r) 0

/-- 1 / (m · 2^e). -/
def recipVal (neg : Bool) (m : Nat) (e : Int) : FVal :=
  let k := 2 * Nat.log2 m + 100
  let q := 2 ^ k / m
  .fin neg (sticky q (q * m != 2 ^ k)) (-e - k - 1)

/-- √(m · 2^e). -/
def sqrtVal (m : Nat) (e : Int) : FVal :=
  let (m, e) := if e % 2 = 0 then (m, e) else (2 * m, e - 1)
  let n := m * 2 ^ 120
  let r := isqrt 128 n
  .fin false (sticky r (r * r != n)) (e / 2 - 60 - 1)

/-- 1 / √(m · 2^e). -/
def rsqrtVal (m : Nat) (e : Int) : FVal :=
  let (m, e) := if e % 2 = 0 then (m, e) else (2 * m, e - 1)
  let n := 2 ^ 240 / m
  let r := isqrt 128 n
  .fin false (sticky r (r * r * m != 2 ^ 240)) (-(e / 2) - 120 - 1)

/-! ## Fixed point -/

/-- Fraction bits of the fixed-point work. -/
def fixP : Nat := 1200

/-- The unit of the fixed-point work. -/
def fixOne : Nat := 2 ^ fixP

/-- Σ ± 1 / ((2i + 1) · k^(2i + 1)) for `n` terms: artanh(1/k) when `alt` is false, arctan(1/k) when it is true. -/
def invSeries (alt : Bool) (k n : Nat) : Nat :=
  let r := (List.range n).foldl
    (fun (acc : Int × Nat) i =>
      let t : Int := (acc.2 / (2 * i + 1) : Nat)
      (if alt && i % 2 == 1 then acc.1 - t else acc.1 + t, acc.2 / (k * k)))
    (0, fixOne / k)
  r.1.toNat

/-- π, by Machin's formula. -/
def fixPi : Nat := 4 * (4 * invSeries true 5 260 - invSeries true 239 80)

/-- ln 2 = 2 artanh(1/3). -/
def fixLn2 : Nat := 2 * invSeries false 3 380

/-- e^y for `y` in [0, 1), both scaled by `fixOne`. -/
def fixExp (y : Nat) : Nat :=
  ((List.range 180).foldl (fun (acc : Nat × Nat) i => (acc.1 + acc.2, acc.2 * y / fixOne / (i + 1))) (0, fixOne)).1

/-- artanh z for `z` in [0, 1/3]. -/
def fixArtanh (z : Nat) : Nat :=
  let z2 := z * z / fixOne
  ((List.range 380).foldl (fun (acc : Nat × Nat) i => (acc.1 + acc.2 / (2 * i + 1), acc.2 * z2 / fixOne)) (0, z)).1

/-- sin y (from `start` = y, odd) or cos y (from 1, even) for `y` in [0, 1). -/
def fixSinCos (cosine : Bool) (y : Nat) : Nat :=
  let y2 := y * y / fixOne
  let s := if cosine then 0 else 1
  let r := (List.range 90).foldl
    (fun (acc : Int × Nat) i =>
      (if i % 2 = 0 then acc.1 + acc.2 else acc.1 - acc.2, acc.2 * y2 / fixOne / ((2 * i + 1 + s) * (2 * i + 2 + s))))
    (0, if cosine then fixOne else y)
  r.1.toNat

/-- A magnitude in fixed point, correct to far below bit 300, as a value with a sticky bit. -/
def ofFix (neg : Bool) (a : Nat) (e : Int) : FVal := .fin neg (sticky (a / 2 ^ 300) true) (e - (fixP - 300 : Nat) - 1)

/-- `m · 2^e` in fixed point, truncated. -/
def toFix (m : Nat) (e : Int) : Nat :=
  let k := e + fixP
  if 0 ≤ k then m * 2 ^ k.toNat else m / 2 ^ (-k).toNat

/-- 2^(m · 2^e · sign). -/
def exp2Val (neg : Bool) (m : Nat) (e : Int) : FVal :=
  if 2048 ≤ toFix m (min e 100) / fixOne then .fin false 1 (if neg then -2048 else 2048)
  else
    let x := toFix m e
    let i : Int := (x / fixOne : Nat)
    let f := x % fixOne
    if f = 0 then .fin false 1 (if neg then -i else i)
    else if neg then ofFix false (fixExp ((fixOne - f) * fixLn2 / fixOne)) (-i - 1)
    else ofFix false (fixExp (f * fixLn2 / fixOne)) i

/-- log2 (m · 2^e). -/
def log2Val (m : Nat) (e : Int) : FVal :=
  let d := Nat.log2 m
  let i := e + d
  if m = 2 ^ d then ofInt i
  else
    -- y in (1, 2): log2 y = 2 artanh((y - 1)/(y + 1)) / ln 2
    let z := (m - 2 ^ d) * fixOne / (m + 2 ^ d)
    let l : Int := (2 * fixArtanh z * fixOne / fixLn2 : Nat)
    let t := i * (fixOne : Int) + l
    ofFix (decide (t < 0)) t.natAbs 0

/-- sin or cos of ± m · 2^e, after exact reduction by π / 2. -/
def sinCosVal (cosine neg : Bool) (m : Nat) (e : Int) : FVal :=
  let x := toFix m e
  let half := fixPi / 2
  -- quadrant and remainder; fixPi carries more than 1,100 correct bits, and x is below 2^128
  let k := x / half
  let r := x - k * half
  let q := (if cosine then k + 1 else k) % 4
  let useCos := q % 2 = 1
  let v := if 2 * r < half then fixSinCos useCos r else fixSinCos (!useCos) (half - r)
  ofFix ((decide (2 ≤ q)) != (neg && !cosine)) v 0

/-- tanh of ± m · 2^e: (1 − t) / (1 + t) with t = e^(−2x). -/
def tanhVal (neg : Bool) (m : Nat) (e : Int) : FVal :=
  if 300 ≤ toFix m (min e 100) / fixOne then ofFix neg (fixOne - 1) 0
  else
    -- e^(−2x) = 2^(−i − 1) · e^((1 − f) ln 2), with i + f = 2x / ln 2
    let y := 2 * toFix m e * fixOne / fixLn2
    let t := fixExp ((fixOne - y % fixOne) * fixLn2 / fixOne) / 2 ^ (y / fixOne + 1)
    ofFix neg ((fixOne - t) * fixOne / (fixOne + t)) 0

/-- The functions in the order of their opcodes (Table 5.12). -/
inductive FuncOp where
  | rcp | rsq | sqrt | exp2 | log2 | sin | cos | tanh
deriving DecidableEq, Repr

/-- The exact value of a function, or the special result of Table 4.6. -/
def funcVal (f : FuncOp) (x : FVal) : FVal :=
  match f, x with
  | _, .nan n p => .nan n p
  | .rcp, .inf n => .zero n
  | .rcp, .zero n => .inf n
  | .rcp, .fin n m e => recipVal n m e
  | .rsq, .inf n => if n then defaultNan else .zero false
  | .rsq, .zero n => .inf n
  | .rsq, .fin n m e => if n then defaultNan else rsqrtVal m e
  | .sqrt, .inf n => if n then defaultNan else .inf false
  | .sqrt, .zero n => .zero n
  | .sqrt, .fin n m e => if n then defaultNan else sqrtVal m e
  | .exp2, .inf n => if n then .zero false else .inf false
  | .exp2, .zero _ => .fin false 1 0
  | .exp2, .fin n m e => exp2Val n m e
  | .log2, .inf n => if n then defaultNan else .inf false
  | .log2, .zero _ => .inf true
  | .log2, .fin n m e => if n then defaultNan else log2Val m e
  | .sin, .inf _ => defaultNan
  | .sin, .zero n => .zero n
  | .sin, .fin n m e => sinCosVal false n m e
  | .cos, .inf _ => defaultNan
  | .cos, .zero _ => .fin false 1 0
  | .cos, .fin n m e => sinCosVal true n m e
  | .tanh, .inf n => .fin n 1 0
  | .tanh, .zero n => .zero n
  | .tanh, .fin n m e => tanhVal n m e

end Sys2Proof.Machine
end

