-- ==== Sys2Proof/Config.lean ====
section
/-! DEFINITION. What an implementation fixes and the manual leaves open. Every constant here is opaque: no proof can see a
value of it, so a claim holds whatever the value is. Those that are drawn anew each time take the counter `freeN` of the state (log 2). -/

namespace Sys2Proof

/-- Which of the enabled choices the machine takes next (log 1). -/
opaque Config.choose : Nat → Nat

/-- How many ACLK cycles pass in one tick of the model (log 8). -/
opaque Config.cycles : Nat → Nat

/-- How many nanoseconds pass in one tick of Hold, in which ACLK stands (03 R66; 16 R371; log 8). -/
opaque Config.nanos : Nat → Nat

/-- A launch id the machine picks for a grid (03 R67). -/
opaque Config.launchId : Nat → Nat

/-- A device key id drawn for a confidential region (16 R367). -/
opaque Config.keyId : Nat → Nat

/-- The set of a cache level in which a line may stand (10 R255, R263, R264, R265 give sizes and no index function; log 9). -/
opaque Config.cacheSet : Nat → Nat → Nat

/-- Which line of a full set is the victim (10 R263 gives no policy; log 9). -/
opaque Config.victim : Nat → Nat

/-- Which entry of a full translation buffer is replaced (13 R334 gives no policy). -/
opaque Config.tlbVictim : Nat → Nat

/-- The set of a quad's translation buffer in which a page stands (13 R334 gives 8 ways and no index function). -/
opaque Config.tlbSet : Nat → Nat

/-- One less than the low mark of a die, by its number: the free HBM frames below which it demotes (10 R270 names the low mark and gives no
number; log 9). -/
opaque Config.lowMark : Nat → Nat

/-- A free physical frame the migration engine picks on a die (10 R270). -/
opaque Config.freeFrame : Nat → Nat

/-- The functions and the fused values behind the answers of the root of trust (16 R370, Table 16.5; log 12): SHA-512, the boot ROM, the
digest of the Aunath key, the TDISP interface report of a VF, the alias key that the device secret and measurements give, the certificate
chain that ends in it, a signature under a key, and the answer to a TDISP message. -/
opaque Config.sha512 : List Nat → List Nat
opaque Config.bootRom : List Nat
opaque Config.aunathDigest : List Nat
opaque Config.interfaceReport : Nat → List Nat
opaque Config.aliasKey : List (List Nat) → List Nat
opaque Config.chain : List Nat → List Nat
opaque Config.sign : List Nat → List Nat → Nat → List Nat
opaque Config.tdispAnswer : Nat → List Nat

/-- The selective IDE stream of a VF (16 Table 16.1 gives at most four; log 7). -/
opaque Config.ideStream : Nat → BitVec 2

/-- Whether an image's ECDSA P-521 signature verifies against the fused Aunath key (16 R369). -/
opaque Config.signatureOk : List Nat → Bool

/-- ACLK in kHz under a power cap in W, whatever the draw (01 R15; log 13). -/
opaque Config.aclkUnderCap : Nat → Nat

/-- ACLK in kHz after an excursion above the cap (21 R469). -/
opaque Config.aclkBelow : Nat → Nat

/-- A value that the manual leaves undefined or does not state, drawn anew each time. -/
opaque Config.undefinedBits : Nat → Nat

/-- A byte of a part of a core dump whose contents the manual names and whose layout it does not give, by the contents and its place (18 Table
18.7; log 61). -/
opaque Config.dumpByte : List Nat → Nat → BitVec 8

/-- A byte of memory under a destroyed key (16 R368), by the draw and its key. -/
opaque Config.cipherByte : Nat → Nat → BitVec 8

/-- What comes from outside next, if anything does: requests through BAR2, writes of control pages, requests of other packages, link and
security events, soft errors (log 1). -/
opaque Config.external : Nat → Option Instr

end Sys2Proof
end

