-- ==== Sys2Proof/Machine/Table.lean ====
section
/-! DEFINITION. Finite maps from naturals as sorted lists of pairs: `Table` for records by name, and the sparse form for storage whose
unlisted keys read as a default. Memory, register files and accumulator banks are sparse tables. -/

namespace Sys2Proof.Machine

/-- Pairs of key and value in increasing key order. -/
abbrev Table (α : Type) := List (Nat × α)

/-- The value under a key. -/
def tget {α : Type} : Table α → Nat → Option α
  | [], _ => none
  | (k', v) :: t, k => if k' = k then some v else tget t k

/-- The table with `v` under `k`. -/
def tset {α : Type} : Table α → Nat → α → Table α
  | [], k, v => [(k, v)]
  | (k', v') :: t, k, v =>
    if k < k' then (k, v) :: (k', v') :: t
    else if k = k' then (k, v) :: t
    else (k', v') :: tset t k v

/-- The table with nothing under `k`. -/
def tdel {α : Type} : Table α → Nat → Table α
  | [], _ => []
  | (k', v') :: t, k => if k' = k then tdel t k else (k', v') :: tdel t k

/-- The value under a key, or the default. -/
def tgetD {α : Type} (t : Table α) (k : Nat) (d : α) : α := (tget t k).getD d

/-- The table with the value under `k`, when there is one, changed by `f`. -/
def tmod {α : Type} (t : Table α) (k : Nat) (f : α → α) : Table α :=
  match tget t k with
  | some v => tset t k (f v)
  | none => t

/-- The values of a table. -/
def tvals {α : Type} (t : Table α) : List α := t.map (·.2)

/-- Every key is above `lo` and they rise strictly. -/
def sortedFrom {α : Type} : Nat → Table α → Bool
  | _, [] => true
  | lo, (k, _) :: t => decide (lo ≤ k) && sortedFrom (k + 1) t

/-- A sparse table: unlisted keys read as `d`. -/
def sget {α : Type} (d : α) (t : Table α) (k : Nat) : α := tgetD t k d

/-- Writing to a sparse table; writing the default removes the entry, so that equal contents are equal lists. -/
def sset {α : Type} [DecidableEq α] (d : α) (t : Table α) (k : Nat) (v : α) : Table α :=
  if v = d then tdel t k else tset t k v

/-- The canonical form of a sparse table: keys rise strictly, and no entry equals the default. -/
def sparseWf {α : Type} [DecidableEq α] (d : α) (t : Table α) : Bool :=
  sortedFrom 0 t && t.all fun e => decide (e.2 ≠ d)

end Sys2Proof.Machine
end

