-- ==== Sys2Proof/Machine/State.lean ====
section
/-! DEFINITION. The state of a Z7 module: everything the manual names, as plain data (INVENTORY.md, State). Records that come and go
(contexts, grids, blocks, squads, threads, accesses) stand in tables by a name the model gives them; the fixed parts of the device
(cores, quads, dies) stand in tables by their numbers of 01 R9, where a part not listed is in its reset state. -/

namespace Sys2Proof.Machine

/-- Memory: (address, byte) pairs in canonical form. Keys below 2^48 are physical addresses (10 R251); keys above are the bytes of
block scratchpads (log 4). -/
abbrev Memory := List Host.Cell

/-! ## Threads -/

/-- What a fault says of itself before it is taken: code, ADDR and DETAIL of the code's table, and the fields of INFO (18 R402, R403). -/
structure FaultInfo where
  code : Nat
  addr : Word := 0
  detail : Nat := 0
  /-- VALUE of TRAP. -/
  value : Nat := 0
  strm : Nat := 0
  pred : Nat := 0
  size : Nat := 0
  /-- 0 none, 1 read, 2 write, 3 read-write. -/
  kind : Nat := 0
  logged : Bool := false
deriving DecidableEq, Repr

/-- A fault record (18 Table 18.4). -/
structure FaultRecord where
  code : Nat
  core : Nat
  launch : Nat
  bid : Nat
  tid : Nat
  noThread : Bool
  pc : Word
  disp : Nat
  nested : Bool
  addr : Word
  /-- DETAIL of the code's entry, which goes to a frame or a notice: the 32 bytes of the record hold none. -/
  detail : Nat := 0
deriving DecidableEq, Repr

/-- What a REGION writes (03 Table 3.10). `vals` lists the selected positions; the manual leaves the others undefined. -/
structure Checkpoint where
  vals : Table Word := []
  start : Word := 0
  base : Nat := 0
  mask : Nat := 0
  preds : BitVec 7 := 0
  cdepth : Nat := 0
  x : Table (BitVec 16) := []
  fpmode : BitVec 32 := 1
  srctr : BitVec 32 := 0
deriving DecidableEq, Repr

/-- A trap frame (18 Table 18.5): the slot copy, then the fields of the fault. -/
structure TrapFrame where
  slot : Checkpoint := {}
  code : Nat := 0
  fpc : Word := 0
  isOpen : Bool := false
  addr : Word := 0
  info : Word := 0
  ord : Word := 0
  /-- STRMs: PC and PRED of the oldest access of stream s. -/
  strms : Table Word := []
deriving DecidableEq, Repr

/-- Where a thread must execute REGION next (02 R42, 06 R139, 18 R406). -/
inductive Owed where
  | nothing
  /-- After a committing instruction or one of R218. -/
  | afterCommit
  /-- After a RET. -/
  | afterRet
  /-- At the entry of a user handler. -/
  | atHandler
  /-- In a REGION that waits for a load: it has begun and must write its slot (12 R318). -/
  | begun
deriving DecidableEq, Repr

/-- Why a thread does not issue (02 R51). -/
inductive Wait where
  | ready
  | jwait (m : Nat)
  /-- BWAIT: the access that waits. -/
  | bwait (acc : Nat)
  /-- SLEEP: cycles left, and the PC after it. -/
  | sleep (left : Nat) (next : Word)
  /-- A synchronising site (08 R188): PC, member set, guard, and the instruction that stands there. -/
  | site (pc : Word) (members : BitVec 32) (guard : Bool) (i : Instr)
  /-- An access that met an absent page while its core's operand log was full (13 R338). -/
  | log
  /-- A fetch, or the fetch of a check (19 R424, R426, R427), at a VA whose page is not resident (13 R343). -/
  | fetch (va : Nat)
  /-- A slice move that waits for its bank (09 R244): the bank, the commands on it that had been accepted when the move issued, and its
  place in the order of acceptance (12 R324). -/
  | slice (bank : Nat) (before : List Nat) (since : Nat)
deriving DecidableEq, Repr

/-- A thread (02 R19; 03 Table 3.1). -/
structure Thread where
  blk : Nat
  sq : Nat
  lane : Nat
  tid : Nat
  v : Table Word := []
  p : BitVec 7 := 0
  x : Table (BitVec 16) := []
  fpmode : BitVec 32 := 1
  srctr : BitVec 32 := 0
  beads : Table Nat := []
  link : Table Word := []
  cdepth : Nat := 0
  pc : Word := 0
  slot : Checkpoint := {}
  frame : TrapFrame := {}
  live : Bool := true
  wait : Wait := .ready
  broken : BitVec 8 := 0
  /-- The asynchronous fault not yet delivered, with the PC of its instruction (18 R410). -/
  held : Option (FaultInfo × Word) := none
  /-- When the fault that is held was detected, among the names given out (18 R413; log 3). -/
  heldAt : Nat := 0
  owed : Owed := .nothing
  /-- A TRAP that has executed and whose REGION has not: VALUE and PC (06 R153). -/
  trap : Option (Nat × Word) := none
  /-- The access of the committing instruction before the REGION that is owed (13 R340). -/
  commit : Option Nat := none
  /-- The bundle that this thread has entered and read, with its words; its BCW check has been passed (05 R104, R106). -/
  entered : Option (Word × List Nat) := none
  parked : Bool := false
  /-- A slice move on this bank has waited and may now execute (09 R244). -/
  pass : Option Nat := none
  /-- The PC at which the thread executes once past an enabled comparator (17 R383). -/
  stepOver : Option Word := none
  /-- Stopped by a halt of its context (18 R411). -/
  stopped : Bool := false
  /-- The frame was written by the halt's own faults (18 R411 step 4). -/
  framed : Bool := false
deriving DecidableEq, Repr

/-! ## Squads, blocks, grids -/

/-- A squad (03 R59; 12 R312). `core` and `slot` hold while it is resident. -/
structure Squad where
  blk : Nat
  num : Nat
  core : Nat
  slot : Nat
  s : Table Word := []
  j : Table (BitVec 32) := []
  resident : Bool := true
  /-- This squad alone is to be discarded and restarted (02 Table 2.5, last cause). -/
  replay : Bool := false
  /-- It has been discarded so, and waits for the stores it issued before (02 R48). -/
  draining : Bool := false
  qt : Nat := 4
  last : Nat := 0
  lp : Nat := 0
deriving DecidableEq, Repr

/-- A cause of discard (02 Table 2.5). -/
inductive DiscardCause where
  | swap | slice | stop | hold | softError
deriving DecidableEq, Repr

/-- Whether a block is on its quad. -/
inductive BlockStatus where
  | resident
  | discarding (cause : DiscardCause) (cycles : Nat)
  | discarded (cause : DiscardCause)
  /-- Every thread has exited (02 R29); the record stays until its grid retires. -/
  | complete
deriving DecidableEq, Repr

/-- A block B of R309: one of the restart list, or the next block of a grid, by its linear index. -/
inductive NextBlock where
  | restart (blk : Nat)
  | fresh (grid bid : Nat)
deriving DecidableEq, Repr

/-- A block that has been placed (02 R26 to R29; 03 Table 3.1). -/
structure Block where
  grid : Nat
  ctx : Nat
  bid : Nat
  die : Nat
  /-- Quad number on the die. -/
  quad : Nat
  rank0 : Nat
  ncore : Nat
  nthreads : Nat
  nsq : Nat
  perCore : Nat
  allot : Nat
  scratch : Nat
  prio : Nat
  h : Table (BitVec 128) := []
  srseed : Word := 0
  leader : Option Nat := none
  banks : BitVec 16 := 0
  /-- References held, by handle: BALLOCs and BREFs less BFREEs (09 R224). -/
  refs : Table Int := []
  status : BlockStatus := .resident
  /-- Its placement number on each of its cores, by rank in the block (12 R312). -/
  placeNo : List Nat := []
  /-- The cycle of the most recent placement on the quad (12 Table 12.2). -/
  placedAt : Nat := 0
  /-- Placed by a swap and not yet issued (12 R316). -/
  bySwap : Bool := false
deriving DecidableEq, Repr

/-- A launch record (02 Table 2.3). -/
structure LaunchRecord where
  entry : Word
  gx : Nat
  gy : Nat
  gz : Nat
  bx : Nat
  byy : Nat
  bz : Nat
  regs : Nat
  scratch : Nat
  args : Word
  done : BitVec 32
  flags : BitVec 32
  handler : Word
  /-- The reserved bytes, as read. -/
  rsv : Word
deriving DecidableEq, Repr

/-- A grid from its acceptance to its retirement (02 R30 to R36). -/
structure Grid where
  launch : BitVec 32
  ctx : Nat
  rc : LaunchRecord
  depth : Nat
  prio : Nat
  nextBid : Nat := 0
  doneBlocks : Nat := 0
  parent : Option Nat := none
  /-- The launching block and the PC of its LAUNCH (20 R442). -/
  by_ : Option (Nat × Word) := none
  /-- What every access of the grid comes after, as a clock (11 Table 11.3, launch). -/
  since : List Nat := [0, 0, 0, 0]
  /-- What the accesses of its blocks that have completed, and of its descendants, make known (11 Table 11.3, grid retirement). -/
  known : List Nat := [0, 0, 0, 0]
  /-- Retired grids stay until their DONE arrival has been made. -/
  retired : Bool := false
deriving DecidableEq, Repr

/-! ## Contexts -/

/-- The descriptor of a context (16 Table 16.4). -/
structure CtxDesc where
  id : Nat
  dieset : Nat
  cflags : Nat
  tdi : Nat
  promote : Nat
  savepa : Nat
  savemax : Nat
  launch : Nat
  slice : Nat
  swaplog : Nat
  rklog : Nat
  shwin : Nat
deriving DecidableEq, Repr

/-- The pending report of a page that is not resident (13 R337; 16 R359). -/
structure Report where
  /-- VA of the page's first byte. -/
  page : Nat
  /-- VA of the access that opened the report. -/
  va : Nat
  kind : Nat
  level : Nat
  engine : Bool
  /-- The Supervisor has declared the page unresolvable, until a MAP makes it resident (20 R436; log 19). -/
  unresolvable : Bool := false
deriving DecidableEq, Repr

/-- The state of a context (16 QUERY; 18 R411). -/
inductive CtxStatus where
  | active
  | halting
  | faulted
  | stopping (page seq : Nat)
deriving DecidableEq, Repr

/-- A context (16 R362; 18 R411 to R413). -/
structure Context where
  desc : CtxDesc
  banked : Bool
  root : Nat
  status : CtxStatus := .active
  /-- PAs of the page tables allotted in the save region, the root first (13 R327). -/
  tables : List Nat := []
  reports : List Report := []
  /-- Shared windows of a secure context: VA base and length (16 Table 16.4). -/
  windows : List (Nat × Nat) := []
  primary : Option FaultRecord := none
  secondaries : List FaultRecord := []
  lostSec : Bool := false
  /-- $clk and $time at the halt, and how many of the secondaries were raised in its cycle (18 R413, Table 18.8). -/
  haltClk : Word := 0
  haltTime : Nat := 0
  haltMates : Nat := 0
  noGrids : Bool := false
  dump : List Byte := []
  dumpFlags : Nat := 0
  /-- The dump's parts Log: operand-log entries cancelled at the halt. -/
  logDump : List (List Byte) := []
  /-- Device key ids by region number (16 R367). -/
  keys : Table Nat := []
  keysDestroyed : Bool := false
deriving DecidableEq, Repr

/-! ## Accesses in flight -/

/-- A register that an access will write when it is performed. `n` is the register, `k` the index of its 8-byte part. -/
inductive Dest where
  | v (n k : Nat)
  | s (n k : Nat)
  | p (n : Nat)
deriving DecidableEq, Repr

/-- An atomic operation of 08 Table 8.7, by its operation code; 9 is ATOMC. -/
structure AtomOp where
  code : Nat
  var : Bool
deriving DecidableEq, Repr

/-- The direction of a BCOPY (09 R234). -/
inductive CopyDir where
  | ld | st | sp
deriving DecidableEq, Repr

/-- What a synchronisation access does at its unit (09 R225 to R227, 08 R213). -/
inductive SyncOp where
  | expect (arr bytes : Nat)
  | arrive (count bytes : Nat)
  | wait (phase : Nat)
  | test (phase : Nat)
  | cjoin (clove n : Nat)
  | cleave (clove : Nat)
deriving DecidableEq, Repr

/-- An asynchronous operation (09 R229). Registers are those read at issue. -/
inductive EngineOp where
  /-- `src` is the record or, for .sp, the source; `c0`, `c1`, `c2` the coordinate registers, `c0` the length for .sp. -/
  | copy (dir : CopyDir) (clove : Bool) (src dst c0 c1 c2 : Word)
  | gather (record dst list : Word) (n : Nat)
  | scatter (record src list : Word) (n : Nat) (rowAtomic : Bool)
  | trecld (record c0 c1 c2 : Word)
deriving DecidableEq, Repr

/-- A Reckoner command (09 Table 9.7), with the tile handles read at issue (03 R69). -/
structure Command where
  id : Nat
  pre0 : Nat
  pre1 : Nat
  mode : Nat
  bank : Nat
  trans : Nat
  m : Nat
  n : Nat
  k : Nat
  ah : BitVec 128
  bh : BitVec 128
  ash : Option (BitVec 128)
  bsh : Option (BitVec 128)
  topk : Nat
  order : Nat
  done : BitVec 32
deriving DecidableEq, Repr

/-- A place an engine reads or writes, as a bit number: 8·key of memory, or 8·VA of the context. -/
inductive Spot where
  | key (bit : Nat)
  | va (bit : Nat)
deriving DecidableEq, Repr

/-- Where bits of an engine's write come from: `n` bits of memory, or a value of `n` bits. -/
inductive Source where
  | mem (x : Spot) (n : Nat)
  | value (n v : Nat)
deriving DecidableEq, Repr

/-- One step of an engine's work; lengths in bits. -/
inductive Part where
  /-- Write bits from these sources, first bits first, in one write. -/
  | put (dst : Spot) (srcs : List Source)
  /-- Wait until the version word at the VA is even, then make it odd (09 R240). -/
  | lock (va : Nat)
  /-- Make the version word even again. -/
  | unlock (va : Nat)
  /-- A row under its version word at `va`: attempt `attempt` of list entry `entry` (09 R239), with the version that the attempt has read and
  the writes of the row that it has made. -/
  | versioned (va : Nat) (src dst : Spot) (n attempt entry : Nat) (seen : Option Nat) (made : Nat)
deriving DecidableEq, Repr

/-- Where an access stands between issue and completion. -/
inductive Stage where
  /-- Issued; not yet performed at its place. -/
  | issued
  /-- A store that home die `home` has performed and whose acknowledgement is on its way (11 R297), with the stamp. -/
  | acked (home : Nat) (stamp : List Nat)
  /-- A load that has returned a store of its own thread, which has not been performed: the store's name, and the name of the next access
  when the value was returned (11 R282, R295; log 40). -/
  | bound (store upto : Nat)
  /-- Held in the operand log for a page (13 R338). -/
  | logged (page : Nat)
  /-- Sent to the host or to another package (10 R277, 16 R366). -/
  | sent
  /-- Waiting in a clove hold (10 R274), or behind a fifth one (10 R273); `record` holds the record's
  bytes as read. -/
  | inHold (die clove seq record : Nat)
  | behindHolds (record : Nat)
  /-- A record read has been made; the engine moves these parts, then credits `credit` bytes. `held` are parts that met a page that is
  not resident (13 R342); `told` says that a failure has been delivered. -/
  | moving (parts : List Part) (held : List (Nat × Part)) (credit : Nat) (told : Bool)
  /-- Every byte is performed and the credit is on its way. -/
  | crediting
  /-- A command accepted by the sequencer, with the predecessors it bound (09 R248) and its place in the order of acceptance (12 R324). -/
  | accepted (preds : List Nat) (since : Nat)
  /-- A command that executes, for so many cycles. -/
  | executing (cycles : Nat)
  /-- A far atomic whose packet stands at the base die (10 R268). -/
  | atBase
  /-- Cancelled; its destinations stay pending until the thread takes the fault (20 R438). -/
  | cancelled
deriving DecidableEq, Repr

/-- What an access does (11 Table 11.1). -/
inductive AccessKind where
  | load
  | store
  | atomic (op : AtomOp) (returns : Bool)
  | launch
  | engine (op : EngineOp)
  | mma (c : Command)
  | sync (op : SyncOp)
deriving DecidableEq, Repr

/-- An access that has issued and has not been performed (11 R279). Accesses stand in increasing `id`, which is program order within a
thread. -/
structure Access where
  id : Nat
  thr : Nat
  blk : Nat
  ctx : Nat
  core : Nat
  pc : Word
  /-- The encoding of its instruction (13 R338). -/
  code : List Nat := []
  /-- The execution of the instruction that issued it: lanes of one issue group share it (08 R205, R210). -/
  execId : Nat
  strm : Nat
  pred : Nat
  kind : AccessKind
  /-- Effective address, or the barrier handle of a synchronisation access. -/
  ea : Word
  size : Nat := 0
  scope : Nat := 0
  ro : Bool := false
  /-- Where the bytes are, by the key of the first byte; none while the page is not resident, and in space 4. -/
  key : Option Nat := none
  data : Nat := 0
  data2 : Nat := 0
  /-- Byte offsets that a higher lane of the same execution writes (08 R205). -/
  masked : List Nat := []
  /-- The 8-byte parts of a wide access that have been performed; a load keeps their bytes in `data` (08 R200, 11 R292). -/
  got : List Nat := []
  /-- A peer probe that its load has sent and that has not been answered: the core probed, and the line (10 R261). -/
  probe : Option (Nat × Nat) := none
  /-- The line for which its probe has been answered. -/
  probed : Option Nat := none
  /-- Places that stores of higher lanes of its execution have written, while its own page was absent: first key and length (08 R205). -/
  shadow : List (Nat × Nat) := []
  /-- What the load of the highest of its `waiters` that has been performed returned: its name and value (08 R203). -/
  lent : Option (Nat × Nat) := none
  /-- The index list of a gather or scatter, as translated: the VA at which each page's piece begins, and its place (13 R333). -/
  listAt : List (Nat × Nat) := []
  /-- The no-allocate hint of the record of an operation (09 R232). -/
  noAlloc : Bool := false
  dests : List Dest := []
  /-- Threads of lower lanes of the execution, which wait for the S registers that this access writes in their stead (08 R203). -/
  waiters : List Nat := []
  /-- Counted in the thread's bead counter (02 R49). -/
  counted : Bool := true
  /-- It has stood in the operand log (13 R338, R340; INFO[LOGGED]). -/
  wasLogged : Bool := false
  stage : Stage := .issued
  /-- The barrier an operation credits. -/
  barrier : BitVec 32 := 0
  /-- $time at which a request left the package (21 R466). -/
  sentAt : Nat := 0
deriving DecidableEq, Repr

/-- The acknowledgement, on its way to die `dst`, of a part of a wide store that home `home` has performed (11 R292, R297); the
acknowledgement of a store's last part stands in its stage. -/
structure Ack where
  acc : Nat
  part : Nat
  home : Nat
  dst : Nat
  stamp : List Nat
  /-- What the part wrote: address, length and value of each run of bytes. -/
  puts : List (Nat × Nat × Nat) := []
deriving DecidableEq, Repr

/-- A byte credit of an engine on its way to a barrier (09 R231). -/
structure Credit where
  handle : BitVec 32
  bytes : Nat
  /-- Thread and block of the operation, for BARRIER_STALE (20 R441). -/
  thr : Nat
  blk : Nat
  ctx : Nat
  pc : Word
  /-- 1 engine credit, 2 command, 3 grid (DETAIL of BARRIER_STALE). -/
  origin : Nat
  /-- Arrivals with it: 1 for a DONE arrival. -/
  arrivals : Nat := 0
  /-- The operation that is performed once this credit has been applied; 0 for none. -/
  acc : Nat := 0
  /-- The clock that the message carries (11 Table 11.6). -/
  stamp : List Nat := []
deriving DecidableEq, Repr

/-! ## Quads -/

/-- A barrier slot (09 Table 9.4). -/
structure BarrierSlot where
  allot : Bool := false
  gen : Nat := 0
  hold : Nat := 0
  ctx : Nat := 0
  init : Nat := 0
  arr : Int := 0
  bytes : Int := 0
  phase : Nat := 0
deriving DecidableEq, Repr

/-- A physical accumulator bank (12 R321). `data` is keyed by 128·row + column. -/
structure Bank where
  occupant : Option Nat := none
  dirty : Bool := false
  /-- The occupant's contents have been saved while clean (12 R322). -/
  saved : Bool := false
  /-- Cycles since the occupant last became occupant (12 R324). -/
  held : Nat := 0
  data : Table (BitVec 32) := []
  poisoned : Bool := false
  /-- Elements of a poisoned bank that ACWRR and ACWRC have written since (20 R455). -/
  cured : Table Bool := []
  /-- Elements that slice moves of this cycle have written, with the thread index of the last writer (09 R244). -/
  wrote : Table Nat := []
  /-- The block for which a handover is under way (12 R323). -/
  handover : Option Nat := none
deriving DecidableEq, Repr

/-- A bank in its save area (12 R321), with its poison (20 R455). -/
structure SavedBank where
  data : Table (BitVec 32) := []
  poisoned : Bool := false
  cured : Table Bool := []
deriving DecidableEq, Repr

/-- A watchpoint (17 Table 17.3). -/
structure Watchpoint where
  addr : Word := 0
  ctl : Word := 0
deriving DecidableEq, Repr

/-- An entry of a translation buffer (13 R334). -/
structure TlbEntry where
  ctx : Nat
  /-- VA of the page's first byte. -/
  page : Nat
  level : Nat
  pte : Word
  frame : Nat
deriving DecidableEq, Repr

/-- A quad (01 R8; keyed by 48·die + quad). -/
structure Quad where
  slots : Table BarrierSlot := []
  banks : Table Bank := []
  /-- Cycles the Reckoner has had a startable command and executed none (21 R461). -/
  idleReck : Nat := 0
  hung : Bool := false
  /-- The name that was next when the Reckoner was declared hung: commands accepted later wait for the end of the reset (21 R461). -/
  hungAt : Nat := 0
  frozen : Bool := false
  cause : Nat := 0
  /-- Cycles in which the slots still issue after a stop has frozen the quad (17 R379, R381, R382). -/
  skidLeft : Nat := 0
  frozenFor : Nat := 0
  watch : Table Watchpoint := []
  comps : Table Word := []
  tlb : List TlbEntry := []
  ahead : List TlbEntry := []
deriving DecidableEq, Repr

/-! ## Cores -/

/-- A trace record (17 Table 17.8) without its sequence number. -/
structure TraceRecord where
  type : Nat
  code : Nat
  core : Nat := 0xFFFF
  time : Word := 0
  clk : Word := 0
  launch : Nat := 0
  tid : Nat := 0
  bid : Nat := 0
  a : Word := 0
  b : Word := 0
  c : Word := 0
deriving DecidableEq, Repr

/-- A run that holds an issue slot (02 R38). -/
structure Run where
  blk : Nat
  sq : Nat
  lanes : BitVec 32
  count : Nat := 0
  /-- Cycles without an issue (02 R38, stall break). -/
  idle : Nat := 0
  /-- BCW[YIELD] of the bundle of its last instruction (12 R314). -/
  yld : Bool := false
deriving DecidableEq, Repr

/-- The counters of a core (17 Table 17.5), by offset / 8. -/
abbrev Counters := Table Word

/-- A core (keyed by device core number). -/
structure Core where
  slot0 : Option Run := none
  slot1 : Option Run := none
  /-- Arbitration count (12 R312). -/
  n : Nat := 0
  /-- Cycles with no issue (12 R316). -/
  idle : Nat := 0
  placements : Nat := 0
  tlb : List TlbEntry := []
  /-- Peer predictor: entry j holds a VA tag and a die core number (10 R261). -/
  predictor : Table (Nat × Nat) := []
  counters : Counters := []
  /-- The SAMPLE record that is due (17 R388). -/
  sample : Option TraceRecord := none
  /-- The squads of the instructions issued in this cycle (17 R386). -/
  now : List (Nat × Nat) := []
  /-- The squads of the instructions issued since a stop whose SKID records are not yet written, its cycle included (17 R381). -/
  issued : List (Nat × Nat) := []
  /-- A progress swap: the victim and the waiting block for which it makes room (12 R316). -/
  swapping : Option (Nat × NextBlock) := none
deriving DecidableEq, Repr

/-! ## Dies -/

/-- A clove (08 R213), keyed by its number; members are pairs (core, block) with their next sequence number. -/
structure Clove where
  active : Bool := false
  n : Nat := 0
  reached : Bool := false
  timer : Nat := 0
  ctx : Nat := 0
  members : List ((Nat × Nat) × Nat) := []
  /-- Sequence numbers below this one have been released. -/
  nextSeq : Nat := 0
  full : Word := 0
  timerRel : Word := 0
  stragglers : Word := 0
deriving DecidableEq, Repr

/-- A clove hold (10 R273): the members that asked, in order, by access. -/
structure Hold where
  clove : Nat
  seq : Nat
  reqs : List Nat
  left : Nat
  /-- Released, and waiting for a page or a line of its box (13 R342). -/
  released : Bool := false
  /-- Its hold slice: an L2 or RDC, with the slice number (10 R273). -/
  slice : Option (Bool × Nat × Nat) := none
deriving DecidableEq, Repr

/-- A compute die with its cache die. -/
structure Die where
  active : Option Nat := none
  sliceLeft : Nat := 0
  /-- The active context is leaving (12 R306). -/
  leaving : Bool := false
  restart : List Nat := []
  q0 : Nat := 0
  clock : List Nat := [0, 0, 0, 0]
  cloves : Table Clove := []
  holds : List Hold := []
  lastCtx : Nat := 0
deriving DecidableEq, Repr

/-! ## Caches, pages and packets -/

/-- A line present at a level: valid and dirty sectors, the directory's exclusive mark, and for the RDC the bytes it holds. -/
structure Line where
  level : Level
  line : Nat
  valid : BitVec 4 := 15
  dirty : BitVec 4 := 0
  excl : Bool := false
  /-- Bytes of an RDC line, first byte lowest; other levels hold no bytes of their own (log 10). -/
  bytes : BitVec 1024 := 0
  /-- The set of the level's slice in which it stands. -/
  set : Nat := 0
  /-- Poisoned sectors of an RDC line's bytes (20 R452). -/
  poison : BitVec 4 := 0
  /-- The home's own count when an RDC line was filled or last updated (11 R297). -/
  seen : Nat := 0
deriving DecidableEq, Repr

/-- A write notice on its way to a die (10 R264, 11 R297). -/
structure Notice where
  src : Nat
  dst : Nat
  line : Nat
  stamp : List Nat
deriving DecidableEq, Repr

/-- A packet at a base die (10 Table 10.6). -/
inductive Packet where
  /-- `rdcs`: the dies whose RDC a PREF asked to fill when the line comes (10 R278). -/
  | read (tag line : Nat) (sectors : BitVec 4) (noAlloc : Bool) (rdcs : BitVec 4)
  | write (tag line : Nat) (sectors : BitVec 4)
  | atomic (tag acc : Nat)
  | walk (tag walk : Nat)
deriving DecidableEq, Repr

/-- A walk in progress (13 R331): who asked, for a walk-ahead buffer or not (13 R335), and the table it reads next. -/
structure Walk where
  id : Nat
  ctx : Nat
  va : Nat
  core : Nat
  ahead : Bool
  level : Nat
  table : Nat
  /-- It holds a walk unit of the stack of `table`; else it waits in that base die's queue, in arrival order (13 R332). -/
  inUnit : Bool := false
  /-- It has been sent to the base die of its root table; else its requester keeps it until that base die has a place (log 76). -/
  sent : Bool := true
  /-- The table read next stands at a base die that cannot take the walk yet (13 R332). -/
  next : Option Nat := none
deriving DecidableEq, Repr

/-- What the machine keeps of a physical page beside its PTE (10 R258, R270, R271). -/
structure PageInfo where
  /-- A write has reached the page since it was claimed. -/
  written : Bool := false
  /-- Accesses of the epoch by die, and whether one wrote. -/
  counts : List Nat := [0, 0, 0, 0]
  wrote : Bool := false
  /-- The dies that read the page in the epoch (10 R271). -/
  readBy : BitVec 4 := 0
  /-- Sums of the last epochs, newest first. -/
  epochs : List Nat := []
  /-- The core of each die that the home slice filled last with a line of the page (10 R261). -/
  lastFill : Table Nat := []
deriving DecidableEq, Repr

/-- A migration under way (10 R270), keyed by context and page. -/
structure Migration where
  ctx : Nat
  va : Nat
  frame : Nat
deriving DecidableEq, Repr

/-- A collapse under way (10 R272, 20 R450). -/
structure Collapse where
  ctx : Nat
  va : Nat
  /-- Die and home slice of the page's first line, as 48·die + slice. -/
  home : Nat
  /-- Dies yet to acknowledge, with the cycles since the last invalidate and whether it was the second. -/
  waiting : List (Nat × Nat × Bool)
  /-- A die stayed silent: the page stays duplicated and is never written (20 R450). -/
  failed : Bool := false
deriving DecidableEq, Repr

/-! ## The control plane -/

/-- An entry of an event queue before its sequence number is given (16 R359). -/
structure Event where
  code : Nat
  ctx : Nat
  arg0 : Word := 0
  arg1 : Word := 0
deriving DecidableEq, Repr

/-- The command block of a mailbox, as read at the doorbell (16 Table 16.2). -/
structure Mailbox where
  code : Nat
  seq : Nat
  ctx : Nat
  arg0 : Word
  arg1 : Word
  arg2 : Word
  arg3 : Word
  /-- A reserved byte is non-zero. -/
  rsv : Bool
deriving DecidableEq, Repr

/-- How far a command that is outstanding has come. -/
inductive CmdStage where
  | fresh
  /-- A shootdown waits for the accesses named below `upto` that were translated in the range (16 R364; 13 R336). -/
  | shootdown (upto va len : Nat)
  /-- A QUERY completes once its entry stands in the page's queue (16 R359). -/
  | posting
deriving DecidableEq, Repr

/-- A control page (16 Table 16.2): pages 0 to 3 of the masters, page 3 + v of VF v. -/
structure Page where
  cmdDone : Word := 0
  evqBase : Word := 0
  evqSize : Nat := 0
  evqHead : Nat := 0
  evqTail : Nat := 0
  /-- The bytes of MBOX. -/
  mbox : Table Byte := []
  /-- The command being executed. -/
  cmd : Option Mailbox := none
  stage : CmdStage := .fresh
  /-- Events that wait for a free entry, in order. -/
  waiting : List Event := []
  /-- Entries written since module reset. -/
  seq : Nat := 0
deriving DecidableEq, Repr

/-- The states of a TDI (16 Table 16.1). -/
inductive TdiState where
  | unlocked | locked | run | error
deriving DecidableEq, Repr

/-- An image of firmware (16 R369). -/
structure Image where
  bytes : List Nat := []
  svn : Nat := 0
deriving DecidableEq, Repr

/-- Firmware and root of trust (16 R369, R370). -/
structure Firmware where
  supervisor : Image := {}
  management : Image := {}
  stagedSup : Option Image := none
  stagedMgmt : Option Image := none
  minSup : Nat := 0
  minMgmt : Nat := 0
  /-- The debug-enable fuse of measurement block 4 (17 R375). -/
  debugFuse : Bool := false
  /-- Answers given on the DOE mailbox and over MCTP, newest first. -/
  answers : List (Bool × List Nat) := []
deriving DecidableEq, Repr

/-- Hold (16 R371). -/
structure HoldState where
  pin : Bool := false
  cmd : Bool := false
  entering : Bool := false
  inHold : Bool := false
  exiting : Bool := false
  /-- ACLK cycles since the request. -/
  elapsed : Nat := 0
  /-- The step of Table 16.6 under way, its ACLK cycles, and the steps whose overrun has been logged. -/
  step : Nat := 1
  inStep : Nat := 0
  overran : List Nat := []
  /-- Contexts active at entry, by die. -/
  activeAt : Table Nat := []
  clkAt : Word := 0
  /-- Set when the Reckoners have been reset at the entry limit (21 R468). -/
  overrun : Bool := false
  /-- CTX_FAULT events of halts that ended during entry, which are posted after exit: context and event (18 Table 18.8). -/
  late : List (Nat × Event) := []
  /-- A stop that a failed exit leaves for good (21 R469). -/
  failed : Bool := false
deriving DecidableEq, Repr

/-- An entry of the management plane's error log: the fault record of a notice, of disposition 3, and its DETAIL (18 R398, R402). -/
structure ErrorEntry where
  code : Nat
  core : Nat := 0xFFFF
  launch : Nat := 0
  bid : Nat := 0
  tid : Nat := 0
  noThread : Bool := true
  pc : Word := 0
  nested : Bool := false
  addr : Word
  detail : Nat
deriving DecidableEq, Repr

/-! ## Debug -/

/-- The debug window and the trace sink (17 Table 17.1, R390, R391). -/
structure Debug where
  dctl : Word := 0
  denied : Bool := false
  sink : Bool := false
  trBase : Word := 0
  trHead : Nat := 0
  trTail : Nat := 0
  trLost : Nat := 0
  insel : Word := 0
  /-- Records that wait in the sink's buffer, oldest first. -/
  buffer : List TraceRecord := []
  overflow : Bool := false
  /-- A TRUNC that met a full ring, with the TRLOG of that ring (17 R391, R393). -/
  closing : Option (Nat × TraceRecord) := none
  /-- Cycles since the write that set SAMPLE (17 R388). -/
  sampleClk : Nat := 0
  /-- The freeze sets in force: the device quads of each (17 R379). -/
  freezes : List (List Nat) := []
  /-- STOP and RESUME records of this cycle, with their order (17 R382). -/
  stops : List (Nat × TraceRecord) := []
  /-- Freeze sets whose SKID records are still to be written. -/
  skids : List (List Nat) := []
  /-- STEPs that wait for a freeze to take effect (log 14). -/
  later : List Instr := []
  /-- A STEP under way (17 R384): PC before its first instruction, instructions executed, and whether the last was a BRK that stopped. A STEP is under way while `stepN` is not 0. -/
  stepPc : Word := 0
  stepN : Nat := 0
  stepBrk : Bool := false
  /-- The squad that is stepped: block, number and issue slot, and the lowest lane of the last group. -/
  stepBlk : Nat := 0
  stepSq : Nat := 0
  stepSlot : Nat := 0
  stepLane : Nat := 0
  /-- The next issue is a step's. -/
  stepping : Bool := false
deriving DecidableEq, Repr

/-- A route of the fabric managers to a remote package (16 R365, R373): its port, and whether the package is marked as held. -/
structure Route where
  port : Nat := 0
  held : Bool := false
deriving DecidableEq, Repr

/-- Krovlink and the host link (16 R357, R365; 21 R466). -/
structure Links where
  hostUp : Bool := true
  hostWidth : Nat := 16
  /-- Rate of a lane in tenths of a GT/s. -/
  hostRate : Nat := 1280
  /-- The selective IDE streams that are secure (16 Table 16.1; log 7). -/
  streams : BitVec 4 := 0
  /-- Lanes of each Krovlink port that is not at four. -/
  ports : Table Nat := []
  packageId : Nat := 0
  /-- Remote package ids with a route. -/
  routes : Table Route := []
  /-- This package is marked held (16 R373). -/
  marked : Bool := false
deriving DecidableEq, Repr

/-! ## The whole -/

/-- The run whose word was fetched: which threads execute it, at which PC, and what the fetch found (05 R104). -/
structure Latch where
  core : Nat
  slot : Nat
  blk : Nat
  sq : Nat
  lanes : BitVec 32
  pc : Word
  len : Nat
  eor : Bool
  yld : Bool
  /-- The words of the instruction. -/
  code : List Nat := []
  /-- The word that follows the instruction in its bundle; none when it ends at word 15. -/
  follow : Option Nat := none
  /-- The instruction is only tried, to see whether its operands are ready (12 R311; log 1). -/
  trial : Bool := false
  /-- The lanes in which a tried instruction could have issued. -/
  ready : BitVec 32 := 0
deriving DecidableEq, Repr

/-- The state of the machine. -/
structure State where
  /-- The model's own: the events that come next, head first (log 1). -/
  agenda : List Instr := []
  /-- The model's own: the issue slots, core and slot, that issue next, in one cycle (log 1). -/
  focus : List (Nat × Nat) := []
  /-- The model's own: squads whose rejoin and member waits are evaluated at the end of the cycle, by block and number (06 R141; log 1). -/
  unsettled : List (Nat × Nat) := []
  /-- The model's own: what the fetch of this step found (log 1). -/
  latch : Option Latch := none
  /-- The model's own: the ready issue groups of a core, as the step finds them before an arbitration: block, squad, lanes (12 R311; log 1). -/
  offers : List (Nat × Nat × BitVec 32) := []
  /-- The model's own: the argument of the next free value (log 2). -/
  freeN : Nat := 0
  /-- The model's own: the next name of an access, a walk, an execution, a grid or a block (log 3). -/
  nextId : Nat := 1
  clk : Word := 0
  time : Word := 0
  /-- The part of a nanosecond that has passed since $time advanced, in units of 1 / ACLK[kHz] ps (01 R15; 03 R66; log 8). -/
  phase : Nat := 0
  mem : Memory := []
  /-- Poisoned sectors, by key / 32 (20 R452). -/
  poison : List Nat := []
  ctxs : Table Context := []
  grids : Table Grid := []
  blocks : Table Block := []
  squads : Table Squad := []
  threads : Table Thread := []
  accs : List Access := []
  credits : Table Credit := []
  /-- Saved accumulator banks, by 16·block + bank; a listed empty bank is saved as zero (12 R321, R322). -/
  bankSave : Table SavedBank := []
  cores : Table Core := []
  quads : Table Quad := []
  dies : Table Die := []
  lines : List Line := []
  /-- Remote-sharer vectors, by line (10 R263). -/
  sharers : Table (BitVec 4) := []
  notices : List Notice := []
  acks : List Ack := []
  packets : Table (List Packet) := []
  /-- Lines evicted from an MSC that wait for a place at their base die (10 R266, R267). -/
  evicted : List Line := []
  walks : List Walk := []
  /-- By physical page (PA / 65,536). -/
  pages : Table PageInfo := []
  dupMap : Table (List Nat) := []
  migrations : List Migration := []
  collapses : List Collapse := []
  epochLeft : Nat := 1048576
  /-- OWNER (16 Table 16.2): owner, OWNED, target, PENDING. -/
  owner : Nat := 0
  owned : Bool := false
  target : Nat := 0
  pending : Bool := false
  handoverLeft : Nat := 0
  ctl : Table Page := []
  /-- Events for the owner while nobody owns the control plane (16 R359). -/
  ownerEvents : List Event := []
  hold : HoldState := {}
  cap : Nat := 0
  /-- ACLK in kHz (01 R15). -/
  aclk : Nat := 1500000
  tdis : Table TdiState := []
  /-- Bound context of each VF. -/
  bound : Table Nat := []
  links : Links := {}
  firmware : Firmware := {}
  dbg : Debug := {}
  errors : List ErrorEntry := []
  /-- Requests of packages that wait for a page of the export context, in order of arrival (16 R365). -/
  remote : List RemoteReq := []
  /-- Requests through BAR2 that wait, in order of arrival (16 R358). -/
  bar : List Instr := []
  /-- The model's own: the request that the next step performs is one that has waited (log 1). -/
  turn : Bool := false
  /-- What left the device in answer to host reads and atomics and to requests of other packages, newest first: a status, 0 for success,
  and a value. -/
  sentOut : List (Nat × Nat) := []
deriving DecidableEq, Repr

/-- The machine right after module reset: no context, no owner, nothing listed anywhere (03 Table 3.1, 16 R360, 17 Table 17.1). -/
def State.reset : State := {}

/-- Why the machine stops. -/
inductive Fault where
  /-- Raised by HOST_READ, HOST_WRITE, HOST_ATOMIC and SPACE4_REQUEST for an address beyond the space that 10 Table 10.1 and 16 Table 16.1
  lay out: no such byte exists. Safe: no claim about such a request can be proved but that it stops. -/
  | absentAddress
deriving DecidableEq, Repr

/-- Why a step has no meaning. -/
inductive Refusal where
  /-- Raised by an arm of `exec` whose instruction has no meaning in this model. Safe. -/
  | notModelled (mnemonic : String)
deriving DecidableEq, Repr

end Sys2Proof.Machine
end

