-- ==== Sys2Proof/Machine/Ops.lean ====
section
/-! DEFINITION. The named operations over memory, registers and threads, and taking an exception (18 R405, R411) with the return from one
(06 R154). Every meaning is written over these. -/

namespace Sys2Proof.Machine

/-! ## Bytes of memory -/

/-- The byte at a key; a byte that nothing has written reads 0x00 (log 4). -/
def readByte (m : Memory) (k : Nat) : Byte := sget 0 m k

/-- Memory with one byte written, in canonical form. -/
def writeByte (m : Memory) (k : Nat) (v : Byte) : Memory := sset 0 m k v

/-- `n` bytes from a key, little-endian (0 R3). -/
def readBytes (m : Memory) (k : Nat) : Nat → Nat
  | 0 => 0
  | n + 1 => (readByte m k).toNat + 256 * readBytes m (k + 1) n

/-- Memory with the low `n` bytes of `v` written from a key, little-endian. -/
def writeBytes (m : Memory) (k : Nat) : Nat → Nat → Memory
  | 0, _ => m
  | n + 1, v => writeBytes (writeByte m k (BitVec.ofNat 8 v)) (k + 1) n (v / 256)

/-- Memory holds in its canonical form. -/
def Memory.wf (m : Memory) : Bool := sparseWf (0 : Byte) m

/-- The first key of the scratchpad bytes of a block on the core of a quad rank (log 4). -/
def scratchKey (blk rank : Nat) : Nat := 2 ^ 48 + (4 * blk + rank) * 2 ^ 18

/-- Memory with `n` bytes from a key made zero. -/
def clearBytes (m : Memory) (k n : Nat) : Memory := m.filter fun e => decide (e.1 < k ∨ k + n ≤ e.1)

/-- The state with bytes written. -/
def State.writeMem (s : State) (k n v : Nat) : State := { s with mem := writeBytes s.mem k n v }

/-- Bytes of memory as a number. -/
def State.readMem (s : State) (k n : Nat) : Nat := readBytes s.mem k n

/-! ## Numbers of parts (01 R9) -/

/-- The die of a device core. -/
def coreDie (c : Nat) : Nat := c / 192
/-- The device quad (48·die + quad) of a device core. -/
def coreQuad (c : Nat) : Nat := c / 4
/-- The quad rank of a device core. -/
def coreRank (c : Nat) : Nat := c % 4

/-- The key of a thread in the table of threads. -/
def threadKey (blk tid : Nat) : Nat := blk * 2048 + tid
/-- The key of a squad in the table of squads. -/
def squadKey (blk num : Nat) : Nat := blk * 64 + num

/-! ## Records -/

/-- What stands for a thread, a squad, a block, a grid or a context that does not exist. -/
def noThread : Thread := { blk := 0, sq := 0, lane := 0, tid := 0, live := false }
def noSquad : Squad := { blk := 0, num := 0, core := 0, slot := 0, resident := false }
def noBlock : Block :=
  { grid := 0, ctx := 0, bid := 0, die := 0, quad := 0, rank0 := 0, ncore := 1, nthreads := 0, nsq := 0, perCore := 1, allot := 32,
    scratch := 0, prio := 0, status := .discarded .stop }
def noRecord : LaunchRecord :=
  { entry := 0, gx := 1, gy := 1, gz := 1, bx := 1, byy := 1, bz := 1, regs := 32, scratch := 0, args := 0, done := 0, flags := 0,
    handler := 0, rsv := 0 }
def noGrid : Grid := { launch := 0, ctx := 0, rc := noRecord, depth := 1, prio := 0 }
def noDesc : CtxDesc :=
  { id := 0, dieset := 0, cflags := 0, tdi := 0, promote := 0, savepa := 0, savemax := 0, launch := 0, slice := 0, swaplog := 20,
    rklog := 16, shwin := 0 }
def noContext : Context := { desc := noDesc, banked := false, root := 0 }

def State.thr (s : State) (k : Nat) : Thread := tgetD s.threads k noThread
def State.setThr (s : State) (k : Nat) (t : Thread) : State := { s with threads := tset s.threads k t }
def State.modThr (s : State) (k : Nat) (f : Thread → Thread) : State := { s with threads := tmod s.threads k f }
def State.squad (s : State) (b n : Nat) : Squad := tgetD s.squads (squadKey b n) noSquad
def State.modSquad (s : State) (b n : Nat) (f : Squad → Squad) : State := { s with squads := tmod s.squads (squadKey b n) f }
def State.block (s : State) (b : Nat) : Block := tgetD s.blocks b noBlock
def State.modBlock (s : State) (b : Nat) (f : Block → Block) : State := { s with blocks := tmod s.blocks b f }
def State.grid (s : State) (g : Nat) : Grid := tgetD s.grids g noGrid
def State.modGrid (s : State) (g : Nat) (f : Grid → Grid) : State := { s with grids := tmod s.grids g f }
def State.ctx (s : State) (c : Nat) : Context := tgetD s.ctxs c noContext
def State.modCtx (s : State) (c : Nat) (f : Context → Context) : State := { s with ctxs := tmod s.ctxs c f }
def State.core (s : State) (c : Nat) : Core := tgetD s.cores c {}
def State.modCore (s : State) (c : Nat) (f : Core → Core) : State := { s with cores := tset s.cores c (f (s.core c)) }
def State.quad (s : State) (q : Nat) : Quad := tgetD s.quads q {}
def State.modQuad (s : State) (q : Nat) (f : Quad → Quad) : State := { s with quads := tset s.quads q (f (s.quad q)) }
def State.die (s : State) (d : Nat) : Die := tgetD s.dies d {}
def State.modDie (s : State) (d : Nat) (f : Die → Die) : State := { s with dies := tset s.dies d (f (s.die d)) }
def State.page (s : State) (p : Nat) : Page := tgetD s.ctl p {}
def State.modPage (s : State) (p : Nat) (f : Page → Page) : State := { s with ctl := tset s.ctl p (f (s.page p)) }

/-- The freeze of a quad has taken effect: it issues nothing more (17 R379). -/
def Quad.stands (q : Quad) : Bool := q.frozen && q.skidLeft == 0

/-- The access of a name. -/
def State.acc (s : State) (a : Nat) : Option Access := s.accs.find? fun x => x.id == a

/-- The accesses with one changed. -/
def State.modAcc (s : State) (a : Nat) (f : Access → Access) : State :=
  { s with accs := s.accs.map fun x => if x.id = a then f x else x }

/-- The state with the next free value drawn (log 2). -/
def State.draw (s : State) : State := { s with freeN := s.freeN + 1 }

/-- The state with one name given out (log 3). -/
def State.name (s : State) : State := { s with nextId := s.nextId + 1 }

/-- The state with events put at the end of the agenda (log 1). -/
def State.plan (s : State) (es : List Instr) : State := { s with agenda := s.agenda ++ es }

/-! ## What a thread belongs to -/

def State.thrBlock (s : State) (t : Thread) : Block := s.block t.blk
def State.thrGrid (s : State) (t : Thread) : Grid := s.grid (s.thrBlock t).grid
def State.thrCtx (s : State) (t : Thread) : Context := s.ctx (s.thrBlock t).ctx
def State.thrSquad (s : State) (t : Thread) : Squad := s.squad t.blk t.sq

/-- The device core on which a squad of a block runs (02 R27). -/
def blockCore (b : Block) (sq : Nat) : Nat := 192 * b.die + 4 * b.quad + b.rank0 + sq / b.perCore

/-- The device core of a thread. -/
def State.thrCore (s : State) (t : Thread) : Nat := blockCore (s.thrBlock t) t.sq

/-- The device quad of a block. -/
def Block.dquad (b : Block) : Nat := 48 * b.die + b.quad

/-- The threads of a squad that exist, by lane. -/
def squadThreads (b : Block) (blk sq : Nat) : List Nat :=
  (List.range 32).filterMap fun l => if 32 * sq + l < b.nthreads then some (threadKey blk (32 * sq + l)) else none

/-- live(squad) of R130. -/
def State.liveMask (s : State) (blk sq : Nat) : Nat :=
  (squadThreads (s.block blk) blk sq).foldl (fun m k => let t := s.thr k; if t.live then m + 2 ^ t.lane else m) 0

/-- The live threads of a block, by thread index. -/
def State.liveThreads (s : State) (blk : Nat) : List Nat :=
  ((List.range (s.block blk).nthreads).map (threadKey blk)).filter fun k => (s.thr k).live

/-- A context is halting or FAULTED (18 R411, R413). -/
def Context.halted (c : Context) : Bool :=
  match c.status with
  | .halting | .faulted => true
  | _ => false

/-! ## Registers -/

def Thread.readV (t : Thread) (n : Nat) : Word := sget 0 t.v n
def Thread.writeV (t : Thread) (n : Nat) (x : Word) : Thread := { t with v := sset 0 t.v n x }
/-- P7 always reads true (03 R57). -/
def Thread.readP (t : Thread) (n : Nat) : Bool := if n < 7 then t.p.getLsbD n else true
/-- A write of P7 leaves it true (03 R57). -/
def Thread.writeP (t : Thread) (n : Nat) (b : Bool) : Thread :=
  if n < 7 then { t with p := (t.p &&& ~~~(1#7 <<< n)) ||| (if b then 1#7 <<< n else 0) } else t
def Thread.readX (t : Thread) (n : Nat) : BitVec 16 := sget 0 t.x n
def Thread.writeX (t : Thread) (n : Nat) (x : BitVec 16) : Thread := { t with x := sset 0 t.x n x }
def Thread.bead (t : Thread) (n : Nat) : Nat := sget 0 t.beads n
def Thread.setBead (t : Thread) (n k : Nat) : Thread := { t with beads := sset 0 t.beads n k }
def Thread.readLink (t : Thread) (n : Nat) : Word := sget 0 t.link n
def Squad.readS (q : Squad) (n : Nat) : Word := sget 0 q.s n
def Squad.writeS (q : Squad) (n : Nat) (x : Word) : Squad := { q with s := sset 0 q.s n x }
def Squad.readJ (q : Squad) (m : Nat) : BitVec 32 := sget 0 q.j m
def Squad.writeJ (q : Squad) (m : Nat) (x : BitVec 32) : Squad := { q with j := sset 0 q.j m x }

/-- The guard P[g] XOR n (05 R110). -/
def Thread.guard (t : Thread) (g : BitVec 3) (n : Bool) : Bool := t.readP g.toNat != n

/-- A read-only operand of Table 3.2. -/
def State.readOnly (s : State) (t : Thread) (code : Nat) : Word :=
  match code with
  | 64 => 0
  | 65 => 1
  | 66 => BitVec.allOnes 64
  | 67 => BitVec.ofNat 64 t.lane
  | 68 => BitVec.ofNat 64 t.sq
  | 69 => BitVec.ofNat 64 t.tid
  | 70 => BitVec.ofNat 64 (s.thrBlock t).bid
  | 71 => BitVec.ofNat 64 (t.sq / (s.thrBlock t).perCore)
  | _ => 0

/-! ## PCs (06 R130) -/

def bundleOf (pc : Word) : Word := pc &&& ~~~63#64
/-- The PC that follows an instruction of `len` words at `pc`. -/
def nextPc (pc : Word) (len : Nat) : Word :=
  if pc.toNat / 4 % 16 + len ≤ 15 then pc + BitVec.ofNat 64 (4 * len) else bundleOf pc + 68
def enter (t : Word) : Word := t + 4

/-! ## Special words -/

/-- $ordstate (Table 3.5). -/
def Thread.ordstate (t : Thread) : Word :=
  BitVec.ofNat 64 ((List.range 8).foldl
    (fun v s => v + t.bead s * 2 ^ (6 * s) + (if t.bead s = 32 then 2 ^ (48 + s) else 0)) 0)

/-- The initial $fpmode of a grid (R63). -/
def initialFpmode (flags : BitVec 32) : BitVec 32 :=
  let f := flags.toNat
  BitVec.ofNat 32 (1 + (if bit f 4 then 24 else 0) + (if bit f 5 then 96 else 0) + (if bit f 6 then 128 else 0) + (if bit f 7 then 256 else 0))

/-! ## The management plane's log, and the trace (18 R398; 17 R390, R391) -/

/-- A notice that names no thread (18 R398, R402). -/
def State.notice (s : State) (code : Nat) (addr : Word) (detail : Nat) : State :=
  { s with errors := s.errors ++ [{ code := code, addr := addr, detail := detail }] }

/-- A notice about a thread. -/
def State.noticeThread (s : State) (t : Thread) (code detail : Nat) : State :=
  let b := s.thrBlock t
  { s with errors := s.errors ++
      [{ code := code, core := s.thrCore t, launch := (s.grid b.grid).launch.toNat, bid := b.bid, tid := t.tid, noThread := false,
         pc := t.pc, nested := t.frame.isOpen, addr := 0, detail := detail }] }

/-- TRLOG of DCTL (17 Table 17.2). -/
def Debug.trlog (d : Debug) : Nat := bits d.dctl.toNat 21 17

/-- Free slots of a ring of 2^log slots (17 R390). -/
def Debug.slotsIn (d : Debug) (log : Nat) : Nat := 2 ^ log - (d.trTail + 2 ^ 32 - d.trHead) % 2 ^ 32

/-- Free slots of the ring (17 R390). -/
def Debug.freeSlots (d : Debug) : Nat := d.slotsIn d.trlog

/-- Records that no slot is free for: they wait in the sink's buffer (17 R391); the others are on their way to the ring. -/
def Debug.backlog (d : Debug) : Nat := d.buffer.length - d.freeSlots

/-- An overflow ends once the buffer has fallen to 512 (21 R470). -/
def Debug.eased (d : Debug) : Debug := { d with overflow := d.overflow && decide (512 < d.backlog) }

/-- A record with its times enters the sink. A SAMPLE that finds 512 records waiting is dropped (17 R391). Once 1,024 wait, every record is dropped until the
buffer falls to 512, with one notice for the episode (21 R470). -/
def State.record (s : State) (r : TraceRecord) : State :=
  if !s.dbg.sink then s
  else
    let d := s.dbg.eased
    if d.overflow ∨ r.type = 1 ∧ 512 ≤ d.backlog then { s with dbg := { d with trLost := d.trLost + 1 } }
    else
      let d := { d with buffer := d.buffer ++ [r] }
      if 1024 ≤ d.backlog then State.notice { s with dbg := { d with overflow := true } } 0x0E01 0 0
      else { s with dbg := d }

/-- A record of this cycle enters the sink. -/
def State.emit (s : State) (r : TraceRecord) : State := s.record { r with time := s.time, clk := s.clk }

/-- A record about a thread (17 R392). -/
def State.traceThread (s : State) (t : Thread) (r : TraceRecord) : TraceRecord :=
  let b := s.thrBlock t
  { r with core := s.thrCore t, launch := (s.grid b.grid).launch.toNat, tid := t.tid, bid := b.bid }

/-- A record that comes after the STOP records of the cycle and the SKID records of its stops (17 R382). -/
def State.afterStops (s : State) (order : Nat) (r : TraceRecord) : State :=
  if s.dbg.stops.isEmpty && s.dbg.skids.isEmpty then s.emit r
  else { s with dbg := { s.dbg with stops := s.dbg.stops ++ [(order, { r with time := s.time, clk := s.clk })] } }

/-- The freeze of a set of quads ends, with one RESUME record (17 R383). -/
def State.resumeSet (s : State) (set : List Nat) (code : Nat) : State :=
  let n := (set.head?.map fun q => (s.quad q).frozenFor).getD 0
  let s := { s with dbg := { s.dbg with freezes := s.dbg.freezes.filter fun f => f != set } }
  let s := set.foldl (fun s q => s.modQuad q fun x => { x with frozen := false, cause := 0, skidLeft := 0, frozenFor := 0 }) s
  s.afterStops 400 { type := 5, code := code, a := BitVec.ofNat 64 n }

/-- Every freeze ends. -/
def State.resumeAll (s : State) (code : Nat) : State := s.dbg.freezes.foldl (fun s f => s.resumeSet f code) s

/-! ## Taking an exception -/

/-- INFO of the trap frame (Table 18.5). -/
def FaultInfo.info (f : FaultInfo) (async : Bool) : Word :=
  BitVec.ofNat 64 (f.value + f.strm * 2 ^ 16 + f.pred * 2 ^ 19 + f.size * 2 ^ 27 + f.kind * 2 ^ 30 + (if async then 2 ^ 32 else 0)
    + (if f.logged then 2 ^ 33 else 0) + f.detail * 2 ^ 48)

/-- The entries STRMs: PC and PRED of the oldest access of each stream not yet performed. -/
def State.oldestOf (s : State) (k : Nat) : Table Word :=
  (List.range 8).filterMap fun i =>
    (s.accs.find? fun a => a.thr == k && a.strm == i && a.counted).map fun a => (i, a.pc + BitVec.ofNat 64 (a.pred * 2 ^ 56))

/-- The frame written for a fault (18 R403, R404). `fpc` is the PC of the faulting instruction, or for an asynchronous fault where the
thread stands. -/
def State.frameFor (s : State) (k : Nat) (f : FaultInfo) (fpc : Word) (isOpen async : Bool) : TrapFrame :=
  let t := s.thr k
  { slot := t.slot, code := f.code, fpc := fpc, isOpen := isOpen, addr := f.addr, info := f.info async, ord := t.ordstate,
    strms := s.oldestOf k }

/-- The fault record of a thread (Table 18.4). -/
def State.recordFor (s : State) (k : Nat) (f : FaultInfo) (pc : Word) (disp : Nat) : FaultRecord :=
  let t := s.thr k
  let b := s.thrBlock t
  { code := f.code, core := s.thrCore t, launch := (s.grid b.grid).launch.toNat, bid := b.bid, tid := t.tid, noThread := false, pc := pc,
    disp := disp, nested := t.frame.isOpen, addr := f.addr, detail := f.detail }

/-- A record that names no thread. -/
def threadlessRecord (code : Nat) (pc : Word) (disp : Nat) (addr : Word) : FaultRecord :=
  { code := code, core := 0xFFFF, launch := 0, bid := 0, tid := 0, noThread := true, pc := pc, disp := disp, nested := false, addr := addr }

/-- The open clove holds of a context, as the events that release them (18 R411 step 3). -/
def State.holdReleases (s : State) (c : Nat) : List Instr :=
  (List.range 4).flatMap fun d =>
    ((s.die d).holds.filter fun h => ((tget (s.die d).cloves h.clove).map fun x => x.ctx == c).getD false).map
      fun h => .cloveTimerExpiry d h.clove h.seq

/-- A record joins the secondaries of a halt (18 R413). -/
def Context.addSecondary (c : Context) (r : FaultRecord) : Context :=
  if c.secondaries.length < 15 then { c with secondaries := c.secondaries ++ [r] } else { c with lostSec := true }

/-- A record comes before another of its cycle: the lower device core, then the lower thread index (18 Table 18.8). -/
def FaultRecord.before (a b : FaultRecord) : Bool := decide (a.core < b.core ∨ a.core = b.core ∧ a.tid < b.tid)

/-- A record enters a list of one cycle in its place. -/
def recordInsert (r : FaultRecord) : List FaultRecord → List FaultRecord
  | [] => [r]
  | x :: xs => if r.before x then r :: x :: xs else x :: recordInsert r xs

/-- A record of the cycle in which the halt began: it takes its place among the primary and the secondaries of that cycle (18 Table 18.8). -/
def Context.addMate (c : Context) (r : FaultRecord) : Context :=
  let l := recordInsert r (c.primary.toList ++ c.secondaries.take c.haltMates)
  let all := l.tail ++ c.secondaries.drop c.haltMates
  { c with primary := l.head?, secondaries := all.take 15, lostSec := c.lostSec || decide (15 < all.length),
           haltMates := min 15 (c.haltMates + 1) }

/-- A further record of a context that is halting, at a cycle (18 R413, Table 18.8). -/
def Context.addFault (c : Context) (clk : Word) (r : FaultRecord) : Context :=
  if clk = c.haltClk then c.addMate r else c.addSecondary r

/-- A thread enters a list in the order in which faults were detected. -/
def heldInsert (e : Nat × Thread) : List (Nat × Thread) → List (Nat × Thread)
  | [] => [e]
  | x :: xs => if e.2.heldAt ≤ x.2.heldAt then e :: x :: xs else x :: heldInsert e xs

/-- The threads of a context that hold a fault, in the order in which their faults were detected. -/
def State.holdingFaults (s : State) (c : Nat) : List (Nat × Thread) :=
  (s.threads.filter fun e => e.2.held.isSome && (s.thrBlock e.2).ctx == c && e.2.live).foldr heldInsert []

/-- A thread of a context that halts gets a frame of its own, when it has none that is open or that the halt wrote (18 R405, R411). -/
def State.frameAtHalt (s : State) (k : Nat) (f : FaultInfo) (fpc : Word) (async : Bool) : State :=
  if (s.thr k).frame.isOpen || (s.thr k).framed then s
  else s.modThr k fun t => { t with frame := s.frameFor k f fpc false async, framed := true }

/-- The faults that threads of a halting context hold join its secondaries, in the order of their detection (18 R413). -/
def State.joinHeld (s : State) (c : Nat) : State :=
  (s.holdingFaults c).foldl
    (fun s e =>
      match e.2.held with
      | some (f, pc) =>
        let s := s.modCtx c fun x => x.addSecondary (s.recordFor e.1 f pc 1)
        (s.frameAtHalt e.1 f e.2.pc true).modThr e.1 fun t => { t with held := none }
      | none => s) s

/-- The context policy, step 1 (18 R411); a context that is halting takes the record as a secondary (R413), and one that is FAULTED is
left alone. -/
def State.haltContext (s : State) (c : Nat) (r : FaultRecord) : State :=
  match tget s.ctxs c with
  | none => s
  | some x =>
    match x.status with
    | .halting => s.modCtx c fun x => x.addFault s.clk r
    | .faulted => s
    | _ =>
      let s := if s.dbg.dctl.toNat % 64 = c then s.resumeAll 2 else s
      let s := s.modCtx c fun x =>
        { x with status := .halting, primary := some r, haltClk := s.clk, haltTime := s.time.toNat, reports := [] }
      (s.joinHeld c).plan (s.holdReleases c ++ [.coreDumpWrite c])

/-- A destination written with zero, or false (20 R438). -/
def State.zeroDest (s : State) (k : Nat) : Dest → State
  | .v n _ => s.modThr k fun t => t.writeV n 0
  | .s n _ => s.modSquad (s.thr k).blk (s.thr k).sq fun q => q.writeS n 0
  | .p n => s.modThr k fun t => t.writeP n false

/-- An access of the thread that has been cancelled. -/
def Access.dead (a : Access) (k : Nat) : Bool := a.thr == k && a.stage == .cancelled

/-- At the take, the pending destinations of cancelled accesses are written with zero (20 R438). -/
def State.settle (s : State) (k : Nat) : State :=
  let ds := (s.accs.filter fun a => a.dead k).flatMap (·.dests)
  { ds.foldl (fun s d => s.zeroDest k d) s with accs := s.accs.filter fun a => !a.dead k }

/-- Taking a fault of disposition thread, or a delivered asynchronous fault (18 R405): the frame is written, and the thread goes to
enter(HANDLER); without a handler, or when the frame is open, the context halts. `pc` is the PC of the faulting or issuing instruction. -/
def State.takeFault (s : State) (k : Nat) (f : FaultInfo) (pc : Word) (async : Bool) : State :=
  let t := s.thr k
  let b := s.thrBlock t
  let handler := (s.grid b.grid).rc.handler
  let halting := (s.ctx b.ctx).halted
  let fpc := if async then t.pc else pc
  let r := s.recordFor k f pc (if async then 1 else 0)
  if halting || handler == 0 || t.frame.isOpen then
    let s := if halting || handler == 0 then s.frameAtHalt k f fpc async else s
    let s := s.haltContext b.ctx r
    s.modThr k fun t => { t with stopped := true, wait := .ready, trap := none }
  else
    s.modThr k fun t =>
      { t with frame := s.frameFor k f fpc true async, pc := enter handler, wait := .ready, owed := .atHandler, trap := none, commit := none,
               pass := none, entered := none, stepOver := none }

/-- The restart of a thread from checkpoint values (02 R48; 06 R154). -/
def Thread.restore (t : Thread) (c : Checkpoint) : Thread :=
  { t with
    v := (List.range 16).foldl (fun v i => if bit c.mask i then sset 0 v (c.base + i) (sget 0 c.vals i) else v) []
    p := c.preds, x := c.x, fpmode := c.fpmode, srctr := c.srctr, cdepth := c.cdepth, pc := c.start, pass := none, entered := none }

/-- TRET (06 R154, 18 R408): the frame closes, the slot takes the frame's checkpoint, the thread restarts from it, and broken streams
become whole (20 R439). -/
def Thread.tret (t : Thread) : Thread :=
  let c := t.frame.slot
  { t.restore c with frame := { t.frame with isOpen := false }, slot := c, broken := 0, owed := .nothing, commit := none, stepOver := none }

/-- What REGION writes (02 R41; 03 R75): `base` and `mask` of the set, `start` the next PC. -/
def Thread.checkpoint (t : Thread) (base mask : Nat) (start : Word) : Checkpoint :=
  { vals := (List.range 16).foldl (fun v i => if bit mask i then sset 0 v i (t.readV (base + i)) else v) []
    start := start, base := base, mask := mask, preds := t.p, cdepth := t.cdepth, x := t.x, fpmode := t.fpmode, srctr := t.srctr }

/-- The target of an asynchronous fault (18 R410): the issuing thread when live, else the leader, else the lowest live thread. -/
def State.asyncTarget (s : State) (thr blk : Nat) : Option Nat :=
  if (s.thr thr).live && (s.thr thr).blk == blk then some thr
  else
    match (s.block blk).leader with
    | some t => if (s.thr (threadKey blk t)).live then some (threadKey blk t) else (s.liveThreads blk).head?
    | none => (s.liveThreads blk).head?

/-- The PC that the record of an asynchronous fault without a thread holds: zero, but for a grid's arrival, where it is the PC of the LAUNCH
(18 R402; 20 R442). -/
def FaultInfo.threadlessPc (f : FaultInfo) (pc : Word) : Word := if f.code = 0x0603 ∧ f.detail = 3 then pc else 0

/-- An asynchronous fault is held for its target; a second one halts the context, the held one the first secondary (18 R410). In a context
that is halting it is a secondary at once (R413). `pc` is the PC of the issuing instruction. -/
def State.deliver (s : State) (thr blk ctx : Nat) (f : FaultInfo) (pc : Word) : State :=
  match s.asyncTarget thr blk with
  | none => s.haltContext ctx { threadlessRecord f.code (f.threadlessPc pc) 1 f.addr with
                                  launch := (s.grid (s.block blk).grid).launch.toNat, bid := (s.block blk).bid, detail := f.detail }
  | some k =>
    if (s.ctx ctx).halted then (s.haltContext ctx (s.recordFor k f pc 1)).frameAtHalt k f (s.thr k).pc true
    else
      match (s.thr k).held with
      | none => (s.modThr k fun t => { t with held := some (f, pc), heldAt := s.nextId }).name.plan [.asyncFaultDelivery k]
      | some _ => (s.modThr k fun t => { t with heldAt := 0 }).haltContext ctx (s.recordFor k f pc 1)

/-- A fault of disposition context. -/
def State.contextFault (s : State) (ctx code : Nat) (addr : Word) (detail : Nat) : State :=
  s.haltContext ctx { threadlessRecord code 0 2 addr with detail := detail }

end Sys2Proof.Machine
end

