-- ==== Sys2Proof/Machine/Translate.lean ====
section
/-! DEFINITION. Physical addresses and homes (10 R251 to R253), page tables and the walk (13 R326 to R333), and the shape of a pointer
(03 R73; 20 R433, R434, R476). -/

namespace Sys2Proof.Machine

/-! ## Physical addresses -/

/-- PA in HBM (Table 10.1). -/
def inHbm (pa : Nat) : Bool := decide (pa < 0x8000000000)
/-- PA in the capacity tier. -/
def inTier (pa : Nat) : Bool := decide (0x10000000000 ≤ pa ∧ pa < 0x20000000000)
/-- PA of host memory. -/
def inHost (pa : Nat) : Bool := decide (0x20000000000 ≤ pa ∧ pa < 0x1000000000000)
/-- The PA of host address 0. -/
def hostBase : Nat := 0x20000000000

/-- The exclusive OR of some bits of a number. -/
def xorBits (pa : Nat) (is : List Nat) : Bool := is.foldl (fun b i => b != bit pa i) false

/-- The home die of a device address (Table 10.1); none for host memory. -/
def homeDie (pa : Nat) : Option Nat :=
  if inHbm pa then some (bits pa 38 37)
  else if inTier pa then some (bits pa 17 16 ^^^ bits pa 25 24)
  else none

/-- The stack of an HBM address (10 R252). -/
def stackOf (pa : Nat) : Nat := 2 * bits pa 38 37 + (if xorBits pa [8, 13, 18, 23, 28, 33] then 1 else 0)

/-- The stack-local address (10 R252). -/
def stackLocal (pa : Nat) : Nat := bits pa 36 9 * 256 + bits pa 7 0

/-- The hash h of Table 10.2. -/
def sliceHash (pa : Nat) : Nat :=
  (List.range 8).foldl (fun h i => h + if xorBits pa [7 + i, 15 + i, 23 + i, 31 + i, 39 + i] then 2 ^ i else 0) 0

/-- The home slice number (10 R253). -/
def homeSlice (pa : Nat) : Nat := 48 * sliceHash pa / 256

/-- The number of a 128-byte line. -/
def lineOf (pa : Nat) : Nat := pa / 128

/-! ## Tables -/

/-- Index bits and page size of a level (Table 13.1). -/
def levelShift (level : Nat) : Nat := 46 - 10 * level
/-- The first byte of the page of a VA at a leaf level. -/
def pageBase (va level : Nat) : Nat := va / 2 ^ levelShift level * 2 ^ levelShift level
/-- The PA of the entry for a VA in a table. -/
def entryPa (table va level : Nat) : Nat := table + 8 * (va / 2 ^ levelShift level % 1024)

/-- Fields of a PTE (Table 13.3). -/
def pteV (e : Nat) : Bool := bit e 0
def pteLeaf (e : Nat) : Bool := bit e 1
def pteR (e : Nat) : Bool := bit e 2
def pteW (e : Nat) : Bool := bit e 3
def pteX (e : Nat) : Bool := bit e 4
def pteWorld (e : Nat) : Bool := bit e 5
def pteTier (e : Nat) : Nat := bits e 7 6
def pteDup (e : Nat) : Bool := bit e 8
def pteClass (e : Nat) : Nat := bits e 10 9
def pteTag (e : Nat) : Nat := bits e 23 11
def pteKey (e : Nat) : Nat := bits e 31 24
def pteFrame (e : Nat) : Nat := bits e 63 32
/-- A PTE with other CLASS, TAG and DUP. -/
def pteSetClass (e cls tag : Nat) (dup : Bool) : Nat :=
  e - bits e 23 8 * 256 + (if dup then 256 else 0) + cls * 512 + tag * 2048

/-- One entry as a walk finds it (13 R331; 20 R437). -/
inductive WalkStep where
  | next (table : Nat)
  | leaf (pte frame : Nat)
  | notResident
  | invalid (reason : Nat)
deriving DecidableEq, Repr

/-- The word of the duplicate map for a die (13 R330): a frame, or none for the kept copy. -/
def State.dupFrame (s : State) (index die : Nat) : Option Nat :=
  ((tgetD s.dupMap index []).getD die 0xFFFFFFFF) |> fun f => if f = 0xFFFFFFFF then none else some f

/-- A frame in a range of Table 10.1 that a leaf may name. -/
def frameOk (f : Nat) : Bool := inHbm (f * 65536) || inTier (f * 65536) || inHost (f * 65536)

/-- What the entry `e` of a level means for a die, with the causes of TABLE_INVALID in their order (20 R437). An entry that is not present
is no cause of a fault. -/
def State.readEntry (s : State) (e level die : Nat) : WalkStep :=
  if !pteV e then .notResident
  else if pteLeaf e then
    if level = 0 then .invalid 0
    else if (if pteClass e = 1 && !pteDup e then bits e 23 21 != 0 else !pteDup e && pteTag e != 0) then .invalid 2
    else if !frameOk (pteFrame e) then .invalid 4
    else if level < 3 && pteFrame e * 65536 % 2 ^ levelShift level != 0 then .invalid 5
    else if pteDup e then
      match s.dupFrame (pteTag e) die with
      | none => .leaf e (pteFrame e)
      | some f => if inHbm (f * 65536) then .leaf e f else .invalid 6
    else .leaf e (pteFrame e)
  else if level = 3 then .invalid 1
  else if bits e 12 2 != 0 || bits e 63 48 != 0 then .invalid 2
  else if !inHbm (bits e 47 13 * 8192) then .invalid 3
  else .next (bits e 47 13 * 8192)

/-- The result of a walk. -/
inductive WalkEnd where
  | leaf (pte level frame : Nat)
  | notResident (level : Nat)
  | invalid (level reason : Nat)
deriving DecidableEq, Repr

/-- The walk from a table at a level (13 R331); `fuel` counts the levels left. -/
def State.walkFrom (s : State) (va die : Nat) : Nat → Nat → Nat → WalkEnd
  | 0, level, _ => .notResident level
  | fuel + 1, level, table =>
    match s.readEntry (s.readMem (entryPa table va level) 8) level die with
    | .next t => s.walkFrom va die fuel (level + 1) t
    | .leaf e f => .leaf e level f
    | .notResident => .notResident level
    | .invalid r => .invalid level r

/-- The walk of a VA in a context for a die. -/
def State.walk (s : State) (ctx va die : Nat) : WalkEnd := s.walkFrom va die 4 0 (s.ctx ctx).root

/-- The PA of the leaf entry of a VA, with its level. -/
def State.leafPa (s : State) (va : Nat) : Nat → Nat → Nat → Option (Nat × Nat)
  | 0, _, _ => none
  | fuel + 1, level, table =>
    let p := entryPa table va level
    let e := s.readMem p 8
    if pteLeaf e then some (p, level)
    else if pteV e then s.leafPa va fuel (level + 1) (bits e 47 13 * 8192)
    else none

/-- What an access asks of its page. -/
inductive Need where
  | read | write | fetch | both
deriving DecidableEq, Repr

/-- A translation (13 R333). -/
inductive Trans where
  | ok (pa pte level : Nat)
  | notResident (level : Nat)
  | prot (code detail : Nat)
  | invalid (level reason : Nat)
deriving DecidableEq, Repr

/-- WORLD of a context: secure (16 Table 16.4, CFLAGS). -/
def Context.secure (c : Context) : Bool := bit c.desc.cflags 0
/-- CONF of a context. -/
def Context.confidential (c : Context) : Bool := bit c.desc.cflags 1

/-- A page of a secure context is shared with the non-secure world (16 Table 16.4). -/
def Context.shares (c : Context) (va : Nat) : Bool := c.windows.any fun w => decide (w.1 ≤ va ∧ va < w.1 + w.2)

/-- A KEY is bound to the context (16 R367). -/
def Context.hasKey (c : Context) (key : Nat) : Bool := key == 0 || (!c.keysDestroyed && (tvals c.keys).contains key)

/-- Steps 2 to 4 of R333 on a leaf; PROT codes and DETAIL of Table 20.1. -/
def protection (c : Context) (n : Need) (va pte level : Nat) : Option (Nat × Nat) :=
  if (n == .read || n == .both) && !pteR pte then some (0x0401, level)
  else if (n == .write || n == .both) && !pteW pte then some (0x0402, level)
  else if n == .fetch && !pteX pte then some (0x0404, level)
  else if (!c.secure && pteWorld pte) || (c.secure && !pteWorld pte && !c.shares va) then some (0x0405, if pteWorld pte then 1 else 0)
  else if !c.hasKey (pteKey pte) then some (0x0406, pteKey pte)
  else none

/-- The translation of a VA for a die (13 R331, R333). -/
def State.translate (s : State) (ctx va die : Nat) (n : Need) : Trans :=
  match s.walk ctx va die with
  | .notResident l => .notResident l
  | .invalid l r => .invalid l r
  | .leaf e l f =>
    match protection (s.ctx ctx) n va e l with
    | some (c, d) => .prot c d
    | none => .ok (f * 65536 + va % 2 ^ levelShift l) e l

/-- The entry of a page joins a translation buffer of `ways` entries; when it is full one is replaced (13 R334). -/
def tlbFill (l : List TlbEntry) (ways free : Nat) (e : TlbEntry) : List TlbEntry :=
  let l := l.filter fun x => !(x.ctx == e.ctx && x.page == e.page)
  if l.length < ways then l ++ [e] else (l.eraseIdx (Config.tlbVictim free % ways)) ++ [e]

/-- The same of the quad's buffer of 256 sets of 8 ways. -/
def tlbFillSet (l : List TlbEntry) (free : Nat) (e : TlbEntry) : List TlbEntry :=
  let l := l.filter fun x => !(x.ctx == e.ctx && x.page == e.page)
  let mates := l.filter fun x => Config.tlbSet (x.page / 65536) % 256 == Config.tlbSet (e.page / 65536) % 256
  if mates.length < 8 then l ++ [e] else l.filter (fun x => some x != mates[Config.tlbVictim free % 8]?) ++ [e]

/-- A buffer has the page of a VA. -/
def tlbFind (l : List TlbEntry) (ctx va : Nat) : Option TlbEntry := l.find? fun e => e.ctx == ctx && e.page == pageBase va e.level

/-- A leaf that a walk returned enters the buffers of its requester (13 R334, R335). -/
def State.fillTlb (s : State) (core : Nat) (ahead : Bool) (e : TlbEntry) : State :=
  if ahead then s.modQuad (coreQuad core) fun q => { q with ahead := tlbFill q.ahead 256 s.freeN e }
  else
    let s := s.modCore core fun c => { c with tlb := tlbFill c.tlb 64 s.freeN e }
    s.modQuad (coreQuad core) fun q => { q with tlb := tlbFillSet q.tlb s.freeN e }

/-! ## Walk units (13 R332) -/

/-- Packets outstanding at a stack (10 R267). -/
def State.packetsAt (s : State) (st : Nat) : List Packet := tgetD s.packets st []

/-- A packet joins the queue of its stack. -/
def State.sendPacket (s : State) (st : Nat) (p : Packet) : State := { s with packets := tset s.packets st (s.packetsAt st ++ [p]) }

/-- Walks that hold a unit of a stack's base die. -/
def State.unitsUsed (s : State) (stack : Nat) : Nat := (s.walks.filter fun w => w.inUnit && stackOf w.table == stack).length

/-- Walks that wait in the queue of a base die, in arrival order. -/
def State.walksQueued (s : State) (stack : Nat) : List Walk := s.walks.filter fun w => !w.inUnit && w.sent && stackOf w.table == stack

/-- A walk may arrive at a base die: it has 48 units and a queue of 256. -/
def State.walkRoom (s : State) (stack : Nat) : Bool := decide (s.unitsUsed stack < 48 ∨ (s.walksQueued stack).length < 256)

/-- A walk arrives at the base die of its table: it takes a unit, or waits behind those that do. -/
def State.admitWalk (s : State) (w : Walk) : State :=
  let st := stackOf w.table
  { s with walks := s.walks.filter (fun x => x.id != w.id) ++
      [{ w with inUnit := decide (s.unitsUsed st < 48) && (s.walksQueued st).isEmpty, sent := true, next := none }] }

/-- The packet of a walk goes from its base die. -/
def State.endWalkPacket (s : State) (walk : Nat) : State :=
  { s with packets := s.packets.map fun (q : Nat × List Packet) => (q.1, q.2.filter fun p => match p with | .walk _ w => w != walk | _ => true) }

/-- A walk may go to the base die of a table: that die takes another packet (10 R267) and another walk (13 R332). -/
def State.walkTaken (s : State) (stack : Nat) : Bool := decide ((s.packetsAt stack).length < 1024) && s.walkRoom stack

/-- A walk goes to the base die of its table. -/
def State.sendWalk (s : State) (w : Walk) : State := ((s.endWalkPacket w.id).sendPacket (stackOf w.table) (.walk w.id w.id)).admitWalk w

/-- A walk starts at the root of its context. While the root's base die has no place for it, it waits at its requester (DESIGN CHOICE,
log 76). -/
def State.startWalk (s : State) (w : Walk) : State :=
  let w := { w with level := 0, table := (s.ctx w.ctx).root, inUnit := false, next := none }
  if s.walkTaken (stackOf w.table) then s.sendWalk w
  else
    let s := s.endWalkPacket w.id
    { s with walks := (s.walks.filter fun x => x.id != w.id) ++ [{ w with sent := false }] }

/-- A translation looks in its buffers: an entry of the quad comes to the core; a page that none has starts a walk, merged with one of the
same quad (13 R332, R334). The translation itself is made as the access issues (log 18). -/
def State.noteWalk (s : State) (ctx va core : Nat) (ahead : Bool) : State :=
  let mine := if ahead then (s.quad (coreQuad core)).ahead else (s.core core).tlb
  if (tlbFind mine ctx va).isSome then s
  else
    match tlbFind (s.quad (coreQuad core)).tlb ctx va with
    | some e => s.fillTlb core ahead e
    | none =>
      if s.walks.any fun w => w.ctx == ctx && w.va / 65536 == va / 65536 && coreQuad w.core == coreQuad core && w.ahead == ahead then s
      else s.name.startWalk { id := s.nextId, ctx := ctx, va := va, core := core, ahead := ahead, level := 0, table := 0 }

/-- The table of a level on the path of a VA from a table; `fuel` counts the levels to go. -/
def State.tableAt (s : State) (va : Nat) : Nat → Nat → Nat → Option Nat
  | 0, _, table => some table
  | fuel + 1, level, table =>
    let e := s.readMem (entryPa table va level) 8
    if pteV e && !pteLeaf e then s.tableAt va fuel (level + 1) (bits e 47 13 * 8192) else none

/-- A walk stands at a table that the path of its VA has left, after MAP has replaced the tables. -/
def State.strayed (s : State) (w : Walk) : Bool :=
  w.sent && s.tableAt w.va (w.level + (if w.next.isSome then 1 else 0)) 0 (s.ctx w.ctx).root != some (w.next.getD w.table)

/-- Walks that have strayed start over (13 R336). -/
def State.restartWalks (s : State) (ctx : Nat) : State :=
  (s.walks.filter fun w => w.ctx == ctx && s.strayed w).foldl (fun s w => s.startWalk w) s

/-- The buffers of some dies drop their entries of a page (13 R336). A walk reads the new entry when it comes to it. -/
def State.tlbDropOn (s : State) (on : Nat → Bool) (ctx va : Nat) : State :=
  let keep (l : List TlbEntry) := l.filter fun x => !(x.ctx == ctx && x.page / 2 ^ levelShift x.level == va / 2 ^ levelShift x.level)
  { s with
    cores := s.cores.map fun (e : Nat × Core) => (e.1, if on (coreDie e.1) then { e.2 with tlb := keep e.2.tlb } else e.2)
    quads := s.quads.map fun (e : Nat × Quad) => (e.1, if on (e.1 / 48) then { e.2 with tlb := keep e.2.tlb, ahead := keep e.2.ahead } else e.2) }

/-- Every buffer of the device drops its entry of a page. -/
def State.tlbDrop (s : State) (ctx va : Nat) : State := s.tlbDropOn (fun _ => true) ctx va

/-! ## Pointers -/

/-- A pointer taken apart (Table 3.9). -/
inductive Place where
  | global (va : Nat)
  | scratch (rank off : Nat)
  | remote (pkg off : Nat)
deriving DecidableEq, Repr

/-- The operands that accept spaces (Table 20.5). -/
inductive Accept where
  | any | globalOnly | noRemote | scratchOnly
deriving DecidableEq, Repr

/-- The pointer is of a space the operand takes. -/
def Accept.takes (a : Accept) (space : Nat) : Bool :=
  match a with
  | .any => true
  | .globalOnly => space == 0
  | .noRemote => space != 4
  | .scratchOnly => space == 1 || space == 2

/-- A SPACE_INVALID of a reason. -/
def spaceInvalid (p : Word) (reason : Nat) : FaultInfo := { code := 0x0301, addr := p, detail := reason }

/-- The shape of a pointer for an access of `size` bytes by a thread of `b` on quad rank `rank`: the reasons of R433 in the order of R476,
then MISALIGNED (R434). A size of 0 leaves both the bound and the alignment to the caller. -/
def pointer (b : Block) (rank : Nat) (acc : Accept) (p : Word) (size sizeCode : Nat) : Except FaultInfo Place :=
  let x := p.toNat
  let space := x / 2 ^ 60
  if space = 15 then .error (spaceInvalid p 0)
  else if space = 3 ∨ 4 < space then .error (spaceInvalid p 1)
  else if (space = 0 ∨ space = 4) ∧ bits x 59 56 ≠ 0 ∨ space = 1 ∧ bits x 59 18 ≠ 0 ∨ space = 2 ∧ bits x 57 18 ≠ 0 then
    .error (spaceInvalid p 2)
  else if !acc.takes space then .error (spaceInvalid p 6)
  else
    let off := if space = 0 then bits x 55 0 else if space = 4 then bits x 45 0 else bits x 17 0
    let local_ := space = 1 ∨ space = 2
    let r := if space = 1 then rank else bits x 59 58
    if local_ ∧ b.scratch < off + size then .error (spaceInvalid p 3)
    else if local_ ∧ (r < b.rank0 ∨ b.rank0 + b.ncore ≤ r) then .error (spaceInvalid p 4)
    else if 1 < size ∧ off % size ≠ 0 then .error { code := 0x0302, addr := p, detail := sizeCode }
    else if space = 0 then .ok (.global off)
    else if space = 4 then .ok (.remote (bits x 55 46) off)
    else .ok (.scratch r off)

end Sys2Proof.Machine
end

