-- ==== Sys2Proof/Machine/Operands.lean ====
section
/-! DEFINITION. Operand forms (05 R112 to R114; 03 R56 to R60; 07 R160, R161): register names, their bounds, readiness, reading and writing,
literals, and the sub-elements of a register. -/

namespace Sys2Proof.Machine

/-! ## Sub-elements (03 R56) -/

/-- Sub-element `i` of width `w`. -/
def elem (x w i : Nat) : Nat := x / 2 ^ (w * i) % 2 ^ w

/-- `n` sub-elements of width `w` put together, sub-element 0 lowest. -/
def join (w n : Nat) (f : Nat → Nat) : Nat := (List.range n).foldl (fun x i => x + f i % 2 ^ w * 2 ^ (w * i)) 0

/-- A register of sub-elements of a width. -/
def elements (w : Nat) (f : Nat → Nat) : Word := BitVec.ofNat 64 (join w (64 / w) f)

/-- The literal as source B (05 R112). -/
def spreadLit (ty : Nat) (l : BitVec 32) : Word :=
  if ty = 6 then l.signExtend 64
  else if ty = 7 then l.zeroExtend 64
  else if ty = 11 then
    BitVec.ofNat 64 (roundTo { plainMode with dnan := false } 0x0B 0 (decodeFloat 0x0A l.toNat))
  else elements (formatBits ty) fun _ => l.toNat

/-- The imm7 of an A32 word in every sub-element of a type (05 R108). -/
def spreadImm (ty : Nat) (b : BitVec 7) : Word := elements (formatBits ty) fun _ => wrapInt (signedOf b.toNat 7) (formatBits ty)

/-! ## Register names -/

/-- A register as an instruction names it. -/
inductive RegName where
  | v (n : Nat)
  | s (n : Nat)
  /-- A read-only operand of Table 3.2. -/
  | ro (code : Nat)
deriving DecidableEq, Repr

/-- The register a field names (05 R114): thread or squad form, direct or X-indirect. -/
def fieldName (sq ind : Bool) (f : BitVec 9) (x : BitVec 16) : RegName :=
  if ind then (if sq then .s (x.toNat + f.toNat) else .v (x.toNat + f.toNat))
  else if sq then (if f.toNat < 64 then .s f.toNat else .ro f.toNat)
  else .v f.toNat

/-- A use of `count` registers from one named in a field; `field` is the code of Table 19.1 (D, A, B or BASE, C, implicit). -/
structure Operand where
  field : Nat
  name : RegName
  count : Nat := 1
  rd : Bool := true
  wr : Bool := false
deriving DecidableEq, Repr

/-- REG_BOUNDS of one operand (19 R422). -/
def Operand.bounds (o : Operand) (allot : Nat) : Option FaultInfo :=
  match o.name with
  | .v n => if allot < n + o.count then some { code := 0x0203, addr := BitVec.ofNat 64 (n + o.count - 1), detail := o.field } else none
  | .s n => if 64 < n + o.count then some { code := 0x0203, addr := BitVec.ofNat 64 (n + o.count - 1), detail := o.field + 8 } else none
  | .ro _ => none

/-- The first operand out of bounds, in the order of the fields (19 R422). -/
def firstBounds (os : List Operand) (allot : Nat) : Option FaultInfo :=
  match os with
  | [] => none
  | o :: os =>
    match o.bounds allot with
    | some f => some f
    | none => firstBounds os allot

/-- A destination names a register. -/
def Dest.hits (d : Dest) (r : RegName) (count : Nat) : Bool :=
  match d, r with
  | .v n _, .v m => decide (m ≤ n ∧ n < m + count)
  | .s n _, .s m => decide (m ≤ n ∧ n < m + count)
  | _, _ => false

/-- An access of the thread, or one for which it waits, has not yet written a register of the range (02 R39; 08 R203). -/
def State.pendingReg (s : State) (k : Nat) (r : RegName) (count : Nat) : Bool :=
  s.accs.any fun a => (a.thr == k || a.waiters.contains k) && a.dests.any fun d => d.hits r count

/-- An access of the thread has not yet written a predicate. -/
def State.pendingPred (s : State) (k n : Nat) : Bool := s.accs.any fun a => a.thr == k && a.dests.any fun d => d == .p n

/-- Every operand that is read is ready. -/
def State.operandsReady (s : State) (k : Nat) (os : List Operand) : Bool :=
  os.all fun o => !o.rd || !s.pendingReg k o.name o.count

/-- The value of a register. -/
def State.readReg (s : State) (t : Thread) (r : RegName) : Word :=
  match r with
  | .v n => t.readV n
  | .s n => (s.thrSquad t).readS n
  | .ro c => s.readOnly t c

/-- `count` registers from a name as one number, the first lowest (03 R56). -/
def State.readRange (s : State) (t : Thread) (r : RegName) (count : Nat) : Nat :=
  (List.range count).foldl
    (fun x i => x + (match r with
      | .v n => t.readV (n + i)
      | .s n => (s.thrSquad t).readS (n + i)
      | .ro c => if i = 0 then s.readOnly t c else 0).toNat * 2 ^ (64 * i)) 0

/-- Older accesses of the thread no longer write a register that a younger instruction writes (20 R438). -/
def State.supersede (s : State) (k : Nat) (r : RegName) : State :=
  { s with accs := s.accs.map fun a =>
      if a.thr = k then { a with dests := a.dests.filter fun d => !d.hits r 1 }
      else if a.waiters.contains k && a.dests.any fun d => d.hits r 1 then { a with waiters := a.waiters.filter fun x => x != k }
      else a }

/-- The same for a predicate. -/
def State.supersedePred (s : State) (k n : Nat) : State :=
  { s with accs := s.accs.map fun a => if a.thr = k then { a with dests := a.dests.filter fun d => d != .p n } else a }

/-- A register written by an instruction of a thread. -/
def State.writeReg (s : State) (k : Nat) (r : RegName) (x : Word) : State :=
  let s := s.supersede k r
  match r with
  | .v n => s.modThr k fun t => t.writeV n x
  | .s n => s.modSquad (s.thr k).blk (s.thr k).sq fun q => q.writeS n x
  | .ro _ => s

/-- Consecutive registers written, the first from the low 64 bits. -/
def State.writeRange (s : State) (k : Nat) (r : RegName) (count x : Nat) : State :=
  (List.range count).foldl
    (fun s i => s.writeReg k (match r with | .v n => .v (n + i) | .s n => .s (n + i) | .ro c => .ro c) (BitVec.ofNat 64 (x / 2 ^ (64 * i)))) s

/-- A predicate written by an instruction of a thread. -/
def State.writePred (s : State) (k n : Nat) (b : Bool) : State := (s.supersedePred k n).modThr k fun t => t.writeP n b

/-! ## Modes -/

/-- The fields of $fpmode in force for an instruction whose RND field is `rnd` (07 R163, Table 3.4). -/
def fpModeOf (fpmode : BitVec 32) (rnd : Nat) : FpMode :=
  let f := fpmode.toNat
  { rnd := if rnd = 0 then f % 8 else rnd, ftzi32 := bit f 3, ftzo32 := bit f 4, ftzi16 := bit f 5, ftzo16 := bit f 6, dnan := bit f 7,
    satn := bit f 8 }

/-- What a compute instruction reads in one lane (07 R162): the old destination and sources A, B, C, the literal, the mode, and what
stochastic rounding hashes (04 R89). -/
structure LaneIn where
  d : Word := 0
  a : Word := 0
  b : Word := 0
  c : Word := 0
  lit : Option (BitVec 32) := none
  fp : FpMode := plainMode
  seed : Nat := 0
  bid : Nat := 0
  tid : Nat := 0
  ctr : Nat := 0
  /-- P0 to P6 and P7. -/
  preds : Nat := 128
deriving DecidableEq, Repr

/-- The random value r of a sub-element (04 R89). -/
def LaneIn.rnd (i : LaneIn) (sub : Nat) : Nat := srbits i.seed i.bid i.tid i.ctr sub

/-- A predicate as read. -/
def LaneIn.pred (i : LaneIn) (n : Nat) : Bool := bit i.preds n

end Sys2Proof.Machine
end

