-- ==== Sys2Proof/Machine/Flags.lean ====
section
/-! DEFINITION. The Z7 has no condition flags; its predicates P0 to P7 take their place (03 R57). Here is every computation of a
predicate: conditions (07 R169), PLOP (07 R170), votes (08 R195), and the guard of a branch. -/

namespace Sys2Proof.Machine

/-- A condition of Table 7.4 on an order; `none` for a NaN operand. -/
def condition (cond : Nat) (o : Option Ordering) : Bool :=
  match cond, o with
  | 0, some o => o == .eq
  | 1, some o => o != .eq
  | 1, none => true
  | 2, some o => o == .lt
  | 3, some o => o != .gt
  | 4, some o => o == .gt
  | 5, some o => o != .lt
  | 6, none => true
  | 7, some _ => true
  | _, _ => false

/-- Sub-element comparison of ICMP. -/
def icmpElem (ty cond a b : Nat) : Bool :=
  condition cond (some (compare (decodeInt ty (formatBits ty) a) (decodeInt ty (formatBits ty) b)))

/-- Sub-element comparison of FCMP: inputs are flushed, −0 equals +0, NaN is unordered. -/
def fcmpElem (fp : FpMode) (ty cond a b : Nat) : Bool :=
  let x := operand fp ty a
  let y := operand fp ty b
  condition cond (if x.isNan || y.isNan then none else some (compareVal x y))

/-- The predicate of a comparison over the sub-elements (Table 7.5, RED). -/
def reduceTests (red n : Nat) (t : Nat → Bool) : Bool :=
  match red with
  | 1 => (List.range n).all t
  | 2 => (List.range n).any t
  | _ => t 0

/-- PLOP: bit (P[a] + 2·P[b]) of the table. -/
def plopBit (lut : Nat) (a b : Bool) : Bool := bit lut ((if a then 1 else 0) + (if b then 2 else 0))

/-- .all, .any and .uni over the votes of the members. -/
def voteResult (op : Nat) (votes : List Bool) : Bool :=
  match op with
  | 0 => votes.all id
  | 1 => votes.any id
  | _ => votes.all id || votes.all not

end Sys2Proof.Machine
end

