-- ==== Sys2Proof/Machine/IntValues.lean ====
section
/-! DEFINITION. What the integer, bit, selection, move and pointer instructions compute in one lane (07 R165 to R174). -/

namespace Sys2Proof.Machine

/-- An integer result narrowed to its type: wrapped, or clamped under SAT (07 R165). -/
def intResult (signed sat : Bool) (w : Nat) (v : Int) : Nat := wrapInt (if sat then clampInt signed w v else v) w

/-- An element instruction on integers (07 R165): `f` is the exact value of Table 7.3. -/
def intElements (w : AluWord) (f : Int → Int → Int → Int) (i : LaneIn) : Word :=
  let ty := w.ty.toNat
  let n := formatBits ty
  elements n fun k =>
    intResult (codeSigned ty) w.sat n
      (f (decodeInt ty n (elem i.a.toNat n k)) (decodeInt ty n (elem i.b.toNat n k)) (decodeInt ty n (elem i.c.toNat n k)))

/-- The quotient of R80. -/
def quotient (w : AluWord) (a b : Int) : Int := if b = 0 then (if codeSigned w.ty.toNat then -1 else intMax false (formatBits w.ty.toNat)) else a.tdiv b

/-- The remainder of R80. -/
def remainder (a b : Int) : Int := if b = 0 then a else a.tmod b

/-- IMADW (07 R166). -/
def imadwValue (w : AluWord) (i : LaneIn) : Word :=
  let ty := w.ty.toNat
  let n := formatBits ty
  elements (2 * n) fun k =>
    intResult (codeSigned ty) w.sat (2 * n)
      (decodeInt ty n (elem i.a.toNat n k) * decodeInt ty n (elem i.b.toNat n k) + decodeInt ty (2 * n) (elem i.c.toNat (2 * n) k))

/-- An element instruction on bits, whatever the signedness. -/
def bitElements (w : AluWord) (f : Nat → Nat → Nat → Nat) (i : LaneIn) : Word :=
  let n := formatBits w.ty.toNat
  elements n fun k => f n (elem i.a.toNat n k) (elem i.b.toNat n k)

/-- Set bits among the low `n`. -/
def popCount (n x : Nat) : Nat := (List.range n).foldl (fun c i => if bit x i then c + 1 else c) 0
/-- Leading zeros of `n` bits. -/
def leadingZeros (n x : Nat) : Nat := (List.range n).foldl (fun c i => if bit x i then n - 1 - i else c) n
/-- Trailing zeros of `n` bits. -/
def trailingZeros (n x : Nat) : Nat := (List.range n).foldl (fun c i => if bit x (n - 1 - i) then n - 1 - i else c) n
/-- Bits in reverse order. -/
def reverseBits (n x : Nat) : Nat := (List.range n).foldl (fun r i => if bit x i then r + 2 ^ (n - 1 - i) else r) 0

/-- Shifts of R80. -/
def shiftLeft (n a c : Nat) : Nat := if n ≤ c then 0 else a * 2 ^ c
def shiftRight (n a c : Nat) : Nat := if n ≤ c then 0 else a / 2 ^ c
def shiftArith (n a c : Nat) : Nat := wrapInt (signedOf a n / 2 ^ (min c n)) n
def rotateLeft (n a c : Nat) : Nat := a * 2 ^ (c % n) + a / 2 ^ (n - c % n)

/-- The width of the field of BFX and BFI inside an element (07 R168). -/
def fieldLen (n pos len : Nat) : Nat := if n ≤ pos then 0 else min len (n - pos)

/-- BFX (07 R168); the control is the whole B register, or the literal. -/
def bfxValue (w : AluWord) (i : LaneIn) : Word :=
  let ctl := match i.lit with | some l => l.toNat % 65536 | none => i.b.toNat % 65536
  let pos := ctl % 256
  let len := ctl / 256
  let n := formatBits w.ty.toNat
  let l := fieldLen n pos len
  elements n fun k =>
    let f := elem i.a.toNat n k / 2 ^ pos % 2 ^ l
    if codeSigned w.ty.toNat && l != 0 then wrapInt (signedOf f l) n else f

/-- BFI (07 R168). -/
def bfiValue (w : AluWord) (i : LaneIn) : Word :=
  let pos := i.c.toNat % 256
  let len := i.c.toNat / 256 % 256
  let n := formatBits w.ty.toNat
  let l := fieldLen n pos len
  elements n fun k =>
    let a := elem i.a.toNat n k
    let b := elem i.b.toNat n k
    a - a / 2 ^ pos % 2 ^ l * 2 ^ pos + b % 2 ^ l * 2 ^ pos

/-- The tests of a comparison, by sub-element. -/
def icmpTest (w : AluWord) (i : LaneIn) (k : Nat) : Bool :=
  let n := formatBits w.ty.toNat
  icmpElem w.ty.toNat (w.c.toNat % 8) (elem i.a.toNat n k) (elem i.b.toNat n k)

def fcmpTest (w : AluWord) (i : LaneIn) (k : Nat) : Bool :=
  let n := formatBits w.ty.toNat
  fcmpElem i.fp w.ty.toNat (w.c.toNat % 8) (elem i.a.toNat n k) (elem i.b.toNat n k)

/-- The mask form: a true sub-element is all ones (07 R169). -/
def testMask (ty : Nat) (t : Nat → Bool) : Word :=
  elements (formatBits ty) fun k => if t k then 2 ^ formatBits ty - 1 else 0

/-- SEL (07 R170). -/
def selValue (w : AluWord) (i : LaneIn) : Word := if i.pred (w.c.toNat % 8) != bit w.c.toNat 3 then i.a else i.b

/-- MOVI (07 R172). -/
def moviValue (w : AluWord) (i : LaneIn) : Word :=
  if w.c.getLsbD 0 then BitVec.ofNat 64 (i.d.toNat % 2 ^ 32 + (w.lit.getD 0).toNat * 2 ^ 32) else i.b

/-- The offset field of a space: its width (07 R173). -/
def offsetWidth (space : Nat) : Option Nat :=
  match space with
  | 0 => some 56 | 1 => some 18 | 2 => some 18 | 4 => some 46 | _ => none

/-- LEA (07 R173). -/
def leaValue (w : AluWord) (i : LaneIn) : Word :=
  let ty := w.ty.toNat
  let idx : Int := decodeInt ty (formatBits ty) (i.b.toNat % 2 ^ formatBits ty)
  let off := idx * 2 ^ (w.c.toNat % 8)
  let a := i.a.toNat
  let space := a / 2 ^ 60
  if space = 15 then i.a
  else
    match offsetWidth space with
    | some n => BitVec.ofNat 64 (a - a % 2 ^ n + wrapInt (a + off) n)
    | none => BitVec.ofNat 64 (wrapInt (a + off) 64)

/-- PTRX (07 R174). -/
def ptrxValue (w : AluWord) (i : LaneIn) : Word :=
  let a := i.a.toNat
  let b := i.b.toNat
  let space := a / 2 ^ 60
  BitVec.ofNat 64 (match w.c.toNat % 8 with
    | 0 => bits a 55 0
    | 1 => 2 ^ 60 + bits a 17 0
    | 2 => 2 * 2 ^ 60 + bits b 1 0 * 2 ^ 58 + bits a 17 0
    | 3 => 4 * 2 ^ 60 + bits b 9 0 * 2 ^ 46 + bits a 45 0
    | 4 => space
    | 5 => match offsetWidth space with | some n => a % 2 ^ n | none => 0
    | _ => if space = 2 then bits a 59 58 else if space = 4 then bits a 55 46 else 0)

/-- SUBP (08 R194); the selector is bits [31:0] of B, or the literal. -/
def subpValue (w : AluWord) (i : LaneIn) : Word :=
  let n := formatBits w.ty.toNat
  let m := 64 / n
  let s := match i.lit with | some l => l.toNat | none => i.b.toNat % 2 ^ 32
  elements n fun k =>
    let q := s / 2 ^ (4 * k) % 16
    if q < m then elem i.a.toNat n q else if q < 2 * m then elem i.c.toNat n (q - m) else 0

/-- PACK (07 R183). -/
def packValue (w : AluWord) (i : LaneIn) : Word :=
  if w.c.getLsbD 0 then BitVec.ofNat 64 (join 6 8 fun j => elem i.a.toNat 8 j)
  else
    let ty := w.ty.toNat
    let n := formatBits ty
    let m := 64 / n
    elements (n / 2) fun k =>
      intResult (codeSigned ty) w.sat (n / 2) (decodeInt ty n (elem (if k < m then i.a else i.b).toNat n (k % m)))

/-- UNPACK (07 R183). -/
def unpackValue (w : AluWord) (i : LaneIn) : Word :=
  if w.c.getLsbD 0 then BitVec.ofNat 64 (join 8 8 fun j => elem i.a.toNat 6 j)
  else
    let ty := w.ty.toNat
    let n := formatBits ty
    let m := 64 / n
    elements n fun k =>
      let x := elem i.a.toNat (n / 2) (k + if w.c.getLsbD 1 then m else 0)
      if codeSigned ty then wrapInt (signedOf x (n / 2)) n else x

end Sys2Proof.Machine
end

