-- ==== Sys2Proof/Machine/FloatValues.lean ====
section
/-! DEFINITION. What the float, function, conversion and MX instructions compute in one lane (07 R175 to R185). -/

namespace Sys2Proof.Machine

/-- An element instruction that rounds each result once (07 R175): `f` forms the exact value from the flushed operands. -/
def floatElements (w : AluWord) (f : FpMode → FVal → FVal → FVal → FVal) (i : LaneIn) : Word :=
  let ty := w.ty.toNat
  let n := formatBits ty
  elements n fun k =>
    roundTo i.fp ty (i.rnd k)
      (f i.fp (operand i.fp ty (elem i.a.toNat n k)) (operand i.fp ty (elem i.b.toNat n k)) (operand i.fp ty (elem i.c.toNat n k)))

/-- Exact values of R175. -/
def faddVal (fp : FpMode) (a b _c : FVal) : FVal := withNan [a, b] (sumExact fp.rnd [a, b])
def fsubVal (fp : FpMode) (a b _c : FVal) : FVal := withNan [a, b] (sumExact fp.rnd [a, b.flip])
def fmulVal (_fp : FpMode) (a b _c : FVal) : FVal := withNan [a, b] (mulExact a b)
def ffmaVal (fp : FpMode) (a b c : FVal) : FVal := withNan [a, b, c] (sumExact fp.rnd [mulExact a b, c])

/-- The minimum or maximum of two encodings (07 R176): the operand returned keeps its bits after the input flush. `num` is the form that
prefers a number to a NaN. -/
def minMaxElem (fp : FpMode) (ty : Nat) (greater num : Bool) (a b : Nat) : Nat :=
  let x := operand fp ty a
  let y := operand fp ty b
  let nan := match firstNan [x, y] with | some v => roundTo fp ty 0 v | none => 0
  if x.isNan && y.isNan then nan
  else if x.isNan then (if num then flushIn fp ty b else nan)
  else if y.isNan then (if num then flushIn fp ty a else nan)
  else if (if greater then lessVal x y else lessVal y x) then flushIn fp ty b
  else flushIn fp ty a

/-- FMIN, FMAX, FMINN, FMAXN. -/
def minMaxValue (w : AluWord) (greater num : Bool) (i : LaneIn) : Word :=
  let n := formatBits w.ty.toNat
  elements n fun k => minMaxElem i.fp w.ty.toNat greater num (elem i.a.toNat n k) (elem i.b.toNat n k)

/-- The class of an encoding (Table 7.7). -/
def classBit (ty x : Nat) : Nat :=
  match decodeFloat ty x with
  | .nan _ f => if f / 2 ^ 51 % 2 = 1 then 1 else 0
  | .inf true => 2
  | .inf false => 9
  | .zero true => 5
  | .zero false => 6
  | .fin neg _ _ => if isSubnormal ty x then (if neg then 4 else 7) else (if neg then 3 else 8)

/-- FCLASS (07 R177). -/
def fclassValue (w : AluWord) (i : LaneIn) : Word :=
  let n := formatBits w.ty.toNat
  elements n fun k => 2 ^ classBit w.ty.toNat (elem i.a.toNat n k)

/-- FRND of one value (07 R178): an integral value stays as it is, and a zero keeps its sign. -/
def integral (mode r : Nat) (v : FVal) : FVal :=
  match v with
  | .fin n m e =>
    let k := roundQuanta mode n m e 0 r
    if k = 0 then .zero n else .fin n k 0
  | v => v

/-- FRND. -/
def frndValue (w : AluWord) (i : LaneIn) : Word :=
  let ty := w.ty.toNat
  let n := formatBits ty
  elements n fun k =>
    -- the result is representable, and no output flush can apply to an integer
    roundTo i.fp ty 0 (integral i.fp.rnd (i.rnd k) (operand i.fp ty (elem i.a.toNat n k)))

/-- FDOT2 (07 R179). Of two NaN elements of one operand the even one is first (DESIGN CHOICE, log 72). -/
def fdot2Value (w : AluWord) (i : LaneIn) : Word :=
  let ty := w.ty.toNat
  elements 32 fun k =>
    let a (j : Nat) := operand i.fp ty (elem i.a.toNat 16 (2 * k + j))
    let b (j : Nat) := operand i.fp ty (elem i.b.toNat 16 (2 * k + j))
    let c := operand i.fp 0x0A (elem i.c.toNat 32 k)
    roundTo i.fp 0x0A (i.rnd k)
      (withNan [a 0, a 1, b 0, b 1, c] (sumExact i.fp.rnd [mulExact (a 0) (b 0), mulExact (a 1) (b 1), c]))

/-- FRCP to FTANH (07 R180). -/
def funcValue (f : FuncOp) (w : AluWord) (i : LaneIn) : Word :=
  let ty := w.ty.toNat
  let n := formatBits ty
  elements n fun k => roundTo i.fp ty (i.rnd k) (funcVal f (operand i.fp ty (elem i.a.toNat n k)))

/-! ## Conversion -/

/-- A value scaled by 2^s (07 R182). -/
def FVal.scale (v : FVal) (s : Int) : FVal :=
  match v with
  | .fin n m e => .fin n m (e + s)
  | v => v

/-- conv(x · 2^s) of R181 and R182, on encodings. SAT clamps a narrowing conversion between integers, and one of equal width, of which R81 does
not speak (DESIGN CHOICE, log 72); a widening one sign-extends or zero-extends. -/
def convElem (fp : FpMode) (dst src : Nat) (s : Int) (sat : Bool) (r x : Nat) : Nat :=
  let sw := formatBits src
  let dw := formatBits dst
  if formatIsInt src then
    let v := decodeInt src sw x
    if formatIsInt dst then
      let k : Int := match roundToInt fp.rnd r ((ofInt v).scale s) with | some (.inl k) => k | _ => 0
      wrapInt (if sat && decide (dw ≤ sw) then clampInt (codeSigned dst) dw k else k) dw
    else if dst = 0x11 then toE8m0 fp.rnd r ((ofInt v).scale s)
    else roundTo fp dst r ((ofInt v).scale s)
  else
    let v := (operand fp src (x % 2 ^ sw)).scale s
    if formatIsInt dst then floatToInt fp.rnd r dst v
    else if dst = 0x11 then toE8m0 fp.rnd r v
    else roundTo fp dst r v

/-- A conversion of the elements of A into D (07 R181). -/
def convValue (dst src part : Nat) (s : Int) (sat : Bool) (i : LaneIn) : Word :=
  let sw := formatSlot src
  let dw := formatSlot dst
  let k := cvtCount dst src
  let sbase := if dw ≤ sw then 0 else part * k
  let dbase := if dw ≤ sw then part * k else 0
  elements dw fun j =>
    if dbase ≤ j ∧ j < dbase + k then
      convElem i.fp dst src s sat (i.rnd j) (elem i.a.toNat sw (sbase + (j - dbase)))
    else if dw ≤ sw then elem i.d.toNat dw j else 0

/-- CVT. -/
def cvtValue (w : AluWord) (i : LaneIn) : Word :=
  convValue (w.b.toNat % 32) (w.c.toNat % 32) (w.c.toNat / 32) 0 w.sat i

/-- CVTI; its control is the literal of Table 7.9. -/
def cvtiValue (w : AluWord) (i : LaneIn) : Word :=
  let l := (w.lit.getD 0).toNat
  convValue (l % 32) (l / 32 % 32) (l / 1024 % 16) (signedOf (l / 2 ^ 14) 8) w.sat i

/-- A conversion rounds: between integers only a scaling down does (04 R91). -/
def convRounds (dst src : Nat) (s : Int) : Bool := !(formatIsInt dst && formatIsInt src && decide (0 ≤ s))

def cvtRounds (w : AluWord) : Bool := convRounds (w.b.toNat % 32) (w.c.toNat % 32) 0
def cvtiRounds (w : AluWord) : Bool :=
  let l := (w.lit.getD 0).toNat
  convRounds (l % 32) (l / 32 % 32) (signedOf (l / 2 ^ 14) 8)

/-- The CVT keeps bits of the old destination (07 R181). -/
def cvtKeeps (dst src : Nat) : Bool := decide (formatSlot dst < formatSlot src)

/-! ## MX blocks (07 R184, R185) -/

/-- The element format of an MX format (Table 4.3); 0x00 stands for the i8 of mxi8. -/
def mxElement (fmt : Nat) : Nat :=
  match fmt with
  | 0x14 => 0x0C | 0x15 => 0x0D | 0x16 => 0x0E | 0x17 => 0x0F | 0x18 => 0x10 | _ => 0x00

/-- emax of Table 7.10. -/
def mxEmax (fmt : Nat) : Int :=
  match fmt with
  | 0x14 => 8 | 0x15 => 15 | 0x16 => 4 | 0x17 => 2 | 0x18 => 2 | _ => 0

/-- Registers and bits that 32 elements take. -/
def mxRegs (fmt : Nat) : Nat := if fmt = 0x18 then 2 else 4
def mxBits (fmt : Nat) : Nat := if fmt = 0x18 then 4 else 8

/-- The magnitude exponent floor(log2 |v|) of a value. -/
def FVal.log2 (v : FVal) : Option Int :=
  match v with
  | .fin _ m e => some (Nat.log2 m + e)
  | _ => none

/-- The value of an MX element before its block's scale. -/
def mxDecode (fmt x : Nat) : FVal :=
  if fmt = 0x19 then (ofInt (signedOf x 8)).scale (-6) else decodeFloat (mxElement fmt) (x % 2 ^ formatBits (mxElement fmt))

/-- One element of QMX. -/
def mxEncode (fp : FpMode) (fmt r : Nat) (v : FVal) : Nat :=
  if fmt = 0x19 then floatToInt fp.rnd r 0x00 (v.scale 6) else roundTo fp (mxElement fmt) r v

/-- The block QMX makes of 32 values: scale S, elements, and whether an element was rounded. -/
def qmxBlock (fp : FpMode) (fmt : Nat) (r : Nat → Nat) (v : Nat → FVal) : Nat × (Nat → Nat) × Bool :=
  let all := (List.range 32).map v
  if all.any fun x => match x with | .nan _ _ | .inf _ => true | _ => false then (255, fun _ => 0, false)
  else
    match (all.filterMap FVal.log2).max? with
    | none => (0, fun _ => 0, false)
    | some top =>
      let s := min (max (top - mxEmax fmt + 127) 0) 254
      (s.toNat, fun j => mxEncode fp fmt (r j) ((v j).scale (127 - s)), true)

/-- QMX: the elements as one number of `mxRegs` registers, then the scale register above them. -/
def qmxValue (w : AluWord) (i : LaneIn) (src : Nat) : Nat × Bool :=
  let ty := w.ty.toNat
  let fmt := w.b.toNat % 32
  let n := formatBits ty
  let (s, e, rounds) := qmxBlock i.fp fmt i.rnd fun j => operand i.fp ty (elem src n j)
  (join (mxBits fmt) 32 e + s * 2 ^ (64 * mxRegs fmt), rounds)

/-- DQMX: the results as one number, and whether they were rounded. The sub of R89 is the index of the element in its block (DESIGN CHOICE, log
72). A block with S = 0xFF, whose results R185 gives as the default NaN, rounds none of them (DEDUCED, log 31). -/
def dqmxValue (w : AluWord) (i : LaneIn) (src : Nat) : Nat × Bool :=
  let ty := w.ty.toNat
  let fmt := w.b.toNat % 32
  let n := formatBits ty
  let s := src / 2 ^ (64 * mxRegs fmt) % 256
  if s = 255 then (join n 32 fun _ => roundTo i.fp ty 0 defaultNan, false)
  else (join n 32 fun j => roundTo i.fp ty (i.rnd j) ((mxDecode fmt (elem src (mxBits fmt) j)).scale ((s : Int) - 127)), true)

end Sys2Proof.Machine
end

