-- ==== Sys2Proof/Machine/Group.lean ====
section
/-! DEFINITION. How an issue group executes one instruction (02 R37 to R39; 18 R400, R401): each lane reads the state as it stands before
the instruction, the effects take place in increasing lane order (03 R59), faulting lanes take their faults, and the run goes on or ends. -/

namespace Sys2Proof.Machine

/-- A lane of the issue group, with the state as it stands before the instruction. -/
structure Lane where
  s : State
  /-- Key of the thread. -/
  k : Nat
  t : Thread
  latch : Latch

/-- What an instruction does in one lane. -/
inductive LaneOut where
  /-- It executes: its effect, and the PC at which the thread then stands. -/
  | done (f : State → State) (pc : Word)
  /-- An operand is not ready (02 R39). -/
  | notReady
  /-- It arrives at a wait: its effect; the thread stands where it is. -/
  | wait (f : State → State)
  | fault (f : FaultInfo)
  /-- As `done` while its core's operand log has an entry left; else `full`, and the thread waits at its PC (13 R338). -/
  | logs (f full : State → State) (pc : Word)

/-- Entries of a core's operand log in use (13 R338). -/
def State.logUsed (s : State) (core : Nat) : Nat :=
  (s.accs.filter fun a => a.core == core && (match a.stage with | .logged _ => true | _ => false)).length

/-- The block of a lane. -/
def Lane.block (l : Lane) : Block := l.s.thrBlock l.t
/-- The PC after the instruction. -/
def Lane.next (l : Lane) : Word := nextPc l.latch.pc l.latch.len
/-- The quad rank of the lane's core. -/
def Lane.rank (l : Lane) : Nat := coreRank (l.s.thrCore l.t)

/-- The lanes of a latch, in increasing lane order. -/
def Latch.lanesOf (l : Latch) : List Nat := (List.range 32).filter fun i => l.lanes.getLsbD i

/-- A thread goes on at a PC after the instruction before `next`: a transfer leaves the bundle that it had read (05 R106), and the execution
ends its leave to pass a comparator (17 R383). -/
def Thread.goTo (t : Thread) (next pc : Word) : Thread :=
  { t with pc := pc, entered := if pc = next then t.entered else none, stepOver := none }

/-- A thread has arrived at a wait. It has executed its instruction, unless it is to issue it again (13 R338, R343; 09 R244). -/
def Thread.arrived (t : Thread) : Thread :=
  match t.wait with
  | .fetch _ | .log | .slice _ _ _ => t
  | _ => { t with stepOver := none }

/-- A lane also does this when it executes. -/
def LaneOut.also (o : LaneOut) (f : State → State) : LaneOut :=
  match o with
  | .done g pc => .done (fun s => f (g s)) pc
  | .logs g full pc => .logs (fun s => f (g s)) full pc
  | o => o

/-- The lane's effect. -/
def State.applyLane (s : State) (k : Nat) (pc next : Word) (o : LaneOut) : State :=
  match o with
  | .done f pc' => (f s).modThr k fun t => t.goTo next pc'
  | .notReady => s
  | .wait f => (f s).modThr k Thread.arrived
  | .fault fi => s.takeFault k fi pc false
  | .logs f full pc' => if s.logUsed (s.thrCore (s.thr k)) < 64 then (f s).modThr k fun t => t.goTo next pc' else full s

/-- Whether the lane goes on when its thread can issue again: it has executed, or its wait has ended at once. -/
def LaneOut.goes (o : LaneOut) : Bool :=
  match o with
  | .done _ _ | .wait _ | .logs _ _ _ => true
  | _ => false

/-- Whether the lane takes part in the issue. -/
def LaneOut.proceeds (o : LaneOut) : Bool :=
  match o with
  | .notReady => false
  | _ => true

/-- A committing instruction, one of R218, a RET or the entry of a handler stands before its REGION. -/
def Owed.owes (o : Owed) : Bool := o != .nothing && o != .begun

/-- The run after an issue: the lanes that go on, or none (02 R38, R39). `went` has the lanes that went on; `pc` is the PC of the
fall-through path. -/
def State.runAfter (s : State) (l : Latch) (r : Run) (went : List (Nat × Nat)) (pc : Word) : Option Run :=
  let live := went.filter fun e => let t := s.thr e.2; t.live && t.wait == .ready && !t.stopped && t.owed != .atHandler
  let same := match live with | [] => true | e :: _ => live.all fun x => (s.thr x.2).pc == (s.thr e.2).pc
  let stay := if same then live else live.filter fun e => (s.thr e.2).pc == pc
  let owes := stay.any fun e => (s.thr e.2).owed.owes
  let mask := stay.foldl (fun m e => m ||| (1#32 <<< e.1)) 0#32
  if mask = 0 ∨ l.eor ∨ (24 ≤ r.count + 1 ∧ !owes) then none
  else some { r with lanes := mask, count := r.count + 1, idle := 0, yld := l.yld }

/-- The run slot of a core. -/
def Core.slot (c : Core) (i : Nat) : Option Run := if i = 0 then c.slot0 else c.slot1
def Core.setSlot (c : Core) (i : Nat) (r : Option Run) : Core := if i = 0 then { c with slot0 := r } else { c with slot1 := r }

/-- A quantum ends (12 R314). -/
def State.endQuantum (s : State) (blk sq : Nat) : State := s.modSquad blk sq fun q => { q with qt := 0 }

/-- A core has issued an instruction of a squad. -/
def Core.hasIssued (c : Core) (blk sq : Nat) : Core :=
  { c with idle := 0, issued := c.issued ++ [(blk, sq)], now := c.now ++ [(blk, sq)] }

/-- The end of an issue: the run goes on or ends, the core has issued, and a block placed by a swap has issued (12 R314, R316). -/
def State.endIssue (s : State) (l : Latch) (went : List (Nat × Nat)) (pc : Word) : State :=
  let s := s.modBlock l.blk fun b => { b with bySwap := false }
  match (s.core l.core).slot l.slot with
  | none => s.modCore l.core fun c => c.hasIssued l.blk l.sq
  | some r =>
    let r' := s.runAfter l r went pc
    let s := s.modCore l.core fun c => (c.setSlot l.slot r').hasIssued l.blk l.sq
    if r'.isNone && l.yld then s.endQuantum l.blk l.sq else s

/-- The lanes of an instruction with their outcomes, each from the state before. -/
def State.outcomes (s : State) (l : Latch) (body : Lane → LaneOut) : List (Nat × Nat × LaneOut) :=
  l.lanesOf.map fun i =>
    let k := threadKey l.blk (32 * l.sq + i)
    (i, k, body { s := s, k := k, t := s.thr k, latch := l })

/-- An instruction executed by its issue group, and `post` once every lane has had its effect; its fall-through path goes on at `fall` (02 R38).
When no lane can proceed the group stays whole and the run stalls (02 R39). -/
def State.execFall (s : State) (fall : Latch → Word) (body : Lane → LaneOut) (post : Latch → State → State) : State :=
  match s.latch with
  | none => s
  | some l =>
    let outs := s.outcomes l body
    if l.trial then
      { s with latch := some { l with ready := outs.foldl (fun m o => if o.2.2.proceeds then m ||| (1#32 <<< o.1) else m) 0#32 } }
    else if outs.any fun o => o.2.2.proceeds then
      let s' := outs.foldl (fun s o => s.applyLane o.2.1 l.pc (nextPc l.pc l.len) o.2.2) s
      (post l s').endIssue l ((outs.filter fun o => o.2.2.goes).map fun o => (o.1, o.2.1)) (fall l)
    else s

/-- The same of an instruction whose fall-through path is the next in sequence. -/
def State.execThen (s : State) (body : Lane → LaneOut) (post : Latch → State → State) : State :=
  s.execFall (fun l => nextPc l.pc l.len) body post

/-- An instruction whose effects are those of its lanes. -/
def State.execGroup (s : State) (body : Lane → LaneOut) : State := s.execThen body fun _ s => s

/-- An instruction under a guard: a lane whose guard is pending is not ready; one whose guard is false moves on (05 R110). -/
def guarded (g : BitVec 3) (n : Bool) (body : Lane → LaneOut) (l : Lane) : LaneOut :=
  if l.s.pendingPred l.k g.toNat then .notReady
  else if l.t.guard g n then body l
  else .done id l.next

/-- The operand checks of a lane: bounds, then readiness. -/
def Lane.checked (l : Lane) (os : List Operand) (go : LaneOut) : LaneOut :=
  match firstBounds os l.block.allot with
  | some f => .fault f
  | none => if l.s.operandsReady l.k os then go else .notReady

/-! ## ALU class -/

/-- What an instruction of ALU class reads and writes beside its guard. -/
structure AluShape where
  /-- Reads the old destination. -/
  rd : Bool := false
  ra : Bool := true
  rb : Bool := true
  rc : Bool := false
  /-- Writes the register D. -/
  wd : Bool := true
  /-- Rounds at least one result (04 R91). -/
  rounds : Bool := false
  /-- Predicates read beside the guard. -/
  preds : List Nat := []

/-- The register of field A. -/
def aluNameA (w : AluWord) (t : Thread) : RegName := fieldName w.sq w.ind w.a (t.readX w.xs.toNat)

/-- The operands of an instruction of ALU class. -/
def aluOperands (sh : AluShape) (w : AluWord) (t : Thread) : List Operand :=
  (if sh.wd || sh.rd then [{ field := 0, name := fieldName w.sq false w.d 0, rd := sh.rd, wr := sh.wd }] else []) ++
  (if sh.ra then [{ field := 1, name := aluNameA w t }] else []) ++
  (if sh.rb && w.lit.isNone then [{ field := 2, name := fieldName w.sq false w.b 0 }] else []) ++
  (if sh.rc then [{ field := 3, name := fieldName w.sq false w.c 0 }] else [])

/-- P0 to P7 as a number. -/
def Thread.predMask (t : Thread) : Nat := t.p.toNat + 128

/-- The value of source B: the literal spread under the type, or the register. -/
def aluB (w : AluWord) (l : Lane) : Word :=
  match w.lit with
  | some x => spreadLit w.ty.toNat x
  | none => l.s.readReg l.t (fieldName w.sq false w.b 0)

/-- What one lane reads; `b` is source B. -/
def aluIn (w : AluWord) (l : Lane) (b : Word) : LaneIn :=
  { d := l.s.readReg l.t (fieldName w.sq false w.d 0), a := l.s.readReg l.t (aluNameA w l.t), b := b,
    c := l.s.readReg l.t (fieldName w.sq false w.c 0), lit := w.lit, fp := fpModeOf l.t.fpmode w.rnd.toNat,
    seed := l.block.srseed.toNat, bid := l.block.bid, tid := l.t.tid, ctr := l.t.srctr.toNat, preds := l.t.predMask }

/-- An instruction that rounds under the stochastic mode advances $srctr once (04 R91). -/
def stepCounter (rounds : Bool) (i : LaneIn) (k : Nat) (s : State) : State :=
  if rounds && i.fp.rnd == 5 then s.modThr k fun t => { t with srctr := t.srctr + 1 } else s

/-- One lane of an element instruction: `f` computes the destination from what the lane reads; `b` gives source B. -/
def aluLane (sh : AluShape) (w : AluWord) (b : Lane → Word) (f : LaneIn → Word) (l : Lane) : LaneOut :=
  if sh.preds.any fun p => l.s.pendingPred l.k p then .notReady
  else
    l.checked (aluOperands sh w l.t)
      (let i := aluIn w l (b l)
       .done (fun s => stepCounter sh.rounds i l.k (s.writeReg l.k (fieldName w.sq false w.d 0) (f i))) l.next)

/-- An element instruction of the 64-bit page. -/
def State.aluOp (s : State) (sh : AluShape) (w : AluWord) (f : LaneIn → Word) : State :=
  s.execGroup (guarded w.g w.n (aluLane sh w (aluB w) f))

/-- The 64-bit word an A32 word stands for (05 R107): guard P7, RND 000, no SAT, thread form, direct. -/
def a32Alu (w : A32Word) (ty : Nat) : AluWord :=
  { g := 7, n := false, d := w.d.zeroExtend 9, a := w.a.zeroExtend 9, b := w.b.zeroExtend 9, c := 0, ty := BitVec.ofNat 4 ty, rnd := 0,
    sat := false, sq := false, ind := false, xs := 0, rsv := false, lit := none }

/-- An A32 form with a register source B. -/
def State.a32Reg (s : State) (sh : AluShape) (w : A32Word) (ty : Nat) (f : AluWord → LaneIn → Word) : State :=
  s.aluOp sh (a32Alu w ty) (f (a32Alu w ty))

/-- An A32 form with imm7 as source B (05 R108). -/
def State.a32Imm (s : State) (sh : AluShape) (w : A32Word) (ty : Nat) (f : AluWord → LaneIn → Word) : State :=
  s.execGroup (guarded 7 false (aluLane { sh with rb := false } (a32Alu w ty) (fun _ => spreadImm ty w.b) (f (a32Alu w ty))))

/-- One lane of an instruction that writes predicate `p`. -/
def predLane (sh : AluShape) (w : AluWord) (p : Nat) (f : LaneIn → Bool) (l : Lane) : LaneOut :=
  if sh.preds.any fun p => l.s.pendingPred l.k p then .notReady
  else
    l.checked (aluOperands { sh with wd := false } w l.t)
      (let i := aluIn w l (aluB w l)
       .done (fun s => s.writePred l.k p (f i)) l.next)

end Sys2Proof.Machine
end

