-- ==== Sys2Proof/Machine/Compute.lean ====
section
/-! DEFINITION. The compute instructions of 07, and their compact A32 forms (05 Table 5.4), each one issue group at a time. -/

namespace Sys2Proof.Machine

/-- Operand shapes of Table 7.1. -/
def shapeAB : AluShape := {}
def shapeABC : AluShape := { rc := true }
def shapeA : AluShape := { rb := false }
def shapeFloatAB : AluShape := { rounds := true }
def shapeFloatA : AluShape := { rb := false, rounds := true }

/-- Exact values of Table 7.3. -/
def iaddVal (a b _c : Int) : Int := a + b
def isubVal (a b _c : Int) : Int := a - b
def imulVal (a b _c : Int) : Int := a * b

/-! ## Compact forms -/
/-- MOV Vd, Va (R107, R171). -/
def execMovA32 (w : A32Word) (s : State) : Host.Outcome State Fault Refusal :=
  .next (s.a32Reg shapeA w 7 fun _ i => i.a)

/-- MOVI.i64 Vd, imm7 (R108, R172). -/
def execMoviI64A32 (w : A32Word) (s : State) : Host.Outcome State Fault Refusal :=
  .next (s.a32Imm { ra := false } w 6 fun _ i => i.b)

/-- IADD.i32 Vd, Va, Vb (R107, R165). -/
def execIaddI32A32 (w : A32Word) (s : State) : Host.Outcome State Fault Refusal :=
  .next (s.a32Reg shapeAB w 4 fun w => intElements w iaddVal)

/-- IADD.i32 Vd, Va, imm7 (R108, R165). -/
def execIaddI32A32Imm (w : A32Word) (s : State) : Host.Outcome State Fault Refusal :=
  .next (s.a32Imm shapeAB w 4 fun w => intElements w iaddVal)

/-- IADD.i64 Vd, Va, Vb (R107, R165). -/
def execIaddI64A32 (w : A32Word) (s : State) : Host.Outcome State Fault Refusal :=
  .next (s.a32Reg shapeAB w 6 fun w => intElements w iaddVal)

/-- IADD.i64 Vd, Va, imm7 (R108, R165). -/
def execIaddI64A32Imm (w : A32Word) (s : State) : Host.Outcome State Fault Refusal :=
  .next (s.a32Imm shapeAB w 6 fun w => intElements w iaddVal)

/-- ISUB.i32 Vd, Va, Vb (R107, R165). -/
def execIsubI32A32 (w : A32Word) (s : State) : Host.Outcome State Fault Refusal :=
  .next (s.a32Reg shapeAB w 4 fun w => intElements w isubVal)

/-- ISUB.i64 Vd, Va, Vb (R107, R165). -/
def execIsubI64A32 (w : A32Word) (s : State) : Host.Outcome State Fault Refusal :=
  .next (s.a32Reg shapeAB w 6 fun w => intElements w isubVal)

/-- IMUL.i32 Vd, Va, Vb (R107, R165). -/
def execImulI32A32 (w : A32Word) (s : State) : Host.Outcome State Fault Refusal :=
  .next (s.a32Reg shapeAB w 4 fun w => intElements w imulVal)

/-- IMUL.i32 Vd, Va, imm7 (R108, R165). -/
def execImulI32A32Imm (w : A32Word) (s : State) : Host.Outcome State Fault Refusal :=
  .next (s.a32Imm shapeAB w 4 fun w => intElements w imulVal)

/-- IMIN.i32 (R107, R165). -/
def execIminI32A32 (w : A32Word) (s : State) : Host.Outcome State Fault Refusal :=
  .next (s.a32Reg shapeAB w 4 fun w => intElements w fun a b _ => min a b)

/-- IMAX.i32 (R107, R165). -/
def execImaxI32A32 (w : A32Word) (s : State) : Host.Outcome State Fault Refusal :=
  .next (s.a32Reg shapeAB w 4 fun w => intElements w fun a b _ => max a b)

/-- AND.n64 Vd, Va, Vb (R107, R167). -/
def execAndN64A32 (w : A32Word) (s : State) : Host.Outcome State Fault Refusal :=
  .next (s.a32Reg shapeAB w 7 fun _ i => i.a &&& i.b)

/-- AND.n64 Vd, Va, imm7 (R108, R167). -/
def execAndN64A32Imm (w : A32Word) (s : State) : Host.Outcome State Fault Refusal :=
  .next (s.a32Imm shapeAB w 7 fun _ i => i.a &&& i.b)

/-- OR.n64 (R107, R167). -/
def execOrN64A32 (w : A32Word) (s : State) : Host.Outcome State Fault Refusal :=
  .next (s.a32Reg shapeAB w 7 fun _ i => i.a ||| i.b)

/-- XOR.n64 (R107, R167). -/
def execXorN64A32 (w : A32Word) (s : State) : Host.Outcome State Fault Refusal :=
  .next (s.a32Reg shapeAB w 7 fun _ i => i.a ^^^ i.b)

/-- SHL.n32 Vd, Va, imm7 (R108, R167). -/
def execShlN32A32Imm (w : A32Word) (s : State) : Host.Outcome State Fault Refusal :=
  .next (s.a32Imm shapeAB w 5 fun w => bitElements w shiftLeft)

/-- SHR.n32 Vd, Va, imm7 (R108, R167). -/
def execShrN32A32Imm (w : A32Word) (s : State) : Host.Outcome State Fault Refusal :=
  .next (s.a32Imm shapeAB w 5 fun w => bitElements w shiftRight)

/-- SHRA.i32 Vd, Va, imm7 (R108, R167). -/
def execShraI32A32Imm (w : A32Word) (s : State) : Host.Outcome State Fault Refusal :=
  .next (s.a32Imm shapeAB w 4 fun w => bitElements w shiftArith)

/-- SHL.n64 Vd, Va, imm7 (R108, R167). -/
def execShlN64A32Imm (w : A32Word) (s : State) : Host.Outcome State Fault Refusal :=
  .next (s.a32Imm shapeAB w 7 fun w => bitElements w shiftLeft)

/-- SHR.n64 Vd, Va, imm7 (R108, R167). -/
def execShrN64A32Imm (w : A32Word) (s : State) : Host.Outcome State Fault Refusal :=
  .next (s.a32Imm shapeAB w 7 fun w => bitElements w shiftRight)

/-- FADD.f32 under $fpmode[RND] (R107, R175). -/
def execFaddF32A32 (w : A32Word) (s : State) : Host.Outcome State Fault Refusal :=
  .next (s.a32Reg shapeFloatAB w 10 fun w => floatElements w faddVal)

/-- FSUB.f32 under $fpmode[RND] (R107, R175). -/
def execFsubF32A32 (w : A32Word) (s : State) : Host.Outcome State Fault Refusal :=
  .next (s.a32Reg shapeFloatAB w 10 fun w => floatElements w fsubVal)

/-- FMUL.f32 under $fpmode[RND] (R107, R175). -/
def execFmulF32A32 (w : A32Word) (s : State) : Host.Outcome State Fault Refusal :=
  .next (s.a32Reg shapeFloatAB w 10 fun w => floatElements w fmulVal)

/-- FMIN.f32 (R107, R176). -/
def execFminF32A32 (w : A32Word) (s : State) : Host.Outcome State Fault Refusal :=
  .next (s.a32Reg shapeAB w 10 fun w => minMaxValue w false false)

/-- FMAX.f32 (R107, R176). -/
def execFmaxF32A32 (w : A32Word) (s : State) : Host.Outcome State Fault Refusal :=
  .next (s.a32Reg shapeAB w 10 fun w => minMaxValue w true false)

/-- FADD.bf16 under $fpmode[RND] (R107, R175). -/
def execFaddBf16A32 (w : A32Word) (s : State) : Host.Outcome State Fault Refusal :=
  .next (s.a32Reg shapeFloatAB w 9 fun w => floatElements w faddVal)

/-- FMUL.bf16 under $fpmode[RND] (R107, R175). -/
def execFmulBf16A32 (w : A32Word) (s : State) : Host.Outcome State Fault Refusal :=
  .next (s.a32Reg shapeFloatAB w 9 fun w => floatElements w fmulVal)

/-- FADD.f16 under $fpmode[RND] (R107, R175). -/
def execFaddF16A32 (w : A32Word) (s : State) : Host.Outcome State Fault Refusal :=
  .next (s.a32Reg shapeFloatAB w 8 fun w => floatElements w faddVal)

/-- FMUL.f16 under $fpmode[RND] (R107, R175). -/
def execFmulF16A32 (w : A32Word) (s : State) : Host.Outcome State Fault Refusal :=
  .next (s.a32Reg shapeFloatAB w 8 fun w => floatElements w fmulVal)

/-! ## Integer arithmetic -/

/-- IADD (R165). -/
def execIadd (w : AluWord) (s : State) : Host.Outcome State Fault Refusal :=
  .next (s.aluOp shapeAB w (intElements w iaddVal))

/-- ISUB (R165). -/
def execIsub (w : AluWord) (s : State) : Host.Outcome State Fault Refusal :=
  .next (s.aluOp shapeAB w (intElements w isubVal))

/-- IMUL (R165). -/
def execImul (w : AluWord) (s : State) : Host.Outcome State Fault Refusal :=
  .next (s.aluOp shapeAB w (intElements w imulVal))

/-- IADD3 (R165). -/
def execIadd3 (w : AluWord) (s : State) : Host.Outcome State Fault Refusal :=
  .next (s.aluOp shapeABC w (intElements w fun a b c => a + b + c))

/-- IMULH: floor(a · b / 2^w) (R165). -/
def execImulh (w : AluWord) (s : State) : Host.Outcome State Fault Refusal :=
  .next (s.aluOp shapeAB w (intElements w fun a b _ => a * b / ((2 ^ formatBits w.ty.toNat : Nat) : Int)))

/-- IMAD (R165). -/
def execImad (w : AluWord) (s : State) : Host.Outcome State Fault Refusal :=
  .next (s.aluOp shapeABC w (intElements w fun a b c => a * b + c))

/-- IMADW (R166). -/
def execImadw (w : AluWord) (s : State) : Host.Outcome State Fault Refusal :=
  .next (s.aluOp shapeABC w (imadwValue w))

/-- IDIV (R80, R165). -/
def execIdiv (w : AluWord) (s : State) : Host.Outcome State Fault Refusal :=
  .next (s.aluOp shapeAB w (intElements w fun a b _ => quotient w a b))

/-- IREM (R80, R165). -/
def execIrem (w : AluWord) (s : State) : Host.Outcome State Fault Refusal :=
  .next (s.aluOp shapeAB w (intElements w fun a b _ => remainder a b))

/-- IMIN (R165). -/
def execImin (w : AluWord) (s : State) : Host.Outcome State Fault Refusal :=
  .next (s.aluOp shapeAB w (intElements w fun a b _ => min a b))

/-- IMAX (R165). -/
def execImax (w : AluWord) (s : State) : Host.Outcome State Fault Refusal :=
  .next (s.aluOp shapeAB w (intElements w fun a b _ => max a b))

/-- ICLAMP (R165). -/
def execIclamp (w : AluWord) (s : State) : Host.Outcome State Fault Refusal :=
  .next (s.aluOp shapeABC w (intElements w fun a b c => min (max a b) c))

/-- ISAD (R165). -/
def execIsad (w : AluWord) (s : State) : Host.Outcome State Fault Refusal :=
  .next (s.aluOp shapeABC w (intElements w fun a b c => ((a - b).natAbs : Int) + c))

/-! ## Bits -/

/-- POPC (R167). -/
def execPopc (w : AluWord) (s : State) : Host.Outcome State Fault Refusal :=
  .next (s.aluOp shapeA w (bitElements w fun n a _ => popCount n a))

/-- CLZ (R167). -/
def execClz (w : AluWord) (s : State) : Host.Outcome State Fault Refusal :=
  .next (s.aluOp shapeA w (bitElements w fun n a _ => leadingZeros n a))

/-- CTZ (R167). -/
def execCtz (w : AluWord) (s : State) : Host.Outcome State Fault Refusal :=
  .next (s.aluOp shapeA w (bitElements w fun n a _ => trailingZeros n a))

/-- AND (R167). -/
def execAnd (w : AluWord) (s : State) : Host.Outcome State Fault Refusal :=
  .next (s.aluOp shapeAB w (fun i => i.a &&& i.b))

/-- OR (R167). -/
def execOr (w : AluWord) (s : State) : Host.Outcome State Fault Refusal :=
  .next (s.aluOp shapeAB w (fun i => i.a ||| i.b))

/-- XOR (R167). -/
def execXor (w : AluWord) (s : State) : Host.Outcome State Fault Refusal :=
  .next (s.aluOp shapeAB w (fun i => i.a ^^^ i.b))

/-- NOT (R167). -/
def execNot (w : AluWord) (s : State) : Host.Outcome State Fault Refusal :=
  .next (s.aluOp shapeA w (fun i => ~~~i.a))

/-- ANDN: a AND NOT b (R167). -/
def execAndn (w : AluWord) (s : State) : Host.Outcome State Fault Refusal :=
  .next (s.aluOp shapeAB w (fun i => i.a &&& ~~~i.b))

/-- SHL (R80, R167). -/
def execShl (w : AluWord) (s : State) : Host.Outcome State Fault Refusal :=
  .next (s.aluOp shapeAB w (bitElements w shiftLeft))

/-- SHR (R80, R167). -/
def execShr (w : AluWord) (s : State) : Host.Outcome State Fault Refusal :=
  .next (s.aluOp shapeAB w (bitElements w shiftRight))

/-- SHRA (R80, R167). -/
def execShra (w : AluWord) (s : State) : Host.Outcome State Fault Refusal :=
  .next (s.aluOp shapeAB w (bitElements w shiftArith))

/-- ROTL (R80, R167). -/
def execRotl (w : AluWord) (s : State) : Host.Outcome State Fault Refusal :=
  .next (s.aluOp shapeAB w (bitElements w rotateLeft))

/-- BFX (R168). -/
def execBfx (w : AluWord) (s : State) : Host.Outcome State Fault Refusal :=
  .next (s.aluOp shapeAB w (bfxValue w))

/-- BFI (R168). -/
def execBfi (w : AluWord) (s : State) : Host.Outcome State Fault Refusal :=
  .next (s.aluOp shapeABC w (bfiValue w))

/-- BREV (R167). -/
def execBrev (w : AluWord) (s : State) : Host.Outcome State Fault Refusal :=
  .next (s.aluOp shapeA w (bitElements w fun n a _ => reverseBits n a))

/-! ## Comparison, selection, moves, pointers -/

/-- One lane of a comparison: the mask form writes a register, the other a predicate (R169, Table 7.5). -/
def compareLane (w : AluWord) (t : LaneIn → Nat → Bool) (l : Lane) : LaneOut :=
  if w.c.getLsbD 5 then aluLane shapeAB w (aluB w) (fun i => testMask w.ty.toNat (t i)) l
  else predLane shapeAB w (w.d.toNat % 8) (fun i => reduceTests (w.c.toNat / 8 % 4) (64 / formatBits w.ty.toNat) (t i)) l

/-- ICMP (R169). -/
def execIcmp (w : AluWord) (s : State) : Host.Outcome State Fault Refusal :=
  .next (s.execGroup (guarded w.g w.n (compareLane w (icmpTest w))))

/-- SEL (R170). -/
def execSel (w : AluWord) (s : State) : Host.Outcome State Fault Refusal :=
  .next (s.aluOp { preds := [w.c.toNat % 8] } w (selValue w))

/-- PLOP (R170). -/
def execPlop (w : AluWord) (s : State) : Host.Outcome State Fault Refusal :=
  .next (s.execGroup (guarded w.g w.n
    (predLane { ra := false, rb := false, preds := [w.a.toNat % 8, w.b.toNat % 8] } w (w.d.toNat % 8)
      fun i => plopBit (w.c.toNat % 16) (i.pred (w.a.toNat % 8)) (i.pred (w.b.toNat % 8)))))

/-- MOV (R171). -/
def execMov (w : AluWord) (s : State) : Host.Outcome State Fault Refusal :=
  .next (s.aluOp shapeA w (fun i => i.a))

/-- MOVI (R172); with HI the low half of Vd is kept. -/
def execMovi (w : AluWord) (s : State) : Host.Outcome State Fault Refusal :=
  .next (s.aluOp { ra := false, rb := false, rd := w.c.getLsbD 0 } w (moviValue w))

/-- One lane of MOVS (R171): fixed kinds, S to V or V to S. -/
def movsLane (w : AluWord) (l : Lane) : LaneOut :=
  let dir := w.c.getLsbD 0
  let d := fieldName dir false w.d 0
  let a := fieldName (!dir) w.ind w.a (l.t.readX w.xs.toNat)
  l.checked [{ field := 0, name := d, rd := false, wr := true }, { field := 1, name := a }]
    (.done (fun s => s.writeReg l.k d (l.s.readReg l.t a)) l.next)

/-- MOVS (R171). -/
def execMovs (w : AluWord) (s : State) : Host.Outcome State Fault Refusal :=
  .next (s.execGroup (guarded w.g w.n (movsLane w)))

/-- LEA (R173). -/
def execLea (w : AluWord) (s : State) : Host.Outcome State Fault Refusal :=
  .next (s.aluOp shapeAB w (leaValue w))

/-- PTRX (R174); ops 2 and 3 read B. -/
def execPtrx (w : AluWord) (s : State) : Host.Outcome State Fault Refusal :=
  .next (s.aluOp { rb := w.c.toNat % 8 == 2 || w.c.toNat % 8 == 3 } w (ptrxValue w))

/-! ## Floating point -/

/-- FADD (R175). -/
def execFadd (w : AluWord) (s : State) : Host.Outcome State Fault Refusal :=
  .next (s.aluOp shapeFloatAB w (floatElements w faddVal))

/-- FSUB (R175). -/
def execFsub (w : AluWord) (s : State) : Host.Outcome State Fault Refusal :=
  .next (s.aluOp shapeFloatAB w (floatElements w fsubVal))

/-- FMUL (R175). -/
def execFmul (w : AluWord) (s : State) : Host.Outcome State Fault Refusal :=
  .next (s.aluOp shapeFloatAB w (floatElements w fmulVal))

/-- FFMA (R175). -/
def execFfma (w : AluWord) (s : State) : Host.Outcome State Fault Refusal :=
  .next (s.aluOp { rc := true, rounds := true } w (floatElements w ffmaVal))

/-- FMIN (R176). -/
def execFmin (w : AluWord) (s : State) : Host.Outcome State Fault Refusal :=
  .next (s.aluOp shapeAB w (minMaxValue w false false))

/-- FMAX (R176). -/
def execFmax (w : AluWord) (s : State) : Host.Outcome State Fault Refusal :=
  .next (s.aluOp shapeAB w (minMaxValue w true false))

/-- FMINN (R176). -/
def execFminn (w : AluWord) (s : State) : Host.Outcome State Fault Refusal :=
  .next (s.aluOp shapeAB w (minMaxValue w false true))

/-- FMAXN (R176). -/
def execFmaxn (w : AluWord) (s : State) : Host.Outcome State Fault Refusal :=
  .next (s.aluOp shapeAB w (minMaxValue w true true))

/-- FCMP (R169). -/
def execFcmp (w : AluWord) (s : State) : Host.Outcome State Fault Refusal :=
  .next (s.execGroup (guarded w.g w.n (compareLane w (fcmpTest w))))

/-- FCLASS (R177). -/
def execFclass (w : AluWord) (s : State) : Host.Outcome State Fault Refusal :=
  .next (s.aluOp shapeA w (fclassValue w))

/-- FRND (R178). -/
def execFrnd (w : AluWord) (s : State) : Host.Outcome State Fault Refusal :=
  .next (s.aluOp shapeFloatA w (frndValue w))

/-- FDOT2 (R179). -/
def execFdot2 (w : AluWord) (s : State) : Host.Outcome State Fault Refusal :=
  .next (s.aluOp { rc := true, rounds := true } w (fdot2Value w))

/-- FRCP (R96, R180). -/
def execFrcp (w : AluWord) (s : State) : Host.Outcome State Fault Refusal :=
  .next (s.aluOp shapeFloatA w (funcValue .rcp w))

/-- FRSQ (R96, R180). -/
def execFrsq (w : AluWord) (s : State) : Host.Outcome State Fault Refusal :=
  .next (s.aluOp shapeFloatA w (funcValue .rsq w))

/-- FSQRT (R96, R180). -/
def execFsqrt (w : AluWord) (s : State) : Host.Outcome State Fault Refusal :=
  .next (s.aluOp shapeFloatA w (funcValue .sqrt w))

/-- FEXP2 (R96, R180). -/
def execFexp2 (w : AluWord) (s : State) : Host.Outcome State Fault Refusal :=
  .next (s.aluOp shapeFloatA w (funcValue .exp2 w))

/-- FLOG2 (R96, R180). -/
def execFlog2 (w : AluWord) (s : State) : Host.Outcome State Fault Refusal :=
  .next (s.aluOp shapeFloatA w (funcValue .log2 w))

/-- FSIN (R96, R180). -/
def execFsin (w : AluWord) (s : State) : Host.Outcome State Fault Refusal :=
  .next (s.aluOp shapeFloatA w (funcValue .sin w))

/-- FCOS (R96, R180). -/
def execFcos (w : AluWord) (s : State) : Host.Outcome State Fault Refusal :=
  .next (s.aluOp shapeFloatA w (funcValue .cos w))

/-- FTANH (R96, R180). -/
def execFtanh (w : AluWord) (s : State) : Host.Outcome State Fault Refusal :=
  .next (s.aluOp shapeFloatA w (funcValue .tanh w))

/-! ## Conversion -/

/-- CVT (R181); a narrowing form keeps the other slots of Vd. -/
def execCvt (w : AluWord) (s : State) : Host.Outcome State Fault Refusal :=
  .next (s.aluOp { rb := false, rd := cvtKeeps (w.b.toNat % 32) (w.c.toNat % 32), rounds := cvtRounds w } w (cvtValue w))

/-- CVTI (R182). -/
def execCvti (w : AluWord) (s : State) : Host.Outcome State Fault Refusal :=
  .next (s.aluOp { rb := false, rd := cvtKeeps ((w.lit.getD 0).toNat % 32) ((w.lit.getD 0).toNat / 32 % 32), rounds := cvtiRounds w } w (cvtiValue w))

/-- PACK (R183). -/
def execPack (w : AluWord) (s : State) : Host.Outcome State Fault Refusal :=
  .next (s.aluOp { rb := !w.c.getLsbD 0 } w (packValue w))

/-- UNPACK (R183). -/
def execUnpack (w : AluWord) (s : State) : Host.Outcome State Fault Refusal :=
  .next (s.aluOp shapeA w (unpackValue w))

/-- One lane of QMX or DQMX: `nd` registers from D, `na` from A (R162, R184, R185). -/
def mxLane (w : AluWord) (nd na : Nat) (f : LaneIn → Nat → Nat × Bool) (l : Lane) : LaneOut :=
  let d := fieldName false false w.d 0
  let a := aluNameA w l.t
  l.checked [{ field := 0, name := d, count := nd, rd := false, wr := true }, { field := 1, name := a, count := na }]
    (let i := aluIn w l 0
     let r := f i (l.s.readRange l.t a na)
     .done (fun s => stepCounter r.2 i l.k (s.writeRange l.k d nd r.1)) l.next)

/-- Registers that 32 elements of a type take. -/
def mxSource (ty : Nat) : Nat := formatBits ty / 2

/-- QMX (R184). -/
def execQmx (w : AluWord) (s : State) : Host.Outcome State Fault Refusal :=
  .next (s.execGroup (guarded w.g w.n (mxLane w (mxRegs (w.b.toNat % 32) + 1) (mxSource w.ty.toNat) (qmxValue w))))

/-- DQMX (R185). -/
def execDqmx (w : AluWord) (s : State) : Host.Outcome State Fault Refusal :=
  .next (s.execGroup (guarded w.g w.n (mxLane w (mxSource w.ty.toNat) (mxRegs (w.b.toNat % 32) + 1) (dqmxValue w))))

/-- One lane of SRSEED (R186). -/
def srseedLane (w : AluWord) (l : Lane) : LaneOut :=
  l.checked [{ field := 1, name := aluNameA w l.t }]
    (.done (fun s => (s.modBlock l.t.blk fun b => { b with srseed := l.s.readReg l.t (aluNameA w l.t) }).modThr l.k
      fun t => { t with srctr := 0 }) l.next)

/-- SRSEED (R186). -/
def execSrseed (w : AluWord) (s : State) : Host.Outcome State Fault Refusal :=
  .next (s.execGroup (guarded w.g w.n (srseedLane w)))

/-- SUBP (R194). -/
def execSubp (w : AluWord) (s : State) : Host.Outcome State Fault Refusal :=
  .next (s.aluOp shapeABC w (subpValue w))

end Sys2Proof.Machine
end

