-- ==== Sys2Proof/Machine/Demand.lean ====
section
/-! DEFINITION. Events for the masters' queues (16 R359), demand reports (13 R337), and the fetch of a bundle with its checks (05 R102 to
R106; 13 R343; 19 R424 to R428; 20 R435). -/

namespace Sys2Proof.Machine

/-! ## Event queues -/

/-- An event for a page's queue. -/
def State.postPage (s : State) (p : Nat) (e : Event) : State :=
  (s.modPage p fun x => { x with waiting := x.waiting ++ [e] }).plan [.eventQueuePost p]

/-- An event for the owner, held while nobody owns the control plane. -/
def State.postOwner (s : State) (e : Event) : State :=
  if s.owned then s.postPage s.owner e else { s with ownerEvents := s.ownerEvents ++ [e] }

/-- The page of the VF to which a context is bound. -/
def State.vfPage (s : State) (c : Nat) : Option Nat := (s.bound.find? fun e => e.2 == c).map fun e => 3 + e.1

/-- An event for the owner and for the page of the bound VF. -/
def State.postBoth (s : State) (c : Nat) (e : Event) : State :=
  let s := s.postOwner e
  match s.vfPage c with
  | some p => s.postPage p e
  | none => s

/-! ## Demand reports -/

/-- The page that a translation of `va` found absent: its first byte and its level. A table that is not present leaves the page's size
open, and the model takes a 64 KiB page (log 16). -/
def State.absentPage (s : State) (ctx va : Nat) : Nat × Nat :=
  match s.leafPa va 4 0 (s.ctx ctx).root with
  | some (_, l) => (pageBase va l, l)
  | none => (pageBase va 3, 3)

/-- The report of a page. -/
def Context.report (c : Context) (page : Nat) : Option Report := c.reports.find? fun r => r.page == page

/-- A demand fault: the page, with one pending report for it (13 R337). The reports of a context that stops or halts have been withdrawn, and it
makes no other (16 R363; 18 R411; log 70). -/
def State.demand (s : State) (ctx va kind level : Nat) (engine : Bool) : State × Nat :=
  let p := s.absentPage ctx va
  match (s.ctx ctx).status, (s.ctx ctx).report p.1 with
  | .stopping _ _, _ | .halting, _ | .faulted, _ | _, some _ => (s, p.1)
  | .active, none =>
    let s := s.modCtx ctx fun c => { c with reports := c.reports ++ [{ page := p.1, va := va, kind := kind, level := level, engine := engine }] }
    (s.postOwner { code := 2, ctx := ctx, arg0 := BitVec.ofNat 64 va,
                   arg1 := BitVec.ofNat 64 (kind + 4 * level + if engine then 16 else 0) }, p.1)

/-! ## Fetch -/

/-- What a fetch finds. -/
inductive Fetched where
  | words (ws : List Nat)
  | hold (level : Nat)
  | fault (f : FaultInfo)
  | invalid (detail : Nat)
deriving DecidableEq, Repr

/-- The bundle that starts at a VA, for a thread on a die (05 R106); a page declared unresolvable raises UNRESOLVED_PAGE (20 R436). -/
def State.fetchBundle (s : State) (ctx va die : Nat) : Fetched :=
  match s.translate ctx va die .fetch with
  | .ok pa _ _ =>
    -- poison is never returned to any reader as data (20 R455; log 30)
    if s.poison.any fun x => decide (pa < 32 * x + 32 ∧ 32 * x < pa + 64) then
      .fault { code := 0x0A02, addr := BitVec.ofNat 64 va, detail := if inTier pa then 0x0B else 0x0A }
    else .words ((List.range 16).map fun i => s.readMem (pa + 4 * i) 4)
  | .notResident l =>
    match (s.ctx ctx).report (s.absentPage ctx va).1 with
    | some r => if r.unresolvable then .fault { code := 0x0403, addr := BitVec.ofNat 64 va, detail := r.level } else .hold l
    | none => .hold l
  | .prot c d => .fault { code := c, addr := BitVec.ofNat 64 va, detail := d }
  | .invalid lv r => .invalid (lv + 4 * r)

/-- The lengths of the instructions from a word to the end of the bundle, as the last word of each (05 R104). -/
def lastWords : Nat → Nat → List Nat → List Nat
  | 0, _, _ => []
  | _, _, [] => []
  | fuel + 1, w, x :: xs =>
    let n := if x / 2 % 2 = 0 then 1 else 2 + x % 2
    (w + n - 1) :: lastWords fuel (w + n) ((x :: xs).drop n)

/-- The violation of a bundle control word for an entry at word `w`: a reserved bit, or an EOR bit at or after the entry that ends no
instruction (05 R104); the lowest bit of the field at fault: bit 16 of the reserved field [31:16], or the EOR bit (05 Table 5.1; 19 Table
19.1). -/
def bcwViolation (ws : List Nat) (w : Nat) : Option Nat :=
  let bcw := ws.headD 0
  let ends := lastWords 16 w (ws.drop w)
  ((List.range 15).find? fun k => bit bcw k && decide (w ≤ k + 1) && !ends.contains (k + 1)).or
    (if bits bcw 31 16 ≠ 0 then some 16 else none)

/-- A word begins a REGION with guard P7, not negated. -/
def isRegionWord (w : Nat) : Bool := w / 2 % 2 == 1 && w / 4 % 256 == 0x09 && w / 1024 % 16 == 7

/-- The landing pad at the start of a bundle: the tag of a PAD in word 1. -/
def padTag (ws : List Nat) : Option Nat :=
  match ws with
  | _ :: w0 :: w1 :: _ => if w0 / 2 % 2 == 1 && w0 / 4 % 256 == 0x04 then some (w1 % 256) else none
  | _ => none

/-- A lane waits for a fetch (13 R343); kind 0 of a DEMAND event. -/
def State.holdFetch (s : State) (k ctx va level : Nat) : State :=
  (s.demand ctx va 0 level false).1.modThr k fun t => { t with wait := .fetch va }

/-- A translation for a thread met TABLE_INVALID: the context halts, and the thread issues nothing more (20 R437; 18 R411). -/
def State.tableInvalid (s : State) (k ctx va detail : Nat) : State :=
  (s.contextFault ctx 0x0407 (BitVec.ofNat 64 va) detail).modThr k fun t => { t with stopped := true }

/-- A fetch made by an instruction for a check (19 R424, R426, R427): `go` has the bundle's words. -/
def Lane.fetchCheck (l : Lane) (va : Nat) (go : List Nat → LaneOut) : LaneOut :=
  let ctx := l.block.ctx
  match l.s.fetchBundle ctx va (coreDie (l.s.thrCore l.t)) with
  | .words ws => go ws
  | .hold lv => .wait fun s => s.holdFetch l.k ctx va lv
  | .fault f => .fault f
  | .invalid d => .wait fun s => s.tableInvalid l.k ctx va d

/-- REGION_ORDER (19 R426 to R428). -/
def regionOrder (pc : Word) (detail : Nat) : FaultInfo := { code := 0x0104, addr := pc, detail := detail }

/-- The check before a committing instruction, or one of R218, issues (19 R426). -/
def Lane.regionFollows (l : Lane) (go : LaneOut) : LaneOut :=
  let bad := regionOrder l.next 0
  if l.latch.eor then .fault bad
  else
    match l.latch.follow with
    | some w => if isRegionWord w then go else .fault bad
    | none => l.fetchCheck (bundleOf l.next).toNat fun ws => if isRegionWord (ws.getD 1 0) then go else .fault bad

/-- What a thread whose guard is false does at an instruction that checks its region order: it waits for the fetch, raises REGION_ORDER, or
goes on (19 R418). -/
def LaneOut.unlessOrder (o : LaneOut) (next : Word) : LaneOut :=
  match o with
  | .wait f => .wait f
  | .fault f => if f.code = 0x0104 then .fault f else .done id next
  | _ => .done id next

/-- An instruction before which R426 is checked, whatever its guard (19 R418); `body` runs in lanes whose guard holds, after the bounds. -/
def committing (g : BitVec 3) (n : Bool) (os : Lane → List Operand) (body : Lane → LaneOut) (l : Lane) : LaneOut :=
  if l.s.pendingPred l.k g.toNat then .notReady
  else if l.t.guard g n then
    match firstBounds (os l) l.block.allot with
    | some f => .fault f
    | none => l.regionFollows (if l.s.operandsReady l.k (os l) then body l else .notReady)
  else (l.regionFollows (.done id l.next)).unlessOrder l.next

/-- The thread must execute REGION next. -/
def State.owe (s : State) (k : Nat) (o : Owed) : State := s.modThr k fun t => { t with owed := o }

end Sys2Proof.Machine
end

