-- ==== Sys2Proof/Machine/Order.lean ====
section
/-! DEFINITION. Accesses in flight: their order within a thread (11 R281, R282), what is performed, and what a failure cancels (20 R438). -/

namespace Sys2Proof.Machine

/-- Async-class instructions and asynchronous operations (09 R220, R229). -/
def AccessKind.isAsync (k : AccessKind) : Bool :=
  match k with
  | .load | .store | .atomic _ _ => false
  | _ => true

/-- Reads, in the classes of Table 11.1; a RED is a write. -/
def AccessKind.reads (k : AccessKind) : Bool :=
  match k with
  | .load | .launch => true
  | .atomic _ r => r
  | _ => false

/-- Writes. -/
def AccessKind.writes (k : AccessKind) : Bool :=
  match k with
  | .store | .atomic _ _ => true
  | _ => false

/-- The bytes of two accesses meet, by their pointers, or by their places when both are known. -/
def Access.shares (a b : Access) : Bool :=
  let meet (x y : Nat) := decide (x < y + b.size ∧ y < x + a.size)
  match a.key, b.key with
  | some x, some y => meet x y
  | _, _ => meet a.ea.toNat b.ea.toNat

/-- Every byte of `b` is among those of `a`. -/
def Access.covers (a b : Access) : Bool :=
  match a.key, b.key with
  | some x, some y => decide (x ≤ y ∧ y + b.size ≤ x + a.size)
  | _, _ => false

/-- Table 11.2: `a` earlier and `b` later on one stream. -/
def tableOrdered (banked : Bool) (a b : Access) : Bool :=
  if a.kind.reads then true
  else if a.kind.writes then b.kind.writes && (!banked || a.shares b)
  else false

/-- A store of which no part has been performed. -/
def Access.standing (a : Access) : Bool :=
  a.kind == .store && a.got.isEmpty && (match a.stage with | .issued | .logged _ => true | _ => false)

/-- The order one thread keeps on one byte (11 R282); a load may take its value from a store of its own that covers it and stands. -/
def byteOrdered (a b : Access) : Bool :=
  !a.kind.isAsync && !b.kind.isAsync && a.shares b &&
  (b.kind.writes || a.kind.reads || !(a.standing && a.covers b))

/-- `b` is ordered directly after the earlier access `a` of its thread (11 R281 rules 1 and 2, R282). Rule 3 needs no clause: an
instruction issues only once the values it uses have been returned, and `tookValue` says what a value returned early orders. -/
def Access.after (banked : Bool) (b a : Access) : Bool :=
  bit b.pred a.strm ||
  (a.strm == b.strm && !a.kind.isAsync && !b.kind.isAsync && tableOrdered banked a b) ||
  byteOrdered a b

/-- `b` issued after the value of the load `a` had been returned from a store that stood (11 R281 rule 3; log 40). -/
def Access.tookValue (b a : Access) : Bool := match a.stage with | .bound _ upto => decide (upto ≤ b.id) | _ => false

/-- `a` is an earlier access of the thread of `b` that `b` waits for, or an atomic of a lower lane of the same execution to the same
location (08 R210). -/
def Access.waitsFor (banked : Bool) (b a : Access) : Bool :=
  decide (a.id < b.id) && a.stage != .cancelled &&
  ((a.thr == b.thr && (b.after banked a || b.tookValue a)) ||
   (a.execId == b.execId && a.thr != b.thr && a.kind.writes && b.kind.writes && a.kind != .store && a.shares b))

/-- The mode of a context (11 R280). -/
def State.banked (s : State) (ctx : Nat) : Bool := (s.ctx ctx).banked

/-- An access still waits for another. -/
def State.waits (s : State) (b : Access) : Bool := s.accs.any fun a => b.waitsFor (s.banked b.ctx) a

/-- The access leaves the list. -/
def State.dropAcc (s : State) (a : Nat) : State := { s with accs := s.accs.filter fun x => x.id != a }

/-- A bead falls (03 R61). -/
def State.lowerBead (s : State) (k strm : Nat) : State := s.modThr k fun t => t.setBead strm (t.bead strm - 1)

/-- An access has been performed. -/
def State.performed (s : State) (a : Access) : State :=
  let s := s.dropAcc a.id
  if a.counted then s.lowerBead a.thr a.strm else s

/-- The accesses that fall with `first`: later accesses of the thread ordered after one that falls, and so on (20 R438). The list is in
program order. -/
def cancelClosure (banked : Bool) (first : Nat) (accs : List Access) : List Access :=
  accs.foldl (fun out b => if b.id = first then out ++ [b] else if out.any fun a => b.after banked a then out ++ [b] else out) []

/-- An access is cancelled, with every access ordered after it; their beads fall and their streams break (20 R438). -/
def State.cancel (s : State) (a : Access) : State :=
  let mine := s.accs.filter fun x => x.thr == a.thr && decide (a.id ≤ x.id) && x.stage != .cancelled
  let gone := cancelClosure (s.banked a.ctx) a.id mine
  let ids := gone.map (·.id)
  let live := (s.thr a.thr).live
  let s := gone.foldl
    (fun s x =>
      let s := if x.counted then s.lowerBead x.thr x.strm else s
      s.modThr x.thr fun t => { t with broken := t.broken ||| (1#8 <<< x.strm) }) s
  { s with accs := s.accs.filterMap fun x =>
      if ids.contains x.id then
        (if live && !x.dests.isEmpty then some { x with stage := .cancelled, counted := false } else none)
      else some x }

/-- The fields of INFO that name an access. A code found by a replay, poison that it reads among them, says so (LOGGED; 20 R432, R455). -/
def Access.says (a : Access) (f : FaultInfo) : FaultInfo :=
  let kind := match a.kind with | .load | .launch | .engine _ => 1 | .store => 2 | .atomic _ r => (if r then 3 else 2) | _ => 0
  let size := match a.size with | 1 => 0 | 2 => 1 | 4 => 2 | 8 => 3 | 16 => 4 | 32 => 5 | 64 => 6 | _ => 0
  { f with strm := a.strm, pred := a.pred, kind := kind, size := size, logged := a.wasLogged && (f.logged || f.code == 0x0A02) }

/-- An access has failed after its issue: it is cancelled and its code is delivered to its thread's target (20 R438; 18 R410). -/
def State.failAcc (s : State) (a : Access) (f : FaultInfo) : State := (s.cancel a).deliver a.thr a.blk a.ctx (a.says f) a.pc

/-- The bytes that a load or an atomic returned, written to its destinations; parts of 8 bytes. -/
def State.writeDests (s : State) (a : Access) (value : Nat) : State :=
  a.dests.foldl
    (fun s d =>
      match d with
      | .v n k => s.modThr a.thr fun t => t.writeV n (BitVec.ofNat 64 (value / 2 ^ (64 * k)))
      | .s n k => s.modSquad a.blk (s.thr a.thr).sq fun q => q.writeS n (BitVec.ofNat 64 (value / 2 ^ (64 * k)))
      | .p n => s.modThr a.thr fun t => t.writeP n (value % 2 = 1)) s

/-- A lower lane's access returned `v`, while an access of a higher lane of its execution writes the S registers in its stead: that access
keeps the value of the highest such lane (08 R203). -/
def State.lend (s : State) (a : Access) (v : Nat) : State :=
  { s with accs := s.accs.map fun (x : Access) =>
      if x.execId = a.execId ∧ x.waiters.contains a.thr ∧ (x.lent.map (·.1)).getD 0 ≤ a.id then { x with lent := some (a.id, v) } else x }

/-- S registers among destinations. -/
def sDests (ds : List Dest) : List Nat := ds.filterMap fun d => match d with | .s n _ => some n | _ => none

/-- An access that writes S registers in the stead of lower lanes goes, its thread having exited (06 R143; 08 R203): of the lower lanes' values
the highest lane's stands. It has been lent already, or the access of that lane writes it. -/
def State.passShared (s : State) (a : Access) : State :=
  let ds := a.dests.filter fun d => match d with | .s _ _ => true | _ => false
  let mates := (s.accs.filter fun x => x.execId == a.execId && a.waiters.contains x.thr && x.stage != .cancelled).filter fun x =>
    match x.stage with | .bound _ _ => false | _ => true
  match mates.getLast?, a.lent with
  | some m, some (id, v) =>
    if m.id < id then s.writeDests { a with dests := ds } v
    else s.modAcc m.id fun x => { x with dests := x.dests ++ ds, waiters := a.waiters.filter (· != x.thr), lent := a.lent }
  | some m, none => s.modAcc m.id fun x => { x with dests := x.dests ++ ds, waiters := a.waiters.filter (· != x.thr) }
  | none, some (_, v) => s.writeDests { a with dests := ds } v
  | none, none => s

/-- Streams that an instruction names and that are broken (20 R439). -/
def brokenNamed (t : Thread) (strm pred : Nat) : Nat :=
  (List.range 8).foldl (fun m i => if t.broken.getLsbD i && (decide (i = strm) || bit pred i) then m + 2 ^ i else m) 0

/-- A lane of an instruction that makes an access: STREAM_STATE on a broken stream, and the stall of a full stream (20 R439; 11 R299). -/
def Lane.stream (l : Lane) (strm pred : Nat) (go : LaneOut) : LaneOut :=
  let b := brokenNamed l.t strm pred
  if b ≠ 0 then .fault { code := 0x0501, detail := b, strm := strm, pred := pred }
  else if 32 ≤ l.t.bead strm then .notReady
  else go

/-- An access joins the list with a new name, and its bead rises; younger writes take its destinations from older accesses (20 R438). -/
def State.issueAcc (s : State) (a : Access) : State :=
  let s := a.dests.foldl
    (fun s d => match d with
      | .v n _ => s.supersede a.thr (.v n)
      | .s n _ => s.supersede a.thr (.s n)
      | .p n => s.supersedePred a.thr n) s
  let s := { s with accs := s.accs ++ [{ a with id := s.nextId }], nextId := s.nextId + 1 }
  if a.counted then s.modThr a.thr fun t => t.setBead a.strm (t.bead a.strm + 1) else s

end Sys2Proof.Machine
end

