-- ==== Sys2Proof/Machine/Barrier.lean ====
section
/-! DEFINITION. Barrier slots (09 R221 to R227; 03 R70, R71) and the credits and arrivals of engines, commands and grids (09 R231, R249;
20 R440 to R443). -/

namespace Sys2Proof.Machine

/-- A barrier handle taken apart (Table 3.8). -/
structure Handle where
  slot : Nat
  dquad : Nat
  gen : Nat
  rsv : Nat
deriving DecidableEq, Repr

/-- The handle in a register: its low 32 bits. -/
def handleOf (x : BitVec 32) : Handle :=
  let h := x.toNat
  { slot := bits h 7 0, dquad := 48 * bits h 15 14 + bits h 13 8, gen := bits h 23 16, rsv := bits h 31 24 + bits h 13 8 / 48 }

/-- The handle of a slot (Table 3.8). -/
def makeHandle (dquad slot gen : Nat) : Nat := slot + dquad % 48 * 2 ^ 8 + dquad / 48 * 2 ^ 14 + gen * 2 ^ 16

def Quad.barrier (q : Quad) (i : Nat) : BarrierSlot := tgetD q.slots i {}
def Quad.setBarrier (q : Quad) (i : Nat) (b : BarrierSlot) : Quad := { q with slots := sset {} q.slots i b }

/-- The slot of a handle. -/
def State.slotOf (s : State) (h : Handle) : BarrierSlot := (s.quad h.dquad).barrier h.slot
def State.setSlot (s : State) (h : Handle) (b : BarrierSlot) : State := s.modQuad h.dquad fun q => q.setBarrier h.slot b

/-- A handle is current for a context (03 R71, 09 R221). -/
def State.current (s : State) (ctx : Nat) (x : BitVec 32) : Bool :=
  let h := handleOf x
  let b := s.slotOf h
  h.rsv == 0 && b.allot && b.gen == h.gen && b.ctx == ctx

/-- The completion of a phase (09 R222). -/
def BarrierSlot.settle (b : BarrierSlot) : BarrierSlot :=
  if b.arr = 0 ∧ b.bytes = 0 then { b with phase := (b.phase + 1) % 65536, arr := b.init, bytes := 0 } else b

/-- done(p) (09 R222). -/
def BarrierSlot.isDone (b : BarrierSlot) (p : Nat) : Bool :=
  let d := (b.phase + 65536 - p % 65536) % 65536
  decide (1 ≤ d ∧ d ≤ 32768)

/-- An update with its range check: the slot after it, or whether BYTES is at fault (20 R443). -/
def BarrierSlot.update (b : BarrierSlot) (dArr dBytes : Int) : Except Bool BarrierSlot :=
  let arr := b.arr + dArr
  let bytes := b.bytes + dBytes
  if arr < 0 ∨ 2 ^ 31 ≤ arr then .error false
  else if bytes < -(2 ^ 31) ∨ 2 ^ 31 ≤ bytes then .error true
  else .ok { b with arr := arr, bytes := bytes }.settle

/-- BARRIER_STALE and BARRIER_OVERRUN. -/
def barrierStale (x : BitVec 32) (detail : Nat) : FaultInfo := { code := 0x0603, addr := x.zeroExtend 64, detail := detail }
def barrierOverrun (x : BitVec 32) (isBytes : Bool) : FaultInfo := { code := 0x0606, addr := x.zeroExtend 64, detail := if isBytes then 1 else 0 }

/-- The slot returned to the pool (09 R224). -/
def BarrierSlot.drop (b : BarrierSlot) (n : Nat) : BarrierSlot :=
  let hold := b.hold - n
  { b with hold := hold, allot := b.allot && decide (hold ≠ 0) }

/-- The clock that a message of a die to a barrier carries; none within one die (11 Table 11.6). -/
def State.clockFor (s : State) (die : Nat) (handle : BitVec 32) : List Nat :=
  if (handleOf handle).dquad / 48 = die then [] else (s.die die).clock

/-- A credit, or an arrival of a command or a grid, on its way to its slot (09 R231, R249; 02 R32). -/
def State.sendCredit (s : State) (c : Credit) : State :=
  if c.handle = 0 then s
  else
    let n := s.nextId
    ({ s with credits := tset s.credits n c }.name).plan [.engineCredit n]

/-- It reaches its slot: it is applied, or dropped with BARRIER_STALE or BARRIER_OVERRUN delivered (20 R441 to R443). A grid's arrival
without a block to tell takes the context policy. -/
def State.applyCredit (s : State) (n : Nat) (c : Credit) : State :=
  let s := { s with credits := tdel s.credits n }
  let s := match s.acc c.acc with | some a => s.performed a | none => s
  let tell (f : FaultInfo) : State :=
    if c.blk = 0 then s.haltContext c.ctx { threadlessRecord f.code c.pc 1 f.addr with detail := f.detail }
    else s.deliver c.thr c.blk c.ctx f c.pc
  if s.current c.ctx c.handle then
    let h := handleOf c.handle
    match (s.slotOf h).update (-(c.arrivals : Int)) (-(c.bytes : Int)) with
    | .ok b => s.setSlot h b
    | .error y => tell (barrierOverrun c.handle y)
  else tell (barrierStale c.handle c.origin)

end Sys2Proof.Machine
end

