-- ==== Sys2Proof/Machine/Bank.lean ====
section
/-! DEFINITION. Accumulator banks and their arbiter (12 R321 to R325; 09 R242, R243). A bank's elements are keyed 128·row + column. -/

namespace Sys2Proof.Machine

def Quad.bank (q : Quad) (i : Nat) : Bank := tgetD q.banks i {}
def Quad.setBank (q : Quad) (i : Nat) (b : Bank) : Quad := { q with banks := tset q.banks i b }
def State.bank (s : State) (dq i : Nat) : Bank := (s.quad dq).bank i
def State.modBank (s : State) (dq i : Nat) (f : Bank → Bank) : State := s.modQuad dq fun q => q.setBank i (f (q.bank i))

/-- The key of a saved bank. -/
def saveKey (blk bank : Nat) : Nat := 16 * blk + bank

/-- A block is on its quad: resident, or being discarded. -/
def Block.onQuad (b : Block) : Bool :=
  match b.status with
  | .resident | .discarding _ _ => true
  | _ => false

/-- The blocks on a quad, in the order of their names. -/
def State.blocksOn (s : State) (dq : Nat) : List (Nat × Block) := s.blocks.filter fun e => e.2.onQuad && e.2.dquad == dq

/-- Commands of a quad in flight: accepted or executing, or waiting for their id (09 R248). -/
def State.commandsOn (s : State) (dq : Nat) : List (Access × Command) :=
  s.accs.filterMap fun a =>
    match a.kind with
    | .mma c => if a.core / 4 = dq ∧ a.stage ≠ .cancelled then some (a, c) else none
    | _ => none

/-- A command holds its id: it has been accepted and has not retired. -/
def Stage.inFlight (st : Stage) : Bool :=
  match st with
  | .accepted _ _ | .executing _ => true
  | _ => false

/-- A command executes. -/
def Stage.isExecuting (st : Stage) : Bool :=
  match st with
  | .executing _ => true
  | _ => false

/-- A thread stands in a slice move on a bank. -/
def Thread.inMove (t : Thread) (i : Nat) : Bool :=
  t.live && (t.pass == some i || match t.wait with | .slice j _ _ => j == i | _ => false)

/-- Threads of a block that stand in slice moves on a bank. -/
def State.movers (s : State) (blk i : Nat) : List Thread :=
  (((List.range (s.block blk).nthreads).map (threadKey blk)).map s.thr).filter fun t => t.inMove i

/-- A slice move of a block on a bank is pending. -/
def State.moveWaits (s : State) (blk i : Nat) : Bool := !(s.movers blk i).isEmpty

/-- A slice move that was pending when the command was accepted holds it back (09 R244). -/
def State.moveBlocks (s : State) (blk i acc : Nat) : Bool :=
  (s.movers blk i).any fun t => match t.wait with | .slice _ before _ => !before.contains acc | _ => true

/-- A bank number is free on a Reckoner (09 R242, R243): no resident block owns it, and no command or move of a block that released it
remains. -/
def State.bankFree (s : State) (dq i : Nat) : Bool :=
  (s.blocksOn dq).all (fun e => !e.2.banks.getLsbD i && !s.moveWaits e.1 i) &&
  (s.commandsOn dq).all fun c => !(c.2.bank == i) || (s.block c.1.blk).banks.getLsbD i

/-- The occupant's contents are written to its save area, or the area is marked zero (12 R322). -/
def State.saveBank (s : State) (dq i : Nat) : State :=
  let b := s.bank dq i
  match b.occupant with
  | none => s
  | some o =>
    let s :=
      if b.dirty then { s with bankSave := tset s.bankSave (saveKey o i) { data := b.data, poisoned := b.poisoned, cured := b.cured } }
      else if !b.saved then { s with bankSave := tset s.bankSave (saveKey o i) {} }
      else s
    s.modBank dq i fun b => { b with dirty := false, saved := true }

/-- The contents of an owner come into the physical bank (12 R322). -/
def State.restoreBank (s : State) (dq i blk : Nat) : State :=
  let x := tgetD s.bankSave (saveKey blk i) {}
  s.modBank dq i fun b =>
    { b with occupant := some blk, dirty := false, saved := (tget s.bankSave (saveKey blk i)).isSome, held := 0,
             data := x.data, poisoned := x.poisoned, cured := x.cured, handover := none }

/-- The contents of a bank that a block has released are lost once no command and no move of the block is left on it (09 R243). -/
def State.settleBank (s : State) (dq i blk : Nat) : State :=
  let busy := ((s.commandsOn dq).any fun c => c.1.blk == blk && c.2.bank == i) || s.moveWaits blk i
  if (s.block blk).banks.getLsbD i ∨ busy then s
  else
    let s := { s with bankSave := tdel s.bankSave (saveKey blk i) }
    if (s.bank dq i).occupant = some blk then s.modBank dq i fun b => { handover := b.handover } else s

/-- Several banks of a mask are released; only those the block owns. -/
def State.releaseBanks (s : State) (blk mask : Nat) : State :=
  let b := s.block blk
  let owned := (List.range 16).filter fun i => bit mask i && b.banks.getLsbD i
  let s := s.modBlock blk fun b => { b with banks := b.banks &&& ~~~(BitVec.ofNat 16 mask) }
  owned.foldl (fun s i => s.settleBank b.dquad i blk) s

/-- A bank comes to a block that acquires it (09 R242, 12 R323): zero contents at once when the bank has no other occupant, else a handover. -/
def State.acquireBank (s : State) (dq i blk : Nat) : State :=
  match (s.bank dq i).occupant with
  | none => s.modBank dq i fun _ => { occupant := some blk }
  | some o =>
    if o = blk then s.modBank dq i fun _ => { occupant := some blk }
    else s.modBank dq i fun b => { b with handover := some blk }

/-- Commands of the occupant that execute on a bank, or moves that are pending. -/
def State.bankBusy (s : State) (dq i : Nat) : Bool :=
  match (s.bank dq i).occupant with
  | none => false
  | some o =>
    (s.commandsOn dq).any (fun c => c.1.blk == o && c.2.bank == i && c.1.stage.isExecuting) || s.moveWaits o i

/-- RK_SLICE of a context, in cycles (Table 12.1). -/
def State.rkSlice (s : State) (ctx : Nat) : Nat := 2 ^ (s.ctx ctx).desc.rklog

/-! ## The save region (16 R363) -/

/-- Banks in a mask. -/
def bankCount (m : Nat) : Nat := ((List.range 16).filter fun i => bit m i).length

/-- What a block reserves. -/
def reservation (nsq ncore scratch : Nat) : Nat := roundUp (18976 * nsq + ncore * scratch + 256) 4096

/-- Bytes of a context's save region in use: its tables, the reservations of its blocks and of their banks. -/
def State.saveUsed (s : State) (ctx : Nat) : Nat :=
  (tvals s.blocks).foldl
    (fun n b =>
      if b.ctx = ctx ∧ b.status ≠ .complete then n + reservation b.nsq b.ncore b.scratch + 65536 * bankCount b.banks.toNat else n)
    (8192 * (s.ctx ctx).tables.length)

/-- A further reservation fits. -/
def State.saveFits (s : State) (ctx n : Nat) : Bool := decide (s.saveUsed ctx + n ≤ (s.ctx ctx).desc.savemax)

end Sys2Proof.Machine
end

