-- ==== Sys2Proof/Machine/Debug.lean ====
section
/-! DEFINITION. Stops and freezes (17 R376 to R383): watchpoints, comparators, freeze sets and their records. -/

namespace Sys2Proof.Machine

/-- The attached context; 0 when there is no session (17 R375). -/
def State.session (s : State) : Nat := s.dbg.dctl.toNat % 64

/-- The quads of the freeze set of a stop (Table 17.2, SCOPE). -/
def State.freezeSet (s : State) (dq : Nat) : List Nat :=
  match bits s.dbg.dctl.toNat 9 8 with
  | 0 => [dq]
  | 1 => (List.range 48).map fun q => dq / 48 * 48 + q
  | _ => ((List.range 4).filter fun d => bit (s.ctx s.session).desc.dieset d).flatMap fun d => (List.range 48).map fun q => d * 48 + q

/-- The resident squads of a core, by slot. -/
def State.slotSquads (s : State) (core : Nat) : List Squad :=
  (List.range 16).filterMap fun i => (tvals s.squads).find? fun q => q.resident && q.core == core && q.slot == i

/-- The live thread of lowest lane of a squad. -/
def State.lowestLive (s : State) (q : Squad) : Option Thread :=
  ((squadThreads (s.block q.blk) q.blk q.num).map s.thr).find? (·.live)

/-- The words that a thread's fetch would find. -/
def State.fetchWords (s : State) (t : Thread) : Option (List Nat) :=
  match s.fetchBundle (s.thrBlock t).ctx (bundleOf t.pc).toNat (coreDie (s.thrCore t)) with
  | .words ws => some ws
  | _ => none

/-- The words of the bundle at a thread's PC: those it has read, or those it would read. -/
def State.wordsAt (s : State) (k : Nat) : Option (List Nat) :=
  let t := s.thr k
  match t.entered with
  | some (va, ws) => if va = bundleOf t.pc then some ws else s.fetchWords t
  | none => s.fetchWords t

/-- The instruction that stands at a thread's PC. -/
def State.instrAt (s : State) (k : Nat) : Option Instr :=
  (s.wordsAt k).bind fun ws => (decodeWords (ws.drop ((s.thr k).pc.toNat / 4 % 16))).toOption.map (·.1)

/-- The 16-bit MASK of REGION, and the VALUE of TRAP and BRK (06 Table 6.1). -/
def splitField (w : AluWord) : Nat := w.b.toNat + w.c.toNat % 128 * 512

/-- A REGION of this base and mask waits: for a register, or for the replay of the committing instruction before it (06 R145; 13 R340). -/
def State.regionWaits (s : State) (k base mask : Nat) : Bool :=
  ((List.range 16).any fun i => bit mask i && s.pendingReg k (.v (base + i)) 1) ||
  (match (s.thr k).commit.bind s.acc with | some a => a.wasLogged | none => false)

/-- A thread stands at a REGION that waits. -/
def State.inRegion (s : State) (k : Nat) : Bool :=
  match s.instrAt k with
  | some (.region w) => s.regionWaits k w.a.toNat (splitField w)
  | _ => false

/-- The guard and the stream of an instruction that makes an access (11 R299). -/
def streamOf (i : Instr) : Option (BitVec 3 × Bool × Nat) :=
  match i with
  | .ld w | .st w | .ldw w | .stw w | .atomc w | .red w | .atomAdd w | .atomSub w | .atomMin w | .atomMax w | .atomAnd w | .atomOr w
  | .atomXor w | .atomExch w | .atomFadd w => some (w.g, w.n, w.strm.toNat)
  | .launch w | .cjoin w | .cleave w | .bexpect w | .barrive w | .bwait w | .btest w | .bcopy w | .bgather w | .bscatter w | .trecld w
  | .mma w => some (w.g, w.n, w.strm.toNat)
  | .ldB32A32 _ | .ldB64A32 _ | .ldB128A32 _ | .stB32A32 _ | .stB64A32 _ | .stB128A32 _ => some (7, false, 0)
  | _ => none

/-- A thread stands at an access on a full stream (11 R299). -/
def State.streamFull (s : State) (k : Nat) : Bool :=
  match (s.instrAt k).bind streamOf with
  | some (g, n, strm) => (s.thr k).guard g n && decide (32 ≤ (s.thr k).bead strm)
  | none => false

/-- A thread waits (12 R311). -/
def State.isWaiting (s : State) (k : Nat) : Bool := (s.thr k).wait != .ready || s.streamFull k || s.inRegion k

/-- The threads of a squad that wait, as a mask (17 R385). -/
def State.waitMask (s : State) (q : Squad) : Nat :=
  (squadThreads (s.block q.blk) q.blk q.num).foldl (fun m k => if (s.thr k).live && s.isWaiting k then m + 2 ^ (s.thr k).lane else m) 0

/-- A record that names a squad by its first thread (17 R392). -/
def State.traceSquad (s : State) (q : Squad) (r : TraceRecord) : TraceRecord :=
  let b := s.block q.blk
  { r with core := q.core, launch := (s.grid b.grid).launch.toNat, bid := b.bid, tid := 32 * q.num }

/-- The skid of a squad: its instructions issued from the cycle of the stop on (17 R381). -/
def State.skid (s : State) (q : Squad) : Nat := ((s.core q.core).issued.filter fun x => x == (q.blk, q.num)).length

/-- The SKID records of a core. -/
def State.skidRecords (s : State) (core : Nat) : State :=
  (s.slotSquads core).foldl
    (fun s q =>
      s.emit (s.traceSquad q
        { type := 3, code := min 255 (s.skid q), a := ((s.lowestLive q).map (·.pc)).getD 0,
          b := BitVec.ofNat 64 (s.liveMask q.blk q.num), c := BitVec.ofNat 64 (s.waitMask q) })) s

/-- The lanes of a run that stand before their REGION. -/
def State.owedRun (s : State) (r : Run) : Option Run :=
  let m := (List.range 32).foldl
    (fun m i => if r.lanes.getLsbD i && (s.thr (threadKey r.blk (32 * r.sq + i))).owed.owes then m ||| (1#32 <<< i) else m) 0#32
  if m = 0 then none else some { r with lanes := m }

/-- The run of a slot at a freeze: it ends, but for the lanes that stand before their REGION (17 R379). One that ends in a bundle with
BCW[YIELD] ends its squad's quantum (12 R314). -/
def State.freezeRun (s : State) (core slot : Nat) : State :=
  match (s.core core).slot slot with
  | none => s
  | some r =>
    let s' := s.modCore core fun c => c.setSlot slot (s.owedRun r)
    if (s.owedRun r).isNone && r.yld then s'.endQuantum r.blk r.sq else s'

/-- The runs of a core at a freeze. -/
def State.freezeRuns (s : State) (core : Nat) : State := (s.freezeRun core 0).freezeRun core 1

/-- The order of a STOP record among those of its cycle: comparators, BRK, watchpoints, FREEZE (17 R382). -/
def stopOrder (cause unit : Nat) : Nat :=
  match cause with
  | 2 => unit
  | 1 => 100
  | 5 => 300
  | _ => 200 + unit

/-- How many cycles after the one of a stop on quad `dq` a quad of its set may still issue: 3 on that quad, 16 on its die, 64 on others (17
R379). -/
def skidCycles (dq q : Nat) : Nat := if q = dq then 3 else if q / 48 = dq / 48 then 16 else 64

/-- The freeze of a set that a stop on quad `dq` begins. Each quad issues to the end of the cycle, and for a free number of cycles more within
its bound (log 14). -/
def State.freeze (s : State) (dq cause : Nat) (set : List Nat) : State :=
  set.foldl
    (fun s q =>
      s.draw.modQuad q fun x =>
        { x with frozen := true, cause := cause, frozenFor := 0, skidLeft := 1 + Config.choose s.freeN % (skidCycles dq q + 1) }) s

/-- A stop on a quad (17 R377, R379, R382): its record, and the freeze of its set when the set is not frozen. Of several stops of a cycle the
one that is raised first gives QSTAT[CAUSE], and every stop on a frozen set writes its record, a FREEZE command's too (DESIGN CHOICE, log
80). The records are written at the end of the cycle. -/
def State.stop (s : State) (dq cause : Nat) (r : TraceRecord) : State :=
  let s := { s with dbg := { s.dbg with
      stops := s.dbg.stops ++ [(stopOrder cause (r.code % 16), { r with time := s.time, clk := s.clk })] } }
  if (s.quad dq).frozen then s
  else
    let set := s.freezeSet dq
    let s := s.freeze dq cause set
    { s with dbg := { s.dbg with freezes := s.dbg.freezes ++ [set], skids := s.dbg.skids ++ [set] } }

/-- The cores of some quads. -/
def coresOfQuads (set : List Nat) : List Nat := set.flatMap fun q => (List.range 4).map fun r => 4 * q + r

/-- The SKID records of the freeze of a quad are still to be written: its quads still issue, or groups of its set are to issue their REGIONs
(17 R379). -/
def State.skidding (s : State) (q : Nat) : Bool := s.dbg.skids.any fun f => f.contains q

/-- A thread that has entered its handler is still to issue the REGION there (18 R406). -/
def State.entersHandler (s : State) (set : List Nat) : Bool :=
  s.threads.any fun e => e.2.owed == .atHandler && e.2.live && !e.2.stopped && e.2.wait == .ready && (s.thrSquad e.2).resident &&
    set.contains (s.thrBlock e.2).dquad

/-- A freeze has taken effect: its quads issue no more, and no group or thread of its set is left that is to issue its REGION; or the freeze
has ended. -/
def State.skidDue (s : State) (set : List Nat) : Bool :=
  !(set.any fun q => (s.quad q).frozen) ||
  ((set.all fun q => (s.quad q).skidLeft == 0) && !s.entersHandler set &&
   (coresOfQuads set).all fun c => ((s.core c).slot0.bind s.owedRun).isNone && ((s.core c).slot1.bind s.owedRun).isNone)

/-- STOP records in their order. -/
def sortStops (l : List (Nat × TraceRecord)) : List TraceRecord :=
  (List.range 301).flatMap fun o => (l.filter fun e => e.1 == o).map (·.2)

/-- The end of a cycle for stops (17 R379 to R382): runs of quads that issue no more end, the STOP records are written, the SKID records of the freezes
that have taken effect, and then what ended a freeze. STEPs that waited for a freeze come next. -/
def State.writeStops (s : State) : State :=
  if s.dbg.stops.isEmpty && s.dbg.skids.isEmpty then s
  else
    let l := s.dbg.stops
    let s := { s with dbg := { s.dbg with stops := [] } }
    let s := (s.dbg.skids.flatMap coresOfQuads).foldl (fun s c => if (s.quad (coreQuad c)).stands then s.freezeRuns c else s) s
    let s := (sortStops l).foldl (fun s r => s.record r) s
    let due := s.dbg.skids.filter s.skidDue
    let s := (due.flatMap coresOfQuads).foldl (fun s c => (s.skidRecords c).modCore c fun x => { x with issued := [] }) s
    let s := { s with dbg := { s.dbg with skids := s.dbg.skids.filter fun x => !due.contains x } }
    let s := (l.filter fun e => decide (400 ≤ e.1)).foldl (fun s e => s.record e.2) s
    if s.dbg.skids.isEmpty then { s with dbg := { s.dbg with later := [] } }.plan s.dbg.later else s

/-- A thread raises a stop. -/
def State.stopThread (s : State) (k cause unit : Nat) (pc b c : Word) : State :=
  let t := s.thr k
  s.stop (s.thrCore t / 4) cause (s.traceThread t { type := 2, code := 16 * cause + unit, a := pc, b := b, c := c })

/-! ## Watchpoints -/

/-- The watchpoints of a quad that an access hits, with whether it is reported as a write (17 R378). `at_` is the VA, or the offset for
scratchpad `rank`. -/
def State.watchHits (s : State) (dq : Nat) (rank : Option Nat) (at_ size : Nat) (rd wr : Bool) : List (Nat × Bool) :=
  if !bit s.dbg.dctl.toNat 7 then []
  else
    (s.quad dq).watch.filterMap fun e =>
      let c := e.2.ctl.toNat
      let a := e.2.addr.toNat
      let space := match rank with | none => !bit c 3 | some r => bit c 3 && bits c 5 4 == r
      let base := if rank.isSome then a % 2 ^ 18 else a % 2 ^ 56
      let hit := bit c 0 && space && decide (base < at_ + size ∧ at_ < base + 2 ^ bits c 8 6)
      if hit && wr && bit c 2 then some (e.1, true)
      else if hit && rd && bit c 1 then some (e.1, false)
      else none

/-- The stops of the watchpoints that a global access hits as it issues. -/
def State.watchIssue (s : State) (k ctx va size : Nat) (rd wr : Bool) (pc : Word) : State :=
  if ctx ≠ s.session ∨ s.session = 0 then s
  else
    (s.watchHits (s.thrCore (s.thr k) / 4) none va size rd wr).foldl
      (fun s h => s.stopThread k (if h.2 then 4 else 3) h.1 pc 0 0) s

/-- The stops of the watchpoints that an access performed in a scratchpad hits. `key` is the scratchpad's byte; the record carries the PC
when an instruction of the block's thread made the access, and the bytes for at most 8. -/
def State.watchScratch (s : State) (blk k key size : Nat) (rd wr : Bool) (pc : Word) (before after : Nat) : State :=
  if key < 2 ^ 48 ∨ (s.block blk).ctx ≠ s.session ∨ s.session = 0 then s
  else
    let off := (key - 2 ^ 48) % 2 ^ 18
    let rank := (key - 2 ^ 48) / 2 ^ 18 % 4
    let dq := (s.block blk).dquad
    let v (x : Nat) : Word := if size ≤ 8 then BitVec.ofNat 64 x else 0
    let t := s.thr k
    (s.watchHits dq (some rank) off size rd wr).foldl
      (fun s h =>
        let cause := if h.2 then 4 else 3
        s.stop dq cause (s.traceThread t { type := 2, code := 16 * cause + h.1, a := pc, b := v before, c := v after })) s

/-! ## Comparators -/

/-- The comparators of a quad that stand at a PC (17 R377). -/
def State.compHits (s : State) (dq : Nat) (pc : Word) : List Nat :=
  if !bit s.dbg.dctl.toNat 6 then []
  else (s.quad dq).comps.filterMap fun e => if bit e.2.toNat 63 && e.2.toNat % 2 ^ 56 == pc.toNat then some e.1 else none

end Sys2Proof.Machine
end

