-- ==== Sys2Proof/Machine/Hierarchy.lean ====
section
/-! DEFINITION. The memory hierarchy (10 R254 to R268), page classes (10 R257 to R259), poison (20 R452, R455) and the clocks between dies
(11 R297). The bytes of device memory stand once, in `State.mem`: L1, L2 and MSC lines say where a copy is and what is dirty; only an RDC
line holds bytes of its own, which may be older than the home's (log 10). -/

namespace Sys2Proof.Machine

/-! ## Levels -/

/-- A block holds its scratchpad: it is on its quad, or complete with operations of its own still to be performed (02 R28, R29; 20 R449). -/
def State.holdsScratch (s : State) (blk : Nat) (b : Block) : Bool :=
  match b.status with
  | .resident | .discarding _ _ => true
  | .complete => s.accs.any fun a => a.blk == blk && match a.kind with | .engine _ | .mma _ => true | _ => false
  | _ => false

/-- KiB of scratchpad that blocks hold on a core. -/
def State.scratchKiB (s : State) (core : Nat) : Nat :=
  s.blocks.foldl
    (fun n e =>
      let first := 192 * e.2.die + 4 * e.2.quad + e.2.rank0
      if first ≤ core ∧ core < first + e.2.ncore ∧ s.holdsScratch e.1 e.2 then n + ceilDiv e.2.scratch 1024 else n) 0

/-- P, the KiB of the scratchpad partition (10 R254). -/
def State.partition (s : State) (core : Nat) : Nat := roundUp (s.scratchKiB core) 32

/-- Sets of a level in the slice of a line (10 R255, R263 to R265). -/
def State.levelSets (s : State) (lv : Level) (line : Nat) : Nat :=
  match lv with
  | .l1 c => 256 - s.partition c
  | .l2 _ => 1024
  | .rdc _ => 512
  | .msc _ => let sl := homeSlice (line * 128); if sl < 8 ∨ 40 ≤ sl then 3072 else 2560

/-- Ways of a level. -/
def levelWays : Level → Nat
  | .l1 _ => 8
  | .l2 _ => 12
  | .rdc _ => 8
  | .msc _ => 16

/-- A number for a level, for the index function that the manual leaves open. -/
def levelCode : Level → Nat
  | .l1 _ => 0
  | .l2 _ => 1
  | .rdc _ => 2
  | .msc _ => 3

/-- The slice and set of a line at a level; an L1 has no slices. -/
def State.setOf (s : State) (lv : Level) (line : Nat) : Nat × Nat :=
  (match lv with | .l1 _ => 0 | _ => homeSlice (line * 128), Config.cacheSet (levelCode lv) line % s.levelSets lv line)

/-- A level holds a line. -/
def State.holds (s : State) (lv : Level) (line : Nat) : Option Line := s.lines.find? fun x => x.level == lv && x.line == line

/-- Lines dropped. -/
def State.dropLines (s : State) (bad : Line → Bool) : State := { s with lines := s.lines.filter fun x => !bad x }

/-- A line joins a level; in a full set one leaves, and is returned. A line stays in the set where it was put. -/
def State.insertLine (s : State) (x : Line) : State × Option Line :=
  match s.holds x.level x.line with
  | some o =>
    ({ s with lines := s.lines.map fun y =>
        if y.level = x.level ∧ y.line = x.line then
          { x with valid := o.valid ||| x.valid, dirty := o.dirty ||| x.dirty, excl := o.excl || x.excl, set := o.set } else y }, none)
  | none =>
    let (slice, set) := s.setOf x.level x.line
    let x := { x with set := set }
    let mates := s.lines.filter fun y => y.level == x.level && y.set == set && (s.setOf x.level y.line).1 == slice
    if mates.length < levelWays x.level then ({ s with lines := s.lines ++ [x] }, none)
    else
      let v := mates[Config.victim s.freeN % mates.length]?
      let s := s.draw
      ({ s with lines := (s.lines.filter fun y => some y != v) ++ [x] }, v)

/-- Sectors of a line that `n` bytes from an address touch. -/
def sectorMask (pa n : Nat) : BitVec 4 :=
  (List.range 4).foldl (fun m i => if pa % 128 < 32 * (i + 1) ∧ 32 * i < pa % 128 + n then m ||| (1#4 <<< i) else m) 0#4

/-- Sectors of a line that `n` bytes from an address fill. -/
def sectorsFull (pa n : Nat) : BitVec 4 :=
  (List.range 4).foldl (fun m i => if pa % 128 ≤ 32 * i ∧ 32 * i + 32 ≤ pa % 128 + n then m ||| (1#4 <<< i) else m) 0#4

/-! ## Clocks and notices (11 R297) -/

/-- A count of a clock is at most another, modulo 2^32 within a window of 2^31. -/
def countLe (a b : Nat) : Bool := decide ((b + 2 ^ 32 - a % 2 ^ 32) % 2 ^ 32 < 2 ^ 31)

/-- The later of two counts. -/
def laterCount (a b : Nat) : Nat := if countLe a b then b else a

/-- Entry-by-entry merge of a stamp into the clock of a die, but for its own entry. -/
def mergeClock (die : Nat) (own stamp : List Nat) : List Nat :=
  (List.range 4).map fun i => if i = die then own.getD i 0 else laterCount (own.getD i 0) (stamp.getD i 0)

/-- Two clocks merged in every entry. -/
def joinClocks (a b : List Nat) : List Nat := (List.range 4).map fun i => laterCount (a.getD i 0) (b.getD i 0)

/-- The runs of bytes that a store writes: offsets and lengths, without the bytes that a higher lane of its execution writes (08 R205). -/
def storeRuns (masked : List Nat) (size : Nat) : List (Nat × Nat) :=
  (List.range size).foldl
    (fun rs i =>
      if masked.contains i then rs
      else
        match rs.getLast? with
        | some (o, n) => if o + n = i then rs.dropLast ++ [(o, n + 1)] else rs ++ [(i, 1)]
        | none => [(i, 1)]) []

/-- The 8-byte parts of an access that are left; one of at most 8 bytes is its own part (08 R200, 11 R292). -/
def Access.partsLeft (a : Access) : List Nat := (List.range (max 1 (a.size / 8))).filter fun i => !a.got.contains i

/-- Bytes of a part. -/
def Access.partSize (a : Access) : Nat := min a.size 8

/-- The runs of part `i` of a store. -/
def Access.partRuns (a : Access) (i : Nat) : List (Nat × Nat) :=
  storeRuns ((List.range (8 * i)) ++ a.masked) (8 * i + a.partSize)

/-- The value of a run of a store. -/
def Access.runData (a : Access) (r : Nat × Nat) : Nat := a.data / 2 ^ (8 * r.1) % 2 ^ (8 * r.2)

/-- Bytes of a line replaced. -/
def Line.patched (x : Line) (pa n v : Nat) : Line :=
  let sh := 8 * (pa % 128)
  let mask := BitVec.ofNat 1024 ((2 ^ (8 * n) - 1) * 2 ^ sh)
  { x with bytes := (x.bytes &&& ~~~mask) ||| (BitVec.ofNat 1024 (v % 2 ^ (8 * n) * 2 ^ sh)), poison := x.poison &&& ~~~sectorsFull pa n }

/-- The RDC copy of a writer's die takes a write that home `home` performed at its count `at_`, unless the copy is of a later count. -/
def State.updateRdc (s : State) (die home pa n v at_ : Nat) : State :=
  if homeDie pa = some home ∧ die ≠ home then
    { s with lines := s.lines.map fun (x : Line) =>
        if x.level = Level.rdc die ∧ x.line = lineOf pa ∧ !countLe at_ x.seen then { x.patched pa n v with seen := at_ } else x }
  else s

/-- The clock of a die takes a stamp. -/
def State.mergeStamp (s : State) (f : Nat) (stamp : List Nat) : State := s.modDie f fun d => { d with clock := mergeClock f d.clock stamp }

/-- A notice is applied: the RDC of the die drops its copy, and the clock takes the stamp. -/
def State.applyNotice (s : State) (n : Notice) : State :=
  let s := { s with notices := s.notices.erase n }
  (s.dropLines fun x => x.level == .rdc n.dst && x.line == n.line).mergeStamp n.dst n.stamp

/-- The runs of part `i` of a store at its place: address, length and value. -/
def Access.partPuts (a : Access) (i : Nat) : List (Nat × Nat × Nat) :=
  (a.partRuns i).map fun r => (a.key.getD 0 + r.1, r.2, a.runData r)

/-- The last part of a store has been performed, or its acknowledgement has come: with no other acknowledgement on its way the store is
performed; else it waits for that one. -/
def State.endStore (s : State) (a : Access) (i : Nat) : State :=
  match s.acks.find? fun m => m.acc == a.id with
  | none => s.performed a
  | some m =>
    ({ s with acks := s.acks.erase m } : State).modAcc a.id fun x =>
      { x with got := (x.got ++ [i]).filter (· != m.part), stage := .acked m.home m.stamp }

/-- An acknowledgement reaches its core's die, which updates its RDC copy and its clock; with the last of them a store is performed
(11 R297). -/
def State.takeAck (s : State) (m : Ack) : State :=
  let s := m.puts.foldl (fun s r => s.updateRdc m.dst m.home r.1 r.2.1 r.2.2 (m.stamp.getD m.home 0)) { s with acks := s.acks.erase m }
  let s := s.mergeStamp m.dst m.stamp
  match s.acc m.acc with
  | none => s
  | some a =>
    match a.stage with
    | .acked _ _ => if a.partsLeft = [m.part] then s.endStore a m.part else s
    | _ => s

/-- The first notice to a die that its clock says has been sent. -/
def State.dueNotice (s : State) (f : Nat) : Option Notice :=
  s.notices.find? fun n => n.dst == f && countLe (n.stamp.getD n.src 0) ((s.die f).clock.getD n.src 0)

/-- The acknowledgement of the last part of a store. -/
def Access.lastAck (a : Access) : Option Ack :=
  match a.stage with
  | .acked home stamp =>
    let i := a.partsLeft.headD 0
    some { acc := a.id, part := i, home := home, dst := coreDie a.core, stamp := stamp, puts := a.partPuts i }
  | _ => none

/-- The acknowledgements on their way. -/
def State.allAcks (s : State) : List Ack := s.acks ++ s.accs.filterMap Access.lastAck

/-- An acknowledgement was sent before another of the same home. -/
def Ack.before (x y : Ack) : Bool :=
  x.home == y.home && x.dst == y.dst && countLe (x.stamp.getD x.home 0) (y.stamp.getD x.home 0) && !countLe (y.stamp.getD x.home 0) (x.stamp.getD x.home 0)

/-- An acknowledgement on its way to a die that its clock says has been sent, none of its home sent before it. -/
def State.dueAck (s : State) (f : Nat) : Option Ack :=
  let l := s.allAcks
  l.find? fun m => m.dst == f && countLe (m.stamp.getD m.home 0) ((s.die f).clock.getD m.home 0) && !l.any fun x => x.before m

/-- Every notice and acknowledgement that hold-back asks for is applied (11 R297); `fuel` bounds their number. Messages of one die arrive
in the order sent, which their counts give. -/
def State.catchUp (s : State) (f : Nat) : Nat → State
  | 0 => s
  | fuel + 1 =>
    match s.dueNotice f, s.dueAck f with
    | some n, _ => (s.applyNotice n).catchUp f fuel
    | none, some m => (s.takeAck m).catchUp f fuel
    | none, none => s

/-- Messages on their way, at most. -/
def State.inTransit (s : State) : Nat := s.notices.length + s.acks.length + s.accs.length

/-- A die's clock holds every count of a stamp already, but for its own entry. -/
def State.knows (s : State) (f : Nat) (stamp : List Nat) : Bool :=
  (List.range 4).all fun i => i == f || countLe (stamp.getD i 0) ((s.die f).clock.getD i 0)

/-- Die `f` receives a message with a stamp, from another die or unit. -/
def State.learn (s : State) (f : Nat) (stamp : List Nat) : State :=
  if s.knows f stamp then s
  else
    let s := s.mergeStamp f stamp
    s.catchUp f s.inTransit

/-- Die `f` receives a message of die `e` with a stamp. -/
def State.receive (s : State) (f e : Nat) (stamp : List Nat) : State := if f = e then s else s.learn f stamp

/-- The clock of every die, merged: what a request of the Supervisor or of the host knows. -/
def State.allClocks (s : State) : List Nat := (List.range 4).foldl (fun c d => joinClocks c (s.die d).clock) [0, 0, 0, 0]

/-! ## Packets to the base dies (10 R267) -/

/-- A dirty line leaves the MSC: its dirty sectors go to memory, once its base die has a place for the packet (10 R266, R267). -/
def State.toMemory (s : State) (x : Line) : State :=
  if x.dirty = 0 ∨ !inHbm (x.line * 128) then s
  else
    let st := stackOf (x.line * 128)
    if 1024 ≤ (s.packetsAt st).length then { s with evicted := s.evicted ++ [x] }
    else s.name.sendPacket st (.write s.nextId x.line x.dirty)

/-- A place at a base die is free: the first evicted line that waits for it is sent. -/
def State.sendEvicted (s : State) (st : Nat) : State :=
  match s.evicted.find? fun x => stackOf (x.line * 128) == st with
  | some x => { s with evicted := s.evicted.erase x }.toMemory x
  | none => s

/-- A line joins the MSC. -/
def State.fillMsc (s : State) (die line : Nat) (valid dirty : BitVec 4) : State :=
  let (s, v) := s.insertLine { level := .msc die, line := line, valid := valid, dirty := dirty }
  match v with | some v => s.toMemory v | none => s

/-- A line joins L2; a dirty victim goes to the MSC (10 R266). -/
def State.fillL2 (s : State) (die line : Nat) (valid dirty : BitVec 4) : State :=
  let (s, v) := s.insertLine { level := .l2 die, line := line, valid := valid, dirty := dirty }
  match v with | some v => if v.dirty = 0 then s else s.fillMsc die v.line v.valid v.dirty | none => s

/-- A dirty L1 line is written back to its home slice, with the clock of its core's die (11 Table 11.6). -/
def State.backToHome (s : State) (x : Line) : State :=
  match homeDie (x.line * 128) with
  | some d =>
    if x.dirty = 0 then s
    else
      (match x.level with | .l1 c => s.receive d (coreDie c) (s.die (coreDie c)).clock | _ => s).fillL2 d x.line 15 x.dirty
  | none => s

/-- An L1 of another core than `but` that holds a line exclusive gives it up; a dirty one is written back (10 R260). -/
def State.recall (s : State) (line : Nat) (but : Option Nat) : State :=
  (s.lines.filter fun x => x.line == line && x.excl && (match x.level with | .l1 c => some c != but | _ => false)).foldl
    (fun s x => (s.dropLines fun y => y == x).backToHome x) s

/-- A line joins an L1. -/
def State.fillL1 (s : State) (core line : Nat) (dirty : BitVec 4) (excl : Bool) : State :=
  let (s, v) := s.insertLine { level := .l1 core, line := line, dirty := dirty, excl := excl }
  match v with | some v => s.backToHome v | none => s

/-! ## Scopes (11 R289, R290) -/

/-- Who may observe an access (11 Table 11.4). -/
inductive Observer where
  | thread (k : Nat)
  /-- The engines of a device quad. -/
  | engines (dquad : Nat)
  /-- The host and other PCIe requesters. -/
  | host
  /-- The threads of a package. -/
  | package (id : Nat)
deriving DecidableEq, Repr

/-- The scope of an access: as written for loads, stores and atomics; quad for the accesses of operations to scratchpads; else dev
(11 R289). -/
def Access.observed (a : Access) : Nat :=
  match a.kind with
  | .load | .store | .atomic _ _ => a.scope
  | .engine (.copy .sp _ _ _ _ _ _) => 2
  | _ => 4

/-- An observer stands on a die, and on a quad of it. -/
def State.observerQuad (s : State) (o : Observer) : Option Nat :=
  match o with
  | .thread k => some (coreQuad (s.thrCore (s.thr k)))
  | .engines q => some q
  | _ => none

/-- The observer set of an access (11 R289, Table 11.4). -/
def State.observes (s : State) (a : Access) (o : Observer) : Bool :=
  match o with
  | .host => a.observed == 5
  | .package p => a.ea.toNat / 2 ^ 60 == 4 && p == bits a.ea.toNat 55 46
  | .thread _ | .engines _ =>
    let q := (s.observerQuad o).getD 0
    match a.observed with
    | 0 => o == .thread a.thr
    | 1 => match o with | .thread k => (s.thr k).blk == a.blk | _ => false
    | 2 => q == coreQuad a.core
    | 3 => q / 48 == coreDie a.core
    | _ => true

/-- A scope has observers on other dies. -/
def scopeWide (scope : Nat) : Bool := decide (4 ≤ scope)

/-- A request of die `die` reaches home die `home` with its clock (11 Table 11.6). An access whose scope has no observer on another die adds
no edge there (11 R290): whether its clock is merged is free (log 71). -/
def State.request (s : State) (die home : Nat) (wide : Bool) : State :=
  if die = home then s
  else if wide then s.receive home die (s.die die).clock
  else if Config.choose s.freeN % 2 = 0 then s.draw.receive home die (s.die die).clock
  else s.draw

/-! ## Page classes (10 R257 to R259) -/

/-- What the machine keeps of a physical page. -/
def State.pageInfo (s : State) (pa : Nat) : PageInfo := tgetD s.pages (pa / 65536) {}
def State.modPageInfo (s : State) (pa : Nat) (f : PageInfo → PageInfo) : State :=
  { s with pages := tset s.pages (pa / 65536) (f (s.pageInfo pa)) }

/-- The leaf entry of a VA. -/
def State.leaf (s : State) (ctx va : Nat) : Option (Nat × Nat × Nat) :=
  (s.leafPa va 4 0 (s.ctx ctx).root).map fun e => (e.1, s.readMem e.1 8, e.2)

/-- A line lies in a 64 KiB frame. -/
def inFrame (frame : Nat) (x : Line) : Bool := x.line / 512 == frame

/-- The owner of a private page writes back its dirty lines and drops every line of it (10 R258); its answer to the home slice carries the
clock of its die (11 Table 11.6). -/
def State.flushL1 (s : State) (core frame : Nat) : State :=
  let mine := s.lines.filter fun x => x.level == .l1 core && inFrame frame x
  let s := s.dropLines fun x => x.level == .l1 core && inFrame frame x
  let s := mine.foldl (fun s x => s.backToHome x) s
  match homeDie (frame * 65536) with
  | some d => s.receive d (coreDie core) (s.die (coreDie core)).clock
  | none => s

/-- Every L1 and every RDC drops its lines of a page. -/
def State.dropShared (s : State) (frame : Nat) : State :=
  s.dropLines fun x => inFrame frame x && (match x.level with | .l1 _ | .rdc _ => true | _ => false)

/-- The class after an access, with the TAG (10 R258, R259): `who` is the core of an access on a core's own L1 path. None when the page's
class does not change. -/
def nextClass (e : Nat) (written : Bool) (who : Option Nat) (wr : Bool) : Option (Nat × Nat) :=
  if !pteW e || pteDup e then none
  else
    match pteClass e with
    | 0 =>
      match who with
      | some c => some (1, c)
      | none => some (if wr then 3 else 2, 0)
    | 1 => if who = some (pteTag e) then none else some (if wr || written then 3 else 2, 0)
    | 2 => if wr then some (3, 0) else none
    | _ => none

/-- A launch whose thread has an earlier one to be accepted (06 R151). -/
def State.launchBehind (s : State) (a : Access) : Bool :=
  a.kind == .launch && s.accs.any fun x => x.thr == a.thr && x.kind == .launch && decide (x.id < a.id) && x.stage != .cancelled

/-- A load or store of a core, the load of a record among them, has issued to a page and stands at its place. One that is ordered after
another has not been sent there; were it waited for, two cores could each wait for the other's page for ever. -/
def State.issuedTo (s : State) (core ctx page : Nat) : Bool :=
  s.accs.any fun a =>
    a.core == core && a.ctx == ctx && a.stage == .issued && a.key.isSome && decide (a.ea.toNat / 2 ^ 60 = 0) &&
    pageBase (a.ea.toNat % 2 ^ 56) 3 == page && (match a.kind with | .load | .store | .launch | .engine _ => true | _ => false) &&
    !s.waits a && !s.launchBehind a

/-- A page is being migrated (10 R270). -/
def State.migrating (s : State) (ctx va : Nat) : Bool := s.migrations.any fun m => m.ctx == ctx && m.va == pageBase va 3

/-- A far atomic's packet holds later accesses to its line (10 R268). -/
def State.lineHeld (s : State) (line : Nat) : Bool :=
  s.accs.any fun x => x.stage == .atBase && (x.key.map lineOf) == some line

/-- A transition from PRIVATE(c) waits for the loads and stores of c that have issued to the page (10 R258). -/
def State.classWaits (s : State) (ctx va : Nat) (who : Option Nat) : Bool :=
  match s.leaf ctx va with
  | some (_, e, 3) =>
    pteV e && pteW e && !pteDup e && pteClass e == 1 && who != some (pteTag e) && s.issuedTo (pteTag e) ctx (pageBase va 3)
  | _ => false

/-- The transition of a page, before the access that triggers it is performed. -/
def State.classify (s : State) (ctx va : Nat) (who : Option Nat) (wr : Bool) : State :=
  match s.leaf ctx va with
  | some (p, e, 3) =>
    let frame := pteFrame e
    if !pteV e || inHost (frame * 65536) then s
    else
      match nextClass e (s.pageInfo (frame * 65536)).written who wr with
      | none => s
      | some (c, tag) =>
        let s := if pteClass e = 1 then s.flushL1 (pteTag e) frame else s
        let s := if pteClass e = 2 then s.dropShared frame else s
        let s := if c = 1 then s.modPageInfo (frame * 65536) fun i => { i with written := false } else s
        (s.writeMem p 8 (pteSetClass e c tag false)).tlbDrop ctx va
  | _ => s

/-- The class under which an access is performed; larger pages are SHARED, or SHARED-RO without W. -/
def State.classOf (s : State) (ctx va : Nat) : Nat :=
  match s.leaf ctx va with
  | some (_, e, 3) => pteClass e
  | some (_, e, _) => if pteW e then 3 else 2
  | none => 3

/-! ## Poison (20 R452, R455) -/

/-- A byte range touches a poisoned sector. -/
def State.poisoned (s : State) (key n : Nat) : Bool := s.poison.any fun x => decide (key < 32 * x + 32 ∧ 32 * x < key + n)

/-- Sectors of a range become poisoned. -/
def State.poisonRange (s : State) (key n : Nat) : State :=
  { s with poison := ((List.range ((key + n - 1) / 32 + 1 - key / 32)).map (key / 32 + ·)).foldl (fun p x => if p.contains x then p else p ++ [x]) s.poison }

/-- A write that covers a whole sector clears its poison. -/
def State.cureRange (s : State) (key n : Nat) : State :=
  { s with poison := s.poison.filter fun x => !decide (key ≤ 32 * x ∧ 32 * x + 32 ≤ key + n) }

/-! ## Reads -/

/-- One access of a die reaches memory or the MSC (10 R270). -/
def State.countAccess (s : State) (pa die : Nat) : State :=
  s.modPageInfo pa fun i => { i with counts := (List.range 4).map fun d => i.counts.getD d 0 + if d = die then 1 else 0 }

/-- A read of a page by a die (10 R271). -/
def State.noteRead (s : State) (pa die : Nat) : State := s.modPageInfo pa fun i => { i with readBy := i.readBy ||| (1#4 <<< die) }

/-- A read packet for a line is already on its way. -/
def State.asked (s : State) (line : Nat) : Bool :=
  (s.packetsAt (stackOf (line * 128))).any fun p => match p with | .read _ l _ _ _ => l == line | _ => false

/-- The sectors of a line that a level holds. -/
def State.sectorsAt (s : State) (lv : Level) (line : Nat) : BitVec 4 := match s.holds lv line with | some x => x.valid | none => 0

/-- A read packet for sectors of a line, when its base die has a place. -/
def State.askSectors (s : State) (line : Nat) (sectors : BitVec 4) (noAlloc : Bool) (rdcs : BitVec 4) : State :=
  let st := stackOf (line * 128)
  if s.asked line ∨ 1024 ≤ (s.packetsAt st).length then s
  else s.name.sendPacket st (.read s.nextId line sectors noAlloc rdcs)

/-- The home slice is asked for a line: it has it, or brings it from the MSC, the tier, or with a packet that the access then waits for
(10 R266). -/
def State.atHome (s : State) (home line die : Nat) (noAlloc : Bool) : State × Bool :=
  let l2 := s.sectorsAt (.l2 home) line
  if l2 = 15 then (s, true)
  else
    let msc := s.sectorsAt (.msc home) line
    let s' := s.countAccess (line * 128) die
    if l2 ||| msc = 15 then (s'.fillL2 home line 15 0, true)
    else if inTier (line * 128) then
      ((if noAlloc && msc == 0 then s' else s'.fillMsc home line 15 0).fillL2 home line 15 0, true)
    else if s.asked line ∨ 1024 ≤ (s.packetsAt (stackOf (line * 128))).length then (s, false)
    else (s'.askSectors line (~~~(l2 ||| msc)) noAlloc 0, false)

/-- The bytes of a line as the home holds them. -/
def State.lineBytes (s : State) (line : Nat) : BitVec 1024 := BitVec.ofNat 1024 (s.readMem (line * 128) 128)

/-- The poisoned sectors of a line at its home. -/
def State.linePoison (s : State) (line : Nat) : BitVec 4 :=
  (List.range 4).foldl (fun m i => if s.poison.contains (4 * line + i) then m ||| (1#4 <<< i) else m) 0#4

/-- The RDC of a die takes a line from its home (10 R264), whose reply carries its clock. -/
def State.fillRdc (s : State) (die home line : Nat) : State :=
  let clock := (s.die home).clock
  let s := s.receive die home clock
  let (s, _) := s.insertLine { level := .rdc die, line := line, bytes := s.lineBytes line, poison := s.linePoison line, seen := clock.getD home 0 }
  { s with sharers := sset 0 s.sharers line ((sget 0 s.sharers line) ||| (1#4 <<< die)) }

/-- The peer predictor after a fill of an L1 with a SHARED-RO line by the home slice (10 R261). -/
def State.predict (s : State) (core va pa : Nat) : State :=
  let die := coreDie core
  let s := match tget (s.pageInfo pa).lastFill die with
    | some c => s.modCore core fun x => { x with predictor := tset x.predictor (bits va 23 16) (bits va 55 24, c) }
    | none => s
  s.modPageInfo pa fun i => { i with lastFill := tset i.lastFill die core }

/-- A read of device memory by a core, at a VA, finds its line, or waits for it. A read of a private line of another die is answered by the
home with its clock too. -/
def State.reach (s : State) (core va pa cls : Nat) (wide : Bool) : State × Bool :=
  let line := lineOf pa
  let die := coreDie core
  match homeDie pa with
  | none => (s, true)
  | some home =>
    let s := s.noteRead pa die
    if (s.holds (.l1 core) line).isSome then (s, true)
    else if die ≠ home ∧ (s.holds (.rdc die) line).isSome then
      (if cls = 2 then s.fillL1 core line 0 false else s, true)
    else
      let (s, ok) := ((s.request die home wide).recall line (some core)).atHome home line die false
      if !ok then (s, false)
      else
        let s := if die ≠ home then (if cls ≠ 1 then s.fillRdc die home line else s.receive die home (s.die home).clock) else s
        let s := if cls = 2 then s.predict core va pa else s
        (if cls = 1 ∨ cls = 2 ∨ die = home then s.fillL1 core line 0 false else s, true)

/-- A read of device memory by an engine of a die, which has no L1 (10 R264). -/
def State.unitReach (s : State) (die pa : Nat) (noAlloc : Bool) : State × Bool :=
  let line := lineOf pa
  match homeDie pa with
  | none => (s, true)
  | some home =>
    let s := s.noteRead pa die
    if die ≠ home ∧ (s.holds (.rdc die) line).isSome then (s, true)
    else
      let (s, ok) := ((s.request die home true).recall line none).atHome home line die noAlloc
      if !ok then (s, false) else (if die ≠ home then s.fillRdc die home line else s, true)

/-- Bytes of device memory as a die reads them: its RDC's copy of a shared line of another die, else the home's (10 R264). -/
def State.dieRead (s : State) (die pa n cls : Nat) : Nat :=
  match homeDie pa with
  | some home =>
    if die = home ∨ cls ≠ 3 then s.readMem pa n
    else
      match s.holds (.rdc die) (lineOf pa) with
      | some x => x.bytes.toNat / 2 ^ (8 * (pa % 128)) % 2 ^ (8 * n)
      | none => s.readMem pa n
  | none => s.readMem pa n

/-- A sector that a die reads is poisoned: in its RDC's copy, or at the home (20 R452). -/
def State.diePoisoned (s : State) (die pa n cls : Nat) : Bool :=
  match homeDie pa with
  | some home =>
    if die = home ∨ cls ≠ 3 then s.poisoned pa n
    else
      match s.holds (.rdc die) (lineOf pa) with
      | some x => x.poison &&& sectorMask pa n != 0
      | none => s.poisoned pa n
  | none => s.poisoned pa n

/-! ## Writes -/

/-- The other L1 copies of a line go, and notices go to the dies of its remote-sharer vector but for the writer's, with the home's clock
(10 R260, R264). Of a private page there is but the owner's copy, wherever its core is. -/
def State.invalidate (s : State) (writer core : Option Nat) (home line : Nat) : State :=
  let v := sget 0 s.sharers line
  let told := (List.range 4).filter fun d => v.getLsbD d && some d != writer && d != home
  let s := { s with notices := s.notices ++ told.map fun d => ({ src := home, dst := d, line := line, stamp := (s.die home).clock } : Notice) }
  let keep : BitVec 4 := match writer with | some w => v &&& (1#4 <<< w) | none => 0
  let s := { s with sharers := sset 0 s.sharers line keep }
  s.dropLines fun x => x.line == line && (match x.level with | .l1 c => some c != core | _ => false)

/-- The home slice has a line for a unit of a die that is no core's own L1 path, once its request is there: an owner's dirty copy has come
back (10 R259, R266). -/
def State.unitHome (s : State) (die pa : Nat) (noAlloc : Bool) : State × Bool :=
  match homeDie pa with
  | none => (s, true)
  | some home => ((s.request die home true).recall (lineOf pa) none).atHome home (lineOf pa) die noAlloc

/-- What a write at its home makes known: the home's clock counts it, and every other copy is told (10 R260, R264; 11 R297). The stamp is
the home's clock after it. -/
def State.announce (s : State) (writer : Option Nat) (core : Option Nat) (home line : Nat) : State × List Nat :=
  let s := s.modDie home fun d => { d with clock := d.clock.modify home fun c => (c + 1) % 2 ^ 32 }
  let stamp := (s.die home).clock
  (s.invalidate writer core home line, stamp)

/-- The line of a write comes to its home's L2: what the write does not fill of a sector comes from the MSC, the tier or memory
(10 R266). -/
def State.writeLine (s : State) (home pa n die : Nat) : State :=
  let line := lineOf pa
  let l2 := s.sectorsAt (.l2 home) line
  let msc := s.sectorsAt (.msc home) line
  let s := if (s.holds (.l2 home) line).isSome then s else s.countAccess pa die
  let lack := sectorMask pa n &&& ~~~(l2 ||| msc ||| sectorsFull pa n)
  let got := if inTier pa then 15 else l2 ||| msc ||| sectorsFull pa n
  let s := if lack = 0 then s else if inTier pa then s.fillMsc home line 15 0 else s.askSectors line lack false 0
  s.fillL2 home line got (sectorMask pa n)

/-- A write of device memory performed at its home slice, once the request of a die, or one from outside, is there; it lies in one line. A
write from outside the device counts for the home die (DESIGN CHOICE, log 75). -/
def State.homeWrite (s : State) (writer core : Option Nat) (pa n v : Nat) : State × List Nat :=
  match homeDie pa with
  | none => (s.writeMem pa n v, [])
  | some home =>
    let (s, stamp) := (s.recall (lineOf pa) core).announce writer core home (lineOf pa)
    let s := (s.writeMem pa n v).cureRange pa n
    let s := s.modPageInfo pa fun i => { i with written := true, wrote := true }
    (s.writeLine home pa n (writer.getD home), stamp)

/-- A write in an L1 that holds, or comes to hold, the line exclusive: of a private page by its owner, and of a shared line (10 R260). -/
def State.privateWrite (s : State) (core pa n v : Nat) : State :=
  let s := (s.writeMem pa n v).cureRange pa n
  let s := s.modPageInfo pa fun i => { i with written := true, wrote := true }
  s.fillL1 core (lineOf pa) (sectorMask pa n) true

/-- The acknowledgement of a write reaches the writer's die: its RDC copy takes the write, and hold-back is kept (11 R297). -/
def State.acknowledge (s : State) (die pa n v : Nat) (stamp : List Nat) : State :=
  match homeDie pa with
  | none => s
  | some home => if die = home then s else (s.receive die home stamp).updateRdc die home pa n v (stamp.getD home 0)

/-- The pieces of a range by lines: offset and length. -/
def linePieces (pa n : Nat) : List (Nat × Nat) :=
  (List.range ((pa + n + 127) / 128 - pa / 128)).map fun i =>
    let o := (pa / 128 + i) * 128 - pa
    (o, min n ((pa / 128 + i + 1) * 128 - pa) - o)

/-- A write of one line by a unit that is not a core's own L1 path: an engine of a die, or a request from outside. -/
def State.unitWriteLine (s : State) (die : Option Nat) (pa n v : Nat) : State :=
  let s := match die, homeDie pa with | some d, some home => s.request d home true | _, _ => s
  let (s, stamp) := s.homeWrite die none pa n v
  match die with
  | some d => s.acknowledge d pa n v stamp
  | none => s

/-- A write by such a unit, line by line in one step (10 R264). -/
def State.unitWrite (s : State) (die : Option Nat) (pa n v : Nat) : State :=
  (linePieces pa n).foldl (fun s r => s.unitWriteLine die (pa + r.1) r.2 (v / 256 ^ r.1 % 256 ^ r.2)) s

/-! ## Host memory (16 R368; 21 R466, R467) -/

/-- A context's host access is not carried on the selective IDE stream of its TDI: only sys-scope accesses of a TDI in RUN are, while that
stream is secure. -/
def State.ideDenied (s : State) (ctx scope : Nat) : Bool :=
  let c := s.ctx ctx
  c.confidential &&
  !(scope == 5 && tget s.tdis c.desc.tdi == some .run && s.links.streams.getLsbD (Config.ideStream c.desc.tdi).toNat)

/-- Why a host access fails before it leaves: IDE_ROUTE_DENIED, or HOST_ACCESS_FAILED while the link is down. -/
def State.hostRefusal (s : State) (ctx scope : Nat) (p : Word) : Option FaultInfo :=
  if s.ideDenied ctx scope then some { code := 0x0C03, addr := p }
  else if !s.links.hostUp then some { code := 0x0B05, addr := p }
  else none

/-! ## Index lists (09 R238) -/

/-- The first byte of each 64 KiB page that a range of VAs touches, but that the first is the range's own first byte. -/
def pagesOf (va n : Nat) : List Nat :=
  va :: ((List.range ((va + n - 1) / 65536 - va / 65536)).map fun i => (va / 65536 + 1 + i) * 65536)

/-- The VA of an entry of an index list. -/
def listVa (list : Word) (q : Nat) : Nat := (list.toNat + 4 * q) % 2 ^ 56

/-- The place of an entry of an index list, from the translations of its pages. -/
def Access.entryKey (a : Access) (va : Nat) : Nat :=
  match (a.listAt.filter fun e => decide (e.1 / 65536 = va / 65536)).head? with
  | some (v, pa) => pa + va % 65536 - v % 65536
  | none => 0

end Sys2Proof.Machine
end

