-- ==== Sys2Proof/Machine/Engine.lean ====
section
/-! DEFINITION. The copy engines and the tensor address engine (09 R229 to R240; 13 R342; 21 R457, R458): records, boxes, and the parts
of an operation's work. -/

namespace Sys2Proof.Machine

/-! ## Records -/

/-- `n` bytes at an offset of a record. -/
def recField (r off n : Nat) : Nat := r / 256 ^ off % 256 ^ n

/-- A tensor record (Table 9.5). Dimensions at and above RANK have size 1 and box 1. -/
structure Trec where
  base : Nat
  fmt : Nat
  rank : Nat
  swiz : Nat
  oob : Nat
  noAlloc : Bool
  size : List Nat
  stride : List Nat
  box : List Nat
  fill : Nat
deriving DecidableEq, Repr

/-- The fields of a record. -/
def readTrec (r : Nat) : Trec :=
  let rank := recField r 9 1
  { base := recField r 0 8, fmt := recField r 8 1, rank := rank, swiz := recField r 10 1, oob := recField r 11 1,
    noAlloc := bit (recField r 12 4) 1,
    size := (List.range 5).map fun d => if d < rank then recField r (0x10 + 4 * d) 4 else 1
    stride := (List.range 5).map fun d => if d = 0 ∨ rank ≤ d then 0 else recField r (0x20 + 8 * d) 8
    box := (List.range 5).map fun d => if d < rank then recField r (0x48 + 2 * d) 2 else 1
    fill := recField r 0x58 8 }

/-- Element width in bits. -/
def Trec.eb (t : Trec) : Nat := formatBits t.fmt
/-- The box row in bytes. -/
def Trec.rowBytes (t : Trec) : Nat := t.box.getD 0 1 * t.eb / 8
/-- Rows of the box. -/
def Trec.rows (t : Trec) : Nat := t.box.getD 1 1 * t.box.getD 2 1 * t.box.getD 3 1 * t.box.getD 4 1
/-- Bytes of the box. -/
def Trec.bytes (t : Trec) : Nat := t.rowBytes * t.rows
/-- S of R233; 0 without swizzle. -/
def Trec.swizzle (t : Trec) : Nat := if t.swiz = 0 then 0 else 16 * 2 ^ t.swiz

/-- The first non-zero byte in a range of a record. -/
def nonZeroByte (r lo n : Nat) : Option Nat := ((List.range n).map (lo + ·)).find? fun o => recField r o 1 != 0

/-- A list of checks: the first that fails names an offset. -/
def firstBad (cs : List (Bool × Nat)) : Option Nat := (cs.find? (·.1)).map (·.2)

/-- RECORD_INVALID of a TREC: the offset of the offending field, or of the reserved byte, in increasing order (21 R458). -/
def trecBad (r : Nat) : Option Nat :=
  let t := readTrec r
  let dims (f : Nat → Bool × Nat) := (List.range 5).filterMap fun d => if d < t.rank then some (f d) else none
  let byte (lo n : Nat) := match nonZeroByte r lo n with | some o => [(true, o)] | none => []
  firstBad <|
    [(decide (t.base / 2 ^ 56 ≠ 0 ∨ t.base % 16 ≠ 0), 0), (decide (0x19 < t.fmt), 8), (decide (t.rank < 1 ∨ 5 < t.rank), 9),
     (decide (3 < t.swiz), 10), (decide (2 < t.oob), 11), (decide (recField r 12 4 / 4 ≠ 0), 12)] ++
    dims (fun d => (decide (t.size.getD d 1 = 0), 0x10 + 4 * d)) ++ byte 0x24 4 ++
    (dims fun d => (decide (d ≠ 0 ∧ (t.stride.getD d 0 % 16 ≠ 0 ∨ 2 ^ 48 ≤ t.stride.getD d 0)), 0x20 + 8 * d)) ++
    (dims fun d =>
      (decide (t.box.getD d 1 = 0 ∨ d = 0 ∧ (t.box.getD 0 1 * t.eb % 128 ≠ 0 ∨ 229376 < t.bytes ∨
        t.swiz ≠ 0 ∧ t.rowBytes % t.swizzle ≠ 0)), 0x48 + 2 * d)) ++
    byte 0x52 6 ++ byte 0x60 32

/-- What a refused TREC credits (21 R458). -/
def trecCredit (r : Nat) : Nat :=
  let t := readTrec r
  if 1 ≤ t.rank ∧ t.rank ≤ 5 ∧ t.fmt ≤ 0x19 ∧ !t.box.contains 0 ∧ t.box.getD 0 1 * t.eb % 128 = 0 ∧ t.bytes ≤ 229376 then t.bytes else 0

/-- An embedding table record (Table 9.6). -/
structure Etab where
  base : Nat
  rows : Nat
  rowBytes : Nat
  stride : Nat
  versioned : Bool
  dflt : Nat
  versions : Nat
deriving DecidableEq, Repr

def readEtab (r : Nat) : Etab :=
  { base := recField r 0 8, rows := recField r 8 4, rowBytes := recField r 12 4, stride := recField r 0x10 4,
    versioned := bit (recField r 0x14 4) 0, dflt := recField r 0x18 8, versions := recField r 0x20 8 }

/-- ROWBYTES in its range. -/
def Etab.rowOk (t : Etab) : Bool := decide (t.rowBytes % 32 = 0 ∧ 32 ≤ t.rowBytes ∧ t.rowBytes ≤ 4096)

/-- RECORD_INVALID of an ETAB. -/
def etabBad (r : Nat) : Option Nat :=
  let t := readEtab r
  let byte (lo n : Nat) := match nonZeroByte r lo n with | some o => [(true, o)] | none => []
  firstBad <|
    [(decide (t.base / 2 ^ 56 ≠ 0 ∨ t.base % 32 ≠ 0), 0), (decide (t.rows = 0 ∨ t.rows = 0xFFFFFFFF), 8), (!t.rowOk, 12),
     (decide (t.stride % 32 ≠ 0 ∨ t.stride < t.rowBytes), 0x10), (decide (recField r 0x14 4 / 2 ≠ 0), 0x14),
     (decide (t.dflt / 2 ^ 56 ≠ 0 ∨ t.dflt % 32 ≠ 0), 0x18),
     (t.versioned && decide (t.versions / 2 ^ 56 ≠ 0 ∨ t.versions % 4 ≠ 0), 0x20)] ++ byte 0x28 24

/-! ## Boxes (09 R233) -/

/-- The five coordinates, from registers C to C + 2; those at and above RANK are read as 0. -/
def coordinates (rank : Nat) (c0 c1 c2 : Word) : List Int :=
  ([signedOf (bits c0.toNat 31 0) 32, signedOf (bits c0.toNat 63 32) 32, signedOf (bits c1.toNat 31 0) 32,
    signedOf (bits c1.toNat 63 32) 32, signedOf (bits c2.toNat 31 0) 32].zipIdx).map fun e => if e.2 < rank then e.1 else 0

/-- The coordinates of dimensions 1 to 4 of box row `r`. -/
def Trec.rowCoords (t : Trec) (c : List Int) (r : Nat) : List Int :=
  let b (d : Nat) := t.box.getD d 1
  [c.getD 1 0 + (r % b 1 : Nat), c.getD 2 0 + (r / b 1 % b 2 : Nat), c.getD 3 0 + (r / (b 1 * b 2) % b 3 : Nat),
   c.getD 4 0 + (r / (b 1 * b 2 * b 3) % b 4 : Nat)]

/-- The bit VA of element `x0` of a row. -/
def Trec.bitVa (t : Trec) (xs : List Nat) (x0 : Nat) : Nat :=
  (8 * (t.base + xs.getD 0 0 * t.stride.getD 1 0 + xs.getD 1 0 * t.stride.getD 2 0 + xs.getD 2 0 * t.stride.getD 3 0
    + xs.getD 3 0 * t.stride.getD 4 0) + x0 * t.eb) % 2 ^ 59

/-- The VA of the element at coordinates `c`, in bounds or not (DESIGN CHOICE for one out of bounds: log 72). -/
def Trec.firstVa (t : Trec) (c : List Int) : Nat :=
  let far := (List.range 4).foldl (fun v d => v + c.getD (d + 1) 0 * (t.stride.getD (d + 1) 0 : Nat)) (t.base : Int)
  ((8 * far + c.getD 0 0 * (t.eb : Nat)) % 2 ^ 59).toNat / 8

/-- A coordinate within a dimension. -/
def inDim (x : Int) (n : Nat) : Bool := decide (0 ≤ x ∧ x < n)
/-- A coordinate clamped into a dimension. -/
def clampDim (x : Int) (n : Nat) : Nat := (max 0 (min x ((n : Int) - 1))).toNat

/-- A run of elements of a row: from global memory, or out of bounds. -/
inductive RowRun where
  /-- Elements from `j0` on, so many, the first at a bit VA. -/
  | data (j0 n va : Nat)
  | oob (j0 n : Nat)
deriving DecidableEq, Repr

/-- The runs of box row `r`. -/
def Trec.rowRuns (t : Trec) (c : List Int) (r : Nat) : List RowRun :=
  let xs := t.rowCoords c r
  let n := t.box.getD 0 1
  let c0 := c.getD 0 0
  let s0 := t.size.getD 0 1
  let inside := (List.range 4).all fun d => inDim (xs.getD d 0) (t.size.getD (d + 1) 1)
  let cl := (List.range 4).map fun d => clampDim (xs.getD d 0) (t.size.getD (d + 1) 1)
  let lo := min n (-c0).toNat
  let hi := max lo (min n ((s0 : Int) - c0).toNat)
  if t.oob = 2 then
    ((List.range lo).map fun j => RowRun.data j 1 (t.bitVa cl 0)) ++
    (if lo < hi then [.data lo (hi - lo) (t.bitVa cl ((c0 + lo).toNat))] else []) ++
    ((List.range (n - hi)).map fun j => RowRun.data (hi + j) 1 (t.bitVa cl (s0 - 1)))
  else if !inside then [.oob 0 n]
  else
    (if 0 < lo then [.oob 0 lo] else []) ++
    (if lo < hi then [.data lo (hi - lo) (t.bitVa cl ((c0 + lo).toNat))] else []) ++
    (if hi < n then [.oob hi (n - hi)] else [])

/-- The bits of a value that stands for an out-of-bounds run of `n` elements. -/
def Trec.oobValue (t : Trec) (n : Nat) : Nat := if t.oob = 1 then join t.eb n fun _ => t.fill else 0

/-- A length in bits cut at multiples of `unit`, from a start: offsets and lengths. -/
def cuts (unit : Nat) : Nat → Nat → Nat → Nat → List (Nat × Nat)
  | 0, _, _, _ => []
  | fuel + 1, start, done, n =>
    if n = 0 then []
    else
      let k := min n (unit - start % unit)
      (done, k) :: cuts unit fuel (start + k) (done + k) (n - k)

/-- Offset in bits within the box of bit `o` of row `r`, with the swizzle. -/
def Trec.place (t : Trec) (r o : Nat) : Nat :=
  let b := (r * t.rowBytes * 8 + o)
  if t.swiz = 0 then b else 8 * Nat.xor (b / 8) (r % (t.swizzle / 16) * 16) + b % 8

/-- Bits of a source. -/
def Source.len : Source → Nat
  | .mem _ n | .value n _ => n

/-- A spot some bits on. -/
def Spot.plus (x : Spot) (o : Nat) : Spot := match x with | .key b => .key (b + o) | .va b => .va ((b + o) % 2 ^ 59)

/-- `n` bits of a source from bit `o`; those of global memory are cut at its lines. -/
def Source.slice (x : Source) (o n : Nat) : List Source :=
  match x with
  | .value _ v => [.value n (v / 2 ^ o % 2 ^ n)]
  | .mem (.key b) _ => [.mem (.key (b + o)) n]
  | .mem (.va b) _ => (cuts 1024 (n / 1024 + 2) (b + o) 0 n).map fun q => .mem ((Spot.va b).plus (o + q.1)) q.2

/-- `n` bits of a row of sources from bit `o`. -/
def sliceAll : List Source → Nat → Nat → List Source
  | [], _, _ => []
  | x :: xs, o, n =>
    if n = 0 then []
    else if x.len ≤ o then sliceAll xs (o - x.len) n
    else
      let k := min n (x.len - o)
      x.slice o k ++ sliceAll xs 0 (n - k)

/-- Bits written from a row of sources, cut at the destination's 128-byte lines, so that one write has all of every aligned 8 bytes
(09 R230, 11 R294); `o` is the place of the first in the row. -/
def putsAt (dst : Spot) (row : List Source) (o n : Nat) : List Part :=
  let start := match dst with | .key b | .va b => b
  (cuts 1024 (n / 1024 + 2) start 0 n).map fun q => .put (dst.plus q.1) (sliceAll row (o + q.1) q.2)

/-- Bits of a box row. -/
def Trec.rowBits (t : Trec) : Nat := t.box.getD 0 1 * t.eb

/-- Box row `r` in its scratchpad: pieces by their place in the row, of 16 bytes under a swizzle. -/
def Trec.rowPieces (t : Trec) (r base : Nat) : List (Nat × Spot × Nat) :=
  if t.swiz = 0 then [(0, .key (base + t.place r 0), t.rowBits)]
  else (cuts 128 (t.rowBits / 128 + 2) 0 0 t.rowBits).map fun q => (q.1, .key (base + t.place r q.1), q.2)

/-- The parts of box row `r` when the box is read: the whole row of the scratchpad is written, from global memory and from the values of
elements out of bounds. -/
def Trec.loadRow (t : Trec) (c : List Int) (base r : Nat) : List Part :=
  let row := (t.rowRuns c r).map fun x => match x with
    | .data _ n va => Source.mem (.va va) (n * t.eb)
    | .oob _ n => .value (n * t.eb) (t.oobValue n)
  (t.rowPieces r base).flatMap fun p => putsAt p.2.1 row p.1 p.2.2

/-- The parts of box row `r` when the box is written: its elements in bounds. -/
def Trec.storeRow (t : Trec) (c : List Int) (base r : Nat) : List Part :=
  let row := (t.rowPieces r base).map fun p => Source.mem p.2.1 p.2.2
  (t.rowRuns c r).flatMap fun x => match x with
    | .data j n va => putsAt (.va va) row (j * t.eb) (n * t.eb)
    | .oob _ _ => []

/-- The parts of a box; `base` is the bit number of the scratchpad pointer. A box that is written takes the values of clamped elements
from none. -/
def Trec.parts (t : Trec) (c : List Int) (base : Nat) (load : Bool) : List Part :=
  (List.range t.rows).flatMap fun r => if load then t.loadRow c base r else { t with oob := 0 }.storeRow c base r

/-! ## Doing a part -/

/-- How a part ends. -/
inductive PartEnd where
  | done (s : State)
  /-- It waits; what is left of it, and a failure it has met. -/
  | again (s : State) (p : Part) (f : Option FaultInfo := none)
  /-- It met a page that is not resident. -/
  | hold (s : State) (page : Nat)
  | failed (s : State) (f : FaultInfo)

/-- Where the byte of a spot is. -/
inductive SpotAt where
  | key (bit : Nat)
  | hold (s : State) (page : Nat)
  | failed (s : State) (f : FaultInfo)
  /-- It waits. -/
  | wait (s : State)

/-- Dies that hold a copy of a duplicated page (10 R271, R272). -/
def State.holders (s : State) (e : Nat) : List Nat := (List.range 4).filter fun d => (s.dupFrame (pteTag e) d).isSome

/-- The home slice of a page's first line, as 48·die + slice. -/
def pageHome (e : Nat) : Nat := 48 * (homeDie (pteFrame e * 65536)).getD 0 + homeSlice (pteFrame e * 65536)

/-- A collapse begins: an invalidate goes to each die that holds a copy. A home slice takes one collapse at a time (10 R272). -/
def State.beginCollapse (s : State) (ctx page : Nat) (e : Nat) : State :=
  if s.collapses.any fun c => (c.ctx == ctx && c.va == page) || (c.home == pageHome e && !c.failed) then s
  else { s with collapses := s.collapses ++
           [{ ctx := ctx, va := page, home := pageHome e, waiting := (s.holders e).map fun d => (d, 0, false) }] }

/-- A page whose collapse has failed stays duplicated and is never written (20 R450). -/
def State.neverWritten (s : State) (ctx va : Nat) : Bool := s.collapses.any fun c => c.failed && c.ctx == ctx && c.va == pageBase va 3

/-- A translation for an engine of a die; the report says that an engine met the page (16 R359). A write waits for a collapse, which starts
here, for a migration, and for a far atomic; any access waits for the accesses of the core that owns its page (10 R258, R268, R270,
R272). -/
def State.spotAt (s : State) (ctx die : Nat) (x : Spot) (wr : Bool) (need : Need) : SpotAt :=
  match x with
  | .key b => .key b
  | .va b =>
    let va := b / 8
    match s.translate ctx va die need with
    | .ok pa e _ =>
      if wr && pteDup e then
        (if s.neverWritten ctx va then .failed s { code := 0x0408, addr := BitVec.ofNat 64 (pageBase va 3) }
         else .wait (s.beginCollapse ctx (pageBase va 3) e))
      else if inHost pa then
        match s.hostRefusal ctx 4 (BitVec.ofNat 64 va) with
        | some f => .failed s f
        | none => .key (8 * pa + b % 8)
      else if s.classWaits ctx va none || s.lineHeld (lineOf pa) || (wr && s.migrating ctx va) then .wait s
      else .key (8 * pa + b % 8)
    | .notResident l =>
      let p := s.absentPage ctx va
      match (s.ctx ctx).report p.1 with
      | some r =>
        if r.unresolvable then .failed s { code := 0x0403, addr := BitVec.ofNat 64 va, detail := r.level } else .hold s p.1
      | none => let d := s.demand ctx va (if need = .both then 3 else if wr then 2 else 1) l true; .hold d.1 d.2
    | .prot c d => .failed s { code := c, addr := BitVec.ofNat 64 va, detail := d }
    | .invalid l r => .failed (s.contextFault ctx 0x0407 (BitVec.ofNat 64 va) (l + 4 * r)) { code := 0x0407, detail := l + 4 * r }

/-- POISON_CONSUMED (20 R455); the structure is the place that was read. -/
def poisonConsumed (ea : Word) (key : Nat) : FaultInfo :=
  { code := 0x0A02, addr := ea, detail := if 2 ^ 48 ≤ key then 3 else if inTier key then 0x0B else 0x0A }

/-- Bytes that `n` bits from a bit number touch. -/
def bytesOf (b n : Nat) : Nat := (b % 8 + n + 7) / 8

/-- What a source of an engine's write gives. -/
inductive SourceRead where
  /-- Its bits, and whether one is poisoned. -/
  | bits (s : State) (v : Nat) (bad : Option FaultInfo)
  | wait (s : State)
  | hold (s : State) (page : Nat)
  | failed (s : State) (f : FaultInfo)

/-- `n` bits as an engine of a die reads them. -/
def State.bitsAt (s : State) (die b n : Nat) : Nat :=
  let key := b / 8
  (if 2 ^ 48 ≤ key then s.readMem key (bytesOf b n) else s.dieRead die key (bytesOf b n) 3) / 2 ^ (b % 8) % 2 ^ n

/-- The pointer operand that names an operation's scratchpad source. -/
def EngineOp.scratchSource : EngineOp → Option Word
  | .copy .st _ _ dst _ _ _ => some dst
  | .copy .sp _ src _ _ _ _ => some src
  | .scatter _ src _ _ _ => some src
  | _ => none

/-- The memory key of a scratchpad pointer of an operation, with its offset. -/
def Access.scratchAt (a : Access) (p : Word) : Nat × Nat :=
  let rank := if p.toNat / 2 ^ 60 = 1 then coreRank a.core else bits p.toNat 59 58
  (scratchKey a.blk rank + bits p.toNat 17 0, bits p.toNat 17 0)

/-- The effective address of a byte that an engine reads: its VA, or the pointer into the scratchpad. -/
def Access.sourceEa (a : Access) (sp : Spot) (key first : Nat) : Word :=
  match sp, (match a.kind with | .engine op => op.scratchSource | _ => none) with
  | .va b, _ => BitVec.ofNat 64 (b / 8 + (first - key))
  | .key _, some p => p + BitVec.ofNat 64 (first - (a.scratchAt p).1)
  | .key _, none => a.ea

/-- The first byte of a range that lies in a poisoned sector. -/
def State.firstPoison (s : State) (key n : Nat) : Nat :=
  s.poison.foldl (fun m x => if key < 32 * x + 32 ∧ 32 * x < key + n then min m (max key (32 * x)) else m) (key + n)

/-- POISON_CONSUMED of an engine's read: ADDR is the address of the failing element (20 Table 20.1, R448). -/
def State.sourcePoison (s : State) (a : Access) (sp : Spot) (key n : Nat) : FaultInfo :=
  let x := s.firstPoison key n
  poisonConsumed (a.sourceEa sp key (if x = key + n then key else x)) key

/-- An engine reads one source: its class changes, and its line comes (10 R259, R264). -/
def State.readSource (s : State) (a : Access) (x : Source) : SourceRead :=
  let die := coreDie a.core
  match x with
  | .value _ v => .bits s v none
  | .mem sp n =>
    match s.spotAt a.ctx die sp false .read with
    | .hold s p => .hold s p
    | .failed s f => .failed s f
    | .wait s => .wait s
    | .key b =>
      let key := b / 8
      let len := bytesOf b n
      let give (s : State) : SourceRead :=
        let bad := if 2 ^ 48 ≤ key then s.poisoned key len else s.diePoisoned die key len 3
        .bits s (s.bitsAt die b n) (if bad then some (s.sourcePoison a sp key len) else none)
      match sp with
      | .key _ => give s
      | .va vb =>
        let (s, ok) := (s.classify a.ctx (vb / 8) none false).unitReach die key a.noAlloc
        if ok then give s else .wait s

/-- Watchpoints see the read of a source, once, when the write it serves is made (17 R378). -/
def State.watchSource (s : State) (a : Access) (x : Source) : State :=
  let die := coreDie a.core
  match x with
  | .value _ _ => s
  | .mem sp n =>
    match s.spotAt a.ctx die sp false .read with
    | .key b =>
      let key := b / 8
      let len := bytesOf b n
      let v := s.bitsAt die b n
      let s := if 2 ^ 48 ≤ key then s.watchScratch ((key - 2 ^ 48) / 2 ^ 20) a.thr key len true false 0 v v else s
      match sp with
      | .key _ => s
      | .va vb => s.watchIssue a.thr a.ctx (vb / 8) len true false 0
    | _ => s

/-- An engine writes `n` bits at a bit number of memory. -/
def State.putBits (s : State) (a : Access) (b n v : Nat) : State :=
  let key := b / 8
  let len := bytesOf b n
  let old := s.readMem key len
  let new := old - old / 2 ^ (b % 8) % 2 ^ n * 2 ^ (b % 8) + v % 2 ^ n * 2 ^ (b % 8)
  if 2 ^ 48 ≤ key then
    ((s.writeMem key len new).cureRange key len).watchScratch ((key - 2 ^ 48) / 2 ^ 20) a.thr key len false true 0 old new
  else s.unitWrite (some (coreDie a.core)) key len new

/-- What the sources of a write have given so far: bits by place, the places that failed, the poisoned places, and the first failure. -/
structure Gathered where
  state : State
  at_ : Nat := 0
  value : Nat := 0
  lost : List (Nat × Nat) := []
  bad : List (Nat × Nat) := []
  fault : Option FaultInfo := none
  /-- A source waits, or its page is not resident. -/
  stop : Option (Option Nat) := none

/-- One more source. -/
def Gathered.step (a : Access) (g : Gathered) (x : Source) : Gathered :=
  if g.stop.isSome then g
  else
    let n := x.len
    match g.state.readSource a x with
    | .bits s v bad => { g with state := s, at_ := g.at_ + n, value := g.value + v * 2 ^ g.at_, fault := g.fault.or bad
                                bad := if bad.isSome then g.bad ++ [(g.at_, n)] else g.bad }
    | .failed s f => { g with state := s, at_ := g.at_ + n, lost := g.lost ++ [(g.at_, n)], fault := g.fault.or (some f) }
    | .wait s => { g with state := s, stop := some none }
    | .hold s p => { g with state := s, stop := some (some p) }

/-- The sources of a write. -/
def State.gather (s : State) (a : Access) (xs : List Source) : Gathered := xs.foldl (fun g x => g.step a x) { state := s }

/-- Bits written at a place, the bits of failed sources as they were (20 R435). -/
def State.keepLost (s : State) (g : Gathered) (b : Nat) : Nat :=
  g.lost.foldl (fun v l => v + s.readMem ((b + l.1) / 8) (bytesOf (b + l.1) l.2) / 2 ^ ((b + l.1) % 8) % 2 ^ l.2 * 2 ^ l.1) g.value

/-- One write of an engine. A poisoned source poisons its destination (20 R455). -/
def State.putAll (s : State) (a : Access) (dst : Spot) (xs : List Source) : PartEnd :=
  let die := coreDie a.core
  match s.spotAt a.ctx die dst true .write with
  | .hold s p => .hold s p
  | .failed s f => .failed s f
  | .wait s => .again s (.put dst xs)
  | .key db =>
    let g := s.gather a xs
    match g.stop with
    | some (some p) => .hold g.state p
    | some none => .again g.state (.put dst xs)
    | none =>
      let s := xs.foldl (fun s x => s.watchSource a x) g.state
      let s := match dst with
        | .va b => (s.watchIssue a.thr a.ctx (b / 8) (bytesOf db g.at_) false true 0).classify a.ctx (b / 8) none true
        | .key _ => s
      let s := if g.lost.any fun l => l.2 = g.at_ then s else s.putBits a db g.at_ (s.keepLost g db)
      let s := g.bad.foldl (fun s q => s.poisonRange ((db + q.1) / 8) (bytesOf (db + q.1) q.2)) s
      match g.fault with
      | some f => .failed s f
      | none => .done s

/-- The writes `ps` of a row are made in turn; `made` counts those made before, `f` is the first failure. One that waits or is held says how
many have been made. -/
def State.moveRow (s : State) (a : Access) (redo : Nat → Part) : Nat → Option FaultInfo → List Part → PartEnd
  | _, none, [] => .done s
  | _, some f, [] => .failed s f
  | made, f, .put d xs :: ps =>
    match s.putAll a d xs with
    | .done s => s.moveRow a redo (made + 1) f ps
    | .failed s g => s.moveRow a redo (made + 1) (f.or (some g)) ps
    | .again s _ g => .again s (redo made) (f.or g)
    | .hold s q => .hold s q
  | made, f, _ :: ps => s.moveRow a redo (made + 1) f ps

/-- A version word, read by an engine of a die (09 R239; 10 R259). -/
def State.readVersion (s : State) (a : Access) (va : Nat) : SourceRead := s.readSource a (.mem (.va (8 * va)) 32)

/-- A version word raised by one at its home L2 slice (09 R240; 10 R268). -/
def State.bumpVersion (s : State) (a : Access) (va key : Nat) : State :=
  let s := (s.watchIssue a.thr a.ctx va 4 true true 0).classify a.ctx va none true
  s.unitWrite (some (coreDie a.core)) key 4 ((s.readMem key 4 + 1) % 2 ^ 32)

/-- The version word of a row is read and written at its home L2 slice, when it satisfies `ready` (09 R240). One that is poisoned is not
written (20 R455). -/
def State.raiseVersion (s : State) (a : Access) (p : Part) (va : Nat) (ready : Nat → Bool) : PartEnd :=
  let die := coreDie a.core
  match s.spotAt a.ctx die (.va (8 * va)) true .both with
  | .hold s q => .hold s q
  | .failed s f => .failed s f
  | .wait s => .again s p
  | .key b =>
    let key := b / 8
    let (s, ok) := (s.classify a.ctx va none true).unitHome die key a.noAlloc
    if !ok then .again s p
    else if s.poisoned key 4 then .failed s (poisonConsumed (BitVec.ofNat 64 va) key)
    else if ready (s.readMem key 4) then .done (s.bumpVersion a va key) else .again s p

/-- An attempt on a row has ended with its version unsettled: another follows, or it was the last (09 R239; 21 R458). -/
def nextAttempt (s : State) (va : Nat) (src dst : Spot) (n attempt entry : Nat) (f : Option FaultInfo) : PartEnd :=
  if attempt + 1 < 1024 then .again s (.versioned va src dst n (attempt + 1) entry none 0) f
  else .failed s (f.getD { code := 0x0801, addr := BitVec.ofNat 64 va, detail := entry })

/-- An attempt on a row whose version was read as `v`: its writes from `made` on, and the second read. A `v` beyond 32 bits is that of a last
attempt, which moves the row whatever its version: its bytes stand as they come (21 R458). -/
def State.attemptRow (s : State) (a : Access) (va : Nat) (src dst : Spot) (n attempt entry v made : Nat) : PartEnd :=
  let redo (k : Nat) : Part := .versioned va src dst n attempt entry (some v) k
  let ps := putsAt dst [.mem src n] 0 n
  let check (s : State) (f : Option FaultInfo) : PartEnd :=
    match s.readVersion a va with
    | .bits s w none => if w = v then (match f with | some f => .failed s f | none => .done s) else nextAttempt s va src dst n attempt entry f
    | .bits s _ (some g) => .failed s (f.getD g)
    | .hold s q => .hold s q
    | .failed s g => .failed s (f.getD g)
    | .wait s => .again s (redo ps.length) f
  match s.moveRow a redo made none (ps.drop made) with
  | .done s => check s none
  | .failed s f => check s (some f)
  | e => e

/-- A part is done, or waits, or is held, or fails. -/
def State.doPart (s : State) (a : Access) (p : Part) : PartEnd :=
  match p with
  | .put dst xs => s.putAll a dst xs
  | .lock va => s.raiseVersion a p va fun v => v % 2 == 0
  | .unlock va => s.raiseVersion a p va fun _ => true
  | .versioned va src dst n attempt entry (some v) made => s.attemptRow a va src dst n attempt entry v made
  | .versioned va src dst n attempt entry none _ =>
    match s.readVersion a va with
    | .hold s q => .hold s q
    | .failed s f => .failed s f
    | .wait s => .again s p
    | .bits s _ (some f) => .failed s f
    | .bits s v none =>
      if v % 2 = 0 then s.attemptRow a va src dst n attempt entry v 0
      else if attempt + 1 < 1024 then .again s (.versioned va src dst n (attempt + 1) entry none 0)
      else s.attemptRow a va src dst n attempt entry (2 ^ 32) 0

/-! ## Operations -/

/-- The fields of INFO that name the operation. -/
def Access.named (a : Access) (f : FaultInfo) : FaultInfo := { f with strm := a.strm, pred := a.pred }

/-- A failure that does not stop the operation is delivered to its target (21 R456); the first of an operation alone (log 17). -/
def State.tell (s : State) (a : Access) (f : FaultInfo) : State := s.deliver a.thr a.blk a.ctx (a.named f) a.pc

/-- The operation completes: its credit goes to its barrier, and its bead falls once the credit has been applied (09 R229, R231). -/
def State.finishOp (s : State) (a : Access) (credit : Nat) : State :=
  if a.barrier = 0 ∨ credit = 0 then s.performed a
  else
    (s.modAcc a.id fun x => { x with stage := .crediting }).sendCredit
      { handle := a.barrier, bytes := credit, thr := a.thr, blk := a.blk, ctx := a.ctx, pc := a.pc, origin := 1, acc := a.id,
        stamp := s.clockFor (coreDie a.core) a.barrier }

/-- An operation that writes nothing, credits, and delivers a code (21 R457, R458). -/
def State.refuseOp (s : State) (a : Access) (f : FaultInfo) (credit : Nat) : State := (s.tell a f).finishOp a credit

/-- Two writes of global memory meet. -/
def Part.meets (p q : Part) : Bool :=
  let len (xs : List Source) : Nat := xs.foldl (fun n x => n + x.len) 0
  match p, q with
  | .put (.va x) xs, .put (.va y) ys => decide (x < y + len ys ∧ y < x + len xs)
  | _, _ => false

/-- The row of a row-atomic scatter that is being written: nothing of it is held, or a part of it is, or it follows a held row of its own
version word; with the page that it waits for. -/
inductive RowMode where
  | free
  | held (page : Nat)
  | behind (page : Nat)
deriving DecidableEq, Repr

/-- Why a part is set aside before it is tried: it comes after a part that is held. A row's version word is made even after its writes, and a
row waits for an earlier row of its version word, or for a write that it meets (09 R240; 13 R342). -/
def Part.setAside (p : Part) (m : RowMode) (hs : List (Nat × Part)) : Option Nat :=
  match p, m with
  | .lock v, _ => (hs.find? fun h => h.2 == .unlock v).map (·.1)
  | .unlock _, .held q | _, .behind q => some q
  | _, _ => (hs.find? fun h => p.meets h.2).map (·.1)

/-- The mode after a part, which met an absent page or was set aside for `q`, or was done. -/
def RowMode.next (m : RowMode) (p : Part) (q : Option Nat) : RowMode :=
  match p, q with
  | .unlock _, _ => .free
  | .lock _, some q => .behind q
  | .lock _, none => .free
  | _, some q => (match m with | .free => .held q | m => m)
  | _, none => m

/-- The parts in order, at most so many; those that meet an absent page are set aside, with those that come after them (13 R342). Answers the
parts left, the parts held and the first failure. -/
def State.runParts (s : State) (a : Access) : Nat → RowMode → List Part → List (Nat × Part) → Option FaultInfo →
    State × List Part × List (Nat × Part) × Option FaultInfo
  | 0, _, ps, hs, f => (s, ps, hs, f)
  | _, _, [], hs, f => (s, [], hs, f)
  | n + 1, m, p :: ps, hs, f =>
    match p.setAside m hs with
    | some q => s.runParts a n (m.next p (some q)) ps (hs ++ [(q, p)]) f
    | none =>
      match s.doPart a p with
      | .done s => s.runParts a n (m.next p none) ps hs f
      | .again s p g => (s, p :: ps, hs, f.or g)
      | .hold s q => s.runParts a n (m.next p (some q)) ps (hs ++ [(q, p)]) f
      | .failed s g => s.runParts a n (m.next p none) ps hs (some (f.getD g))

/-- The parts of an operation go on; when none is left it completes. -/
def State.moveParts (s : State) (a : Access) (n : Nat) (ps : List Part) (hs : List (Nat × Part)) (credit : Nat) (told : Bool) : State :=
  let (s, ps, hs', f) := s.runParts a (n + hs.length) .free (hs.map (·.2) ++ ps) [] none
  let s := match f with
    | some f => if f.code = 0x0407 then s.cancel a else if told then s else s.tell a f
    | none => s
  if (s.acc a.id).isNone then s
  else if ps.isEmpty && hs'.isEmpty then s.finishOp a credit
  else s.modAcc a.id fun x => { x with stage := .moving ps hs' credit (told || f.isSome) }

/-- The VAs of global memory that a part names. -/
def Part.vas (p : Part) : List Nat :=
  let va (x : Spot) : List Nat := match x with | .va b => [b / 8] | .key _ => []
  match p with
  | .put dst xs => va dst ++ xs.flatMap fun x => match x with | .mem y _ => va y | .value _ _ => []
  | .lock v | .unlock v => [v]
  | .versioned v src dst _ _ _ _ _ => v :: va src ++ va dst

/-- Walks start for the pages of a box, ahead of its element accesses (13 R335). -/
def State.walkAhead (s : State) (a : Access) (ps : List Part) : State :=
  ((ps.flatMap fun p => p.vas.map fun v => pageBase v 3).eraseDups).foldl (fun s va => s.noteWalk a.ctx va a.core true) s

/-- COPY_OPERAND (21 R457). -/
def copyOperand (case : Nat) : FaultInfo := { code := 0x0804, detail := case }

/-- The checks of a box copy that need its record (21 R457; 09 R234: the pointer is checked over the bytes used). -/
def boxFault (b : Block) (t : Trec) (p : Word) (off : Nat) (c : List Int) : Option FaultInfo :=
  if off % (if t.swiz = 0 then 16 else t.swizzle) ≠ 0 then some (copyOperand 4)
  else if t.eb = 4 ∧ c.getD 0 0 % 2 ≠ 0 ∨ t.eb = 6 ∧ c.getD 0 0 % 4 ≠ 0 then some (copyOperand 5)
  else if b.scratch < off + t.bytes then some (spaceInvalid p 3)
  else none

/-- A record is read for an operation; `r` is its bytes. A box copy starts its parts. -/
def State.startBox (s : State) (a : Access) (r : Nat) (load : Bool) (p : Word) (c0 c1 c2 : Word) : State :=
  let t := readTrec r
  let c := coordinates t.rank c0 c1 c2
  let (key, off) := a.scratchAt p
  match boxFault (s.block a.blk) t p off c with
  | some f => s.refuseOp a f t.bytes
  | none =>
    let ps := t.parts c (8 * key) load
    (s.modAcc a.id fun x => { x with stage := .moving ps [] t.bytes false, noAlloc := t.noAlloc }).walkAhead a ps

/-- The VA of row `i` of a table. -/
def Etab.rowVa (t : Etab) (i : Nat) : Nat := (t.base + i * t.stride) % 2 ^ 56

/-- Bytes moved between a row at a VA and scratchpad bytes. -/
def rowParts (va key n : Nat) (load : Bool) : List Part :=
  if load then putsAt (.key (8 * key)) [.mem (.va (8 * va)) (8 * n)] 0 (8 * n)
  else putsAt (.va (8 * va)) [.mem (.key (8 * key)) (8 * n)] 0 (8 * n)

/-- The parts of a gather (09 R239). -/
def gatherParts (t : Etab) (idx : List Nat) (key : Nat) : List Part :=
  idx.zipIdx.flatMap fun e =>
    let dst := key + e.2 * t.rowBytes
    if t.rows ≤ e.1 ∨ e.1 = 0xFFFFFFFF then rowParts t.dflt dst t.rowBytes true
    else if !t.versioned then rowParts (t.rowVa e.1) dst t.rowBytes true
    else [.versioned ((t.versions + 4 * e.1) % 2 ^ 56) (.va (8 * t.rowVa e.1)) (.key (8 * dst)) (8 * t.rowBytes) 0 e.2 none 0]

/-- The parts of a scatter (09 R240). -/
def scatterParts (t : Etab) (idx : List Nat) (key : Nat) (rowAtomic : Bool) : List Part :=
  idx.zipIdx.flatMap fun e =>
    if t.rows ≤ e.1 ∨ e.1 = 0xFFFFFFFF then []
    else
      let row := rowParts (t.rowVa e.1) (key + e.2 * t.rowBytes) t.rowBytes false
      let v := (t.versions + 4 * e.1) % 2 ^ 56
      if rowAtomic then [.lock v] ++ row ++ [.unlock v] else row

/-- What refuses a gather or scatter of `n` rows when its record `r` is read, with the bytes it then credits (21 R457, R458). -/
def State.rowsBad (s : State) (a : Access) (r n : Nat) (p : Word) (rowAtomic : Bool) : Option (FaultInfo × Nat) :=
  let t := readEtab r
  let credit := n * t.rowBytes
  match etabBad r with
  | some o => some ({ code := 0x0802, addr := a.ea, detail := o }, if t.rowOk then credit else 0)
  | none =>
    if rowAtomic && !t.versioned then some ({ code := 0x0803, addr := a.ea }, credit)
    else if 229376 < credit then some (copyOperand 3, credit)
    else if (s.block a.blk).scratch < (a.scratchAt p).2 + credit then some (spaceInvalid p 3, credit)
    else none

/-- A gather or scatter after its record has been read and checked, and the indices `idx` of its list have been read. -/
def State.startRows (s : State) (a : Access) (r : Nat) (idx : List Nat) (p : Word) (scatter rowAtomic : Bool) : State :=
  let t := readEtab r
  let key := (a.scratchAt p).1
  let ps := if scatter then scatterParts t idx key rowAtomic else gatherParts t idx key
  s.modAcc a.id fun x => { x with stage := .moving ps [] (idx.length * t.rowBytes) false }

end Sys2Proof.Machine
end

