-- ==== Sys2Proof/Machine/Cloves.lean ====
section
/-! DEFINITION. Cloves and their holds (08 R213 to R216; 09 R235; 10 R273 to R276; 20 R445 to R449). -/

namespace Sys2Proof.Machine

def Die.clove (d : Die) (c : Nat) : Clove := tgetD d.cloves c {}
def Die.setClove (d : Die) (c : Nat) (x : Clove) : Die := { d with cloves := sset {} d.cloves c x }
def State.clove (s : State) (die c : Nat) : Clove := (s.die die).clove c
def State.modClove (s : State) (die c : Nat) (f : Clove → Clove) : State := s.modDie die fun d => d.setClove c (f (d.clove c))

/-- CLOVE_MISMATCH. -/
def cloveMismatch (addr : Word) (reason clove : Nat) : FaultInfo := { code := 0x0601, addr := addr, detail := reason + 256 * clove }

/-- The clove timer of a grid, 2^e cycles (Table 2.4, CLOVEXP). -/
def cloveTimer (flags : BitVec 32) : Nat := 2 ^ (if bits flags.toNat 15 8 = 0 then 12 else bits flags.toNat 15 8)

/-- The registers of a clove load. -/
def cloveRegs (a : Access) : Option (Word × Word × Word × Word) :=
  match a.kind with
  | .engine (.copy .ld true _ dst c0 c1 c2) => some (dst, c0, c1, c2)
  | _ => none

/-- The clove a load names: bits [37:32] of C + 2. -/
def cloveNumber (c2 : Word) : Nat := bits c2.toNat 37 32

/-- A clove load served by a read of its own (10 R275; 20 R446). -/
def State.ownBox (s : State) (a : Access) (rec : Nat) : State :=
  match cloveRegs a with
  | some (dst, c0, c1, c2) => s.startBox a rec true dst c0 c1 c2
  | none => s

/-- What the box read of a hold found: writes by their bit in the box, each a row of pieces, a piece without a value where its source failed;
the first failure; or a page or a line to wait for. -/
structure BoxRead where
  state : State
  fills : List (Nat × List (Nat × Option Nat)) := []
  fault : Option FaultInfo := none
  absent : Bool := false

/-- One source of a write of the box read. -/
def BoxRead.source (a : Access) (b : BoxRead × List (Nat × Option Nat)) (x : Source) : BoxRead × List (Nat × Option Nat) :=
  let n := x.len
  match b.1.state.readSource a x with
  | .bits s v none => ({ b.1 with state := s }, b.2 ++ [(n, some v)])
  | .bits s _ (some f) => ({ b.1 with state := s, fault := b.1.fault.or (some f) }, b.2 ++ [(n, none)])
  | .failed s f => ({ b.1 with state := s, fault := b.1.fault.or (some f) }, b.2 ++ [(n, none)])
  | .hold s _ | .wait s => ({ b.1 with state := s, absent := true }, b.2)

/-- The sources of a part. -/
def Part.sources : Part → List Source
  | .put _ xs => xs
  | _ => []

/-- One part of the box read at release. -/
def BoxRead.step (a : Access) (b : BoxRead) (p : Part) : BoxRead :=
  match p with
  | .put (.key o) xs =>
    let r := xs.foldl (BoxRead.source a) (b, [])
    { r.1 with fills := r.1.fills ++ [(o, r.2)] }
  | _ => b

/-- The write that gives a member what a box read found, at its own destination; failed elements keep their bytes (20 R448). -/
def fillPart (base : Nat) (f : Nat × List (Nat × Option Nat)) : Part :=
  .put (.key (base + f.1))
    (f.2.foldl (fun r x => (r.1 + x.1, r.2 ++ [match x.2 with | some v => Source.value x.1 v | none => .mem (.key (base + f.1 + r.1)) x.1]))
      (0, [])).2

/-- The record that a request in a hold carries. -/
def Access.heldRecord (a : Access) : Nat := match a.stage with | .inHold _ _ _ r => r | .behindHolds r => r | _ => 0

/-- A request that waits behind the open holds of its clove. -/
def Access.isBehind (a : Access) : Bool := match a.stage with | .behindHolds _ => true | _ => false

/-- Two requests name the same record bytes 0x00 to 0x5F and the same coordinates, those at and above RANK being 0 (09 R232, R235). -/
def sameBox (a b : Access) : Bool :=
  match cloveRegs a, cloveRegs b with
  | some (_, x0, x1, x2), some (_, y0, y1, y2) =>
    let rank := (readTrec a.heldRecord).rank
    a.heldRecord % 2 ^ 768 == b.heldRecord % 2 ^ 768 && coordinates rank x0 x1 x2 == coordinates rank y0 y1 y2
  | _, _ => false

/-- The requests that wait behind the open holds of a clove ask again. -/
def State.askAgain (s : State) (die c : Nat) : State :=
  s.plan (s.accs.filterMap fun a =>
    match a.stage, cloveRegs a with
    | .behindHolds _, some (_, _, _, c2) => if coreDie a.core = die ∧ cloveNumber c2 = c then some (.cloveLoadRequest a.id) else none
    | _, _ => none)

/-- A hold is released (10 R274; 20 R447, R448): one read of the box, given to every request that matches the opener; the others are
served as stragglers. When a page of the box is not resident the released hold waits for it (13 R342). `full` is a release with every
current member asking. -/
def State.releaseHold (s : State) (die : Nat) (h : Hold) (full : Bool) : State :=
  let as := h.reqs.filterMap s.acc
  match as with
  | [] => s.modDie die fun d => { d with holds := d.holds.filter fun x => !(x.clove == h.clove && x.seq == h.seq) }
  | opener :: _ =>
    let s :=
      if h.released then s
      else
        s.modClove die h.clove fun c =>
          if !c.active then c
          else { c with nextSeq := max c.nextSeq (h.seq + 1), full := if full then c.full + 1 else c.full,
                        timerRel := if full then c.timerRel else c.timerRel + 1 }
    let t := readTrec opener.heldRecord
    let parts := match cloveRegs opener with
      | some (_, c0, c1, c2) => t.parts (coordinates t.rank c0 c1 c2) 0 true
      | none => []
    let reader := { opener with noAlloc := t.noAlloc }
    let s := if h.released then s else s.walkAhead reader parts
    let r := parts.foldl (fun b p => b.step reader p) { state := s : BoxRead }
    if r.absent then
      r.state.modDie die fun d =>
        { d with holds := d.holds.map fun x => if x.clove = h.clove ∧ x.seq = h.seq then { x with released := true, left := 0 } else x }
    else
      let s := (parts.flatMap Part.sources).foldl (fun s x => s.watchSource reader x) r.state
      let s := s.modDie die fun d => { d with holds := d.holds.filter fun x => !(x.clove == h.clove && x.seq == h.seq) }
      let s := as.foldl
        (fun s a =>
          match cloveRegs a with
          | none => s
          | some (dst, _, _, _) =>
            if sameBox opener a then
              let base := 8 * (a.scratchAt dst).1
              let ps := r.fills.map (fillPart base)
              let s := s.modAcc a.id fun x => { x with stage := .moving ps [] t.bytes false }
              match r.fault with
              | some f => s.tell a { code := 0x0602, addr := f.addr, detail := f.code }
              | none => s
            else
              let s := s.modClove die h.clove fun c => if c.active then { c with stragglers := c.stragglers + 1 } else c
              (s.ownBox a a.heldRecord).tell a (cloveMismatch a.ea 3 h.clove)) s
      s.askAgain die h.clove

/-- Every current member has asked for a sequence number. -/
def Clove.allAsked (c : Clove) (seq : Nat) : Bool := c.members.all fun m => decide (seq < m.2)

/-- The release condition of the holds of a clove, evaluated (08 R215). -/
def State.evalHolds (s : State) (die c : Nat) : State :=
  ((s.die die).holds.filter fun h => h.clove == c && !h.released).foldl
    (fun s h => let x := s.clove die c; if x.reached && x.allAsked h.seq then s.releaseHold die h true else s) s

/-- The hold slice of a clove load: the L2 or, for an element homed on another die, the RDC slice of the members' die with the number that
the box's first element gives (10 R273). None while its page is not resident. -/
def State.holdSlice (s : State) (a : Access) (rec : Nat) : Option (Bool × Nat × Nat) :=
  match cloveRegs a with
  | some (_, c0, c1, c2) =>
    let t := readTrec rec
    let die := coreDie a.core
    match s.translate a.ctx (t.firstVa (coordinates t.rank c0 c1 c2)) die .read with
    | .ok pa _ _ => some ((match homeDie pa with | some d => d != die | none => false), die, homeSlice pa)
    | _ => none
  | none => none

/-- An earlier clove load of the member has not yet asked for its sequence number: loads take their numbers in the order of issue
(08 R214). -/
def State.asksFirst (s : State) (a : Access) : Bool :=
  s.accs.any fun x => decide (x.id < a.id) && x.core == a.core && x.blk == a.blk &&
    (match cloveRegs x, cloveRegs a with | some (_, _, _, x2), some (_, _, _, a2) => cloveNumber x2 == cloveNumber a2 | _, _ => false) &&
    (match x.stage with | .issued | .logged _ | .behindHolds _ => true | _ => false)

/-- A clove load reaches its hold slice with its record read (10 R273 to R275; 20 R446). -/
def State.requestHold (s : State) (a : Access) (rec : Nat) : State :=
  match cloveRegs a with
  | none => s
  | some (_, _, _, c2) =>
    let die := coreDie a.core
    let n := cloveNumber c2
    let c := s.clove die n
    match c.members.find? fun m => m.1 == (a.core, a.blk) with
    | none =>
      -- a request that the departing member had already made is still delivered to it (08 R215)
      if a.isBehind then s.ownBox a rec else (s.ownBox a rec).tell a (cloveMismatch a.ea 4 n)
    | some m =>
      let advance (s : State) : State :=
        s.modClove die n fun c => { c with members := c.members.map fun x => if x.1 = m.1 then (x.1, x.2 + 1) else x }
      if m.2 < c.nextSeq then
        ((advance s).modClove die n fun c => { c with stragglers := c.stragglers + 1 }).ownBox a rec
      else
        let holds := (s.die die).holds
        let join (s : State) : State :=
          (advance (s.modAcc a.id fun x => { x with stage := .inHold die n m.2 rec })).evalHolds die n
        if holds.any fun h => h.clove == n && h.seq == m.2 && !h.released then
          join (s.modDie die fun d => { d with holds := d.holds.map fun h =>
            if h.clove = n ∧ h.seq = m.2 then { h with reqs := h.reqs ++ [a.id] } else h })
        else if 4 ≤ (holds.filter fun h => h.clove == n && !h.released).length then
          s.modAcc a.id fun x => { x with stage := .behindHolds rec }
        else
          join (s.modDie die fun d => { d with holds := d.holds ++ [{ clove := n, seq := m.2, reqs := [a.id], left := 2 ^ c.timer, slice := s.holdSlice a rec }] })

/-- A member leaves (08 R213, R215; 10 R276): the last one frees the clove, after its open holds have been released. -/
def State.cleave (s : State) (die c : Nat) (m : Nat × Nat) : State :=
  if (s.clove die c).members.any fun x => x.1 == m then
    let s := s.modClove die c fun x => { x with members := x.members.filter fun y => y.1 != m }
    if (s.clove die c).members.isEmpty then
      let s := ((s.die die).holds.filter fun h => h.clove == c && !h.released).foldl (fun s h => s.releaseHold die h false) s
      s.modClove die c fun _ => {}
    else s.evalHolds die c
  else s

/-- A member joins (08 R213; 20 R445): the state, or the reason of a mismatch. -/
def State.cjoin (s : State) (die c n ctx : Nat) (flags : BitVec 32) (m : Nat × Nat) : Except Nat State :=
  let x := s.clove die c
  if x.active && x.ctx != ctx then .error 1
  else if x.active && x.n != n then .error 0
  else
    let x := if x.active then x else { active := true, n := n, timer := Nat.log2 (cloveTimer flags), ctx := ctx }
    let x := if x.members.any fun y => y.1 == m then x else { x with members := x.members ++ [(m, x.nextSeq)] }
    let x := { x with reached := x.reached || decide (x.n ≤ x.members.length) }
    .ok ((s.modClove die c fun _ => x).evalHolds die c)

/-- Every membership of a core through a block ends (06 R144). -/
def State.leaveCloves (s : State) (core blk : Nat) : State :=
  let die := coreDie core
  ((s.die die).cloves.filter fun e => e.2.members.any fun m => m.1 == (core, blk)).foldl (fun s e => s.cleave die e.1 (core, blk)) s

end Sys2Proof.Machine
end

