-- ==== Sys2Proof/Machine/Sites.lean ====
section
/-! DEFINITION. Where threads of a squad meet: rejoin masks (06 R140, R141) and synchronising sites (08 R187 to R190; 19 R429), with what
each lane instruction computes when its threads are released together (06 R150; 08 R192 to R197; 04 R97). -/

namespace Sys2Proof.Machine

/-! ## Rejoin masks -/

/-- The threads of a squad in their lanes. -/
def State.laneThreads (s : State) (blk sq : Nat) : List (Nat × Thread) :=
  (squadThreads (s.block blk) blk sq).map fun k => (k, s.thr k)

/-- A thread waits in a JWAIT on mask `m`. -/
def Thread.inJwait (t : Thread) (m : Nat) : Bool := t.live && t.wait == .jwait m

/-- The condition of the JWAITs on mask `m`: no lane is named, or every named lane holds a thread that waits on it (06 R140). -/
def State.jwaitHolds (s : State) (blk sq m : Nat) : Bool :=
  (List.range 32).all fun l =>
    !bit ((s.squad blk sq).readJ m).toNat l || (s.laneThreads blk sq).any fun e => e.2.lane == l && e.2.inJwait m

/-- The JWAITs on one mask: when their condition holds, every thread that waits on it goes on (06 R140). -/
def State.settleJ (s : State) (blk sq m : Nat) : State :=
  if s.jwaitHolds blk sq m then
    (s.laneThreads blk sq).foldl
      (fun s e => if e.2.inJwait m then s.modThr e.1 fun t => { t with wait := .ready, pc := nextPc t.pc 2 } else s) s
  else s

/-! ## Synchronising sites -/

/-- A thread that waits at a site. -/
structure AtSite where
  k : Nat
  t : Thread
  pc : Word
  members : Nat
  guard : Bool
  i : Instr

/-- The threads of a squad that wait at sites, in lane order. -/
def State.atSites (s : State) (blk sq : Nat) : List AtSite :=
  (s.laneThreads blk sq).filterMap fun e =>
    match e.2.wait with
    | .site pc m g i => if e.2.live then some { k := e.1, t := e.2, pc := pc, members := m.toNat, guard := g, i := i } else none
    | _ => none

/-- The lanes of a list of waiting threads. -/
def laneMask (r : List AtSite) : Nat := r.foldl (fun m a => m ||| 2 ^ a.t.lane) 0

/-- The largest set of the threads at one PC in which every live named lane is itself a member (08 R188). -/
def releaseSet (live : Nat) : Nat → List AtSite → List AtSite
  | 0, r => r
  | n + 1, r => releaseSet live n (r.filter fun a => a.members &&& live &&& (2 ^ 32 - 1 - laneMask r) == 0)

/-- What a lane instruction writes in one thread. -/
inductive SiteWrite where
  | reg (r : RegName) (x : Word)
  | pred (n : Nat) (b : Bool)
deriving DecidableEq, Repr

/-- Source A of a thread at a site, the register its own X names (08 R191). -/
def State.siteA (s : State) (w : AluWord) (a : AtSite) : Nat := (s.readReg a.t (aluNameA w a.t)).toNat

/-- A contributor of a lane. -/
def contributor (con : List AtSite) (l : Nat) : Option AtSite := con.find? fun a => a.t.lane == l

/-- SHFL and SHFLX with the index of each sub-element (08 R192). -/
def State.exchange (s : State) (con : List AtSite) (me : AtSite) (w : AluWord) (idx : Nat → Int) : Word :=
  let n := formatBits w.ty.toNat
  let old := (s.readReg me.t (.v w.d.toNat)).toNat
  elements n fun sub =>
    let j := idx sub
    let l := j.toNat / (64 / n)
    if 0 ≤ j ∧ l < 32 ∧ bit me.members l then
      match contributor con l with
      | some c => elem (s.siteA w c) n (j.toNat % (64 / n))
      | none => elem old n sub
    else elem old n sub

/-- The B source of a thread at a site. -/
def State.siteB (s : State) (w : AluWord) (me : AtSite) : Nat := (s.readReg me.t (.v w.b.toNat)).toNat

/-- The index of SHFL. -/
def shflIndex (w : AluWord) (b sub : Nat) : Int :=
  let n := formatBits w.ty.toNat
  match w.lit with
  | some l => ((l.toNat % 2 ^ n : Nat) : Int)
  | none => ((elem b n sub : Nat) : Int)

/-- The index of SHFLX (Table 8.2). -/
def shflxIndex (w : AluWord) (b lane sub : Nat) : Int :=
  let ctl := match w.lit with | some l => l.toNat | none => b
  let dist : Nat := ctl % 65536
  let k : Nat := lane * (64 / formatBits w.ty.toNat) + sub
  match bits ctl 17 16 with
  | 0 => Int.ofNat dist
  | 1 => Int.ofNat k - Int.ofNat dist
  | 2 => Int.ofNat (k + dist)
  | _ => Int.ofNat (Nat.xor k dist)

/-- Two elements of R97, either of which may be absent. -/
def combineTwo (c : Nat → Nat → Nat) (x y : Option Nat) : Option Nat :=
  match x, y with
  | some a, some b => some (c a b)
  | none, y => y
  | x, none => x

/-- One round of R97: neighbours are combined. -/
def treeRound (c : Nat → Nat → Nat) : List (Option Nat) → List (Option Nat)
  | x :: y :: t => combineTwo c x y :: treeRound c t
  | l => l

/-- The reduction of R97 in so many rounds. -/
def treeReduce (c : Nat → Nat → Nat) : Nat → List (Option Nat) → Option Nat
  | 0, l => l.headD none
  | n + 1, l => treeReduce c n (treeRound c l)

/-- combine(x, y) of Table 8.3. -/
def laneCombine (op ty : Nat) (sat : Bool) (fp : FpMode) (x y : Nat) : Nat :=
  let n := formatBits ty
  let sx := decodeInt ty n x
  let sy := decodeInt ty n y
  match op with
  | 0 => intResult (codeSigned ty) sat n (sx + sy)
  | 1 => if sx ≤ sy then x else y
  | 2 => if sy ≤ sx then x else y
  | 3 => x &&& y
  | 4 => x ||| y
  | 5 => x ^^^ y
  | 6 => roundTo fp ty 0 (faddVal fp (operand fp ty x) (operand fp ty y) (.zero false))
  | 7 => minMaxElem fp ty false false x y
  | _ => minMaxElem fp ty true false x y

/-- The identity of an exclusive scan (Table 8.3). -/
def laneIdentity (op ty : Nat) : Nat :=
  let n := formatBits ty
  match op with
  | 1 => wrapInt (intMax (codeSigned ty) n) n
  | 2 => wrapInt (intMin (codeSigned ty) n) n
  | 3 => 2 ^ n - 1
  | 6 => signBit ty true
  | 7 => infinity ty
  | 8 => signBit ty true + infinity ty
  | _ => 0

/-- The mode of a lane operation: stochastic rounds under RNE (08 R197). -/
def laneMode (t : Thread) (w : AluWord) : FpMode :=
  let fp := fpModeOf t.fpmode w.rnd.toNat
  if fp.rnd = 5 then { fp with rnd := 1 } else fp

/-- The elements of LRED and LSCAN (08 R197): one for each lane and sub-element, in the order of R97. -/
def State.laneElements (s : State) (con : List AtSite) (me : AtSite) (w : AluWord) : List (Option Nat) :=
  let ty := w.ty.toNat
  let n := formatBits ty
  let fp := laneMode me.t w
  (List.range 32).flatMap fun l =>
    let src := (contributor con l).map (s.siteA w)
    (List.range (64 / n)).map fun sub =>
      if !bit me.members l then none
      else
        match src with
        | some x => some (if 8 ≤ ty then flushIn fp ty (elem x n sub) else elem x n sub)
        | none => some 0

/-- The number of rounds for elements of a type: 32·n is 2 to this power. -/
def laneRounds (ty : Nat) : Nat := match formatBits ty with | 8 => 8 | 16 => 7 | 32 => 6 | _ => 5

/-- LRED. -/
def State.lredValue (s : State) (con : List AtSite) (me : AtSite) (w : AluWord) : Word :=
  let ty := w.ty.toNat
  let r := (treeReduce (laneCombine (w.b.toNat % 16) ty w.sat (laneMode me.t w)) (laneRounds ty) (s.laneElements con me w)).getD 0
  elements (formatBits ty) fun _ => r

/-- LSCAN: the elements above k, and k itself when exclusive, are absent. -/
def State.lscanValue (s : State) (con : List AtSite) (me : AtSite) (w : AluWord) : Word :=
  let ty := w.ty.toNat
  let op := w.b.toNat % 16
  let n := 64 / formatBits ty
  let es := s.laneElements con me w
  let keep := if bit w.b.toNat 4 then 0 else 1
  elements (formatBits ty) fun sub =>
    let k := me.t.lane * n + sub + keep
    ((treeReduce (laneCombine op ty w.sat (laneMode me.t w)) (laneRounds ty)
      (es.take k ++ List.replicate (32 * n - k) none))).getD (laneIdentity op ty)

/-- The votes over the members of a thread (08 R195). -/
def State.votes (con : List AtSite) (me : AtSite) (w : AluWord) : List (Nat × Bool) :=
  ((List.range 32).filter fun l => bit me.members l).map fun l =>
    (l, match contributor con l with
        | some c => c.t.readP (w.a.toNat % 8) != bit w.a.toNat 3
        | none => false)

/-- VOTE. -/
def voteWrite (con : List AtSite) (me : AtSite) (w : AluWord) : SiteWrite :=
  let vs := State.votes con me w
  if w.b.toNat % 4 = 3 then
    .reg (.v w.d.toNat) (BitVec.ofNat 64 (vs.foldl (fun m v => if v.2 then m + 2 ^ v.1 else m) 0))
  else .pred (w.d.toNat % 8) (voteResult (w.b.toNat % 4) (vs.map (·.2)))

/-- MATCH. -/
def State.matchValue (s : State) (con : List AtSite) (me : AtSite) (w : AluWord) : Word :=
  let n := formatBits w.ty.toNat
  let mine := s.siteA w me % 2 ^ n
  BitVec.ofNat 64 (con.foldl (fun m c => if bit me.members c.t.lane && s.siteA w c % 2 ^ n == mine then m + 2 ^ c.t.lane else m) 0)

/-- The winner of an ELECT over a thread's set (06 R150). -/
def electWins (con : List AtSite) (me : AtSite) : Bool :=
  ((con.filter fun c => bit me.members c.t.lane).head?.map fun c => c.t.lane == me.t.lane).getD false

/-- What a contributor writes at its release. -/
def State.siteWrite (s : State) (con : List AtSite) (me : AtSite) : Option SiteWrite :=
  match me.i with
  | .shfl w => some (.reg (.v w.d.toNat) (s.exchange con me w (shflIndex w (s.siteB w me))))
  | .shflx w => some (.reg (.v w.d.toNat) (s.exchange con me w (shflxIndex w (s.siteB w me) me.t.lane)))
  | .vote w => some (voteWrite con me w)
  | .lred w => some (.reg (.v w.d.toNat) (s.lredValue con me w))
  | .lscan w => some (.reg (.v w.d.toNat) (s.lscanValue con me w))
  | .matchLanes w => some (.reg (.v w.d.toNat) (s.matchValue con me w))
  | .elect w => some (.pred (w.d.toNat % 8) (electWins con me))
  | _ => none

/-- Threads are released together: each contributor writes what it computed from the state at the release, and goes on (08 R188, R189). -/
def State.release (s : State) (blk : Nat) (r : List AtSite) : State :=
  let con := r.filter (·.guard)
  let writes := con.map fun a => (a.k, s.siteWrite con a)
  let s := r.foldl (fun s a => s.modThr a.k fun t => { t with wait := .ready, pc := nextPc a.pc a.i.wordCount }) s
  let s := writes.foldl
    (fun s e => match e.2 with
      | some (.reg n x) => s.writeReg e.1 n x
      | some (.pred n b) => s.writePred e.1 n b
      | none => s) s
  let winners := con.filter fun a => match a.i with | .elect _ => electWins con a | _ => false
  match winners.getLast? with
  | some a => s.modBlock blk fun b => { b with leader := some a.t.tid }
  | none => s

/-- The PCs at which threads of a squad wait, each once. -/
def sitePcs (as : List AtSite) : List Word := (as.map (·.pc)).eraseDups

/-- Every site of a squad whose release set is not empty is released, in the order of the lowest lane that waits at it, so that of two ELECT
sites released at once the last names the leader (DESIGN CHOICE, log 72). -/
def State.releaseSites (s : State) (blk sq : Nat) : State :=
  let live := s.liveMask blk sq
  (sitePcs (s.atSites blk sq)).foldl
    (fun s pc =>
      let r := releaseSet live 32 ((s.atSites blk sq).filter fun a => a.pc == pc)
      if r.isEmpty then s else s.release blk r) s

/-- The threads that raise MEMBER_MISMATCH (08 R190, 19 R429), with the fault: every live member named at their site waits at some site, and
one of them at another PC. A site that has just been released raises nothing. -/
def State.mismatches (s : State) (blk sq : Nat) (released : List Word) : List (Nat × Word × FaultInfo) :=
  let as := s.atSites blk sq
  let live := s.liveMask blk sq
  as.filterMap fun a =>
    let named := ((as.filter fun x => x.pc == a.pc).foldl (fun m x => m ||| x.members) 0) &&& live
    let stuck := (List.range 32).all fun l => !bit named l || as.any fun x => x.t.lane == l
    let others := as.filter fun x => bit named x.t.lane && x.pc != a.pc
    let own := others.filter fun x => bit a.members x.t.lane
    match stuck && !released.contains a.pc, (own ++ others).head? with
    | true, some x => some (a.k, a.pc, { code := 0x0204, addr := x.pc, detail := x.t.lane })
    | _, _ => none

/-- The PCs of a squad's sites whose release set is not empty. -/
def State.releasable (s : State) (blk sq : Nat) : List Word :=
  (sitePcs (s.atSites blk sq)).filter fun pc =>
    !(releaseSet (s.liveMask blk sq) 32 ((s.atSites blk sq).filter fun a => a.pc == pc)).isEmpty

/-- The waits of a squad's threads for each other, evaluated after arrivals, exits and changes of J (06 R141; 08 R188; 19 R429). -/
def State.settleSquad (s : State) (blk sq : Nat) : State :=
  let s := (List.range 8).foldl (fun s m => s.settleJ blk sq m) s
  let released := s.releasable blk sq
  let s := s.releaseSites blk sq
  (s.mismatches blk sq released).foldl (fun s e => s.takeFault e.1 e.2.2 e.2.1 false) s

/-- A squad enters a list in the order of block and number, once. -/
def squadInsert (x : Nat × Nat) : List (Nat × Nat) → List (Nat × Nat)
  | [] => [x]
  | y :: ys => if x = y then y :: ys else if x.1 < y.1 ∨ x.1 = y.1 ∧ x.2 < y.2 then x :: y :: ys else y :: squadInsert x ys

/-- The waits of the squads that issued in this cycle are evaluated, in the order of their numbers: of several ELECTs of one block that
complete together, the last has the highest thread index and names the leader (06 R150; 19 R429). -/
def State.settleAll (s : State) : State :=
  (s.unsettled.foldr squadInsert []).foldl (fun s e => s.settleSquad e.1 e.2) { s with unsettled := [] }

/-- The waits of a squad are evaluated: at the end of the cycle when another slot still issues in it (06 R141; 19 R429). -/
def State.settleNow (s : State) (blk sq : Nat) : State :=
  let s := { s with unsettled := s.unsettled ++ [(blk, sq)] }
  if s.focus.isEmpty then s.settleAll else s

/-- A lane arrives at a site; `mask` is the fixed squad-form field (08 R187, R188). A lane whose guard holds has its operands checked. -/
def arriveLane (i : Instr) (g : BitVec 3) (n : Bool) (mask : BitVec 9) (os : Thread → List Operand) (ps : List Nat) (l : Lane) : LaneOut :=
  let m := fieldName true false mask 0
  if l.s.pendingPred l.k g.toNat || l.s.pendingReg l.k m 1 then .notReady
  else
    let on := l.t.guard g n
    let members := ((l.s.readReg l.t m).truncate 32 : BitVec 32) ||| (1#32 <<< l.t.lane)
    let go : LaneOut := .wait fun s => s.modThr l.k fun t => { t with wait := .site l.latch.pc members on i }
    if !on then go
    else if ps.any fun p => l.s.pendingPred l.k p then .notReady
    else l.checked (os l.t) go

/-- A lane instruction of an issue group. -/
def State.siteOp (s : State) (i : Instr) (w : AluWord) (mask : BitVec 9) (os : Thread → List Operand) (ps : List Nat) : State :=
  s.execThen (arriveLane i w.g w.n mask os ps) fun l s => s.settleNow l.blk l.sq

end Sys2Proof.Machine
end

