-- ==== Sys2Proof/Machine/Blocks.lean ====
section
/-! DEFINITION. The lives of threads, squads, blocks and grids (02 R22 to R36): exit, completion and retirement; placement (12 R303 to
R310); discard and restart (02 R45 to R48; 12 R318). -/

namespace Sys2Proof.Machine

/-! ## Exit (06 R143, R144) -/

/-- A thread exits: its J bits fall, its loads are dropped, what else it issued goes on without registers to write, and a leader that
exits leaves its block without one. The S registers that its loads were to write in the stead of lower lanes are written by those (08
R203). -/
def State.exitThread (s : State) (k : Nat) : State :=
  let t := s.thr k
  let s := (s.accs.filter fun a => a.thr == k && !(sDests a.dests).isEmpty && a.stage != .cancelled).foldl (fun s a => s.passShared a) s
  let left := s.accs.filter fun a => !(a.thr == k && (a.kind == .load || a.stage == .cancelled))
  let s := { s with accs := left.map fun (a : Access) => if a.thr = k then { a with dests := [] } else a }
  let s := s.modSquad t.blk t.sq fun q =>
    { q with j := (List.range 8).foldl (fun j m => sset 0 j m (sget 0 j m &&& ~~~(1#32 <<< t.lane))) q.j }
  let s := s.modBlock t.blk fun b => if b.leader = some t.tid then { b with leader := none } else b
  let held := t.held
  let s := s.modThr k fun t => { t with live := false, wait := .ready, held := none, parked := false }
  match held with
  | some (f, pc) => s.deliver k t.blk (s.block t.blk).ctx f pc
  | none => s

/-- The references a block still holds are dropped (09 R224), each at its slot while its handle is current there. -/
def State.dropRefs (s : State) (blk : Nat) : State :=
  let refs := (s.block blk).refs
  let s := refs.foldl
    (fun s e =>
      let h := handleOf (BitVec.ofNat 32 e.1)
      let b := s.slotOf h
      if b.allot && b.gen == h.gen then s.setSlot h (b.drop e.2.toNat) else s) s
  s.modBlock blk fun b => { b with refs := [] }

/-- The runs of a block's squads end. -/
def State.endRuns (s : State) (blk : Nat) : State :=
  let drop (r : Option Run) : Option Run := r.bind fun x => if x.blk = blk then none else some x
  { s with cores := s.cores.map fun (e : Nat × Core) => (e.1, { e.2 with slot0 := drop e.2.slot0, slot1 := drop e.2.slot1 }) }

/-- The cores of a block. -/
def Block.cores (b : Block) : List Nat := (List.range b.ncore).map fun i => 192 * b.die + 4 * b.quad + b.rank0 + i

/-- An idle count starts again when a block is placed on, or leaves, its cores (12 R316). -/
def State.resetIdle (s : State) (b : Block) : State := b.cores.foldl (fun s c => s.modCore c fun x => { x with idle := 0 }) s

/-- A block is complete (02 R29): it releases its squads, references and banks; its handles are read no more. -/
def State.completeBlock (s : State) (blk : Nat) : State :=
  let b := s.block blk
  let s := (s.dropRefs blk).releaseBanks blk 65535
  let s := (s.endRuns blk).resetIdle b
  let s := { s with squads := s.squads.filter fun e => e.2.blk != blk
                    dies := s.dies.map fun (e : Nat × Die) => (e.1, { e.2 with restart := e.2.restart.filter fun x => x != blk }) }
  let s := s.modBlock blk fun b => { b with status := .complete, h := [] }
  s.modGrid b.grid fun g => { g with doneBlocks := g.doneBlocks + 1 }

/-- After exits of threads of a squad: the waits of the squad, the cloves of its core, and the completion of its block (06 R144). -/
def State.afterExit (s : State) (blk sq : Nat) : State :=
  let s := s.settleNow blk sq
  let b := s.block blk
  let core := blockCore b sq
  let onCore := (s.liveThreads blk).any fun k => blockCore b (s.thr k).sq == core
  let s := if onCore then s else s.leaveCloves core blk
  if (s.liveThreads blk).isEmpty ∧ b.status ≠ .complete then s.completeBlock blk else s

/-! ## Grids -/

/-- Blocks of a grid. -/
def Grid.total (g : Grid) : Nat := g.rc.gx * g.rc.gy * g.rc.gz

/-- Every block of a grid is complete (02 R36). -/
def Grid.complete (g : Grid) : Bool := decide (g.nextBid = g.total ∧ g.doneBlocks = g.total)

/-- A grid can retire: it is complete, no child of it remains, and every access of its threads has been performed (02 R32, R36). -/
def State.retirable (s : State) (n : Nat) (g : Grid) : Bool :=
  g.complete && (tvals s.grids).all (fun c => c.parent != some n) && s.accs.all fun a => (s.block a.blk).grid != n

/-- What is kept of a block goes. -/
def State.forgetBlock (s : State) (blk : Nat) : State :=
  let n := (s.block blk).nthreads
  { s with
    blocks := tdel s.blocks blk
    squads := s.squads.filter fun e => e.2.blk != blk
    threads := s.threads.filter fun e => !decide (threadKey blk 0 ≤ e.1 ∧ e.1 < threadKey blk n)
    bankSave := s.bankSave.filter fun e => e.1 / 16 != blk
    mem := clearBytes s.mem (scratchKey blk 0) (2 ^ 20) }

/-- What the retirement of a grid makes known: what the dies of its blocks know, and what its children made known (02 R32; 11 Table 11.3). -/
def State.gridKnows (s : State) (n : Nat) : List Nat :=
  (s.blocks.filter fun e => e.2.grid == n).foldl (fun c e => joinClocks c (s.die e.2.die).clock) (s.grid n).known

/-- A grid retires: the arrival on its DONE barrier is sent, for the launching block when there is one (02 R32, 20 R442). -/
def State.retireGrid (s : State) (n : Nat) : State :=
  let g := s.grid n
  let known := s.gridKnows n
  let mine := (s.blocks.filter fun e => e.2.grid == n).map (·.1)
  let s := match g.parent with | some p => s.modGrid p fun x => { x with known := joinClocks x.known known } | none => s
  let s := mine.foldl (fun s b => s.forgetBlock b) s
  let s := { s with grids := tdel s.grids n }
  let (blk, pc) := g.by_.getD (0, 0)
  s.sendCredit { handle := g.rc.done, bytes := 0, thr := threadKey blk ((s.block blk).leader.getD 0), blk := blk, ctx := g.ctx, pc := pc,
                 origin := 3, arrivals := 1, stamp := known }

/-! ## Placement -/

/-- Squads, cores and split of a block (02 R27). -/
def squadsOf (threads : Nat) : Nat := ceilDiv threads 32
def perCoreOf (allot : Nat) : Nat := min 16 (1024 / allot)
def coresOf (nsq per : Nat) : Nat := if nsq ≤ per then 1 else if nsq ≤ 2 * per then 2 else 4

/-- Threads of a block of a grid. -/
def LaunchRecord.threads (r : LaunchRecord) : Nat := r.bx * r.byy * r.bz

/-- Squad slots, registers and scratchpad KiB that resident squads and blocks take of a core. -/
def State.slotsUsed (s : State) (core : Nat) : Nat := ((tvals s.squads).filter fun q => q.resident && q.core == core).length
def State.regsUsed (s : State) (core : Nat) : Nat :=
  ((tvals s.squads).filter fun q => q.resident && q.core == core).foldl (fun n q => n + 32 * (s.block q.blk).allot) 0

/-- Squads that R27 assigns to block rank `k`. -/
def squadsAt (nsq m k : Nat) : Nat := min m (nsq - m * k)

/-- A core can take squads and scratchpad (12 R308). -/
def State.coreFits (s : State) (core nsq allot kib : Nat) : Bool :=
  decide (s.slotsUsed core + nsq ≤ 16 ∧ s.regsUsed core + 32 * allot * nsq ≤ 32768 ∧ s.scratchKiB core + kib ≤ 224)

/-- What a block of a record asks for. -/
structure Demand where
  nsq : Nat
  ncore : Nat
  per : Nat
  allot : Nat
  kib : Nat
deriving DecidableEq, Repr

def demandOf (r : LaunchRecord) : Demand :=
  let nsq := squadsOf r.threads
  let c := coresOf nsq (perCoreOf r.regs)
  { nsq := nsq, ncore := c, per := ceilDiv nsq c, allot := r.regs, kib := ceilDiv r.scratch 1024 }

/-- The cores of a set can take the block. -/
def State.setFits (s : State) (first : Nat) (d : Demand) : Bool :=
  (List.range d.ncore).all fun k => s.coreFits (first + k) (squadsAt d.nsq d.per k) d.allot d.kib

/-- Resident squads on a set of cores. -/
def State.setLoad (s : State) (first ncore : Nat) : Nat := (List.range ncore).foldl (fun n k => n + s.slotsUsed (first + k)) 0

/-- The first rank of the set of a quad that takes a block: the one with the fewest resident squads, the lower rank on a tie (12 R309). -/
def State.bestSet (s : State) (dq : Nat) (d : Demand) : Option Nat :=
  let fits := ((List.range 4).filter fun r => r % d.ncore == 0).filter fun r => s.setFits (4 * dq + r) d
  fits.foldl
    (fun best r =>
      match best with
      | none => some r
      | some b => if s.setLoad (4 * dq + r) d.ncore < s.setLoad (4 * dq + b) d.ncore then some r else some b) none

/-- The lowest free squad slots of a core. -/
def State.freeSlots (s : State) (core : Nat) : List Nat :=
  (List.range 16).filter fun i => (tvals s.squads).all fun q => !(q.resident && q.core == core && q.slot == i)

/-- A thread at the start of its block (02 R25; 03 R75). -/
def startThread (blk tid : Nat) (r : LaunchRecord) : Thread :=
  { blk := blk, sq := tid / 32, lane := tid % 32, tid := tid, fpmode := initialFpmode r.flags, pc := enter r.entry,
    slot := { start := enter r.entry, fpmode := initialFpmode r.flags } }

/-- The squads of a block take slots (12 R308); `keep` leaves their registers as they are. -/
def State.seatSquads (s : State) (blk : Nat) : State :=
  let b := s.block blk
  (List.range b.nsq).foldl
    (fun s j =>
      let core := blockCore b j
      let slot := (s.freeSlots core).headD 0
      let n := (s.core core).n
      match tget s.squads (squadKey blk j) with
      | some _ => s.modSquad blk j fun q => { q with core := core, slot := slot, resident := true, draining := false, qt := 4, last := n, lp := 0 }
      | none =>
        let q : Squad := { blk := blk, num := j, core := core, slot := slot, s := sset 0 [] 0 (s.grid b.grid).rc.args, last := n }
        { s with squads := tset s.squads (squadKey blk j) q }) s

/-- When the scratchpad partition of a core grows, the L1 lines in the sets it takes leave (10 R254; log 32). -/
def State.growPartition (s : State) (core before : Nat) : State :=
  if before < s.partition core then
    let taken (x : Line) : Bool := x.level == .l1 core && decide (256 - s.partition core ≤ x.set)
    (s.lines.filter taken).foldl (fun s x => s.backToHome x) (s.dropLines taken)
  else s

/-- The bookkeeping of a placement on the cores of a block. -/
def State.notePlacement (s : State) (blk : Nat) (before : List Nat) : State :=
  let b := s.block blk
  let s := s.resetIdle b
  let s := s.modBlock blk fun x => { x with status := .resident, placeNo := b.cores.map fun c => (s.core c).placements, placedAt := s.clk.toNat }
  let s := b.cores.foldl (fun s c => s.modCore c fun x => { x with placements := x.placements + 1 }) s
  (b.cores.zip before).foldl (fun s e => s.growPartition e.1 e.2) s

/-- The next block of a grid is placed on a set of cores of a quad (12 R308, R309). Its name is fresh. What the grid's LAUNCH was ordered
after is known to its die (02 R35; 11 Table 11.3). -/
def State.placeNew (s : State) (g dq rank : Nat) : State :=
  let gr := s.grid g
  let d := demandOf gr.rc
  let blk := s.nextId
  let before := (List.range d.ncore).map fun i => s.partition (4 * dq + rank + i)
  let b : Block :=
    { grid := g, ctx := gr.ctx, bid := gr.nextBid, die := dq / 48, quad := dq % 48, rank0 := rank, ncore := d.ncore,
      nthreads := gr.rc.threads, nsq := d.nsq, perCore := d.per, allot := d.allot, scratch := roundUp gr.rc.scratch 1024, prio := gr.prio }
  let s := { s.name with blocks := tset s.blocks blk b }.learn (dq / 48) gr.since
  let s := s.modGrid g fun x => { x with nextBid := x.nextBid + 1 }
  let s := (List.range gr.rc.threads).foldl (fun s t => s.setThr (threadKey blk t) (startThread blk t gr.rc)) s
  (s.seatSquads blk).notePlacement blk before

/-! ## Discard (02 R45 to R48) -/

/-- A run holds a thread. -/
def State.inRun (s : State) (t : Thread) : Bool :=
  let c := s.core (s.thrCore t)
  let has (r : Option Run) := match r with | some r => r.blk == t.blk && r.sq == t.sq && r.lanes.getLsbD t.lane | none => false
  has c.slot0 || has c.slot1

/-- A thread stands at an eligible point (02 R46; 12 R318; 18 R406). One that stalls on a full stream waits, and stands at one at once, its
run not ended (12 R311, R318). -/
def State.eligible (s : State) (k : Nat) : Bool :=
  let t := s.thr k
  !t.live || (t.owed == .nothing && !s.inRegion k && (!s.inRun t || s.streamFull k))

/-- Every live thread of a squad stands at an eligible point. -/
def State.squadEligible (s : State) (blk sq : Nat) : Bool := (squadThreads (s.block blk) blk sq).all s.eligible

/-- A squad's accesses at its discard: loads, logged accesses and waits go, and nothing writes a register any more (02 R46, R49). -/
def State.dropForDiscard (s : State) (ks : List Nat) : State :=
  { s with accs := s.accs.filterMap fun a =>
      if !ks.contains a.thr then some a
      else
        match a.kind, a.stage with
        | .load, _ => none
        | .sync (.wait _), _ => none
        | _, .logged _ => none
        | _, .cancelled => none
        | _, _ => some { a with dests := [], counted := false } }

/-- What restart leaves of a live thread (02 R48). -/
def Thread.restart (t : Thread) : Thread :=
  { t.restore t.slot with beads := [], broken := 0, wait := .ready, owed := .nothing, trap := none, commit := none, parked := false, stepOver := none }

/-- The live threads of a squad restart at their region starts. -/
def State.restartThreads (s : State) (ks : List Nat) : State :=
  ks.foldl (fun s k => s.modThr k fun t => if t.live then t.restart else t) s

/-- A copy into the scratchpad of a block is still to be delivered (10 R276). -/
def State.copiesLeft (s : State) (blk : Nat) : Bool :=
  s.accs.any fun a => a.blk == blk && a.stage != .crediting && match a.kind with
    | .engine (.copy .ld _ _ _ _ _ _) | .engine (.copy .sp _ _ _ _ _ _) | .engine (.gather _ _ _ _) => true
    | _ => false

/-- A store or an atomic of these threads has issued and has not been performed (02 R48). -/
def State.storesLeft (s : State) (ks : List Nat) : Bool := s.accs.any fun a => ks.contains a.thr && a.kind.writes && a.stage != .cancelled

/-- The discard of a block ends once its last squad has left its slot and every copy into its scratchpad has been delivered, so that the
scratchpad is saved (02 R47; 10 R276); the block enters the restart list. No block is discarded from a frozen quad (17 R380). -/
def State.finishDiscard (s : State) (blk : Nat) : State :=
  let b := s.block blk
  match b.status with
  | .discarding c _ =>
    if ((List.range b.nsq).any fun j => (s.squad blk j).resident) || s.copiesLeft blk || (s.quad b.dquad).frozen then s
    else
      let s := (List.range b.nsq).foldl (fun s j => s.modSquad blk j fun q => { q with draining := false }) s
      let s := (s.modBlock blk fun b => { b with status := .discarded c, bySwap := false }).resetIdle b
      s.modDie b.die fun d => { d with restart := d.restart ++ [blk] }
  | _ => s

/-- The runs of a squad end: those that stall on a full stream (12 R318). -/
def State.endSquadRuns (s : State) (blk sq : Nat) : State :=
  let drop (r : Option Run) : Option Run := r.bind fun x => if x.blk = blk ∧ x.sq = sq then none else some x
  { s with cores := s.cores.map fun (e : Nat × Core) => (e.1, { e.2 with slot0 := drop e.2.slot0, slot1 := drop e.2.slot1 }) }

/-- A squad leaves its slot (02 R46); a squad that is replayed restarts there, once its stores have been performed (02 R48). -/
def State.discardSquad (s : State) (blk sq : Nat) : State :=
  let ks := squadThreads (s.block blk) blk sq
  let s := ((s.endSquadRuns blk sq).dropForDiscard ks).restartThreads ks
  let q := s.squad blk sq
  if q.replay then
    s.modSquad blk sq fun x => { x with replay := false, draining := true, qt := 4, last := (s.core q.core).n, lp := 0 }
  else (s.modSquad blk sq fun x => { x with resident := false }).finishDiscard blk

/-- No swap makes room by this block any more (12 R316, Table 12.2). -/
def State.endSwap (s : State) (blk : Nat) : State :=
  { s with cores := s.cores.map fun (e : Nat × Core) =>
      (e.1, if (e.2.swapping.map (·.1)) = some blk then { e.2 with swapping := none } else e.2) }

/-- A discard of a block is requested: a block that is being discarded keeps its first cause, but for Hold and a stop (12 Table 12.2). -/
def State.requestDiscard (s : State) (blk : Nat) (c : DiscardCause) : State :=
  let s := if c = .swap then s else s.endSwap blk
  s.modBlock blk fun b =>
    match b.status with
    | .resident => { b with status := .discarding c 0 }
    | .discarding .swap n => { b with status := .discarding c n }
    | _ => b

/-- A discarded block comes back to its own cores (02 R48; 12 R309). -/
def State.replaceBlock (s : State) (blk : Nat) : State :=
  let b := s.block blk
  let before := b.cores.map s.partition
  let s := s.modDie b.die fun d => { d with restart := d.restart.filter fun x => x != blk }
  let s := s.modBlock blk fun b => { b with status := .resident }
  (s.seatSquads blk).notePlacement blk before

/-- A block of the restart list can be placed on its own quad and ranks, and every store that it issued has been performed (02 R48). -/
def State.restartFits (s : State) (blk : Nat) : Bool :=
  let b := s.block blk
  !s.storesLeft ((List.range b.nthreads).map (threadKey blk)) && s.setFits (192 * b.die + 4 * b.quad + b.rank0)
    { nsq := b.nsq, ncore := b.ncore, per := b.perCore, allot := b.allot, kib := b.scratch / 1024 }

/-! ## Queues (12 R303, R304) -/

/-- The grids of a context with blocks not yet placed, by priority from 3 down, and within one by acceptance. -/
def State.queued (s : State) (ctx : Nat) : List (Nat × Grid) :=
  [3, 2, 1, 0].flatMap fun p => s.grids.filter fun e => e.2.ctx == ctx && e.2.prio == p && decide (e.2.nextBid < e.2.total)

/-- The block that R309 takes next on a die, with its priority. -/
def State.nextBlock (s : State) (die : Nat) : Option (NextBlock × Nat) :=
  match (s.die die).active with
  | none => none
  | some ctx =>
    let rs := (s.die die).restart.filter fun b => (s.block b).ctx == ctx
    let gs := s.queued ctx
    let p := max (rs.foldl (fun p b => max p (s.block b).prio) 0) ((gs.head?.map fun e => e.2.prio).getD 0)
    match rs.find? fun b => p ≤ (s.block b).prio with
    | some b => some (.restart b, (s.block b).prio)
    | none => gs.head?.map fun e => (.fresh e.1 e.2.nextBid, e.2.prio)

end Sys2Proof.Machine
end

