-- ==== Sys2Proof/Machine/Fetch.lean ====
section
/-! DEFINITION. How an issue slot comes to its next instruction (02 R38, R39; 05 R102 to R106; 17 R377; 19 R418, R419, R428). -/

namespace Sys2Proof.Machine

/-- A thread waits for nothing: it is ready, or its operand log has an entry again (13 R338), and its squad does not wait for earlier stores
(02 R48). -/
def State.awake (s : State) (t : Thread) : Bool :=
  (t.wait == .ready || (t.wait == .log && decide (s.logUsed (s.thrCore t) < 64))) && !(s.thrSquad t).draining

/-- A thread of a run may issue: it is live, does not wait, and is not stopped by a halt or by a freeze, but for a step and for a REGION it
owes as the freeze begins (17 R379, R384; 18 R411). -/
def State.mayIssue (s : State) (k : Nat) : Bool :=
  let t := s.thr k
  t.live && !t.stopped && s.awake t && (s.dbg.stepping || (t.owed.owes && s.skidding (s.thrCore t / 4)) || !(s.quad (s.thrCore t / 4)).stands)

/-- An issue slot is freed: its run ends; the last bundle of the run may end its squad's quantum (12 R314). -/
def State.freeSlot (s : State) (core slot : Nat) : State :=
  let s' := s.modCore core fun c => c.setSlot slot none
  match (s.core core).slot slot with
  | some r => if r.yld then s'.endQuantum r.blk r.sq else s'
  | none => s'

/-- A mask of lanes. -/
def lanesMask (sq : Nat) (blk : Nat) (ks : List Nat) : BitVec 32 :=
  (List.range 32).foldl (fun m i => if ks.contains (threadKey blk (32 * sq + i)) then m ||| (1#32 <<< i) else m) 0#32

/-- What decoding finds, as a step of the machine. -/
def decodedStep (r : Except DecodeError (Instr × Nat)) : Instr × Nat :=
  match r with
  | .ok (i, n) => (i, n)
  | .error (.illegalOpcode o p past) => (.illegalOpcode o p past, 1)
  | .error (.reservedField v) => (.reservedField v.word v.bit, 1)
  | .error .noWord => (.illegalOpcode 0 2 true, 1)

/-- A thread has read the bundle at a VA. -/
def Thread.hasBundle (t : Thread) (va : Word) : Bool := match t.entered with | some e => e.1 == va | none => false

/-- The words of a bundle as an issue group finds them from its PC: the state with the latch, and the instruction. An instruction that is
no instruction comes first; then a violation of the bundle control word, in the threads that have not passed it; then the other faults of
the encoding; then the REGION that a handler begins with (05 R117; 19 R420). -/
def State.decodeGroup (s : State) (core slot : Nat) (r : Run) (ks : List Nat) (pc : Word) (ws : List Nat) : State × Option Instr :=
  let w := pc.toNat / 4 % 16
  let fresh := ks.filter fun k => (s.thr k).entered != some (bundleOf pc, ws)
  let base : Latch := { core := core, slot := slot, blk := r.blk, sq := r.sq, lanes := lanesMask r.sq r.blk ks, pc := pc, len := 1,
                        eor := false, yld := bit (ws.headD 0) 15 }
  let raw := decodeWords (ws.drop w)
  let (i, len) := decodedStep raw
  match (match i with | .illegalOpcode _ _ _ => none | _ => bcwViolation ws w), fresh with
  | some b, _ :: _ => ({ s with latch := some { base with lanes := lanesMask r.sq r.blk fresh } }, some (.reservedField 3 b))
  | _, _ =>
    let s := ks.foldl (fun s k => s.modThr k fun t => { t with entered := some (bundleOf pc, ws), wait := .ready }) s
    let isRegion := isRegionWord ((ws.drop w).headD 0)
    let late := if isRegion || raw.toOption.isNone then [] else ks.filter fun k => (s.thr k).owed == .atHandler
    let s := late.foldl (fun s k => s.takeFault k (regionOrder pc 2) pc false) s
    let ks := ks.filter fun k => !late.contains k
    if ks.isEmpty then (s.freeSlot core slot, none)
    else
      ({ s with latch := some { base with lanes := lanesMask r.sq r.blk ks, len := len, code := (ws.drop w).take len, eor := bit (ws.headD 0) (w + len - 2),
                                          follow := ws[w + len]? } }, some i)

/-- The fetch of a group that stands at a PC. A bundle is read once, as its first thread comes to it; threads that have read it go on with
the words they read, and threads with other words are no part of the group (05 R106). -/
def State.fetchGroup (s : State) (core slot : Nat) (r : Run) (ks : List Nat) (pc : Word) : State × Option Instr :=
  let ctx := (s.block r.blk).ctx
  let bundle := bundleOf pc
  let with_ (ws : List Nat) := ks.filter fun k => !(s.thr k).hasBundle bundle || (s.thr k).entered == some (bundle, ws)
  match (s.thr (ks.headD 0)).entered.filter fun e => e.1 == bundle with
  | some (_, ws) => s.decodeGroup core slot r ((with_ ws).filter fun k => (s.thr k).hasBundle bundle) pc ws
  | none =>
    let need := ks.filter fun k => !(s.thr k).hasBundle bundle
    let s := s.noteWalk ctx bundle.toNat core false
    match s.fetchBundle ctx bundle.toNat (coreDie core) with
    | .words ws => s.decodeGroup core slot r (with_ ws) pc ws
    | .hold lv => ((need.foldl (fun s k => s.holdFetch k ctx bundle.toNat lv) s).freeSlot core slot, none)
    | .fault f => ((need.foldl (fun s k => s.takeFault k f pc false) s).freeSlot core slot, none)
    | .invalid d => ((need.foldl (fun s k => s.tableInvalid k ctx bundle.toNat d) s).freeSlot core slot, none)

/-- The threads of a run that stand with its lowest lane. -/
def State.runGroup (s : State) (r : Run) : List Nat :=
  let ks := ((List.range 32).filter fun i => r.lanes.getLsbD i).map fun i => threadKey r.blk (32 * r.sq + i)
  let ks := ks.filter s.mayIssue
  match ks with
  | [] => []
  | k :: _ => ks.filter fun x => (s.thr x).pc == (s.thr k).pc

/-- A group that stands at an instruction is tried: the lanes whose operands are ready; none when its fetch gives no instruction. `run` executes
the instruction under a latch that only asks. -/
def State.tryGroup (run : Instr → State → State) (s : State) (core : Nat) (g : Nat × Nat × BitVec 32) : Option (BitVec 32) :=
  let r : Run := { blk := g.1, sq := g.2.1, lanes := g.2.2 }
  let s' := s.modCore core fun c => c.setSlot 0 (some r)
  match s'.runGroup r with
  | [] => some 0
  | k :: ks =>
    match s'.fetchGroup core 0 r (k :: ks) (s'.thr k).pc with
    | (t, some i) => ((run i { t with latch := t.latch.map fun l => { l with trial := true } }).latch.map fun l => l.ready).or (some g.2.2)
    | (_, none) => none

/-- The ready lanes of a group. One whose fetch does not give an instruction is ready, so that it meets what its fetch finds. -/
def State.readyLanes (run : Instr → State → State) (s : State) (core : Nat) (g : Nat × Nat × BitVec 32) : BitVec 32 :=
  (s.tryGroup run core g).getD g.2.2

/-- The comparators at which a group stops: those at its PC, unless every thread of it may pass, and once the instruction could issue (17 R377,
R383). -/
def State.comparatorStops (run : Instr → State → State) (s : State) (core : Nat) (r : Run) (ks : List Nat) (pc : Word) : List Nat :=
  let hits := if (s.block r.blk).ctx = s.session ∧ !s.dbg.stepping then s.compHits (core / 4) pc else []
  if hits.isEmpty || (ks.all fun k => (s.thr k).stepOver == some pc) then []
  else match s.tryGroup run core (r.blk, r.sq, r.lanes) with
    | some m => if m = 0 then [] else hits
    | none => []

/-- An issue slot comes to its next instruction: the state with the latch set, and the instruction; none when the group does not issue. -/
def State.fetchRun (run : Instr → State → State) (s : State) (core slot : Nat) : State × Option Instr :=
  match (s.core core).slot slot with
  | none => (s, none)
  | some r =>
    match s.runGroup r with
    | [] => (s.freeSlot core slot, none)
    | k :: ks =>
      let pc := (s.thr k).pc
      let r := { r with lanes := lanesMask r.sq r.blk (k :: ks) }
      let s := s.modCore core fun c => c.setSlot slot (some r)
      match s.comparatorStops run core r (k :: ks) pc with
      | h :: hs => (((h :: hs).foldl (fun s h => s.stopThread k 2 h pc 0 0) s).freeSlot core slot, none)
      | [] => s.fetchGroup core slot r (k :: ks) pc

end Sys2Proof.Machine
end

