-- ==== Sys2Proof/Machine/Issue.lean ====
section
/-! DEFINITION. How an instruction issues an access: the checks of its pointer, its translation, the operand log, and the access itself (08
R199, R201; 13 R333, R338; 18 R401; 20 R433 to R439). -/

namespace Sys2Proof.Machine

/-- What an instruction says of the access it makes: stream, predecessors, bytes, and what it does with them. -/
structure Ask where
  strm : Nat
  pred : Nat
  size : Nat := 0
  need : Need := .read
  /-- Kind in INFO and in a DEMAND event: 1 read, 2 write, 3 read-write. -/
  kind : Nat := 1
deriving DecidableEq, Repr

/-- The SIZE code of a number of bytes (Table 5.8); 7 for the 128 bytes of a tensor record, to which the table gives none (log 17). -/
def sizeCode (n : Nat) : Nat := match n with | 1 => 0 | 2 => 1 | 4 => 2 | 8 => 3 | 16 => 4 | 32 => 5 | 64 => 6 | 128 => 7 | _ => 0

/-- A fault of an instruction that makes an access carries its stream, predecessors, size and kind (Table 18.5, INFO). -/
def LaneOut.named (q : Ask) (o : LaneOut) : LaneOut :=
  match o with
  | .fault f => .fault { f with strm := q.strm, pred := q.pred, size := sizeCode q.size % 7, kind := q.kind }
  | o => o

/-- A committing instruction that makes an access: every fault of it names the access (18 R403). -/
def committingAs (q : Ask) (g : BitVec 3) (n : Bool) (os : Lane → List Operand) (body : Lane → LaneOut) (l : Lane) : LaneOut :=
  (committing g n os body l).named q

/-- Where the bytes of an access are. -/
inductive Where where
  /-- At a key of memory; the VA when they are in global memory. -/
  | here (key : Nat) (va : Option Nat)
  /-- On a page that is not resident, found at a level. -/
  | absent (va level : Nat)
  | remote (pkg off : Nat)
deriving DecidableEq, Repr

/-- A lane whose access goes into the operand log; when the log is full the page is reported all the same, and the thread waits
(13 R337, R338). -/
def Lane.needsLog (l : Lane) (va kind level : Nat) (go : LaneOut) : LaneOut :=
  match go with
  | .done f pc => .logs f (fun s => (s.demand l.block.ctx va kind level false).1.modThr l.k fun t => { t with wait := .log }) pc
  | o => o

/-- A lane finds where the bytes at a pointer are: the checks of the pointer, then the translation (18 R401). -/
def Lane.place (l : Lane) (acc : Accept) (q : Ask) (p : Word) (go : Where → LaneOut) : LaneOut :=
  match pointer l.block l.rank acc p q.size (sizeCode q.size) with
  | .error f => .fault f
  | .ok (.scratch r off) => go (.here (scratchKey l.t.blk r + off) none)
  | .ok (.remote pkg off) => go (.remote pkg off)
  | .ok (.global va) =>
    let ctx := l.block.ctx
    match l.s.translate ctx va (coreDie (l.s.thrCore l.t)) q.need with
    | .ok pa _ _ => go (.here pa (some va))
    | .notResident lv => l.needsLog va q.kind lv (go (.absent va lv))
    | .prot c d => .fault { code := c, addr := p, detail := d }
    | .invalid lv r => .wait fun s => s.tableInvalid l.k ctx va (lv + 4 * r)

/-- The access that a lane makes, before its kind is known. -/
def Lane.access (l : Lane) (q : Ask) (ea : Word) (k : AccessKind) : Access :=
  { id := 0, thr := l.k, blk := l.t.blk, ctx := l.block.ctx, core := l.s.thrCore l.t, pc := l.latch.pc, code := l.latch.code, execId := l.s.nextId,
    strm := q.strm, pred := q.pred, kind := k, ea := ea, size := q.size }

/-- An access issues to where its bytes are: it joins the list, in the operand log when its page is not resident (13 R337, R338), and
watchpoints see it (17 R378). -/
def State.issueTo (s : State) (a : Access) (q : Ask) (w : Where) : State :=
  match w with
  | .here key va =>
    let s := s.issueAcc { a with key := some key }
    match va with
    | some v => (s.watchIssue a.thr a.ctx v a.size (q.kind != 2) (q.kind != 1) a.pc).noteWalk a.ctx v a.core false
    | none => s
  | .remote _ _ => s.issueAcc a
  | .absent va lv =>
    let d := s.demand a.ctx va q.kind lv false
    let s := d.1.issueAcc { a with stage := .logged d.2, wasLogged := true }
    (s.watchIssue a.thr a.ctx va a.size (q.kind != 2) (q.kind != 1) a.pc).noteWalk a.ctx va a.core false

/-- The thread's committing instruction has issued its access, and owes REGION. -/
def State.commitTo (s : State) (k : Nat) (id : Nat) : State := s.modThr k fun t => { t with owed := .afterCommit, commit := some id }

/-- Operands of an async-class instruction: thread registers. -/
def vOperand (field : Nat) (f : BitVec 9) (count : Nat := 1) (rd : Bool := true) (wr : Bool := false) : Operand :=
  { field := field, name := .v f.toNat, count := count, rd := rd, wr := wr }
/-- Operands in fixed squad form (05 R114). -/
def sOperand (field : Nat) (f : BitVec 9) (count : Nat := 1) (rd : Bool := true) (wr : Bool := false) : Operand :=
  { field := field, name := fieldName true false f 0, count := count, rd := rd, wr := wr }

/-- A register read in thread form, and in fixed squad form. -/
def Lane.v (l : Lane) (f : BitVec 9) : Word := l.t.readV f.toNat
def Lane.sq (l : Lane) (f : BitVec 9) : Word := l.s.readReg l.t (fieldName true false f 0)

end Sys2Proof.Machine
end

