-- ==== Sys2Proof/Machine/Flow.lean ====
section
/-! DEFINITION. The control-flow and system instructions of 06: NOP, branches, calls, rejoin masks, EXIT, REGION, YIELD, SLEEP, LAUNCH, TRAP,
TRET, BRK and the special registers. ELECT stands with the lane instructions. -/

namespace Sys2Proof.Machine

/-! ## Branches -/

/-- The bundle that a direct branch names (06 R133). -/
def branchTarget (pc : Word) (ofs : BitVec 21) : Word := bundleOf pc + ofs.signExtend 64 * 64

/-- NOP (06 R132). -/
def execNop (s : State) : Host.Outcome State Fault Refusal := .next (s.execGroup fun l => .done id l.next)

/-- BRA (06 R133). -/
def execBra (w : B32Word) (s : State) : Host.Outcome State Fault Refusal :=
  .next (s.execGroup (guarded w.g w.n fun l => .done id (enter (branchTarget l.latch.pc w.ofs))))

/-- BRP (06 R133). -/
def execBrp (w : B32Word) (s : State) : Host.Outcome State Fault Refusal :=
  .next (s.execGroup (guarded w.g w.n fun l =>
    let x := l.t.readX 3 - 1
    .done (fun s => s.modThr l.k fun t => t.writeX 3 x) (if x = 0 then l.next else enter (branchTarget l.latch.pc w.ofs))))

/-- The bundle after a call, where its return lands (06 R137). -/
def afterCall (pc : Word) : Word := bundleOf pc + 64

/-- The link push of R137. -/
def Thread.pushLink (t : Thread) (pc : Word) : Thread :=
  { t with link := sset 0 t.link t.cdepth (afterCall pc), cdepth := t.cdepth + 1 }

/-- A guard under which a false lane goes to the bundle after a call (06 R137). -/
def callGuarded (g : BitVec 3) (n : Bool) (body : Lane → LaneOut) (l : Lane) : LaneOut :=
  if l.s.pendingPred l.k g.toNat then .notReady
  else if l.t.guard g n then body l
  else .done id (enter (afterCall l.latch.pc))

/-- A call of an issue group, whose fall-through path goes on in the next bundle (02 R38; 06 R137). -/
def State.callGroup (s : State) (body : Lane → LaneOut) : State := s.execFall (fun l => enter (afterCall l.pc)) body fun _ s => s

/-- A call to a bundle (06 R137; 19 R425). -/
def Lane.callTo (l : Lane) (t : Word) : LaneOut :=
  if 16 ≤ l.t.cdepth then .fault { code := 0x0205, addr := t }
  else .done (fun s => s.modThr l.k fun x => x.pushLink l.latch.pc) (enter t)

/-- CALL (06 R137). -/
def execCall (w : B32Word) (s : State) : Host.Outcome State Fault Refusal :=
  .next (s.callGroup (callGuarded w.g w.n fun l => l.callTo (branchTarget l.latch.pc w.ofs)))

/-- The target register of BRX and CALLX. -/
def targetOperand (w : AluWord) : Operand := { field := 1, name := fieldName w.sq false w.a 0 }

/-- The checks of an indirect target (06 R135; 19 R424), then `go`. -/
def Lane.checkTarget (l : Lane) (w : AluWord) (t : Word) (go : LaneOut) : LaneOut :=
  match pointer l.block l.rank .globalOnly t 0 0 with
  | .error f => .fault f
  | .ok _ =>
    if t.toNat % 64 ≠ 0 then .fault { code := 0x0103, addr := t }
    else if bit w.b.toNat 8 then
      let tag := w.b.toNat % 256
      l.fetchCheck t.toNat fun ws =>
        match padTag ws with
        | some x => if x = tag then go else .fault { code := 0x0201, addr := t, detail := tag + 256 }
        | none => .fault { code := 0x0201, addr := t, detail := tag }
    else go

/-- BRX (06 R135). -/
def execBrx (w : AluWord) (s : State) : Host.Outcome State Fault Refusal :=
  .next (s.execGroup (guarded w.g w.n fun l =>
    let t := l.s.readReg l.t (targetOperand w).name
    l.checked [targetOperand w] (l.checkTarget w t (.done id (enter t)))))

/-- CALLX (06 R135, R137). -/
def execCallx (w : AluWord) (s : State) : Host.Outcome State Fault Refusal :=
  .next (s.callGroup (callGuarded w.g w.n fun l =>
    let t := l.s.readReg l.t (targetOperand w).name
    l.checked [targetOperand w] (l.checkTarget w t (l.callTo t))))

/-- RET in a lane whose guard holds, its target being in order (06 R138). -/
def Lane.ret (l : Lane) : LaneOut :=
  .done (fun s => s.modThr l.k fun x => { x with cdepth := x.cdepth - 1, owed := .afterRet })
    (enter (l.t.readLink (l.t.cdepth - 1)))

/-- One lane of RET (06 R138; 19 R425, R427). REGION_ORDER is raised whatever the guard (19 R418); a thread without a link has no target to
check, and returns nowhere under a false guard. -/
def retLane (g : BitVec 3) (n : Bool) (l : Lane) : LaneOut :=
  if l.s.pendingPred l.k g.toNat then .notReady
  else
    let on := l.t.guard g n
    if l.t.cdepth = 0 then (if on then .fault { code := 0x0202 } else .done id l.next)
    else
      let t := l.t.readLink (l.t.cdepth - 1)
      let o := l.fetchCheck t.toNat fun ws => if isRegionWord (ws.getD 1 0) then l.ret else .fault (regionOrder (enter t) 1)
      if on then o else o.unlessOrder l.next

/-- RET (06 R138). -/
def execRet (w : AluWord) (s : State) : Host.Outcome State Fault Refusal := .next (s.execGroup (retLane w.g w.n))

/-- PAD (06 R136): no effect beyond the PC, whatever its guard. -/
def execPad (w : AluWord) (s : State) : Host.Outcome State Fault Refusal :=
  .next (s.execGroup (guarded w.g w.n fun l => .done id l.next))

/-! ## Rejoin masks -/

/-- A J register of a lane's squad changed. -/
def Lane.modJ (l : Lane) (m : Nat) (f : BitVec 32 → BitVec 32) (s : State) : State :=
  s.modSquad l.t.blk l.t.sq fun q => q.writeJ m (f (q.readJ m))

/-- One lane of JSET (06 R140): FORM = 0 records the thread, FORM = 1 assigns the named live lanes. -/
def jsetLane (w : AluWord) (l : Lane) : LaneOut :=
  let m := w.d.toNat % 8
  if bit w.b.toNat 0 then
    let x : BitVec 32 := (l.sq w.a).truncate 32 &&& BitVec.ofNat 32 (l.s.liveMask l.t.blk l.t.sq)
    l.checked [sOperand 1 w.a] (.done (l.modJ m fun _ => x) l.next)
  else .done (l.modJ m fun j => j ||| (1#32 <<< l.t.lane)) l.next

/-- JSET (06 R140). -/
def execJset (w : AluWord) (s : State) : Host.Outcome State Fault Refusal :=
  .next (s.execThen (guarded w.g w.n (jsetLane w)) fun l s => s.settleNow l.blk l.sq)

/-- Lanes leave the run that issued. -/
def State.leaveRun (s : State) (l : Latch) (lanes : List Nat) : State :=
  match (s.core l.core).slot l.slot with
  | some r =>
    let m := lanes.foldl (fun m i => m &&& ~~~(1#32 <<< i)) r.lanes
    if m = r.lanes then s
    else if m = 0 then s.freeSlot l.core l.slot
    else s.modCore l.core fun c => c.setSlot l.slot (some { r with lanes := m })
  | none => s

/-- Threads whose arrival at a JWAIT releases threads of other groups leave their run: all that were released stand at one PC, and are
packed into one group (02 R39; 06 R141). `s0` is the state before. -/
def State.rejoined (s s0 : State) (w : AluWord) : State :=
  let m := w.d.toNat % 8
  match s0.latch with
  | some l =>
    if l.trial then s
    else
      let mine := l.lanesOf.filter fun i => (s0.thr (threadKey l.blk (32 * l.sq + i))).guard w.g w.n
      if (squadThreads (s0.block l.blk) l.blk l.sq).any fun k => (s0.thr k).inJwait m && !(s.thr k).inJwait m then s.leaveRun l mine else s
  | none => s

/-- JWAIT (06 R140, R141). -/
def execJwait (w : AluWord) (s : State) : Host.Outcome State Fault Refusal :=
  .next ((s.execThen (guarded w.g w.n fun l => .wait fun s => s.modThr l.k fun t => { t with wait := .jwait (w.d.toNat % 8) })
    fun l s => s.settleNow l.blk l.sq).rejoined s w)

/-- JDROP (06 R140). -/
def execJdrop (w : AluWord) (s : State) : Host.Outcome State Fault Refusal :=
  .next (s.execThen (guarded w.g w.n fun l => .done (l.modJ (w.d.toNat % 8) fun j => j &&& ~~~(1#32 <<< l.t.lane)) l.next)
    fun l s => s.settleNow l.blk l.sq)

/-! ## Ending, regions, yielding -/

/-- EXIT (06 R143, R144). -/
def execExit (w : AluWord) (s : State) : Host.Outcome State Fault Refusal :=
  .next (s.execThen (guarded w.g w.n fun l => .wait fun s => s.exitThread l.k) fun l s => s.afterExit l.blk l.sq)

/-- What REGION does: the slot is written and the thread goes on; a TRAP before it, of this VALUE and PC, then enters the handler (02 R41; 06
R145, R153). -/
def State.region (s : State) (k base mask : Nat) (next : Word) (trap : Option (Nat × Word)) : State :=
  let s := s.modThr k fun t =>
    { t with slot := t.checkpoint base mask next, owed := .nothing, commit := none, trap := none, pc := next, stepOver := none }
  match trap with
  | some (v, pc) => s.takeFault k { code := 0x0001, addr := BitVec.ofNat 64 v, value := v } pc false
  | none => s

/-- One lane of REGION (06 R145). -/
def regionLane (w : AluWord) (l : Lane) : LaneOut :=
  match firstBounds [{ field := 1, name := .v w.a.toNat, count := 16 }] l.block.allot with
  | some f => .fault f
  | none =>
    if l.s.regionWaits l.k w.a.toNat (splitField w) then .notReady
    else .wait fun s => s.region l.k w.a.toNat (splitField w) l.next l.t.trap

/-- Threads whose REGION waits have begun it (12 R318). `s0` is the state before. -/
def State.beginRegions (s s0 : State) (w : AluWord) : State :=
  match s0.latch with
  | some l =>
    if l.trial then s
    else
      ((s0.outcomes l (guarded w.g w.n (regionLane w))).filter fun o => !o.2.2.proceeds && (s.thr o.2.1).owed == .nothing).foldl
        (fun s o => s.owe o.2.1 .begun) s
  | none => s

/-- REGION (06 R145). -/
def execRegion (w : AluWord) (s : State) : Host.Outcome State Fault Refusal :=
  .next ((s.execGroup (guarded w.g w.n (regionLane w))).beginRegions s w)

/-- The lanes of a group that execute an instruction under this guard, true or false (02 R39); those in which it holds. -/
def State.lanesReady (s : State) (l : Latch) (g : BitVec 3) : List Nat :=
  l.lanesOf.filter fun i => !s.pendingPred (threadKey l.blk (32 * l.sq + i)) g.toNat
def State.lanesOn (s : State) (l : Latch) (g : BitVec 3) (n : Bool) : List Nat :=
  (s.lanesReady l g).filter fun i => (s.thr (threadKey l.blk (32 * l.sq + i))).guard g n

/-- YIELD (06 R148; 12 R314): it parks the threads of the run when it ends it. -/
def execYield (w : AluWord) (s : State) : Host.Outcome State Fault Refusal :=
  .next (s.execThen (guarded w.g w.n fun l => .done id l.next) fun l s' =>
    if l.eor && !(s.lanesOn l w.g w.n).isEmpty then
      ((s.lanesReady l w.g).foldl (fun s i => s.modThr (threadKey l.blk (32 * l.sq + i)) fun t => { t with parked := true }) s').endQuantum
        l.blk l.sq
    else s')

/-- The cycles of a SLEEP, from the literal or bits [31:0] of the register (06 R149). -/
def sleepCount (w : AluWord) (s : State) (t : Thread) : Nat :=
  match w.lit with
  | some x => x.toNat
  | none => (s.readReg t (fieldName w.sq false w.b 0)).toNat % 2 ^ 32

/-- One lane of SLEEP (06 R149). -/
def sleepLane (w : AluWord) (l : Lane) : LaneOut :=
  l.checked (if w.lit.isSome then [] else [{ field := 2, name := fieldName w.sq false w.b 0 }])
    (if sleepCount w l.s l.t = 0 then .done id l.next
     else .wait fun s => s.modThr l.k fun t => { t with wait := .sleep (sleepCount w l.s l.t) l.next })

/-- SLEEP (06 R149). -/
def execSleep (w : AluWord) (s : State) : Host.Outcome State Fault Refusal := .next (s.execGroup (guarded w.g w.n (sleepLane w)))

/-! ## Traps and breakpoints -/

/-- TRAP (06 R153): the handler is entered after the REGION that follows. -/
def execTrap (w : AluWord) (s : State) : Host.Outcome State Fault Refusal :=
  .next (s.execGroup (committing w.g w.n (fun _ => []) fun l =>
    .done (fun s => s.modThr l.k fun t => { t with trap := some (splitField w, l.latch.pc), owed := .afterCommit }) l.next))

/-- The return from a handler (06 R154): pending writes of older accesses go, and a fault that waited is delivered. -/
def State.returnFrom (s : State) (k : Nat) : State :=
  let drop (a : Access) : Access := if a.thr = k then { a with dests := [] } else a
  let s := { s with accs := (s.accs.filter fun (a : Access) => !a.dead k).map drop }
  let s := s.modThr k Thread.tret
  if (s.thr k).held.isSome then s.plan [.asyncFaultDelivery k] else s

/-- A thread whose TRET has closed its frame while it holds a fault leaves the run: it takes the fault before it issues anything (18
R410). `s0` is the state before the TRET. -/
def State.partReturned (s s0 : State) : State :=
  match s.latch with
  | some l =>
    let part (i : Nat) : Bool :=
      let k := threadKey l.blk (32 * l.sq + i)
      (s0.thr k).frame.isOpen && !(s.thr k).frame.isOpen && (s.thr k).held.isSome
    s.leaveRun l (l.lanesOf.filter part)
  | none => s

/-- One lane of TRET (06 R154; 18 R408). -/
def tretLane (l : Lane) : LaneOut :=
  if !l.t.frame.isOpen then .fault { code := 0x0002 }
  else if l.s.accs.any fun a => a.thr == l.k && a.kind == .load && a.stage != .cancelled then .notReady
  else .wait fun s => s.returnFrom l.k

/-- TRET (06 R154; 18 R408). -/
def execTret (w : AluWord) (s : State) : Host.Outcome State Fault Refusal :=
  .next ((s.execGroup (guarded w.g w.n tretLane)).partReturned s)

/-- BRK (06 R155; 17 R377): the lowest lane of the group in which it executes is named. A stepped one always stops (17 R384). -/
def execBrk (w : AluWord) (s : State) : Host.Outcome State Fault Refusal :=
  .next (s.execThen (guarded w.g w.n fun l => .done id l.next) fun l s' =>
    match s.lanesOn l w.g w.n with
    | i :: _ =>
      if (bit s'.dbg.dctl.toNat 6 || s'.dbg.stepping) && (s'.block l.blk).ctx == s'.session && s'.session != 0 then
        let s' := s'.stopThread (threadKey l.blk (32 * l.sq + i)) 1 0 l.pc (BitVec.ofNat 64 (splitField w)) 0
        { s' with dbg := { s'.dbg with stepBrk := s'.dbg.stepping } }
      else s'
    | [] => s')

/-! ## Special registers -/

/-- The value of a special register (Table 3.3, Tables 3.5 and 3.6). -/
def State.special (s : State) (t : Thread) (n : Nat) : Word :=
  let b := s.thrBlock t
  let g := s.thrGrid t
  let c := s.thrCtx t
  match n with
  | 0x00 => t.fpmode.zeroExtend 64
  | 0x01 => BitVec.ofNat 64 ((if c.banked then 1 else 0) + (if c.secure then 2 else 0))
  | 0x02 => t.ordstate
  | 0x03 => BitVec.ofNat 64 t.lane
  | 0x04 => BitVec.ofNat 64 t.sq
  | 0x05 => BitVec.ofNat 64 t.tid
  | 0x06 => BitVec.ofNat 64 b.bid
  | 0x07 =>
    let core := s.thrCore t
    BitVec.ofNat 64 (coreRank core + t.sq / b.perCore * 4 + (if b.ncore = 4 then 2 else b.ncore - 1) * 16 + b.quad * 64 + b.die * 4096)
  | 0x08 => BitVec.ofNat 64 g.depth
  | 0x09 => g.launch.zeroExtend 64
  | 0x0A => s.clk
  | 0x0B => s.time
  | 0x0C => b.srseed
  | 0x0D => t.srctr.zeroExtend 64
  | 0x0E => b.banks.zeroExtend 64
  | 0x0F => BitVec.ofNat 64 t.cdepth
  | _ => 0

/-- The destination of RDSR and RDCLK. -/
def destOperand (w : AluWord) : Operand := { field := 0, name := fieldName w.sq false w.d 0, rd := false, wr := true }

/-- RDSR (06 R156). -/
def execRdsr (w : AluWord) (s : State) : Host.Outcome State Fault Refusal :=
  .next (s.execGroup (guarded w.g w.n fun l =>
    l.checked [destOperand w] (.done (fun s => s.writeReg l.k (destOperand w).name (l.s.special l.t (w.b.toNat % 256))) l.next)))

/-- RDCLK (06 R156). -/
def execRdclk (w : AluWord) (s : State) : Host.Outcome State Fault Refusal :=
  .next (s.execGroup (guarded w.g w.n fun l =>
    l.checked [destOperand w] (.done (fun s => s.writeReg l.k (destOperand w).name l.s.clk) l.next)))

/-- The lowest offending bit of a value for $fpmode: a reserved RND, or a reserved bit (19 R420). -/
def fpmodeBad (x : Nat) : Option Nat :=
  if x % 8 = 0 ∨ x % 8 = 7 then some 0 else (List.range 32).find? fun i => decide (9 ≤ i) && bit x i

/-- A lane writes a value to its $fpmode, or faults (06 R157; 19 R418, R420). -/
def Lane.writeFpmode (l : Lane) (x : Nat) : LaneOut :=
  match fpmodeBad x with
  | some i => .fault { code := 0x0102, detail := 3 + 4 * i }
  | none => .done (fun s => s.modThr l.k fun t => { t with fpmode := BitVec.ofNat 32 x }) l.next

/-- One lane of WRSR (06 R157). -/
def wrsrLane (w : AluWord) (l : Lane) : LaneOut :=
  l.checked [{ field := 1, name := fieldName w.sq false w.a 0 }]
    (l.writeFpmode ((l.s.readReg l.t (fieldName w.sq false w.a 0)).toNat % 2 ^ 32))

/-- WRSR (06 R157). -/
def execWrsr (w : AluWord) (s : State) : Host.Outcome State Fault Refusal := .next (s.execGroup (guarded w.g w.n (wrsrLane w)))

/-! ## Launch -/

/-- What a LAUNCH asks of memory: its record. -/
def launchAsk (w : AsyncWord) : Ask := { strm := w.strm.toNat, pred := w.pred.toNat, size := 64 }

/-- One lane of LAUNCH (06 R151): the leader reads a launch record; the child is accepted later (LAUNCH_ACCEPT). -/
def launchLane (w : AsyncWord) (l : Lane) : LaneOut :=
  LaneOut.named (launchAsk w) <|
    if l.block.leader ≠ some l.t.tid then .fault { code := 0x0901 }
    else if 10 ≤ (l.s.thrGrid l.t).depth then .fault { code := 0x0902 }
    else l.stream w.strm.toNat w.pred.toNat (l.place .globalOnly (launchAsk w) (l.v w.a) fun p =>
      .done (fun s =>
        (s.issueTo { l.access (launchAsk w) (l.v w.a) .launch with dests := [.v w.d.toNat 0] } (launchAsk w) p).commitTo l.k s.nextId)
        l.next)

/-- LAUNCH (06 R151). -/
def execLaunch (w : AsyncWord) (s : State) : Host.Outcome State Fault Refusal :=
  .next (s.execGroup (committingAs (launchAsk w) w.g w.n (fun _ => [vOperand 0 w.d 1 false true, vOperand 1 w.a]) (launchLane w)))

end Sys2Proof.Machine
end

