-- ==== Sys2Proof/Machine/Lanes.lean ====
section
/-! DEFINITION. The synchronising lane instructions of 08 and ELECT of 06. What each computes stands with the release of its site
(`State.siteWrite`). -/

namespace Sys2Proof.Machine

/-- The registers of an exchange: the old destination is read, as fallback. -/
def exchangeOperands (w : AluWord) (t : Thread) : List Operand :=
  [{ field := 0, name := .v w.d.toNat, wr := true }, { field := 1, name := aluNameA w t }] ++
  (if w.lit.isNone then [{ field := 2, name := .v w.b.toNat }] else [])

/-- The registers of LRED, LSCAN and MATCH. -/
def reduceOperands (w : AluWord) (t : Thread) : List Operand :=
  [{ field := 0, name := .v w.d.toNat, rd := false, wr := true }, { field := 1, name := aluNameA w t }]

/-- The registers of VOTE: a destination for BALLOT alone. -/
def voteOperands (w : AluWord) (_ : Thread) : List Operand :=
  if w.b.toNat % 4 = 3 then [{ field := 0, name := .v w.d.toNat, rd := false, wr := true }] else []

/-- SHFL (08 R187, R188, R192). -/
def execShfl (w : AluWord) (s : State) : Host.Outcome State Fault Refusal :=
  .next (s.siteOp (.shfl w) w w.c (exchangeOperands w) [])

/-- SHFLX (08 R193). -/
def execShflx (w : AluWord) (s : State) : Host.Outcome State Fault Refusal :=
  .next (s.siteOp (.shflx w) w w.c (exchangeOperands w) [])

/-- VOTE (08 R195). -/
def execVote (w : AluWord) (s : State) : Host.Outcome State Fault Refusal :=
  .next (s.siteOp (.vote w) w w.c (voteOperands w) [w.a.toNat % 8])

/-- LRED (08 R197). -/
def execLred (w : AluWord) (s : State) : Host.Outcome State Fault Refusal :=
  .next (s.siteOp (.lred w) w w.c (reduceOperands w) [])

/-- LSCAN (08 R197). -/
def execLscan (w : AluWord) (s : State) : Host.Outcome State Fault Refusal :=
  .next (s.siteOp (.lscan w) w w.c (reduceOperands w) [])

/-- MATCH (08 R196). -/
def execMatchLanes (w : AluWord) (s : State) : Host.Outcome State Fault Refusal :=
  .next (s.siteOp (.matchLanes w) w w.c (reduceOperands w) [])

/-- ELECT (06 R150): its member mask is field A. -/
def execElect (w : AluWord) (s : State) : Host.Outcome State Fault Refusal :=
  .next (s.siteOp (.elect w) w w.a (fun _ => []) [])

end Sys2Proof.Machine
end

