-- ==== Sys2Proof/Machine/Memory.lean ====
section
/-! DEFINITION. The memory instructions of 08: loads, stores, windows, atomics, PREF, and CJOIN and CLEAVE. Each issues its access; the
events LOAD_PERFORM, STORE_PERFORM, ATOMIC_PERFORM and CLOVE_TABLE_UPDATE perform it. -/

namespace Sys2Proof.Machine

/-! ## Addresses and operands -/

/-- Bytes of a SIZE code (Table 5.8). -/
def memSize (w : MemWord) : Nat := 2 ^ w.size.toNat
/-- Registers of an access: one up to 8 bytes, else one for each 8 (03 R56). -/
def memRegs (w : MemWord) : Nat := max 1 (memSize w / 8)
/-- The register of field D (08 R198). -/
def memDest (w : MemWord) (t : Thread) : RegName := fieldName w.sq w.ind w.d (t.readX w.xs.toNat)
/-- The register of BASE; `window` for LDW and STW, whose base is always in squad form. -/
def memBase (w : MemWord) (window : Bool) : RegName := fieldName (w.sq || window) false w.base 0

/-- The effective address (08 R199). -/
def Lane.address (l : Lane) (w : MemWord) (window : Bool) : Word :=
  let p := l.s.readReg l.t (memBase w window)
  let p := match w.lit with | some x => p + x.signExtend 64 | none => p
  if window then p + BitVec.ofNat 64 (l.t.lane * memSize w) else p

/-- Stream, predecessors, size and kind of a memory instruction; atomics need both read and write (13 R333). -/
def memAsk (w : MemWord) (need : Need) (kind : Nat) : Ask :=
  { strm := w.strm.toNat, pred := w.pred.toNat, size := memSize w, need := need, kind := kind }

/-- The word that an A32 memory form stands for (05 R107, R108). -/
def a32Mem (w : A32Word) (size : Nat) : MemWord :=
  { g := 7, n := false, d := w.d.zeroExtend 9, a := 0, base := w.a.zeroExtend 9, size := BitVec.ofNat 3 size, scope := 0, ro := false,
    strm := 0, pred := 0, sq := false, ind := false, xs := 0, lit := some (w.b.signExtend 32 * BitVec.ofNat 32 (2 ^ size)) }

/-! ## Loads -/

/-- The destinations of a load of `n` registers from a name. -/
def destsOf (r : RegName) (n : Nat) : List Dest :=
  (List.range n).map fun k => match r with | .v m => .v (m + k) k | .s m => .s (m + k) k | .ro _ => .v 0 k

/-- A destination is one of some S registers. -/
def Dest.isS (d : Dest) (ns : List Nat) : Bool := match d with | .s n _ => ns.contains n | _ => false

/-- An access of the execution writes an S register of some. -/
def Access.writesS (a : Access) (exec : Nat) (ns : List Nat) : Bool := a.execId == exec && a.dests.any fun d => d.isS ns

/-- The threads of lower lanes whose accesses of an execution, and who, waited for S registers among some. -/
def State.lowerLanes (s : State) (exec : Nat) (ns : List Nat) : List Nat :=
  (s.accs.filter fun a => a.writesS exec ns).flatMap fun a => a.thr :: a.waiters

/-- An access of a lower lane of the same execution no longer writes an S register that a higher lane's writes (08 R203). -/
def State.holdShared (s : State) (exec : Nat) (ns : List Nat) : State :=
  { s with accs := s.accs.map fun (a : Access) => if a.writesS exec ns then { a with dests := a.dests.filter fun d => !d.isS ns } else a }

/-- One lane of a load. -/
def loadLane (w : MemWord) (window : Bool) (l : Lane) : LaneOut :=
  let q := memAsk w .read 1
  let dst := memDest w l.t
  LaneOut.named q
    (l.checked [{ field := 0, name := dst, count := memRegs w, rd := false, wr := true }, { field := 2, name := memBase w window }]
      (l.stream q.strm q.pred
      (let ea := l.address w window
       l.place .any q ea fun p =>
         .done (fun s =>
           let ds := destsOf dst (memRegs w)
           (s.holdShared l.s.nextId (sDests ds)).issueTo
             { l.access q ea .load with dests := ds, waiters := s.lowerLanes l.s.nextId (sDests ds), scope := w.scope.toNat, ro := w.ro }
             q p) l.next)))

/-- A load. -/
def State.loadOp (s : State) (w : MemWord) (window : Bool) : State := s.execGroup (guarded w.g w.n (loadLane w window))

/-! ## Stores -/

/-- The bytes of an earlier store of the same execution that a higher lane writes are never written by it (08 R205). -/
def State.maskLower (s : State) (exec : Nat) (b : Access) : State :=
  { s with accs := s.accs.map fun (a : Access) =>
      if a.execId = exec ∧ a.kind = .store then
        let at_ (x y : Access) := match x.key, y.key with | some i, some _ => i | _, _ => x.ea.toNat
        { a with masked := a.masked ++ (List.range a.size).filter fun o =>
            let x := at_ a b + o
            decide (at_ b a ≤ x ∧ x < at_ b a + b.size) && !a.masked.contains o }
      else a }

/-- One lane of a store. -/
def storeLane (w : MemWord) (window : Bool) (l : Lane) : LaneOut :=
  let q := memAsk w .write 2
  let src := memDest w l.t
  LaneOut.named q
    (l.checked [{ field := 0, name := src, count := memRegs w }, { field := 2, name := memBase w window }]
      (l.stream q.strm q.pred
      (let ea := l.address w window
       l.place .any q ea fun p =>
         .done (fun s =>
           let a := { l.access q ea .store with data := l.s.readRange l.t src (memRegs w) % 2 ^ (8 * memSize w), scope := w.scope.toNat }
           let k := match p with | .here key _ => some key | _ => none
           (s.maskLower l.s.nextId { a with key := k }).issueTo a q p) l.next)))

/-- A store. -/
def State.storeOp (s : State) (w : MemWord) (window : Bool) : State := s.execGroup (guarded w.g w.n (storeLane w window))

/-- LD (08 R203). -/
def execLd (w : MemWord) (s : State) : Host.Outcome State Fault Refusal := .next (s.loadOp w false)
/-- ST (08 R203). -/
def execSt (w : MemWord) (s : State) : Host.Outcome State Fault Refusal := .next (s.storeOp w false)
/-- LDW (08 R204). -/
def execLdw (w : MemWord) (s : State) : Host.Outcome State Fault Refusal := .next (s.loadOp w true)
/-- STW (08 R204). -/
def execStw (w : MemWord) (s : State) : Host.Outcome State Fault Refusal := .next (s.storeOp w true)
/-- LD.b32 (05 R107). -/
def execLdB32A32 (w : A32Word) (s : State) : Host.Outcome State Fault Refusal := .next (s.loadOp (a32Mem w 2) false)
/-- LD.b64 (05 R107). -/
def execLdB64A32 (w : A32Word) (s : State) : Host.Outcome State Fault Refusal := .next (s.loadOp (a32Mem w 3) false)
/-- LD.b128 (05 R107). -/
def execLdB128A32 (w : A32Word) (s : State) : Host.Outcome State Fault Refusal := .next (s.loadOp (a32Mem w 4) false)
/-- ST.b32 (05 R107). -/
def execStB32A32 (w : A32Word) (s : State) : Host.Outcome State Fault Refusal := .next (s.storeOp (a32Mem w 2) false)
/-- ST.b64 (05 R107). -/
def execStB64A32 (w : A32Word) (s : State) : Host.Outcome State Fault Refusal := .next (s.storeOp (a32Mem w 3) false)
/-- ST.b128 (05 R107). -/
def execStB128A32 (w : A32Word) (s : State) : Host.Outcome State Fault Refusal := .next (s.storeOp (a32Mem w 4) false)

/-! ## Atomics (08 R206 to R210) -/

/-- What an atomic says of its access. It needs both permissions; INFO calls a RED a write, as Table 11.1 does (log 21). -/
def atomAsk (w : MemWord) (returns : Bool) : Ask := { memAsk w .both 3 with kind := if returns then 3 else 2 }

/-- One lane of an atomic: `op` is its operation, `returns` whether it writes the old value to D, `pair` whether A + 1 is read too. -/
def atomLane (w : MemWord) (op : AtomOp) (returns pair : Bool) (l : Lane) : LaneOut :=
  let q := memAsk w .both 3
  let m := 2 ^ (8 * memSize w)
  LaneOut.named (atomAsk w returns) (l.stream q.strm q.pred
    (let ea := l.address w false
     l.place .any q ea fun p =>
       .done (fun s =>
         let ds := if returns then destsOf (memDest w l.t) 1 else []
         let a := { l.access q ea (.atomic op returns) with
                      data := (l.v w.a).toNat % m, data2 := if pair then (l.t.readV (w.a.toNat + 1)).toNat % m else 0,
                      scope := w.scope.toNat, dests := ds, waiters := s.lowerLanes l.s.nextId (sDests ds) }
         let n := s.nextId
         let s := (s.holdShared l.s.nextId (sDests ds)).issueTo a q p
         if returns then s.commitTo l.k n else s) l.next))

/-- The registers of an atomic. -/
def atomOperands (w : MemWord) (returns pair : Bool) (l : Lane) : List Operand :=
  (if returns then [{ field := 0, name := memDest w l.t, rd := false, wr := true }] else []) ++
  [vOperand 1 w.a, { field := 2, name := memBase w false }] ++
  (if pair then [{ field := 4, name := .v (w.a.toNat + 1) }] else [])

/-- ATOM of an operation: a committing instruction (08 R207). -/
def State.atomOp (s : State) (w : MemWord) (code : Nat) : State :=
  s.execGroup (committingAs (atomAsk w true) w.g w.n (atomOperands w true false) (atomLane w { code := code, var := w.ro } true false))

/-- ATOM.ADD (08 R206). -/
def execAtomAdd (w : MemWord) (s : State) : Host.Outcome State Fault Refusal := .next (s.atomOp w 0)
/-- ATOM.SUB (08 R206). -/
def execAtomSub (w : MemWord) (s : State) : Host.Outcome State Fault Refusal := .next (s.atomOp w 1)
/-- ATOM.MIN (08 R206). -/
def execAtomMin (w : MemWord) (s : State) : Host.Outcome State Fault Refusal := .next (s.atomOp w 2)
/-- ATOM.MAX (08 R206). -/
def execAtomMax (w : MemWord) (s : State) : Host.Outcome State Fault Refusal := .next (s.atomOp w 3)
/-- ATOM.AND (08 R206). -/
def execAtomAnd (w : MemWord) (s : State) : Host.Outcome State Fault Refusal := .next (s.atomOp w 4)
/-- ATOM.OR (08 R206). -/
def execAtomOr (w : MemWord) (s : State) : Host.Outcome State Fault Refusal := .next (s.atomOp w 5)
/-- ATOM.XOR (08 R206). -/
def execAtomXor (w : MemWord) (s : State) : Host.Outcome State Fault Refusal := .next (s.atomOp w 6)
/-- ATOM.EXCH (08 R206). -/
def execAtomExch (w : MemWord) (s : State) : Host.Outcome State Fault Refusal := .next (s.atomOp w 7)
/-- ATOM.FADD (08 R206). -/
def execAtomFadd (w : MemWord) (s : State) : Host.Outcome State Fault Refusal := .next (s.atomOp w 8)

/-- ATOMC (08 R206). -/
def execAtomc (w : MemWord) (s : State) : Host.Outcome State Fault Refusal :=
  .next (s.execGroup (committingAs (atomAsk w true) w.g w.n (atomOperands w true true)
    (atomLane w { code := 9, var := false } true true)))

/-- RED (08 R206, R207): field D is the operation code. -/
def execRed (w : MemWord) (s : State) : Host.Outcome State Fault Refusal :=
  .next (s.execGroup (guarded w.g w.n fun l =>
    LaneOut.named (atomAsk w false)
      (l.checked (atomOperands w false false l) (atomLane w { code := w.d.toNat, var := w.ro } false false l))))

/-! ## PREF (08 R211; 10 R278) -/

/-- A line comes to its home: from the MSC or the tier at once, from HBM by a packet; `rdcs` are the dies whose RDC it then goes to. -/
def State.prefetchHome (s : State) (home line : Nat) (rdcs : BitVec 4) : State :=
  let l2 := s.sectorsAt (.l2 home) line
  let msc := s.sectorsAt (.msc home) line
  if l2 = 15 then s
  else if l2 ||| msc = 15 then s.fillL2 home line 15 0
  else if inTier (line * 128) then (s.fillMsc home line 15 0).fillL2 home line 15 0
  else if s.asked line then
    { s with packets := s.packets.map fun (q : Nat × List Packet) => (q.1, q.2.map fun p =>
        match p with | .read t l m n r => if l = line then .read t l m n (r ||| rdcs) else p | _ => p) }
  else s.askSectors line (~~~(l2 ||| msc)) false rdcs

/-- PREF of a level at an address whose page is resident; `e` is its PTE and `level` its table level. A line homed on another die comes to the
local RDC only while its page is SHARED or SHARED-RO: 10 Table 10.4 allows no such copy of an UNCLAIMED or PRIVATE page, whose line comes to
its home L2 slice alone (DEDUCED, log 77). The core's predictor learns from a line that the home slice serves (10 R261). -/
def State.prefetch (s : State) (core va pa e pageLevel level : Nat) : State :=
  let line := lineOf pa
  let die := coreDie core
  let cls := if pageLevel = 3 then pteClass e else if pteW e then 3 else 2
  match homeDie pa with
  | none => s
  | some home =>
    if s.lineHeld line then s
    else if level = 6 then
      let msc := s.sectorsAt (.msc home) line
      if msc = 15 then s
      else if s.sectorsAt (.l2 home) line ||| msc = 15 ∨ inTier pa then s.fillMsc home line 15 0
      else s.askSectors line (~~~msc) false 0
    else
      let far := die ≠ home ∧ 2 ≤ cls ∧ (s.holds (.rdc die) line).isNone
      let s := (s.recall line (some core)).prefetchHome home line (if far then 1#4 <<< die else 0)
      let here := s.sectorsAt (.l2 home) line = 15
      let s := if far ∧ here then s.fillRdc die home line else s
      if level = 0 ∧ here ∧ (cls = 2 ∨ cls = 3 ∧ die = home ∨ cls = 1 ∧ pteTag e = core) ∧ (s.holds (.l1 core) line).isNone then
        (if cls = 2 ∧ (die = home ∨ far) then s.predict core va pa else s).fillL1 core line 0 false
      else s

/-- PREF: no access, and no effect where the address would fault or its page is not resident. -/
def execPref (w : MemWord) (s : State) : Host.Outcome State Fault Refusal :=
  .next (s.execGroup (guarded w.g w.n fun l =>
    l.checked [{ field := 2, name := memBase w false }]
      (match pointer l.block l.rank .any (l.address w false) (memSize w) 0 with
       | .ok (.global va) =>
         let core := l.s.thrCore l.t
         match l.s.translate l.block.ctx va (coreDie core) .read with
         | .ok pa e lv => .done (fun s => s.prefetch core va pa e lv w.scope.toNat) l.next
         | _ => .done id l.next
       | _ => .done id l.next)))

/-! ## CJOIN and CLEAVE (08 R212, R213) -/

/-- Stream and predecessors of an async-class instruction. -/
def asyncAsk (w : AsyncWord) : Ask := { strm := w.strm.toNat, pred := w.pred.toNat, kind := 0 }

/-- The clove that an instruction names: an immediate, or the low bits of an S register. -/
def Lane.cloveOf (l : Lane) (w : AsyncWord) : Nat := if w.md.getLsbD 0 then (l.sq w.a).toNat % 64 else w.a.toNat % 64

/-- A synchronisation access issues (09 R220). -/
def Lane.syncAccess (l : Lane) (w : AsyncWord) (op : SyncOp) (ea : Word) : Access := l.access (asyncAsk w) ea (.sync op)

/-- CJOIN (08 R213; 20 R445). -/
def execCjoin (w : AsyncWord) (s : State) : Host.Outcome State Fault Refusal :=
  .next (s.execGroup (guarded w.g w.n fun l =>
    LaneOut.named (asyncAsk w)
      (l.checked (if w.md.getLsbD 0 then [sOperand 1 w.a, sOperand 2 w.b] else [])
        (let n := if w.md.getLsbD 0 then (l.sq w.b).toNat % 512 else w.b.toNat
         if n < 1 ∨ 192 < n then .fault (cloveMismatch 0 2 (l.cloveOf w))
         else l.stream w.strm.toNat w.pred.toNat
           (.done (fun s => s.issueAcc (l.syncAccess w (.cjoin (l.cloveOf w) n) 0)) l.next)))))

/-- CLEAVE (08 R213). -/
def execCleave (w : AsyncWord) (s : State) : Host.Outcome State Fault Refusal :=
  .next (s.execGroup (guarded w.g w.n fun l =>
    LaneOut.named (asyncAsk w)
      (l.checked (if w.md.getLsbD 0 then [sOperand 1 w.a] else [])
        (l.stream w.strm.toNat w.pred.toNat (.done (fun s => s.issueAcc (l.syncAccess w (.cleave (l.cloveOf w)) 0)) l.next)))))

end Sys2Proof.Machine
end

