-- ==== Sys2Proof/Machine/Sync.lean ====
section
/-! DEFINITION. The transaction barrier instructions (09 R221 to R227; 20 R440 to R444). BALLOC, BREF and BFREE act once for an execution by
an issue group: every executing lane computes the same result from the state before (09 R219). -/

namespace Sys2Proof.Machine

/-- A handle in a fixed squad-form field. -/
def Lane.handle (l : Lane) (f : BitVec 9) : BitVec 32 := (l.sq f).truncate 32

/-- BARRIER_STALE at issue (20 R440), else `go`. -/
def Lane.live (l : Lane) (f : BitVec 9) (go : LaneOut) : LaneOut :=
  if l.s.current l.block.ctx (l.handle f) then go else .fault (barrierStale (l.handle f) 0)

/-- The lowest slot of a quad's pool that is free (09 R223). -/
def Quad.freeBarrier (q : Quad) : Option Nat := (List.range 256).find? fun i => !(q.barrier i).allot

/-- What a slot holds after BALLOC. -/
def BarrierSlot.fresh (b : BarrierSlot) (ctx n : Nat) : BarrierSlot :=
  { allot := true, gen := b.gen % 255 + 1, hold := 1, ctx := ctx, init := n, arr := n, bytes := 0, phase := 0 }

/-- The references of a block by handle, one changed. -/
def Block.setRef (b : Block) (h : BitVec 32) (n : Int) : Block := { b with refs := sset 0 b.refs h.toNat n }
def Block.ref (b : Block) (h : BitVec 32) : Int := sget 0 b.refs h.toNat

/-- The effect of BALLOC in one lane. -/
def Lane.balloc (l : Lane) (w : AluWord) (n : Nat) (s : State) : State :=
  let dq := coreQuad (l.s.thrCore l.t)
  let dst := fieldName true false w.d 0
  let p := w.a.toNat % 8
  match (l.s.quad dq).freeBarrier with
  | none => (s.writeReg l.k dst 0).writePred l.k p false
  | some i =>
    let b := ((l.s.quad dq).barrier i).fresh l.block.ctx n
    let h := makeHandle dq i b.gen
    let s := s.modQuad dq fun q => q.setBarrier i b
    let s := s.modBlock l.t.blk fun x => x.setRef (BitVec.ofNat 32 h) 1
    (s.writeReg l.k dst (BitVec.ofNat 64 h)).writePred l.k p true

/-- BALLOC (09 R223; Table 20.1, BARRIER_COUNT). -/
def execBalloc (w : AluWord) (s : State) : Host.Outcome State Fault Refusal :=
  .next (s.execGroup (committing w.g w.n
    (fun _ => [sOperand 0 w.d 1 false true] ++ if w.lit.isNone then [sOperand 2 w.b] else []) fun l =>
      let c : Word := match w.lit with | some x => x.zeroExtend 64 | none => l.sq w.b
      let n := c.toNat % 2 ^ 21
      if n = 0 ∨ 2 ^ 20 < n then .fault { code := 0x0604, addr := c }
      else .done (fun s => (l.balloc w n s).owe l.k .afterCommit) l.next))

/-- The effect of BREF and BFREE in one lane: the references and the slot move by one. -/
def Lane.moveRef (l : Lane) (f : BitVec 9) (up : Bool) (s : State) : State :=
  let x := l.handle f
  let h := handleOf x
  let b := l.s.slotOf h
  let s := s.setSlot h (if up then { b with hold := b.hold + 1 } else b.drop 1)
  s.modBlock l.t.blk fun k => k.setRef x (l.block.ref x + if up then 1 else -1)

/-- The lowest lane of a group whose guard holds. -/
def Latch.first (l : Latch) (s : State) (g : BitVec 3) (n : Bool) : Option Nat :=
  ((l.lanesOf.map fun i => threadKey l.blk (32 * l.sq + i)).find? fun k => (s.thr k).guard g n)

/-- BREF (09 R224): at 65,535 references BARRIER_HOLD is delivered, once for the group, and nothing changes (20 R444). -/
def execBref (w : AluWord) (s : State) : Host.Outcome State Fault Refusal :=
  .next (s.execGroup (committing w.g w.n (fun _ => [sOperand 1 w.a]) fun l =>
    l.live w.a
      (.done (fun s =>
        let full := (l.s.slotOf (handleOf (l.handle w.a))).hold ≥ 65535
        let s := if !full then l.moveRef w.a true s
          else if l.latch.first l.s w.g w.n = some l.k then
            s.deliver l.k l.t.blk l.block.ctx { code := 0x0605, addr := (l.handle w.a).zeroExtend 64 } l.latch.pc
          else s
        s.owe l.k .afterCommit) l.next)))

/-- BFREE (09 R224). -/
def execBfree (w : AluWord) (s : State) : Host.Outcome State Fault Refusal :=
  .next (s.execGroup (committing w.g w.n (fun _ => [sOperand 1 w.a]) fun l =>
    l.live w.a (.done (fun s => (l.moveRef w.a false s).owe l.k .afterCommit) l.next)))

/-- The address of a synchronisation access: its handle. -/
def Lane.handleWord (l : Lane) (f : BitVec 9) : Word := (l.handle f).zeroExtend 64

/-- BEXPECT (09 R218, R225). -/
def execBexpect (w : AsyncWord) (s : State) : Host.Outcome State Fault Refusal :=
  .next (s.execGroup (committingAs (asyncAsk w) w.g w.n (fun _ => [sOperand 1 w.a, sOperand 2 w.b, sOperand 3 w.c]) fun l =>
    (l.live w.a (l.stream w.strm.toNat w.pred.toNat
      (.done (fun s =>
        (s.issueAcc (l.syncAccess w (.expect ((l.sq w.b).toNat % 2 ^ 21) ((l.sq w.c).toNat % 2 ^ 31)) (l.handleWord w.a))).commitTo
          l.k s.nextId) l.next)))))

/-- BARRIVE (09 R226). -/
def execBarrive (w : AsyncWord) (s : State) : Host.Outcome State Fault Refusal :=
  let cnt := w.md.getLsbD 0
  .next (s.execGroup (committingAs (asyncAsk w) w.g w.n
    (fun _ => [vOperand 0 w.d 1 false true, sOperand 1 w.a, sOperand 2 w.b] ++ if cnt then [sOperand 3 w.c] else []) fun l =>
    (l.live w.a (l.stream w.strm.toNat w.pred.toNat
      (let k := if cnt then (l.sq w.c).toNat % 2 ^ 21 else 1
       .done (fun s =>
        (s.issueAcc { l.syncAccess w (.arrive k ((l.sq w.b).toNat % 2 ^ 31)) (l.handleWord w.a) with
                        dests := [.v w.d.toNat 0] }).commitTo l.k s.nextId) l.next)))))

/-- BWAIT (09 R227): the thread waits until its access observes the phase. -/
def execBwait (w : AsyncWord) (s : State) : Host.Outcome State Fault Refusal :=
  .next (s.execGroup (guarded w.g w.n fun l =>
    LaneOut.named (asyncAsk w)
      (l.checked [sOperand 1 w.a, vOperand 2 w.b] (l.live w.a (l.stream w.strm.toNat w.pred.toNat
        (.wait fun s =>
          (s.issueAcc (l.syncAccess w (.wait ((l.v w.b).toNat % 65536)) (l.handleWord w.a))).modThr l.k fun t =>
            { t with wait := .bwait s.nextId }))))))

/-- BTEST (09 R227). -/
def execBtest (w : AsyncWord) (s : State) : Host.Outcome State Fault Refusal :=
  .next (s.execGroup (guarded w.g w.n fun l =>
    LaneOut.named (asyncAsk w)
      (l.checked [sOperand 1 w.a, vOperand 2 w.b] (l.live w.a (l.stream w.strm.toNat w.pred.toNat
        (.done (fun s =>
          s.issueAcc { l.syncAccess w (.test ((l.v w.b).toNat % 65536)) (l.handleWord w.a) with
                         dests := if w.d.toNat % 8 = 7 then [] else [.p (w.d.toNat % 8)] }) l.next))))))

end Sys2Proof.Machine
end

