-- ==== Sys2Proof/Machine/Copies.lean ====
section
/-! DEFINITION. The instructions that start the copy engines (09 R234 to R240; 20 R476; 21 R457): BCOPY, BGATHER, BSCATTER, TRECLD. The
records and index lists are read when COPY_COMPLETION starts the operation. -/

namespace Sys2Proof.Machine

/-- A scratchpad pointer over `n` bytes, with its alignment left to the engine: SPACE_INVALID or nothing (20 R433, R476). -/
def scratchFault (b : Block) (rank : Nat) (p : Word) (n : Nat) : Option FaultInfo :=
  let past := decide (b.scratch < bits p.toNat 17 0 + n)
  match pointer b rank .scratchOnly p 0 0 with
  | .error f => some (if f.detail = 4 ∧ past then spaceInvalid p 3 else f)
  | .ok _ => if past then some (spaceInvalid p 3) else none

/-- MISALIGNED of a pointer to accesses of `n` bytes (20 R434). An index list has entries of 4 bytes, each its own access (DEDUCED, log 78). -/
def misaligned (p : Word) (n : Nat) : Option FaultInfo :=
  if p.toNat % n ≠ 0 then some { code := 0x0302, addr := p, detail := sizeCode n } else none

/-- A SPACE_INVALID of a pointer that an operation reads; misalignment comes after every SPACE_INVALID (18 R401). -/
def spaceFault (b : Block) (rank : Nat) (p : Word) (size : Nat) : Option FaultInfo :=
  match pointer b rank .noRemote p size 0 with
  | .error f => if f.code = 0x0301 then some f else none
  | .ok _ => none

/-- The first fault of a list of checks. -/
def firstFault (fs : List (Option FaultInfo)) : Option FaultInfo := fs.findSome? id

/-- What the pages of an index list say at issue: their places, a fault, or the page that is absent. -/
inductive ListAt where
  | at_ (places : List (Nat × Nat))
  | absent (va level : Nat)
  | fault (f : FaultInfo)
  | invalid (va detail : Nat)
deriving DecidableEq, Repr

/-- The translation of an index list of `n` entries (13 R333, Table 13.5). -/
def Lane.listPages (l : Lane) (p : Word) (n : Nat) : ListAt :=
  if p.toNat / 2 ^ 60 ≠ 0 then .at_ []
  else
    (pagesOf (p.toNat % 2 ^ 56) (4 * n)).foldl
      (fun r v => match r with
        | .at_ ps =>
          match l.s.translate l.block.ctx (v % 2 ^ 56) (coreDie (l.s.thrCore l.t)) .read with
          | .ok pa _ _ => .at_ (ps ++ [(v % 2 ^ 56, pa)])
          | .notResident lv => .absent (v % 2 ^ 56) lv
          | .prot c d => .fault { code := c, addr := BitVec.ofNat 64 (v % 2 ^ 56), detail := d }
          | .invalid lv r => .invalid (v % 2 ^ 56) (lv + 4 * r)
        | r => r) (.at_ [])

/-- The barrier of an operation is current, or is none (20 R440). -/
def Lane.barrierOk (l : Lane) (h : BitVec 32) (go : LaneOut) : LaneOut :=
  if h = 0 ∨ l.s.current l.block.ctx h then go else .fault (barrierStale h 0)

/-- The access of an operation, with its barrier and what it says of itself in an INFO. -/
def Lane.opAccess (l : Lane) (w : AsyncWord) (size : Nat) (op : EngineOp) (ea : Word) (h : BitVec 32) : Access :=
  { l.access { asyncAsk w with size := size } ea (.engine op) with barrier := h }

/-- The operation issues, and its thread owes REGION. -/
def Lane.startOp (l : Lane) (w : AsyncWord) (a : Access) (p : Where) : LaneOut :=
  .done (fun s => (s.issueTo a { asyncAsk w with size := a.size, kind := 1 } p).commitTo l.k s.nextId) l.next

/-- The registers of a coordinate vector. -/
def Lane.coords (l : Lane) (w : AsyncWord) : Word × Word × Word :=
  (l.t.readV w.c.toNat, l.t.readV (w.c.toNat + 1), l.t.readV (w.c.toNat + 2))

/-- BCOPY.ld and .st: the record is found at issue and read later. -/
def copyBox (w : AsyncWord) (dir : CopyDir) (clove : Bool) (h : BitVec 32) (l : Lane) : LaneOut :=
  let (c0, c1, c2) := l.coords w
  let q : Ask := { asyncAsk w with size := 128, kind := 1 }
  let op : EngineOp := .copy dir clove (l.v w.a) (l.v w.b) c0 c1 c2
  LaneOut.named q
    (if c2.toNat / 2 ^ (if clove then 38 else 32) ≠ 0 then .fault (copyOperand 2)
     else l.barrierOk h (l.stream q.strm q.pred
       (match firstFault [spaceFault l.block l.rank (l.v w.a) 128, scratchFault l.block l.rank (l.v w.b) 0] with
        | some f => .fault f
        | none => l.place .noRemote q (l.v w.a) fun p => l.startOp w (l.opAccess w 128 op (l.v w.a) h) p)))

/-- BCOPY.sp: length and pointers depend on registers alone. -/
def copyScratch (w : AsyncWord) (h : BitVec 32) (l : Lane) : LaneOut :=
  let n := (l.t.readV w.c.toNat).toNat % 2 ^ 18
  let src := l.v w.a
  let dst := l.v w.b
  let op : EngineOp := .copy .sp false src dst (BitVec.ofNat 64 n) 0 0
  LaneOut.named { asyncAsk w with kind := 1 }
    (if n % 16 ≠ 0 ∨ n < 16 ∨ 229376 < n then .fault (copyOperand 1)
     else if src.toNat % 16 ≠ 0 ∨ dst.toNat % 16 ≠ 0 then .fault (copyOperand 4)
     else l.barrierOk h (l.stream w.strm.toNat w.pred.toNat
       (match firstFault [scratchFault l.block l.rank src n, scratchFault l.block l.rank dst n] with
        | some f => .fault f
        | none => .done (fun s => (s.issueAcc (l.opAccess w 0 op src h)).commitTo l.k s.nextId) l.next)))

/-- The direction of a BCOPY (Table 9.2, MOD). -/
def copyDir (w : AsyncWord) : CopyDir := match w.md.toNat % 4 with | 0 => .ld | 1 => .st | _ => .sp

/-- BCOPY (09 R234, R235). -/
def execBcopy (w : AsyncWord) (s : State) : Host.Outcome State Fault Refusal :=
  .next (s.execGroup (committingAs { asyncAsk w with size := if copyDir w = .sp then 0 else 128, kind := 1 } w.g w.n
    (fun _ => [sOperand 0 w.d, vOperand 1 w.a, vOperand 2 w.b, vOperand 3 w.c (if copyDir w = .sp then 1 else 3)]) fun l =>
    match copyDir w with
    | .sp => copyScratch w (l.handle w.d) l
    | d => copyBox w d (w.md.getLsbD 2) (l.handle w.d) l))

/-- A watchpoint sees the read of an index list as it issues (17 R378). -/
def State.watchList (s : State) (a : Access) (list : Word) (n : Nat) : State :=
  if list.toNat / 2 ^ 60 = 0 then s.watchIssue a.thr a.ctx (list.toNat % 2 ^ 56) (4 * n) true false a.pc else s

/-- What a gather or scatter says of its access: the read of its record. -/
def rowsAsk (w : AsyncWord) : Ask := { asyncAsk w with size := 64, kind := 1 }

/-- A gather or scatter: the record's page and then the list's pages are translated, and may be absent (13 R333, R338; log 18). The pointer to
the rows in the scratchpad may have any alignment: no rule names one (DESIGN CHOICE, log 78). -/
def rowsLane (w : AsyncWord) (op : Nat → EngineOp) (h : BitVec 32) (l : Lane) : LaneOut :=
  let rec_ := l.v w.a
  let list := l.v w.c
  let n := (l.t.readV (w.c.toNat + 1)).toNat % 65536
  let q := rowsAsk w
  LaneOut.named q
    (if n = 0 then .fault (copyOperand 0)
     else l.barrierOk h (l.stream q.strm q.pred
       (match firstFault [spaceFault l.block l.rank rec_ 64, scratchFault l.block l.rank (l.v w.b) 0, spaceFault l.block l.rank list (4 * n),
          misaligned rec_ 64, misaligned list 4] with
        | some f => .fault f
        | none => l.place .noRemote q rec_ fun p =>
          let a := l.opAccess w 64 (op n) rec_ h
          match l.listPages list n with
          | .fault f => .fault f
          | .invalid va d => .wait fun s => s.tableInvalid l.k l.block.ctx va d
          | .at_ ps => (l.startOp w { a with listAt := ps } p).also fun s => s.watchList a list n
          | .absent va lv =>
            match p with
            | .absent _ _ => l.startOp w a p
            | _ => l.needsLog va q.kind lv ((l.startOp w a (.absent va lv)).also fun s => s.watchList a list n))))

/-- The registers of BGATHER and BSCATTER. -/
def rowsOperands (w : AsyncWord) : List Operand := [sOperand 0 w.d, vOperand 1 w.a, vOperand 2 w.b, vOperand 3 w.c 2]

/-- BGATHER (09 R238, R239). -/
def execBgather (w : AsyncWord) (s : State) : Host.Outcome State Fault Refusal :=
  .next (s.execGroup (committingAs (rowsAsk w) w.g w.n (fun _ => rowsOperands w) fun l =>
    rowsLane w (fun n => .gather (l.v w.a) (l.v w.b) (l.v w.c) n) (l.handle w.d) l))

/-- BSCATTER (09 R238, R240). -/
def execBscatter (w : AsyncWord) (s : State) : Host.Outcome State Fault Refusal :=
  .next (s.execGroup (committingAs (rowsAsk w) w.g w.n (fun _ => rowsOperands w) fun l =>
    rowsLane w (fun n => .scatter (l.v w.a) (l.v w.b) (l.v w.c) n (w.md.getLsbD 0)) (l.handle w.d) l))

/-- TRECLD (09 R236): not committing. -/
def execTrecld (w : AsyncWord) (s : State) : Host.Outcome State Fault Refusal :=
  let q : Ask := { asyncAsk w with size := 128, kind := 1 }
  .next (s.execGroup (guarded w.g w.n fun l =>
    LaneOut.named q (l.checked [vOperand 1 w.a, vOperand 3 w.c 3]
      (let (c0, c1, c2) := l.coords w
       (l.stream q.strm q.pred
         (l.place .noRemote q (l.v w.a) fun p =>
           .done (fun s => s.issueTo (l.opAccess w 128 (.trecld (l.v w.a) c0 c1 c2) (l.v w.a) 0) q p) l.next))))))

end Sys2Proof.Machine
end

