-- ==== Sys2Proof/Machine/Reckoner.lean ====
section
/-! DEFINITION. Tile handles, accumulator banks and Reckoner commands (09 R241 to R250; 04 R98 to R101; 21 R459 to R462). -/

namespace Sys2Proof.Machine

/-! ## Tile handles (Table 3.7) -/

/-- The fields of a handle. -/
structure Tile where
  off : Nat
  rank : Nat
  valid : Bool
  stripe : Nat
  fmt : Nat
  rows : Nat
  cols : Nat
  pitch : Nat
  swiz : Nat
  scale : Nat
  scaled : Bool
deriving DecidableEq, Repr

def tileOf (h : BitVec 128) : Tile :=
  let x := h.toNat
  { off := bits x 17 0, rank := bits x 19 18, valid := bit x 20, stripe := bits x 22 21, fmt := bits x 28 24, rows := bits x 47 32,
    cols := bits x 63 48, pitch := bits x 81 64, swiz := bits x 97 96, scale := bits x 101 98, scaled := bit x 102 }

/-- Handle `i` of a block. -/
def Block.handle (b : Block) (i : Nat) : BitVec 128 := sget 0 b.h i

/-- The quad rank that holds a row (09 R245). -/
def Tile.rankOf (t : Tile) (y : Nat) : Nat :=
  match t.stripe with
  | 0 => t.rank
  | 1 => Nat.xor t.rank (y % 2)
  | _ => (t.rank + y) % 4

/-- k of R245. -/
def Tile.stride (t : Tile) : Nat := 2 ^ t.stripe
/-- S of R245; 1 without swizzle. -/
def Tile.swizzle (t : Tile) : Nat := if t.swiz = 0 then 1 else 16 * 2 ^ t.swiz

/-- The lowest offending bit of a value for a handle (21 R459): a reserved bit, or STRIPE = 3. -/
def tileReserved (h : Nat) : Option Nat :=
  (List.range 128).find? fun i =>
    (bit h i && (decide (i = 23 ∨ 29 ≤ i ∧ i ≤ 31 ∨ 82 ≤ i ∧ i ≤ 95 ∨ 103 ≤ i))) || (decide (i = 21) && decide (bits h 22 21 = 3))

/-- A violation of R245 and R459 by a handle that a command uses over so many rows and columns, and with a format when it is a scale tile:
the lowest offending bit. -/
def Tile.bad (t : Tile) (b : Block) (rows cols : Nat) (fmt : Option Nat) : Option Nat :=
  let eb := formatBits t.fmt
  let last := t.off + t.pitch * (ceilDiv t.rows t.stride - 1) + ceilDiv (t.cols * eb) 8
  firstBad
    [(decide (t.off % 32 ≠ 0 ∨ t.off % t.swizzle ≠ 0 ∨ b.scratch < last), 0),
     ((List.range (min t.rows 4)).any fun y => decide (t.rankOf y < b.rank0 ∨ b.rank0 + b.ncore ≤ t.rankOf y), 18),
     ((match fmt with | some f => t.fmt != f | none => false), 24),
     (decide (t.rows = 0 ∨ t.rows < rows), 32), (decide (t.cols = 0 ∨ t.cols < cols), 48),
     (decide (t.pitch % 32 ≠ 0 ∨ t.pitch % t.swizzle ≠ 0 ∨ 8 * t.pitch < t.cols * eb), 64)]

/-- TILE_INVALID. -/
def tileInvalid (h bit : Nat) : FaultInfo := { code := 0x0704, detail := h + 16 * bit }

/-- TCFG (09 R241). -/
def execTcfg (w : AluWord) (s : State) : Host.Outcome State Fault Refusal :=
  .next (s.execGroup (guarded w.g w.n fun l =>
    let n := w.d.toNat % 16
    let x := l.s.readRange l.t (fieldName true false w.a 0) 2
    l.checked [sOperand 1 w.a 2]
      (match tileReserved x with
       | some i => .fault (tileInvalid n i)
       | none => .done (fun s => s.modBlock l.t.blk fun b => { b with h := sset 0 b.h n (BitVec.ofNat 128 x) }) l.next)))

/-- TINFO (09 R241). -/
def execTinfo (w : AluWord) (s : State) : Host.Outcome State Fault Refusal :=
  .next (s.execGroup (guarded w.g w.n fun l =>
    l.checked [sOperand 0 w.d 2 false true]
      (.done (fun s => s.writeRange l.k (fieldName true false w.d 0) 2 (l.block.handle (w.b.toNat % 16)).toNat) l.next)))

/-! ## Banks -/

/-- The banks that RKACQ asks for, empty when it cannot have them (09 R242). -/
def wantedBanks (free : List Nat) (mask : Bool) (x : Nat) : List Nat :=
  if mask then
    let want := (List.range 16).filter fun i => bit x i
    if want.all free.contains then want else []
  else if 1 ≤ x ∧ x ≤ 16 ∧ x ≤ free.length then free.take x
  else []

/-- RKACQ (09 R242): once for the group, from the state before. -/
def execRkacq (w : AluWord) (s : State) : Host.Outcome State Fault Refusal :=
  .next (s.execGroup (committing w.g w.n
    (fun _ => [sOperand 0 w.d 1 false true] ++ if w.lit.isNone then [sOperand 2 w.b] else []) fun l =>
      let x := match w.lit with | some x => x.toNat | none => (l.sq w.b).toNat
      let dq := l.block.dquad
      let want := wantedBanks ((List.range 16).filter fun i => l.s.bankFree dq i) (w.c.getLsbD 0) x
      let want := if l.s.saveFits l.block.ctx (65536 * want.length) then want else []
      let m := want.foldl (fun m i => m + 2 ^ i) 0
      .done (fun s =>
        let s := want.foldl (fun s i => s.acquireBank dq i l.t.blk) s
        let s := s.modBlock l.t.blk fun b => { b with banks := b.banks ||| BitVec.ofNat 16 m }
        ((s.writeReg l.k (fieldName true false w.d 0) (BitVec.ofNat 64 m)).writePred l.k (w.a.toNat % 8) (!want.isEmpty)).owe l.k
          .afterCommit) l.next))

/-- RKREL (09 R243). -/
def execRkrel (w : AluWord) (s : State) : Host.Outcome State Fault Refusal :=
  .next (s.execGroup (committing w.g w.n (fun _ => [sOperand 1 w.a]) fun l =>
    .done (fun s => (s.releaseBanks l.t.blk ((l.sq w.a).toNat % 65536)).owe l.k .afterCommit) l.next))

/-- RKSTAT (09 R250): bit i is set when no command with id i is in flight on the quad. -/
def execRkstat (w : AluWord) (s : State) : Host.Outcome State Fault Refusal :=
  .next (s.execGroup (guarded w.g w.n fun l =>
    let d := fieldName w.sq false w.d 0
    let busy := (l.s.commandsOn l.block.dquad).filterMap fun c => if c.1.stage.inFlight then some c.2.id else none
    let m := (List.range 64).foldl (fun m i => if busy.contains i then m else m + 2 ^ i) 0
    l.checked [{ field := 0, name := d, rd := false, wr := true }] (.done (fun s => s.writeReg l.k d (BitVec.ofNat 64 m)) l.next)))

/-! ## Slice moves (09 R244) -/

/-- The element of a slice at step `j`; `row` for the forms that run along a row. -/
def sliceKey (row : Bool) (idx : Word) (j : Nat) : Nat :=
  let r := idx.toNat % 128
  let c := idx.toNat / 65536 % 128
  if row then 128 * r + (c + j) else 128 * (r + j) + c

/-- The registers of a slice move. -/
def sliceOperands (w : AluWord) (reads : Bool) (l : Lane) : List Operand :=
  [{ field := 0, name := .v w.d.toNat, count := w.c.toNat % 8 + 1, rd := !reads, wr := reads }, { field := 1, name := aluNameA w l.t }]

/-- The commands of a block on a bank that have been accepted. -/
def State.acceptedOn (s : State) (dq i blk : Nat) : List Nat :=
  (s.commandsOn dq).filterMap fun c => if c.1.blk = blk ∧ c.2.bank = i ∧ c.1.stage.inFlight then some c.1.id else none

/-- One lane of a slice move: its checks, its wait for the bank, and `go` with the index. -/
def sliceLane (w : AluWord) (row reads : Bool) (go : Lane → Word → State → State) (l : Lane) : LaneOut :=
  let i := w.b.toNat % 16
  let n := 2 * (w.c.toNat % 8 + 1)
  let dq := l.block.dquad
  let b := l.s.bank dq i
  let idx := l.s.readReg l.t (aluNameA w l.t)
  let r := idx.toNat % 128
  let c := idx.toNat / 65536 % 128
  let before := l.s.acceptedOn dq i l.t.blk
  let passed := l.t.pass == some i
  l.checked (sliceOperands w reads l)
    (if !passed && !l.block.banks.getLsbD i then .fault { code := 0x0702, detail := i }
     else if 128 < (if row then c else r) + n then .fault { code := 0x0706, detail := r + 128 * c }
     else if b.occupant ≠ some l.t.blk ∨ (!passed && !before.isEmpty) then
       .wait fun s => s.name.modThr l.k fun t => { t with wait := .slice i before s.nextId, pass := none }
     else if reads && b.poisoned then .fault { code := 0x0A02, detail := 7 }
     else .done (fun s => ((go l idx s).modThr l.k fun t => { t with pass := none }).settleBank dq i l.t.blk) l.next)

/-- A slice read into registers. -/
def sliceRead (w : AluWord) (row : Bool) (l : Lane) (idx : Word) (s : State) : State :=
  let data := (l.s.bank l.block.dquad (w.b.toNat % 16)).data
  (List.range (w.c.toNat % 8 + 1)).foldl
    (fun s m => s.writeReg l.k (.v (w.d.toNat + m))
      (((sget 0 data (sliceKey row idx (2 * m + 1))) ++ (sget 0 data (sliceKey row idx (2 * m))) : BitVec 64))) s

/-- One element written by a slice move of thread `tid`: of the writers of a cycle the one of highest thread index wins (09 R244). The bank becomes
dirty, and whole again when every element has been written since it was poisoned (20 R455). -/
def Bank.putElement (b : Bank) (key tid : Nat) (x : BitVec 32) : Bank :=
  if tid < tgetD b.wrote key 0 then b
  else
    let cured := if b.poisoned then tset b.cured key true else []
    let whole := decide (16384 ≤ cured.length)
    { b with data := sset 0 b.data key x, wrote := tset b.wrote key tid, dirty := true, poisoned := b.poisoned && !whole,
             cured := if whole then [] else cured }

/-- A slice written from registers. -/
def sliceWrite (w : AluWord) (row : Bool) (l : Lane) (idx : Word) (s : State) : State :=
  s.modBank l.block.dquad (w.b.toNat % 16) fun b =>
    (List.range (2 * (w.c.toNat % 8 + 1))).foldl
      (fun b j => b.putElement (sliceKey row idx j) l.t.tid (BitVec.ofNat 32 ((l.t.readV (w.d.toNat + j / 2)).toNat / 2 ^ (32 * (j % 2))))) b

/-- A slice move of an issue group. -/
def State.sliceOp (s : State) (w : AluWord) (row reads : Bool) (go : Lane → Word → State → State) : State :=
  s.execGroup (guarded w.g w.n (sliceLane w row reads go))

/-- ACRDR (09 R244). -/
def execAcrdr (w : AluWord) (s : State) : Host.Outcome State Fault Refusal := .next (s.sliceOp w true true (sliceRead w true))
/-- ACRDC (09 R244). -/
def execAcrdc (w : AluWord) (s : State) : Host.Outcome State Fault Refusal := .next (s.sliceOp w false true (sliceRead w false))
/-- ACWRR (09 R244). -/
def execAcwrr (w : AluWord) (s : State) : Host.Outcome State Fault Refusal := .next (s.sliceOp w true false (sliceWrite w true))
/-- ACWRC (09 R244). -/
def execAcwrc (w : AluWord) (s : State) : Host.Outcome State Fault Refusal := .next (s.sliceOp w false false (sliceWrite w false))

/-! ## MMA at issue (09 R246 to R248; 21 R459, R460) -/

/-- MX formats. -/
def isMx (f : Nat) : Bool := decide (0x14 ≤ f ∧ f ≤ 0x19)

/-- The list of Table 9.8 that holds a format; 0 for none. -/
def pairClass (f : Nat) : Nat :=
  if f = 0x0A then 1
  else if f = 0x08 ∨ f = 0x09 ∨ 0x0C ≤ f ∧ f ≤ 0x10 then 2
  else if f = 0x00 ∨ f = 0x01 ∨ f = 0x12 ∨ f = 0x13 then 3
  else if isMx f then 4
  else 0

/-- RPB_INVALID: the first byte of the first field of a parameter block at fault (Table 9.7). -/
def rpbBad (b : Block) (r : Nat) : Option Nat :=
  let f (o n : Nat) := recField r o n
  let fmtOf (h : Nat) := (tileOf (b.handle (h % 16))).fmt
  let mode := f 3 1
  let scale (o fmt h : Nat) : Bool :=
    decide (15 < f o 1 ∧ f o 1 < 255) || (isMx fmt && f o 1 == 255 && !(tileOf (b.handle (h % 16))).scaled)
  let topk := bit mode 2
  firstBad <|
    [(decide (63 < f 0 1), 0), (decide (63 < f 1 1 ∧ f 1 1 < 255), 1), (decide (63 < f 2 1 ∧ f 2 1 < 255), 2),
     (decide (1 < mode % 4 ∨ 16 ≤ mode), 3), (decide (15 < f 4 1), 4), (decide (15 < f 5 1), 5), (decide (15 < f 6 1), 6),
     (decide (3 < f 7 1), 7), (decide (f 8 2 < 1 ∨ 128 < f 8 2), 8), (decide (f 0xA 2 < 1 ∨ 128 < f 0xA 2), 0xA),
     (decide (65535 < f 0xC 4), 0xC), (decide (pairClass (f 0x10 1) = 0) || f 0x10 1 != fmtOf (f 4 1), 0x10),
     (decide (pairClass (f 0x11 1) ≠ pairClass (f 0x10 1)) || f 0x11 1 != fmtOf (f 5 1), 0x11),
     (scale 0x12 (f 0x10 1) (f 4 1), 0x12), (scale 0x13 (f 0x11 1) (f 5 1), 0x13),
     ((if topk then decide (f 0x14 1 < 1 ∨ min 32 (f 0xA 2) < f 0x14 1) else f 0x14 1 != 0), 0x14),
     ((if topk then decide (1 < f 0x15 1) else f 0x15 1 != 0), 0x15)] ++
    (match nonZeroByte r 0x16 2 with | some o => [(true, o)] | none => []) ++ [(f 0x1B 1 != 0, 0x18)] ++
    (match nonZeroByte r 0x1C 36 with | some o => [(true, o)] | none => [])

/-- The command of a parameter block, with the handles captured (03 R69). -/
def commandOf (b : Block) (r : Nat) : Command :=
  let f (o n : Nat) := recField r o n
  let scale (o fmt h : Nat) : Option (BitVec 128) :=
    if !isMx fmt then none
    else some (b.handle (if f o 1 = 255 then (tileOf (b.handle h)).scale else f o 1))
  { id := f 0 1, pre0 := f 1 1, pre1 := f 2 1, mode := f 3 1, bank := f 6 1, trans := f 7 1, m := f 8 2, n := f 0xA 2, k := f 0xC 4,
    ah := b.handle (f 4 1), bh := b.handle (f 5 1), ash := scale 0x12 (f 0x10 1) (f 4 1), bsh := scale 0x13 (f 0x11 1) (f 5 1),
    topk := f 0x14 1, order := f 0x15 1, done := BitVec.ofNat 32 (f 0x18 4) }

/-- A row and column count, exchanged under a transposition. -/
def extent (t : Bool) (r c : Nat) : Nat × Nat := if t then (c, r) else (r, c)

/-- One handle check of R459: `which` is 0 A, 1 B, 2 A scale, 3 B scale. -/
def tileFault (b : Block) (h : Nat) (v : BitVec 128) (which : Nat) (e : Nat × Nat) (fmt : Option Nat) : Option FaultInfo :=
  let t := tileOf v
  if !t.valid then some { code := 0x0701, detail := h + 16 * which }
  else (t.bad b e.1 e.2 fmt).map (tileInvalid h)

/-- The handle checks of a command, in the order A, B, A scale, B scale. -/
def tileFaults (b : Block) (r : Nat) (c : Command) : Option FaultInfo :=
  let ks := ceilDiv c.k 32
  let scaleNo (o h : Nat) := if recField r o 1 = 255 then (tileOf (b.handle (recField r h 1))).scale else recField r o 1
  firstFault
    [tileFault b (recField r 4 1) c.ah 0 (extent (bit c.trans 0) c.m c.k) none,
     tileFault b (recField r 5 1) c.bh 1 (extent (bit c.trans 1) c.k c.n) none,
     c.ash.bind fun v => tileFault b (scaleNo 0x12 4) v 2 (extent (bit c.trans 0) c.m ks) (some 0x11),
     c.bsh.bind fun v => tileFault b (scaleNo 0x13 5) v 3 (extent (bit c.trans 1) ks c.n) (some 0x11)]

/-- The command of an access. -/
def Access.command (a : Access) : Option Command := match a.kind with | .mma c => some c | _ => none

/-- The commands in flight on a quad. -/
def State.inFlight (s : State) (dq : Nat) : List (Access × Command) := (s.commandsOn dq).filter fun c => c.1.stage.inFlight

/-- The sequencer accepts a command once no command of its id is in flight; commands of one id are accepted in issue order (09 R248). Its
predecessors are bound. One that is accepted while a reset is under way waits to start until the reset ends (21 R461). -/
def State.acceptCommand (s : State) (acc : Nat) : State :=
  match (s.acc acc).bind fun a => a.command.map fun c => (a, c) with
  | none => s
  | some (a, c) =>
    let dq := coreQuad a.core
    let mine := (s.inFlight dq).any fun x => x.2.id == c.id
    let before := (s.commandsOn dq).any fun x => x.2.id == c.id && x.1.stage == .issued && decide (x.1.id < a.id)
    if a.stage ≠ .issued ∨ mine ∨ before then s
    else
      let preds := (s.inFlight dq).filterMap fun x => if x.2.id = c.pre0 ∨ x.2.id = c.pre1 then some x.1.id else none
      s.name.modAcc a.id fun x => { x with stage := .accepted preds s.nextId }

/-- MMA (09 R246, R248): the command goes to the sequencer, which accepts it at once unless its id is in flight. -/
def execMma (w : AsyncWord) (s : State) : Host.Outcome State Fault Refusal :=
  .next (s.execGroup (committingAs (asyncAsk w) w.g w.n (fun _ => [sOperand 1 w.a 8]) fun l =>
    let r := l.s.readRange l.t (fieldName true false w.a 0) 8
    (match rpbBad l.block r with
       | some o => .fault { code := 0x0705, detail := o }
       | none =>
         let c := commandOf l.block r
         match tileFaults l.block r c with
         | some f => .fault f
         | none =>
           if !l.block.banks.getLsbD c.bank then .fault { code := 0x0702, detail := c.bank }
           else l.barrierOk c.done (l.stream w.strm.toNat w.pred.toNat
             (.done (fun s =>
               ((s.issueAcc { l.access (asyncAsk w) 0 (.mma c) with barrier := c.done }).acceptCommand s.nextId).commitTo l.k s.nextId) l.next)))))

/-! ## What a command computes (04 R98 to R101) -/

/-- The bits of a tile's element: bit numbers in memory with lengths, first bits first; the swizzle moves chunks of 16 bytes, and an element
of 6 bits may lie in two (09 R233, R245). -/
def Tile.elemBits (t : Tile) (blk y x : Nat) : List (Nat × Nat) :=
  let eb := formatBits t.fmt
  let r := y / t.stride
  let o := r * t.pitch * 8 + x * eb
  let place (o : Nat) := if t.swiz = 0 then o else 8 * Nat.xor (o / 8) (r % (t.swizzle / 16) * 16) + o % 8
  (cuts 128 2 o 0 eb).map fun q => (8 * (scratchKey blk (t.rankOf y) + t.off) + place (o + q.1), q.2)

/-- An element of a tile. -/
def State.tileElem (s : State) (blk : Nat) (t : Tile) (y x : Nat) : Nat :=
  ((t.elemBits blk y x).foldl
    (fun v b => (v.1 + s.readMem (b.1 / 8) (bytesOf b.1 b.2) / 2 ^ (b.1 % 8) % 2 ^ b.2 * 2 ^ v.2, v.2 + b.2)) (0, 0)).1

/-- The value of an operand element; `sc` is its scale tile with the scale's place. -/
def State.operandAt (s : State) (blk : Nat) (t : Tile) (y x : Nat) (sc : Option (Tile × Nat × Nat)) : FVal :=
  let e := s.tileElem blk t y x
  if isMx t.fmt then
    match sc with
    | some (u, i, j) =>
      let v := s.tileElem blk u i j
      if v = 255 then defaultNan else (mxDecode t.fmt e).scale ((v : Int) - 127)
    | none => mxDecode t.fmt e
  else if pairClass t.fmt = 3 then ofInt (decodeInt t.fmt (formatBits t.fmt) e)
  else decodeFloat t.fmt e

/-- a(i, k) and b(k, j) of a command. -/
def State.aAt (s : State) (blk : Nat) (c : Command) (i k : Nat) : FVal :=
  let tr := bit c.trans 0
  let at_ (y x : Nat) := extent tr y x
  s.operandAt blk (tileOf c.ah) (at_ i k).1 (at_ i k).2 (c.ash.map fun h => (tileOf h, (at_ i (k / 32)).1, (at_ i (k / 32)).2))

def State.bAt (s : State) (blk : Nat) (c : Command) (k j : Nat) : FVal :=
  let tr := bit c.trans 1
  let at_ (y x : Nat) := extent tr y x
  s.operandAt blk (tileOf c.bh) (at_ k j).1 (at_ k j).2 (c.bsh.map fun h => (tileOf h, (at_ (k / 32) j).1, (at_ (k / 32) j).2))

/-- A MAC term or a DIST term (R98). -/
def mmaTerm (dist : Bool) (a b : FVal) : FVal :=
  if dist then
    let d := withNan [a, b] (sumExact 1 [a, b.flip])
    mulExact d d
  else mulExact a b

/-- Elements in a chunk (Table 4.7). -/
def chunkSize (w : Nat) : Nat := match w with | 32 => 8 | 16 => 32 | 8 => 64 | _ => 128

/-- The accumulation of R99 from an accumulator. -/
def accumulate (terms : Nat → FVal) (k c acc : Nat) : Nat :=
  (List.range (ceilDiv k c)).foldl
    (fun acc q =>
      let sum := sumExact 1 ((List.range (min c (k - q * c))).map fun i => terms (q * c + i))
      roundTo plainMode 0x0A 0 (sumExact 1 [decodeFloat 0x0A acc, sum])) acc

/-- The rank order of R101: `x` with its column before `y` with its column; two NaNs by column (DESIGN CHOICE, log 72). -/
def ranksBefore (largest : Bool) (x y : Nat × Nat) : Bool :=
  let a := decodeFloat 0x0A x.1
  let b := decodeFloat 0x0A y.1
  if a.isNan || b.isNan then (!a.isNan && b.isNan) || (a.isNan && b.isNan && decide (x.2 < y.2))
  else
    match compareVal a b with
    | .lt => !largest
    | .gt => largest
    | .eq => decide (x.2 < y.2)

/-- A list in rank order. -/
def rankInsert (largest : Bool) (x : Nat × Nat) : List (Nat × Nat) → List (Nat × Nat)
  | [] => [x]
  | y :: t => if ranksBefore largest x y then x :: y :: t else y :: rankInsert largest x t

/-- A row after the command (09 R248): the accumulated columns, then the TOPK epilogue. -/
def State.mmaRow (s : State) (blk : Nat) (c : Command) (data : Table (BitVec 32)) (i : Nat) : List (Nat × Nat) :=
  let dist := c.mode % 4 == 1
  let w := max (formatBits (tileOf c.ah).fmt) (formatBits (tileOf c.bh).fmt)
  let vals := (List.range c.n).map fun j =>
    let old := if bit c.mode 3 then 0 else (sget 0 data (128 * i + j)).toNat
    accumulate (fun k => mmaTerm dist (s.aAt blk c i k) (s.bAt blk c k j)) c.k (chunkSize w) old
  let plain := vals.zipIdx.map fun e => (128 * i + e.2, e.1)
  if bit c.mode 2 then
    let ranked := (vals.zipIdx.foldl (fun r x => rankInsert (c.order == 1) x r) []).take c.topk
    plain ++ ranked.zipIdx.flatMap fun e => [(128 * i + e.2, e.1.2), (128 * i + c.topk + e.2, e.1.1)]
  else plain

/-- The bank contents after a command. -/
def State.mmaData (s : State) (blk : Nat) (c : Command) (data : Table (BitVec 32)) : Table (BitVec 32) :=
  (List.range c.m).foldl (fun d i => (s.mmaRow blk c data i).foldl (fun d e => sset 0 d e.1 (BitVec.ofNat 32 e.2)) d) data

/-- An operand that a command reads touches a poisoned sector (20 R455). -/
def State.mmaPoisoned (s : State) (blk : Nat) (c : Command) : Bool :=
  let hits (h : BitVec 128) (rows cols : Nat) : Bool :=
    let t := tileOf h
    (List.range rows).any fun y => (List.range cols).any fun x => (t.elemBits blk y x).any fun b => s.poisoned (b.1 / 8) (bytesOf b.1 b.2)
  let both (h : BitVec 128) (e : Nat × Nat) := hits h e.1 e.2
  let ks := ceilDiv c.k 32
  both c.ah (extent (bit c.trans 0) c.m c.k) || both c.bh (extent (bit c.trans 1) c.k c.n) ||
  (match c.ash with | some h => both h (extent (bit c.trans 0) c.m ks) | none => false) ||
  (match c.bsh with | some h => both h (extent (bit c.trans 1) ks c.n) | none => false)

end Sys2Proof.Machine
end

