-- ==== Sys2Proof/Machine/Schedule.lean ====
section
/-! DEFINITION. The events of 12: run arbitration, stall breaks, placement, slices, progress swaps and discard. -/

namespace Sys2Proof.Machine

/-! ## Ready issue groups (12 R311) -/

/-- Hold stops placement and grants from its request until exit (16 R371). -/
def State.held (s : State) : Bool := s.hold.entering || s.hold.inHold || s.hold.exiting

/-- A thread may be granted a run: it is live and waits for nothing, and its quad does not stand frozen but for a step and for the REGION of a
handler it has just entered; it takes a fault that it can take before it issues anything; where its context halts, or its block or squad
is being discarded, only a thread that owes a REGION or stands in one is (02 R46; 12 R311, R318; 17 R379, R380, R384; 18 R406, R410,
R411). -/
def State.mayGrant (s : State) (k : Nat) : Bool :=
  let t := s.thr k
  let b := s.thrBlock t
  let ending := (s.ctx b.ctx).halted || (match b.status with | .discarding _ _ => true | _ => false) || (s.thrSquad t).replay
  t.live && !t.stopped && s.awake t && b.onQuad && (s.thrSquad t).resident && !s.inRun t &&
  (s.dbg.stepping || !(s.quad (s.thrCore t / 4)).stands || (t.owed == .atHandler && s.skidding (s.thrCore t / 4))) &&
  (t.held.isNone || t.frame.isOpen || !s.eligible k) && (!ending || t.owed != .nothing)

/-- The issue groups of a squad: its threads that may be granted a run, by PC. -/
def State.groupsOf (s : State) (q : Squad) : List (Nat × Nat × BitVec 32) :=
  let ks := (squadThreads (s.block q.blk) q.blk q.num).filter s.mayGrant
  ((ks.map fun k => (s.thr k).pc).eraseDups).map fun pc => (q.blk, q.num, lanesMask q.num q.blk (ks.filter fun k => (s.thr k).pc == pc))

/-- The ready issue groups of a core are noted for its arbitration. -/
def State.offer (run : Instr → State → State) (s : State) (core : Nat) : State :=
  { s with offers := (((s.slotSquads core).flatMap s.groupsOf).map fun g => (g.1, g.2.1, s.readyLanes run core g)).filter fun g => g.2.2 != 0 }

/-! ## Arbitration (12 R312) -/

/-- The first lane after `lp`, cyclically, in a mask. -/
def nextLane (lp : Nat) (m : BitVec 32) : Nat := (((List.range 32).map fun i => (lp + 1 + i) % 32).find? fun i => m.getLsbD i).getD 0

/-- The best squad under an order. -/
def firstBy (before : Squad → Squad → Bool) : List Squad → Option Squad
  | [] => none
  | q :: qs => match firstBy before qs with | some x => some (if before x q then x else q) | none => some q

/-- The placement number of a block on a core (12 R312). -/
def Block.placeAt (b : Block) (core : Nat) : Nat := b.placeNo.getD (core - b.cores.headD 0) 0

/-- Oldest block on the core, then lowest squad number. -/
def State.older (s : State) (a b : Squad) : Bool :=
  let x := (s.block a.blk).placeAt a.core
  let y := (s.block b.blk).placeAt b.core
  decide (x < y) || (decide (x = y) && decide (a.num < b.num))

/-- The squad that an arbitration grants, with the squads whose quantum count is filled first. `n` is the arbitration count after it. -/
def State.chooseSquad (s : State) (qs : List Squad) (n : Nat) (unparked : Squad → Bool) : Option (Squad × List Squad) :=
  if n % 16 = 0 then
    (firstBy (fun a b => decide (a.last < b.last) || (decide (a.last = b.last) && s.older a b)) qs).map fun q => (q, [])
  else
    let p := qs.foldl (fun p q => max p (s.block q.blk).prio) 0
    let top := qs.filter fun q => (s.block q.blk).prio == p
    let c := if top.any unparked then top.filter unparked else top
    let fill := if c.all fun q => q.qt == 0 then c else []
    let ok := if fill.isEmpty then c.filter fun q => decide (0 < q.qt) else c
    (firstBy s.older ok).map fun q => (q, fill)

/-- A group has a thread that is not parked. -/
def State.hasUnparked (s : State) (g : Nat × Nat × BitVec 32) : Bool :=
  (List.range 32).any fun i => g.2.2.getLsbD i && !(s.thr (threadKey g.1 (32 * g.2.1 + i))).parked

/-- A slot is granted to one of the offered groups. The lane is the first after lp of any thread of the squad in G: lp passes no ready lane, and
parked marks bear on the choice of the squad (12 R312, R313). -/
def State.arbitrate (s : State) (core slot : Nat) : State :=
  let gs := s.offers
  let s := { s with offers := [] }
  match gs with
  | [] => s
  | _ :: _ =>
    let n := ((s.core core).n + 1) % 2 ^ 32
    let s := s.modCore core fun c => { c with n := n }
    let of (q : Squad) := gs.filter fun g => g.1 == q.blk && g.2.1 == q.num
    let qs := (s.slotSquads core).filter fun q => !(of q).isEmpty
    match s.chooseSquad qs n fun q => (of q).any s.hasUnparked with
    | none => s
    | some (q, fill) =>
      let s := fill.foldl (fun s q => s.modSquad q.blk q.num fun x => { x with qt := 4 }) s
      let l := nextLane q.lp ((of q).foldl (fun m g => m ||| g.2.2) 0)
      match (of q).find? fun g => g.2.2.getLsbD l with
      | none => s
      | some g =>
        let s := s.modSquad q.blk q.num fun x => { x with qt := if n % 16 = 0 then x.qt else x.qt - 1, lp := l, last := n }
        let ks := ((List.range 32).filter fun i => g.2.2.getLsbD i).map fun i => threadKey q.blk (32 * q.num + i)
        let s := ks.foldl (fun s k => s.modThr k fun t => { t with parked := false }) s
        s.modCore core fun c => c.setSlot slot (some { blk := q.blk, sq := q.num, lanes := g.2.2 })

/-- A slot may be arbitrated: it is free, and slot 0 goes first (12 R311). -/
def Core.mayArbitrate (c : Core) (slot : Nat) : Bool := (c.slot slot).isNone && (slot == 0 || c.slot0.isSome)

/-- RUN_ARBITRATION (12 R312). -/
def execRunArbitration (core slot : Nat) (s : State) : Host.Outcome State Fault Refusal :=
  .next (if (s.core core).mayArbitrate slot then s.arbitrate core slot else { s with offers := [] })

/-- A core counts for the attached session (17 R386). -/
def State.counting (s : State) (core : Nat) : Bool := s.session != 0 && (s.die (coreDie core)).active == some s.session

/-- A counter of a core advances. -/
def State.count (s : State) (core i n : Nat) : State :=
  if s.counting core then s.modCore core fun c => { c with counters := sset 0 c.counters i (sget 0 c.counters i + BitVec.ofNat 64 n) } else s

/-- STALL_BREAK (02 R38; 12 R315): it waits while a REGION is owed. -/
def execStallBreak (core slot : Nat) (s : State) : Host.Outcome State Fault Refusal :=
  .next (match (s.core core).slot slot with
    | some r => if 256 ≤ r.idle ∧ (s.owedRun r).isNone then (s.freeSlot core slot).count core 15 1 else s
    | none => s)

/-- SLEEP_EXPIRY (06 R149). -/
def execSleepExpiry (thr : Nat) (s : State) : Host.Outcome State Fault Refusal :=
  .next (match (s.thr thr).wait with
    | .sleep 0 next => s.modThr thr fun t => { t with wait := .ready, pc := next }
    | _ => s)

/-! ## Placement (12 R308, R309) -/

/-- The quads of a die in the order in which R309 looks at them. -/
def quadOrder (die q0 : Nat) : List Nat := (List.range 48).map fun i => 48 * die + (q0 + i) % 48

/-- A grid's next block has room in its context's save region (12 R308; 16 R363). -/
def State.roomSaved (s : State) (g : Nat) : Bool :=
  let gr := s.grid g
  let d := demandOf gr.rc
  s.saveFits gr.ctx (reservation d.nsq d.ncore (roundUp gr.rc.scratch 1024))

/-- The die places the block that R309 takes next, when it can. -/
def State.placeNext (s : State) (die : Nat) : State :=
  match s.nextBlock die with
  | none => s
  | some (.restart blk, _) => if s.restartFits blk && !(s.quad (s.block blk).dquad).frozen then s.replaceBlock blk else s
  | some (.fresh g _, _) =>
    if !s.roomSaved g then s
    else
      match (quadOrder die (s.die die).q0).findSome? fun q =>
          if (s.quad q).frozen then none else (s.bestSet q (demandOf (s.grid g).rc)).map fun r => (q, r) with
      | none => s
      | some (q, r) => (s.placeNew g q r).modDie die fun x => { x with q0 := (q % 48 + 1) % 48 }

/-- A block B of the active context could be placed on a set that includes a core; it is still waiting. -/
def State.couldPlace (s : State) (core : Nat) (b : NextBlock) : Bool :=
  match b with
  | .restart blk => some (s.block blk).ctx == (s.die (coreDie core)).active && (s.block blk).cores.contains core && s.restartFits blk && (s.die (s.block blk).die).restart.contains blk
  | .fresh g bid =>
    let d := demandOf (s.grid g).rc
    some (s.grid g).ctx == (s.die (coreDie core)).active && s.roomSaved g && decide ((s.grid g).nextBid = bid ∧ bid < (s.grid g).total) && s.setFits (core - coreRank core % d.ncore) d

/-- A swap whose victim has left its cores, on a die: the core and the waiting block. -/
def State.swapReady (s : State) (die : Nat) : Option (Nat × NextBlock) :=
  s.cores.findSome? fun c =>
    match c.2.swapping with
    | none => none
    | some (victim, b) => if coreDie c.1 = die ∧ !(s.block victim).onQuad ∧ !(s.quad (coreQuad c.1)).frozen then some (c.1, b) else none

/-- The waiting block of a swap is placed, marked as placed by a swap (12 R316). -/
def State.placeWaiting (s : State) (core : Nat) (b : NextBlock) : State :=
  match b with
  | .restart blk => (s.replaceBlock blk).modBlock blk fun x => { x with bySwap := true }
  | .fresh g _ =>
    (s.placeNew g (coreQuad core) (coreRank core - coreRank core % (demandOf (s.grid g).rc).ncore)).modBlock s.nextId fun x => { x with bySwap := true }

/-- A die places a block: first the one for which a swap has made room, else the one that R309 takes next. -/
def State.place (s : State) (die : Nat) : State :=
  match s.swapReady die with
  | none => s.placeNext die
  | some (core, b) =>
    let s := s.modCore core fun x => { x with swapping := none }
    if s.couldPlace core b then s.placeWaiting core b else s.placeNext die

/-- The active context of a die may have blocks placed. -/
def State.placing (s : State) (die : Nat) : Bool :=
  match (s.die die).active with
  | some c => !s.held && !(s.die die).leaving && (s.ctx c).status == .active
  | none => false

/-- BLOCK_PLACEMENT (12 R309). -/
def execBlockPlacement (die : Nat) (s : State) : Host.Outcome State Fault Refusal := .next (if s.placing die then s.place die else s)

/-! ## Contexts on a die (12 R305 to R307) -/

/-- Blocks of a context on a die, of a kind. -/
def State.blocksAt (s : State) (die ctx : Nat) (p : Block → Bool) : List Nat :=
  (s.blocks.filter fun e => e.2.die == die && e.2.ctx == ctx && p e.2).map (·.1)

/-- A context belongs in the ready list of a die. -/
def State.readyOn (s : State) (die c : Nat) : Bool :=
  match tget s.ctxs c with
  | none => false
  | some x => bit x.desc.dieset die && x.status == .active && (!(s.queued c).isEmpty || (s.die die).restart.any fun b => (s.block b).ctx == c)

/-- The first context of the ready list, cyclically after the one that left (12 R305). -/
def State.nextContext (s : State) (die : Nat) (but : Option Nat) : Option Nat :=
  ((List.range 63).map fun i => ((s.die die).lastCtx + i) % 63 + 1).find? fun c => s.readyOn die c && some c != but

/-- CTX_SLICE in nanoseconds. -/
def Context.slice (c : Context) : Nat := 1000 * c.desc.slice

/-- A context becomes active on a die. -/
def State.activate (s : State) (die : Nat) (c : Option Nat) : State :=
  s.modDie die fun d => { d with active := c, leaving := false, sliceLeft := (c.map fun c => (s.ctx c).slice).getD 0 }

/-- The active context leaves a die with its swaps, and the next becomes active (12 R306, Table 12.2). -/
def State.leave (s : State) (die c : Nat) : State :=
  let s := s.modDie die fun d => { d with lastCtx := c }
  let s := { s with cores := s.cores.map fun (e : Nat × Core) => (e.1, if coreDie e.1 = die then { e.2 with swapping := none } else e.2) }
  s.activate die (s.nextContext die (some c))

/-- CTX_SLICE_EXPIRY: the slice has run out, or the context has nothing left on the die, or its last block there has been discarded. A context
that halts keeps its squads until its dump is written (18 R411). -/
def execCtxSliceExpiry (die : Nat) (s : State) : Host.Outcome State Fault Refusal :=
  .next (if s.held ∨ ((s.die die).active.any fun c => (s.ctx c).status == .halting) then s else
    match (s.die die).active with
    | none => s.activate die (s.nextContext die none)
    | some c =>
      let there := s.blocksAt die c Block.onQuad
      let other := (s.nextContext die (some c)).isSome
      if (s.die die).leaving then (if there.isEmpty then s.leave die c else s)
      else if there.isEmpty && !s.readyOn die c then (if other ∨ (s.ctx c).status ≠ .active then s.leave die c else s)
      else if (s.die die).sliceLeft ≠ 0 then s
      else if !other then s.modDie die fun d => { d with sliceLeft := (s.ctx c).slice }
      else if there.isEmpty then s.leave die c
      else there.foldl (fun s b => s.requestDiscard b .slice) (s.modDie die fun d => { d with leaving := true }))

/-! ## Progress swap (12 R316) -/

/-- SWAP_IDLE of a context. -/
def Context.swapIdle (c : Context) : Nat := 2 ^ c.desc.swaplog

/-- The state as if a block had left its cores. -/
def State.without (s : State) (blk : Nat) : State :=
  { s with squads := s.squads.map fun (e : Nat × Squad) => (e.1, if e.2.blk = blk then { e.2 with resident := false } else e.2)
           blocks := tmod s.blocks blk fun b => { b with status := .discarded .swap } }

/-- The waiting blocks of a core, with their priorities. -/
def State.waitingFor (s : State) (core : Nat) : List (NextBlock × Nat) :=
  (s.nextBlock (coreDie core)).toList ++
  ((s.die (coreDie core)).restart.filter fun b => (s.block b).dquad == coreQuad core && some (s.block b).ctx == (s.die (coreDie core)).active).map
    fun b => (NextBlock.restart b, (s.block b).prio)

/-- V of R316. -/
def State.victims (s : State) (core : Nat) (b : NextBlock) : List (Nat × Block) :=
  (s.blocksOn (coreQuad core)).filter fun e => e.2.cores.contains core && e.2.status == .resident && !e.2.bySwap &&
    (s.without e.1).couldPlace core b

/-- The victim on a core: lowest priority, then oldest placement there. -/
def chooseVictim (core : Nat) : List (Nat × Block) → Option (Nat × Block)
  | [] => none
  | e :: es =>
    match chooseVictim core es with
    | none => some e
    | some f => some (if e.2.prio < f.2.prio ∨ e.2.prio = f.2.prio ∧ e.2.placeAt core ≤ f.2.placeAt core then e else f)

/-- PROGRESS_SWAP. -/
def execProgressSwap (core : Nat) (s : State) : Host.Outcome State Fault Refusal :=
  .next (match (s.die (coreDie core)).active with
    | none => s
    | some c =>
      if !s.placing (coreDie core) ∨ (s.quad (coreQuad core)).frozen ∨ (s.core core).idle < (s.ctx c).swapIdle then s
      else
        let s := s.modCore core fun x => { x with idle := 0 }
        match (s.waitingFor core).findSome? fun w => (chooseVictim core (s.victims core w.1)).bind fun v => if v.2.prio ≤ w.2 then some (w.1, v) else none with
        | none => s
        | some v => (s.requestDiscard v.2.1 .swap).modCore core fun x => { x with swapping := some (v.2.1, v.1) })

/-! ## Discard -/

/-- A step of Table 16.6 has nothing left to wait for. -/
def State.holdStepDone (s : State) (step : Nat) : Bool :=
  match step with
  | 1 => (tvals s.blocks).all fun b => b.status != .resident
  | 2 => (List.range 4).all fun d => (s.die d).holds.all fun h => h.released
  | 3 => s.accs.all (fun a => a.stage == .cancelled || match a.kind with | .engine _ | .mma _ => false | _ => true) && s.credits.isEmpty
  | 4 => (tvals s.quads).all fun q => (tvals q.banks).all fun b => b.occupant.isNone || !b.dirty
  | 5 => (tvals s.blocks).all (fun b => !b.onQuad) && (tvals s.ctxs).all (fun c => c.status != .halting) &&
         s.accs.all (fun a => a.stage == .cancelled || match a.kind with | .store | .atomic _ _ | .sync _ | .launch => false | _ => true)
  | 6 => s.accs.all (fun a => a.stage == .cancelled || match a.kind with | .store | .atomic _ _ => false | _ => true) &&
         (tvals s.packets).all (·.isEmpty) && s.evicted.isEmpty && (s.collapses.all fun c => c.failed) && s.migrations.isEmpty && s.bar.isEmpty && s.remote.isEmpty
  | _ => false

/-- The step of entry under way: the first that is not done. -/
def State.holdStep (s : State) : Nat := ((List.range 7).map (· + 1)).find? (fun n => !s.holdStepDone n) |>.getD 7

/-- SQUAD_DISCARD (02 R46; 12 R318); at Hold entry it is step 5 (16 Table 16.6). The squads of a context that halts stop where they stand, and
are freed with it (18 R411). -/
def execSquadDiscard (blk sq : Nat) (s : State) : Host.Outcome State Fault Refusal :=
  .next (let b := s.block blk
    let asked := (match b.status with | .discarding _ _ => true | _ => false) || (s.squad blk sq).replay
    if asked && (s.squad blk sq).resident && !(s.quad b.dquad).frozen && (s.ctx b.ctx).status != .halting && s.squadEligible blk sq &&
        (!s.hold.entering || decide (5 ≤ s.holdStep)) then s.discardSquad blk sq else s)

/-- DETAIL of DISCARD_STUCK. -/
def DiscardCause.code : DiscardCause → Nat
  | .swap | .softError => 0
  | .slice => 1
  | .stop => 2
  | .hold => 3

/-- The number from which a discard has been reported as stuck. -/
def stuckMark : Nat := 2 ^ 40

/-- Squads of a stop that could not be discarded stop where they stand (21 R464). -/
def State.forceDiscard (s : State) (blk : Nat) : State :=
  (List.range (s.block blk).nsq).foldl (fun s j => if (s.squad blk j).resident then (s.modSquad blk j fun q => { q with replay := false }).discardSquad blk j else s)
    (s.endRuns blk)

/-- A swap's discard is abandoned: the block stays, and the squads that have left come back to their own slots once those have room and the
stores that they issued before have been performed (02 R48; 21 R464). -/
def State.abandonSwap (s : State) (blk : Nat) : State :=
  let b := s.block blk
  let s := s.modBlock blk fun b => { b with status := .resident }
  let s := (List.range b.nsq).foldl
    (fun s j => if (s.squad blk j).resident then s else s.modSquad blk j fun q => { q with draining := true }) s
  (s.endSwap blk).resetIdle b

/-- DISCARD_STUCK (21 R464), once for a discard. -/
def execDiscardStuck (blk : Nat) (s : State) : Host.Outcome State Fault Refusal :=
  .next (let b := s.block blk
    match b.status with
    | .discarding c n =>
      if n < (s.ctx b.ctx).swapIdle ∨ stuckMark ≤ n ∨ (s.quad b.dquad).frozen ∨ (s.ctx b.ctx).status = .halting then s
      else
        let s := s.notice 0x0906 0 c.code
        match c with
        | .swap => s.abandonSwap blk
        | .stop => (s.modBlock blk fun b => { b with status := .discarding c stuckMark }).forceDiscard blk
        | _ => s.modBlock blk fun b => { b with status := .discarding c stuckMark }
    | _ => s)

end Sys2Proof.Machine
end

