-- ==== Sys2Proof/Machine/Perform.lean ====
section
/-! DEFINITION. How the accesses of threads are performed (11 R279, R285, R292, R293; 08 R200 to R210; 10 R256 to R268): loads, stores and
atomics at their places, packets, notices and clocks, the operand log's replay, and the units of barriers and cloves. An access is
performed once nothing it is ordered after is left (11 R281), so every write that precedes it has been performed before it. -/

namespace Sys2Proof.Machine

/-! ## What an access meets -/

/-- The VA of an access to global memory. -/
def Access.va (a : Access) : Nat := a.ea.toNat % 2 ^ 56

/-- A page stands duplicated. -/
def State.duplicated (s : State) (ctx va : Nat) : Bool :=
  match s.leaf ctx va with
  | some (_, e, 3) => pteV e && pteDup e
  | _ => false

/-- A write to a page waits: for a migration, for a collapse, which starts here, for a far atomic, or for the accesses of the core that owns
the page (10 R258, R268, R270, R272). -/
def State.writeWaits (s : State) (a : Access) (key : Nat) : Option State :=
  if s.duplicated a.ctx a.va then
    if s.neverWritten a.ctx a.va then some (s.cancel a) else
    match s.leaf a.ctx a.va with
    | some (_, e, _) => some (s.beginCollapse a.ctx (pageBase a.va 3) e)
    | none => some s
  else if s.migrating a.ctx a.va ∨ s.lineHeld (lineOf key) ∨ s.classWaits a.ctx a.va (some a.core) then some s
  else none

/-! ## Requests that leave the package -/

/-- The package of a space-4 access. -/
def Access.package (a : Access) : Nat := bits a.ea.toNat 55 46

/-- The request of an access to this package's own id, which takes the way of a remote one (16 R365, R366). -/
def Access.ownRequest (a : Access) (id : Nat) : RemoteReq :=
  { src := id, tag := a.id, thr := a.thr, offset := a.ea.toNat % 2 ^ 46, size := a.size, strm := a.strm, pred := a.pred, scope := a.scope, masked := a.masked
    kind := match a.kind with
      | .atomic op _ => if op.code = 9 then .atomic 9 op.var a.data2 a.data else .atomic op.code op.var a.data 0
      | .store => .write a.data
      | _ => .read }

/-- A request for host memory, or for another package, is sent (10 R277; 16 R365, R366); a package that is marked as held refuses at once
(16 Table 16.7). -/
def State.sendOut (s : State) (a : Access) : State :=
  let sent := s.modAcc a.id fun x => { x with stage := .sent, sentAt := s.time.toNat }
  match a.key with
  | some _ =>
    match s.hostRefusal a.ctx a.scope a.ea with
    | some f => s.failAcc a f
    | none => sent
  | none =>
    if a.package = s.links.packageId then sent.plan [.space4Request (a.ownRequest s.links.packageId)]
    else
      match tget s.links.routes a.package with
      | none => s.failAcc a { code := 0x0B01, addr := a.ea, detail := a.package }
      | some r => if r.held then s.failAcc a { code := 0x0B03, addr := a.ea, detail := 0x0D04 } else sent

/-! ## Loads -/

/-- A load's value is bound: its destinations are written, and it is performed. -/
def State.bindLoad (s : State) (a : Access) (v : Nat) : State :=
  ((s.writeDests a (v % 2 ^ (8 * a.size))).lend a (v % 2 ^ (8 * a.size))).performed a

/-- The thread's own latest store that covers a load and of which nothing has been performed (11 R282). -/
def State.ownStore (s : State) (a : Access) : Option Access :=
  (s.accs.filter fun x => x.thr == a.thr && decide (x.id < a.id) && x.standing && x.covers a).getLast?

/-- The part that is performed next: parts of one access have no order among them. -/
def State.nextPart (s : State) (a : Access) : State × Nat :=
  match a.partsLeft with
  | [i] => (s, i)
  | ps => (s.draw, ps.getD (Config.choose s.freeN % ps.length) 0)

/-- A part of a load has returned `v`; with the last the load's value is bound. -/
def State.partLoaded (s : State) (a : Access) (i v : Nat) : State :=
  let value := a.data + v * 2 ^ (64 * i)
  if a.partsLeft = [i] then s.bindLoad a value else s.modAcc a.id fun x => { x with got := x.got ++ [i], data := value }

/-- The core that a load at a VA must probe before it goes on: its page is SHARED-RO, or it carries the hint, its L1 misses, and the predictor
names a core of the die (10 R261). -/
def State.probes (s : State) (a : Access) (va line : Nat) : Option Nat :=
  if a.probed != some line && (a.ro || s.classOf a.ctx va == 2) && (s.holds (.l1 a.core) line).isNone then
    match tget (s.core a.core).predictor (bits va 23 16) with
    | some (tag, c) => if tag = bits va 55 24 ∧ coreDie c = coreDie a.core then some c else none
    | none => none
  else none

/-- A load, of a thread or of a record, sends its peer probe, or waits for the answer of the one it has sent (10 R261). -/
def State.probing (s : State) (a : Access) (va line : Nat) : Option State :=
  match a.probe, s.probes a va line with
  | some _, _ => some s
  | none, some c => some (s.modAcc a.id fun x => { x with probe := some (c, line) })
  | none, none => none

/-- A part of a load of device memory. -/
def State.loadDevice (s : State) (a : Access) (key : Nat) : State :=
  if s.classWaits a.ctx a.va (some a.core) then s
  else
    let s := s.classify a.ctx a.va (some a.core) false
    let cls := s.classOf a.ctx a.va
    if s.lineHeld (lineOf key) then s
    else
      match s.probing a a.va (lineOf key) with
      | some s => s
      | none =>
        let (s, ok) := s.reach a.core a.va key cls (scopeWide a.scope)
        if !ok then s
        else
          let (s, i) := s.nextPart a
          let p := key + 8 * i
          if s.diePoisoned (coreDie a.core) p a.partSize cls then s.failAcc a (poisonConsumed a.ea p)
          else s.partLoaded a i (s.dieRead (coreDie a.core) p a.partSize cls)

/-- The value of a store that stands is returned to a later load of its thread. The load is performed once the store has been, since a
write could else still change what it returns (11 R279); what issues meanwhile comes after it. -/
def State.forward (s : State) (a x : Access) (v : Nat) : State :=
  ((s.writeDests a (v % 2 ^ (8 * a.size))).lend a (v % 2 ^ (8 * a.size))).modAcc a.id fun y =>
    { y with dests := [], data := v % 2 ^ (8 * a.size), stage := .bound x.id s.nextId }

/-- A load whose value a store of its thread gave is performed; in a scratchpad watchpoints see it (17 R378). -/
def State.endForward (s : State) (a : Access) : State :=
  let key := a.key.getD 0
  (if 2 ^ 48 ≤ key then s.watchScratch a.blk a.thr key a.size true false a.pc a.data a.data else s).performed a

/-- A load that nothing holds back. -/
def State.performLoad (s : State) (a : Access) : State :=
  match a.key with
  | none => s.sendOut a
  | some key =>
    match if a.got.isEmpty then s.ownStore a else none with
    | some x => if x.masked.isEmpty then s.forward a x (x.data / 2 ^ (8 * (key - x.key.getD key))) else s
    | none =>
      if 2 ^ 48 ≤ key then
        let (s, i) := s.nextPart a
        let p := key + 8 * i
        if s.poisoned p a.partSize then s.failAcc a (poisonConsumed a.ea p)
        else
          let v := s.readMem p a.partSize
          (if a.partsLeft = [i] then s.watchScratch a.blk a.thr key a.size true false a.pc v v else s).partLoaded a i v
      else if inHost key then s.sendOut a
      else s.loadDevice a key

/-- An access that has issued, that stands at its place and that is ordered after nothing that is left. -/
def State.due (s : State) (acc : Nat) : Option Access :=
  (s.acc acc).bind fun a => if a.stage = .issued ∧ !s.waits a then some a else none

/-- LOAD_PERFORM: a part of a load is performed, or a load whose value has been returned is, once its store is gone. -/
def execLoadPerform (acc : Nat) (s : State) : Host.Outcome State Fault Refusal :=
  .next (match s.acc acc with
    | some a =>
      match a.stage with
      | .bound x _ => if (s.acc x).isNone then s.endForward a else s
      | _ =>
        match s.due acc with
        | some a => if a.kind = .load then s.performLoad a else s
        | none => s
    | none => s)

/-! ## Stores -/

/-- A part of a store has been performed: the accesses of lower lanes of its execution whose place is not known yet will not write its bytes
(08 R205). -/
def State.castShadow (s : State) (a : Access) (i : Nat) : State :=
  let runs := (a.partPuts i).map fun r => (r.1, r.2.1)
  { s with accs := s.accs.map fun (x : Access) =>
      if x.execId = a.execId ∧ x.kind = .store ∧ x.id < a.id ∧ x.key.isNone then { x with shadow := x.shadow ++ runs } else x }

/-- A part of a store has been performed. `answer` is the home, on another die, whose acknowledgement is awaited, with its stamp
(11 R297). With the last part a store ends, once every acknowledgement is there; a store that then covers a whole poisoned sector has cleared
it (20 R455). -/
def State.partStored (s : State) (a : Access) (i : Nat) (answer : Option (Nat × List Nat)) : State :=
  let s := s.castShadow a i
  let key := a.key.getD 0
  let last := a.partsLeft = [i]
  let s := if last then (storeRuns a.masked a.size).foldl (fun s r => s.cureRange (key + r.1) r.2) s else s
  match answer with
  | some (home, stamp) =>
    if last then s.modAcc a.id fun x => { x with stage := .acked home stamp }
    else
      ({ s with acks := s.acks ++ [{ acc := a.id, part := i, home := home, dst := coreDie a.core, stamp := stamp, puts := a.partPuts i }] } : State).modAcc
        a.id fun x => { x with got := x.got ++ [i] }
  | none => if last then s.endStore a i else s.modAcc a.id fun x => { x with got := x.got ++ [i] }

/-- The runs of a part of a store written to plain memory. -/
def State.writePart (s : State) (a : Access) (i : Nat) : State :=
  (a.partPuts i).foldl (fun s r => (s.writeMem r.1 r.2.1 r.2.2).cureRange r.1 r.2.1) s

/-- A part of a store of a scratchpad. -/
def State.storeScratch (s : State) (a : Access) (key : Nat) : State :=
  let (s, i) := s.nextPart a
  let p := key + 8 * i
  let old := s.readMem p a.partSize
  let s := s.writePart a i
  (if a.partsLeft = [i] then s.watchScratch a.blk a.thr key a.size false true a.pc old (s.readMem p a.partSize) else s).partStored a i none

/-- The runs of a part of a store at its home slice. -/
def State.storeHome (s : State) (a : Access) (home i : Nat) : State :=
  let die := coreDie a.core
  (a.partPuts i).foldl (fun s r => (s.homeWrite (some die) (some a.core) r.1 r.2.1 r.2.2).1) (s.request die home (scopeWide a.scope))

/-- The L1 of a core holds a line exclusive. -/
def State.exclusive (s : State) (core line : Nat) : Bool := (s.holds (.l1 core) line).any (·.excl)

/-- A part of a store of device memory: in an L1 when its page is private or its line held exclusive there, else at the home slice; a store
whose home is another die waits for the acknowledgement (10 R260; 11 R279, R297). -/
def State.storeDevice (s : State) (a : Access) (key : Nat) : State :=
  match s.writeWaits a key with
  | some s => s
  | none =>
    let s := s.classify a.ctx a.va (some a.core) true
    let (s, i) := s.nextPart a
    if s.classOf a.ctx a.va = 1 ∨ s.exclusive a.core (lineOf key) then
      ((a.partPuts i).foldl (fun s r => s.privateWrite a.core r.1 r.2.1 r.2.2) s).partStored a i none
    else
      match homeDie key with
      | none => s
      | some home =>
        let s := s.storeHome a home i
        s.partStored a i (if home = coreDie a.core ∨ (a.partRuns i).isEmpty then none else some (home, (s.die home).clock))

/-- The acknowledgement of a store's last part reaches its core's die, with every message that comes before it. -/
def State.ackStore (s : State) (a : Access) (stamp : List Nat) : State :=
  (s.mergeStamp (coreDie a.core) stamp).catchUp (coreDie a.core) s.inTransit

/-- A store that nothing holds back. A store to host memory is performed as it is placed in the link's posted order (11 R279). -/
def State.performStore (s : State) (a : Access) : State :=
  match a.key with
  | none => s.sendOut a
  | some key =>
    if 2 ^ 48 ≤ key then s.storeScratch a key
    else if inHost key then
      match s.hostRefusal a.ctx a.scope a.ea with
      | some f => s.failAcc a f
      | none =>
        let (s, i) := s.nextPart a
        (s.writePart a i).partStored a i none
    else s.storeDevice a key

/-- STORE_PERFORM: a part of the store is performed at its place, or its acknowledgement arrives. -/
def execStorePerform (acc : Nat) (s : State) : Host.Outcome State Fault Refusal :=
  .next (match s.acc acc with
    | some a =>
      if a.kind ≠ .store then s
      else
        match a.stage with
        | .issued => if s.waits a then s else s.performStore a
        | .acked _ stamp => s.ackStore a stamp
        | _ => s
    | none => s)

/-! ## Atomics (08 Tables 8.7, 8.8) -/

/-- The format of an FADD. -/
def faddFormat (var : Bool) (size : Nat) : Nat :=
  match size with
  | 2 => if var then 0x09 else 0x08
  | 4 => 0x0A
  | _ => 0x0B

/-- new(old, v); none where an ATOMC's comparison fails. `v2` is the new value of an ATOMC. -/
def atomResult (op : AtomOp) (size old v v2 : Nat) : Option Nat :=
  let w := 8 * size
  let m := 2 ^ w
  let le (x y : Nat) : Bool := if op.var then decide (signedOf x w ≤ signedOf y w) else decide (x ≤ y)
  match op.code with
  | 0 => some ((old + v) % m)
  | 1 => some ((old + (m - v % m)) % m)
  | 2 => some (if le old v then old else v)
  | 3 => some (if le old v then v else old)
  | 4 => some (old &&& v)
  | 5 => some (old ||| v)
  | 6 => some (old ^^^ v)
  | 7 => some v
  | 8 =>
    let f := faddFormat op.var size
    some (roundTo plainMode f 0 (faddVal plainMode (decodeFloat f old) (decodeFloat f v) (.zero false)))
  | _ => if old = v then some v2 else none

/-- The value that an atomic leaves at its place. -/
def Access.atomNew (a : Access) (op : AtomOp) (old : Nat) : Option Nat := atomResult op a.size old a.data a.data2

/-- An atomic has been made: its old value goes to its destination, and it is performed. -/
def State.finishAtomic (s : State) (a : Access) (old : Nat) : State := ((s.writeDests a old).lend a old).performed a

/-- An atomic of a scratchpad. -/
def State.atomScratch (s : State) (a : Access) (op : AtomOp) (key : Nat) : State :=
  if s.poisoned key a.size then s.failAcc a (poisonConsumed a.ea key)
  else
    let old := s.readMem key a.size
    let s := match a.atomNew op old with | some x => s.writeMem key a.size x | none => s
    (s.watchScratch a.blk a.thr key a.size true true a.pc old (s.readMem key a.size)).finishAtomic a old

/-- The core in whose L1 a blk- or quad-scope atomic is made. -/
def State.atomCore (s : State) (a : Access) : Nat :=
  let b := s.block a.blk
  if a.scope = 1 then 4 * b.dquad + b.rank0 else 4 * b.dquad

/-- An atomic at the home slice of its line: the line comes there first, and every L1 copy goes when it is written. The reply brings the home's
clock. -/
def State.atomHome (s : State) (a : Access) (op : AtomOp) (key home : Nat) : State :=
  let die := coreDie a.core
  let (s, ok) := ((s.request die home (scopeWide a.scope)).recall (lineOf key) none).atHome home (lineOf key) die false
  if !ok then s
  else
    let old := s.readMem key a.size
    let s := match a.atomNew op old with
      | some x =>
        let (s, stamp) := s.homeWrite (some die) none key a.size x
        s.acknowledge die key a.size x stamp
      | none => s.receive die home (s.die home).clock
    s.finishAtomic a old

/-- A shared line comes exclusive into an L1 of its home die: every other copy goes (10 R260). -/
def State.takeExclusive (s : State) (core home line : Nat) : State :=
  if s.exclusive core line then s
  else (((s.recall line (some core)).announce (some home) (some core) home line).1).fillL1 core line 0 true

/-- An atomic in an L1: the line comes there exclusive. -/
def State.atomL1 (s : State) (a : Access) (op : AtomOp) (key home core cls : Nat) : State :=
  let (s, ok) := if (s.holds (.l1 core) (lineOf key)).isSome then (s, true)
    else ((s.request (coreDie core) home (scopeWide a.scope)).recall (lineOf key) (some core)).atHome home (lineOf key) (coreDie core) false
  if !ok then s
  else
    let s := if cls = 1 then s.fillL1 core (lineOf key) 0 true else s.takeExclusive core home (lineOf key)
    let old := s.readMem key a.size
    (match a.atomNew op old with | some x => s.privateWrite core key a.size x | none => s).finishAtomic a old

/-- The clean copies of a line leave L2 and the MSC. -/
def State.dropClean (s : State) (line : Nat) (lv : Level → Bool) : State := s.dropLines fun x => x.line == line && lv x.level

/-- A far atomic's value is written, where it is made, by its home slice or base die: the home's clock counts it, and its reply goes to its die
(10 R268; 11 R297). -/
def State.farWrite (s : State) (a : Access) (op : AtomOp) (key home : Nat) : State :=
  let die := coreDie a.core
  let old := s.readMem key a.size
  (match a.atomNew op old with
    | some x =>
      let (s, stamp) := s.announce (some die) none home (lineOf key)
      let s := (s.writeMem key a.size x).modPageInfo key fun i => { i with written := true, wrote := true }
      s.acknowledge die key a.size x stamp
    | none => s.receive die home (s.die home).clock).finishAtomic a old

/-- An atomic in the MSC, on the current value; its sector there is then dirty. A sector that the MSC does not hold comes from memory first. -/
def State.atomMsc (s : State) (a : Access) (op : AtomOp) (key home : Nat) : State :=
  let line := lineOf key
  let m := sectorMask key a.size
  let lack := m &&& ~~~s.sectorsAt (.msc home) line
  if lack ≠ 0 then s.askSectors line lack false 0
  else
    let s := (s.countAccess key (coreDie a.core)).dropClean line fun l => l == .l2 home
    (if (a.atomNew op (s.readMem key a.size)).isSome then s.fillMsc home line m m else s).farWrite a op key home

/-- A far atomic at its home slice (10 R268): an owner's dirty line is written back, every L1 copy goes, and the dies of the remote-sharer
vector are told, before it is made or sent to the base die. -/
def State.atomFar (s : State) (a : Access) (op : AtomOp) (key home : Nat) : State :=
  let line := lineOf key
  let die := coreDie a.core
  let s := ((s.request die home true).recall line none).invalidate (some die) none home line
  let dirty (lv : Level) : Bool := (s.holds lv line).any fun x => x.dirty != 0
  if dirty (.l2 home) then s.atomHome a op key home
  else if dirty (.msc home) then s.atomMsc a op key home
  else if 1024 ≤ (s.packetsAt (stackOf key)).length then s
  else
    let s := (s.countAccess key die).dropClean line fun l => l == .l2 home || l == .msc home
    (s.name.sendPacket (stackOf key) (.atomic s.nextId a.id)).modAcc a.id fun x => { x with stage := .atBase }

/-- A far atomic on a page that is PRIVATE to another core leaves its class as it is (20 Table 20.4). -/
def State.farPrivate (s : State) (a : Access) (key : Nat) : Bool :=
  a.scope == 6 && inHbm key &&
  match s.leaf a.ctx a.va with
  | some (_, e, 3) => pteClass e == 1 && pteTag e != a.core
  | _ => false

/-- A write to a page waits for its collapse, its migration, or a far atomic on its line (10 R268, R270, R272). -/
def State.atomWaits (s : State) (a : Access) (key : Nat) : Option State :=
  if s.farPrivate a key then (if s.migrating a.ctx a.va ∨ s.lineHeld (lineOf key) then some s else none) else s.writeWaits a key

/-- An atomic of device memory (08 Table 8.8). An atomic made in an L1 is an access of that L1's core. -/
def State.atomDevice (s : State) (a : Access) (op : AtomOp) (key : Nat) : State :=
  match s.atomWaits a key with
  | some s => s
  | none =>
    let near := a.scope = 1 ∨ a.scope = 2
    let core := if near then s.atomCore a else a.core
    let kept := s.farPrivate a key
    if !kept && s.classWaits a.ctx a.va (some core) then s else
    let s := if kept then s else s.classify a.ctx a.va (some core) true
    let cls := s.classOf a.ctx a.va
    if s.poisoned key a.size then s.failAcc a (poisonConsumed a.ea key)
    else
      match homeDie key with
      | none => s
      | some home =>
        if near ∧ (cls = 1 ∨ home = coreDie core) then s.atomL1 a op key home core cls
        else if a.scope = 6 ∧ inHbm key then s.atomFar a op key home
        else s.atomHome a op key home

/-- ATOMIC_PERFORM (08 R208, R210). -/
def execAtomicPerform (acc : Nat) (s : State) : Host.Outcome State Fault Refusal :=
  .next (match s.due acc with
    | some a =>
      match a.kind, a.key with
      | .atomic _ _, none => s.sendOut a
      | .atomic op _, some key =>
        if 2 ^ 48 ≤ key then s.atomScratch a op key
        else if inHost key then s.sendOut a
        else s.atomDevice a op key
      | _, _ => s
    | none => s)

/-! ## Answers from outside -/

/-- HOST_ACCESS_COMPLETION (11 R279; 08 R209; 21 Table 21.1): status 0 is success; any other fails the access. A load is performed by its 8-byte
parts (08 R200); the host's home agent makes an atomic on the bytes it holds. -/
def execHostAccessCompletion (acc status : Nat) (s : State) : Host.Outcome State Fault Refusal :=
  .next (match s.acc acc with
    | some a =>
      match a.stage, a.key with
      | .sent, some key =>
        if status ≠ 0 then s.failAcc a { code := 0x0B05, addr := a.ea, detail := status % 8 }
        else
          match a.kind with
          | .load =>
            let (s, i) := s.nextPart a
            s.partLoaded a i (s.readMem (key + 8 * i) a.partSize)
          | .atomic op _ =>
            let old := s.readMem key a.size
            (match a.atomNew op old with | some x => s.writeMem key a.size x | none => s).finishAtomic a old
          | _ => s
      | _, _ => s
    | none => s)

/-- SPACE4_ACK (16 R366; 21 Table 21.1): the remote package has performed the access, or refuses it with a code; 0x0B01 is the refusal of a
package that has no export context, and 0x0A02 a poisoned flit, with the structure of Table 20.3 as its value (20 R455). -/
def execSpace4Ack (acc value : Nat) (refusal : Option Nat) (s : State) : Host.Outcome State Fault Refusal :=
  .next (match s.acc acc with
    | some a =>
      match a.stage, a.key, refusal with
      | .sent, none, some 0x0B01 => s.failAcc a { code := 0x0B01, addr := a.ea, detail := a.package + 1024 }
      | .sent, none, some 0x0A02 => s.failAcc a { code := 0x0A02, addr := a.ea, detail := value % 256 }
      | .sent, none, some code => s.failAcc a { code := 0x0B03, addr := a.ea, detail := code % 65536 }
      | .sent, none, none =>
        match a.kind with
        | .load => s.bindLoad a value
        | .store => s.performed a
        | .atomic _ _ => s.finishAtomic a (value % 2 ^ (8 * a.size))
        | _ => s
      | _, _, _ => s
    | none => s)

/-- The request of an access to this package's own id has been taken, and waits in its export context, for a page that is not resident or for
its turn: it waits without a fault (16 R365; 21 R466). -/
def State.waitsHere (s : State) (acc : Nat) : Bool := s.remote.any fun r => r.src == s.links.packageId && r.tag == acc

/-- LINK_TIMEOUT (21 R466): 10 ms of $time without an acknowledgement. -/
def execLinkTimeout (acc : Nat) (s : State) : Host.Outcome State Fault Refusal :=
  .next (match s.acc acc with
    | some a =>
      if a.stage = .sent ∧ a.key = none ∧ a.sentAt + 10000000 ≤ s.time.toNat ∧ !s.waitsHere acc then
        s.failAcc a { code := 0x0B02, addr := a.ea, detail := ((tget s.links.routes a.package).map (·.port)).getD 0 }
      else s
    | none => s)

/-! ## Peer probes, classes, notices and clocks -/

/-- The first load whose probe has gone to a core for a line. -/
def State.prober (s : State) (core line : Nat) : Option Access := s.accs.find? fun a => a.probe == some (core, line)

/-- The VAs of global memory of the line of a probe: the load's own, or those of its record and its list. -/
def Access.lineVas (a : Access) (line : Nat) : List Nat :=
  (if a.key.map lineOf = some line then [a.va] else []) ++
  a.listAt.filterMap fun e => if e.2 / 65536 = line / 512 then some e.1 else none

/-- PEER_PROBE (10 R262): the L1 of `core` answers with the line when it holds it and its TLB has the page SHARED-RO; else the probe misses,
and the load goes on to the home slice. -/
def execPeerProbe (core line : Nat) (s : State) : Host.Outcome State Fault Refusal :=
  .next (match s.prober core line with
    | none => s
    | some a =>
      let known := (s.core core).tlb.any fun e =>
        e.ctx == a.ctx && ((a.lineVas line).any fun v => e.page == pageBase v e.level) && (pteClass e.pte.toNat == 2 || !pteW e.pte.toNat)
      let s := s.modAcc a.id fun x => { x with probe := none, probed := some line }
      if (s.holds (.l1 core) line).isSome && known then s.fillL1 a.core line 0 false else s)

/-- PAGE_CLASS_TRANSITION (10 R258, R259): `core` is the core on whose own L1 path the access comes. -/
def execPageClassTransition (ctx va : Nat) (core : Option Nat) (wr : Bool) (s : State) : Host.Outcome State Fault Refusal :=
  .next (if (tget s.ctxs ctx).isSome && !s.classWaits ctx va core then s.classify ctx va core wr else s)

/-- WRITE_NOTICE (10 R264; 11 R297): the oldest notice of a die is applied, after every notice that hold-back puts before it. -/
def execWriteNotice (src dst : Nat) (s : State) : Host.Outcome State Fault Refusal :=
  .next (match s.notices.find? fun n => n.src == src && n.dst == dst with
    | some n => (s.applyNotice n).catchUp dst s.inTransit
    | none => s)

/-- CLOCK_PROBE (11 Table 11.6): the asked die sends its pending notices and then its clock. -/
def execClockProbe (asker asked : Nat) (s : State) : Host.Outcome State Fault Refusal :=
  .next (s.receive asker asked (s.die asked).clock)

/-! ## Packets (10 R267) -/

/-- The line of a packet and its sectors; a walk has none. -/
def State.packetSectors (s : State) (p : Packet) : Nat × BitVec 4 :=
  match p with
  | .read _ l m _ _ | .write _ l m => (l, m)
  | .atomic _ a => match (s.acc a).bind (·.key) with | some k => (lineOf k, sectorMask k 1) | none => (0, 0)
  | .walk _ _ => (0, 0)

/-- The tag of a packet. -/
def Packet.tag : Packet → Nat
  | .read t _ _ _ _ | .write t _ _ | .atomic t _ | .walk t _ => t

/-- A packet of a tag that no earlier packet to one of its sectors holds back, and the packets without it; its place is free for an evicted
line. -/
def State.takePacket (s : State) (stack tag : Nat) : Option (Packet × State) :=
  let ps := s.packetsAt stack
  match ps.find? fun p => p.tag == tag with
  | none => none
  | some p =>
    let x := s.packetSectors p
    let clash (q : Packet) : Bool := (s.packetSectors q).1 == x.1 && (s.packetSectors q).2 &&& x.2 != 0
    if (ps.takeWhile fun q => q != p).any clash then none
    else some (p, ({ s with packets := tset s.packets stack (ps.filter fun q => q != p) }).sendEvicted stack)

/-- HBM_READ_PACKET: the sectors come back, and are filled in the MSC, but for the no-allocate hint, and in L2 with those that the MSC holds
(10 R266); the RDCs that a PREF named take the line. -/
def execHbmReadPacket (stack tag : Nat) (s : State) : Host.Outcome State Fault Refusal :=
  .next (match s.takePacket stack tag with
    | some (.read _ line sectors noAlloc rdcs, s) =>
      let home := stack / 2
      let msc := s.sectorsAt (.msc home) line
      let s := (if noAlloc then s else s.fillMsc home line sectors 0).fillL2 home line (sectors ||| msc) 0
      if s.sectorsAt (.l2 home) line = 15 ∧ !s.lineHeld line then
        ((List.range 4).filter rdcs.getLsbD).foldl (fun s d => if d = home then s else s.fillRdc d home line) s
      else s
    | _ => s)

/-- HBM_WRITE_PACKET: the sectors reach memory; the model holds every byte there already (log 10). -/
def execHbmWritePacket (stack tag : Nat) (s : State) : Host.Outcome State Fault Refusal :=
  .next (match s.takePacket stack tag with
    | some (.write _ _ _, s) => s
    | _ => s)

/-- A page's key has been destroyed (20 Table 20.4). -/
def State.keyGone (s : State) (a : Access) : Option Nat :=
  match s.leaf a.ctx a.va with
  | some (_, e, _) => if (s.ctx a.ctx).hasKey (pteKey e) then none else some (pteKey e)
  | none => none

/-- HBM_ATOMIC_PACKET (10 R268): the base die makes the atomic and replies with the old value. -/
def execHbmAtomicPacket (stack tag : Nat) (s : State) : Host.Outcome State Fault Refusal :=
  .next (match s.takePacket stack tag with
    | some (.atomic _ acc, s) =>
      match s.acc acc with
      | none => s
      | some a =>
        match a.kind, a.key with
        | .atomic op _, some key =>
          if s.poisoned key a.size then s.failAcc a (poisonConsumed a.ea key)
          else
            match s.keyGone a with
            | some k => s.failAcc a { code := 0x0406, addr := a.ea, detail := k }
            | none => s.farWrite a op key (stack / 2)
        | _, _ => s
    | _ => s)

/-! ## Replay of the operand log (13 R341; 20 R435, R436) -/

/-- What an access asks of its page when it replays. -/
def AccessKind.need (k : AccessKind) : Need :=
  match k with
  | .store => .write
  | .atomic _ _ => .both
  | _ => .read

/-- The ranges that an access of a thread reads or writes: its own bytes, and the index list of a gather or scatter. -/
def Access.ranges (a : Access) : List (Word × Nat) :=
  match a.kind with
  | .engine (.gather r _ l n) | .engine (.scatter r _ l n _) => [(r, 64), (l, 4 * n)]
  | _ => [(a.ea, a.size)]

/-- The VAs, one to a page, at which the ranges of an access need a translation. -/
def Access.touches (a : Access) : List Nat :=
  a.ranges.flatMap fun r => if r.1.toNat / 2 ^ 60 = 0 then pagesOf (r.1.toNat % 2 ^ 56) r.2 else []

/-- What the translations of a replay say: the first that fails, with its VA. -/
def State.replayCheck (s : State) (a : Access) : List Nat → Trans × Nat
  | [] => (.ok 0 0 0, 0)
  | va :: vas =>
    match s.translate a.ctx (va % 2 ^ 56) (coreDie a.core) a.kind.need with
    | .ok _ _ _ => s.replayCheck a vas
    | t => (t, va % 2 ^ 56)

/-- An earlier entry of the thread whose page has become resident, or has been declared unresolvable, replays first. -/
def State.replayFirst (s : State) (a : Access) : Bool :=
  s.accs.any fun x =>
    x.thr == a.thr && decide (x.id < a.id) &&
    match x.stage with
    | .logged p =>
      (match (s.replayCheck x x.touches).1 with | .notResident _ => false | _ => true) ||
      (((s.ctx x.ctx).report p).map (·.unresolvable)).getD false
    | _ => false

/-- The places of the pages of an operation's index list, translated as it issues or replays; those of a scratchpad need none. -/
def State.listPlaces (s : State) (a : Access) : List (Nat × Nat) :=
  match a.kind with
  | .engine (.gather _ _ l n) | .engine (.scatter _ _ l n _) =>
    if l.toNat / 2 ^ 60 ≠ 0 then []
    else (pagesOf (l.toNat % 2 ^ 56) (4 * n)).filterMap fun v =>
      match s.translate a.ctx (v % 2 ^ 56) (coreDie a.core) .read with
      | .ok pa _ _ => some (v % 2 ^ 56, pa)
      | _ => none
  | _ => []

/-- Byte offsets of a store that another writes, by their places. -/
def Access.overlap (a b : Access) : List Nat :=
  match a.key, b.key with
  | some x, some y => (List.range a.size).filter fun o => decide (y ≤ x + o ∧ x + o < y + b.size) && !a.masked.contains o
  | _, _ => []

/-- Byte offsets of a store that lie in places which stores of higher lanes have written. -/
def Access.shadowed (a : Access) : List Nat :=
  (List.range a.size).filter fun o => a.shadow.any fun r => decide (r.1 ≤ a.key.getD 0 + o ∧ a.key.getD 0 + o < r.1 + r.2)

/-- A store of the log whose place is known now: it is masked by the stores of higher lanes of its execution, performed or not, and masks those
of lower lanes of which nothing has been performed (08 R205). -/
def State.maskReplay (s : State) (id : Nat) : State :=
  match s.acc id with
  | some a =>
    if a.kind ≠ .store then s
    else
      let mates := s.accs.filter fun x => x.execId == a.execId && x.kind == .store && x.id != id
      { s with accs := s.accs.map fun x =>
          if x.id = id then
            (mates.filter fun y => decide (x.id < y.id)).foldl (fun x y => { x with masked := x.masked ++ x.overlap y }) { x with masked := x.masked ++ x.shadowed }
          else if x.execId = a.execId ∧ x.standing ∧ x.id < id then { x with masked := x.masked ++ x.overlap a } else x }
  | none => s

/-- A replay has failed. A thread's access and a LAUNCH are cancelled (20 R438); a copy, gather or scatter whose record or list failed writes
nothing, delivers its code and completes (21 R456), its byte count unknown (log 17). -/
def State.failReplay (s : State) (a : Access) (f : FaultInfo) : State :=
  match a.kind with
  | .engine _ => (s.deliver a.thr a.blk a.ctx (a.says f) a.pc).finishOp a 0
  | _ => s.failAcc a f

/-- OPERAND_LOG_REPLAY: the entry translates again. A page still absent leaves it in the log; a declared page and a protection code fail
the access; else it stands at its place in its order. -/
def execOperandLogReplay (acc : Nat) (s : State) : Host.Outcome State Fault Refusal :=
  .next (match s.acc acc with
    | none => s
    | some a =>
      match a.stage with
      | .logged p =>
        -- 13 R344
        if (s.quad (coreQuad a.core)).frozen then s else
        if s.replayFirst a then s else
        match ((s.ctx a.ctx).report p).filter (·.unresolvable) with
        | some r => s.failReplay a { code := 0x0403, addr := BitVec.ofNat 64 ((a.touches.find? fun v => (s.absentPage a.ctx v).1 == p).getD a.va),
                                     detail := r.level, logged := true }
        | none =>
          match s.replayCheck a a.touches with
          | (.notResident l, va) =>
            let d := s.demand a.ctx va (match a.kind with | .store => 2 | .atomic _ _ => 3 | _ => 1) l false
            d.1.modAcc a.id fun x => { x with stage := .logged d.2 }
          | (.prot c dt, va) => s.failReplay a { code := c, addr := BitVec.ofNat 64 va, detail := dt, logged := true }
          | (.invalid lv r, va) => (s.cancel a).contextFault a.ctx 0x0407 (BitVec.ofNat 64 va) (lv + 4 * r)
          | (.ok _ _ _, _) =>
            let key := if a.ea.toNat / 2 ^ 60 = 0 then
                match s.translate a.ctx a.va (coreDie a.core) a.kind.need with | .ok pa _ _ => some pa | _ => none
              else some (a.scratchAt a.ea).1
            (s.modAcc a.id fun x => { x with stage := .issued, key := key, listAt := s.listPlaces a }).maskReplay a.id
      | _ => s)

/-! ## Records -/

/-- What the read of a record or a list finds. -/
inductive RecordRead where
  | value (s : State) (v : Nat)
  /-- It waits for its line or for its place. -/
  | later (s : State)
  | failed (s : State) (f : FaultInfo)

/-- The load of `n` bytes at a key for an access: on the core's path, as its stream orders it (09 R229). -/
def State.readRecord (s : State) (a : Access) (p : Word) (key n : Nat) : RecordRead :=
  if 2 ^ 48 ≤ key then
    if s.poisoned key n then .failed s (poisonConsumed p key)
    else
      let v := s.readMem key n
      .value (s.watchScratch a.blk a.thr key n true false a.pc v v) v
  else if inHost key then
    match s.hostRefusal a.ctx 4 p with
    | some f => .failed s f
    | none => .value s (s.readMem key n)
  else
    let va := p.toNat % 2 ^ 56
    if s.classWaits a.ctx va (some a.core) then .later s
    else
      let s := s.classify a.ctx va (some a.core) false
      let cls := s.classOf a.ctx va
      if s.lineHeld (lineOf key) then .later s
      else
        match s.probing a va (lineOf key) with
        | some s => .later s
        | none =>
          let (s, ok) := s.reach a.core va key cls true
          if !ok then .later s
          else if s.diePoisoned (coreDie a.core) key n cls then .failed s (poisonConsumed p key)
          else .value s (s.dieRead (coreDie a.core) key n cls)

/-! ## Launch records (02 R30, R31, R35; 12 R303; 21 R463) -/

/-- A launch record, as read. -/
def readLaunch (r : Nat) : LaunchRecord :=
  let f (o n : Nat) := recField r o n
  { entry := BitVec.ofNat 64 (f 0 8), gx := f 8 4, gy := f 0xC 4, gz := f 0x10 4, bx := f 0x14 2, byy := f 0x16 2, bz := f 0x18 2,
    regs := f 0x1A 2, scratch := f 0x1C 4, args := BitVec.ofNat 64 (f 0x20 8), done := BitVec.ofNat 32 (f 0x28 4),
    flags := BitVec.ofNat 32 (f 0x2C 4), handler := BitVec.ofNat 64 (f 0x30 8), rsv := BitVec.ofNat 64 (f 0x38 8) }

/-- LAUNCH_RECORD: the offset of the offending byte; `child` for a record that LAUNCH reads, `world` the world its FLAGS must name. -/
def launchBad (r : LaunchRecord) (child world : Bool) : Option Nat :=
  let dim (n : Nat) : Bool := decide (n < 1 ∨ 2048 < n)
  let f := r.flags.toNat
  let e := bits f 15 8
  firstBad <|
    [(decide (r.entry.toNat % 64 ≠ 0), 0x00),
     (decide (r.gx = 0 ∨ r.gy ≠ 0 ∧ r.gz ≠ 0 ∧ 2 ^ 48 < r.gx * r.gy * r.gz), 0x08), (decide (r.gy = 0), 0x0C), (decide (r.gz = 0), 0x10),
     (dim r.bx || (!dim r.byy && !dim r.bz && decide (2048 < r.bx * r.byy * r.bz)), 0x14), (dim r.byy, 0x16), (dim r.bz, 0x18),
     (decide (r.regs < 32 ∨ 512 < r.regs ∨ r.regs % 32 ≠ 0), 0x1A), (decide (229376 < r.scratch), 0x1C),
     (child && bit f 2 || bit f 3 != world, 0x2C), (decide (1 ≤ e ∧ e ≤ 5 ∨ 24 < e), 0x2D), (decide (bits f 23 16 ≠ 0), 0x2E),
     (decide (bits f 31 24 ≠ 0), 0x2F), (decide (r.handler.toNat % 64 ≠ 0), 0x30)] ++
    (List.range 8).map fun i => (decide (r.rsv.toNat / 256 ^ i % 256 ≠ 0), 0x38 + i)

/-- BLOCK_UNPLACEABLE of a record: no squads, too much scratchpad, or no room in the save region beside the tables. -/
def Context.unplaceable (c : Context) (r : LaunchRecord) : Option Nat :=
  let d := demandOf r
  if 4 * perCoreOf r.regs < d.nsq then some 0
  else if 224 < d.kib then some 1
  else if c.desc.savemax < 8192 * c.tables.length + reservation d.nsq d.ncore (roundUp r.scratch 1024) then some 2
  else none

/-- A launch id that no grid holds (03 R67). -/
def State.freshLaunch (s : State) : BitVec 32 :=
  let n := Config.launchId s.freeN
  let used := s.grids.map fun e => e.2.launch
  (((List.range (used.length + 1)).map fun i => BitVec.ofNat 32 (n + i)).find? fun x => !used.contains x).getD 0

/-- The checks at acceptance, in the order of R463. -/
def State.launchFault (s : State) (ctx : Nat) (p : Word) (r : LaunchRecord) (child : Bool) : Option FaultInfo :=
  let c := s.ctx ctx
  match launchBad r child c.secure with
  | some o => some { code := 0x0903, addr := p, detail := o }
  | none =>
    if r.done ≠ 0 ∧ !s.current ctx r.done then some (barrierStale r.done 3)
    else
      match c.unplaceable r with
      | some d => some { code := 0x0905, addr := p, detail := d }
      | none => if 16384 ≤ (s.queued ctx).length then some { code := 0x0904, addr := p } else none

/-- A grid is accepted and enters its queue (12 R303). -/
def State.acceptGrid (s : State) (g : Grid) : State :=
  let n := s.nextId
  { s.name.draw with grids := tset s.grids n { g with launch := s.freshLaunch } }

/-- A LAUNCH whose record `r` has been read. -/
def State.launchRead (s : State) (a : Access) (r : LaunchRecord) : State :=
  let b := s.block a.blk
  let g := s.grid b.grid
  let zero := (s.writeDests a 0).modAcc a.id fun x => { x with dests := [] }
  if (s.ctx a.ctx).halted then zero.cancel a
  else
    match s.launchFault a.ctx a.ea r true with
    | some f => zero.failAcc a f
    | none =>
      let s := s.acceptGrid { launch := 0, ctx := a.ctx, rc := r, depth := g.depth + 1, prio := min (bits r.flags.toNat 1 0) g.prio,
                              parent := some b.grid, by_ := some (a.blk, a.pc), since := (s.die (coreDie a.core)).clock }
      (s.writeDests a ((s.grid (s.nextId - 1)).launch.toNat)).performed a

/-- LAUNCH_ACCEPT (06 R151; 21 R463): launches of one thread are accepted in issue order. A context that halts refuses them (18 R411). The
record is read as a load reads it (11 R295). -/
def execLaunchAccept (acc : Nat) (s : State) : Host.Outcome State Fault Refusal :=
  .next (match s.due acc with
    | none => s
    | some a =>
      let earlier := s.accs.any fun x => x.thr == a.thr && x.kind == .launch && decide (x.id < a.id) && x.stage != .cancelled
      match a.kind, a.key with
      | .launch, some key =>
        if earlier then s
        else
          match s.readRecord a a.ea key 64 with
          | .value s r => s.launchRead a (readLaunch r)
          | .later s => s
          | .failed s f => s.failAcc a f
      | _, _ => s)

/-! ## Barrier units and clove tables -/

/-- A refused update or read: the code is delivered and the access cancelled (20 R440, R443). -/
def State.refuseSync (s : State) (a : Access) (f : FaultInfo) : State := s.failAcc a f

/-- A wait that ends, or a test that finds its phase done, brings a fault that the thread holds: its lane leaves its run, and the fault is
taken before the thread issues anything else (20 R448; 18 R410). -/
def State.meetHeld (s : State) (k : Nat) (seen : Bool) : State :=
  if seen && (s.thr k).held.isSome then
    let t := s.thr k
    let out (r : Option Run) : Option Run := r.map fun r =>
      if r.blk = t.blk ∧ r.sq = t.sq then { r with lanes := r.lanes &&& ~~~(1#32 <<< t.lane) } else r
    (s.modCore (s.thrCore t) fun c => { c with slot0 := out c.slot0, slot1 := out c.slot1 }).plan [.asyncFaultDelivery k]
  else s

/-- The request of a synchronisation access reaches the die of its unit with the clock of its thread's die (11 R283, R297). -/
def State.tellUnit (s : State) (a : Access) (h : Handle) : State := s.receive (h.dquad / 48) (coreDie a.core) (s.die (coreDie a.core)).clock

/-- The answer of a unit reaches the thread's die with its clock. -/
def State.hearUnit (s : State) (a : Access) (h : Handle) : State := s.receive (coreDie a.core) (h.dquad / 48) (s.die (h.dquad / 48)).clock

/-- BARRIER_UPDATE (09 R225 to R227; 20 R440, R443). An update is a release to its unit, and a wait or a test that returns an acquire (11 R283, R291). -/
def execBarrierUpdate (acc : Nat) (s : State) : Host.Outcome State Fault Refusal :=
  .next (match s.due acc with
    | none => s
    | some a =>
      let x : BitVec 32 := a.ea.truncate 32
      let h := handleOf x
      let b := s.slotOf h
      let ok := s.current a.ctx x
      match a.kind with
      | .sync (.expect arr bytes) =>
        if !ok then s.refuseSync a (barrierStale x 0)
        else
          match b.update arr bytes with
          | .ok b => ((s.tellUnit a h).setSlot h b).performed a
          | .error y => s.refuseSync a (barrierOverrun x y)
      | .sync (.arrive count bytes) =>
        if !ok then s.refuseSync a (barrierStale x 0)
        else
          let s := s.writeDests a b.phase
          match b.update (-(count : Int)) bytes with
          | .ok b => (((s.tellUnit a h).hearUnit a h).setSlot h b).performed a
          | .error y => (s.modAcc a.id fun z => { z with dests := [] }).refuseSync { a with dests := [] } (barrierOverrun x y)
      | .sync (.test phase) =>
        if !ok then s.refuseSync a (barrierStale x 0)
        else ((((s.tellUnit a h).hearUnit a h).writeDests a (if b.isDone phase then 1 else 0)).performed a).meetHeld a.thr (b.isDone phase)
      | .sync (.wait phase) =>
        if (s.thr a.thr).wait ≠ .bwait a.id then
          -- the thread has left this wait by taking a fault (18 Table 18.8); the access is performed alone
          if !ok || b.isDone phase then s.performed a else s
        else if !ok then (s.performed a).takeFault a.thr { barrierStale x 0 with strm := a.strm, pred := a.pred } a.pc false
        else if b.isDone phase then
          ((((s.tellUnit a h).hearUnit a h).performed a).modThr a.thr fun t => { t with wait := .ready, pc := nextPc t.pc 2 }).meetHeld a.thr true
        else s
      | _ => s)

/-- CLOVE_TABLE_UPDATE (08 R213; 20 R445): a mismatch is delivered, and the access performed all the same. -/
def execCloveTableUpdate (acc : Nat) (s : State) : Host.Outcome State Fault Refusal :=
  .next (match s.due acc with
    | none => s
    | some a =>
      let die := coreDie a.core
      match a.kind with
      | .sync (.cjoin c n) =>
        let flags := (s.grid (s.block a.blk).grid).rc.flags
        match s.cjoin die c n a.ctx flags (a.core, a.blk) with
        | .ok s => s.performed a
        | .error r => (s.tell a (cloveMismatch 0 r c)).performed a
      | .sync (.cleave c) => (s.cleave die c (a.core, a.blk)).performed a
      | _ => s)

end Sys2Proof.Machine
end

