-- ==== Sys2Proof/Machine/Paging.lean ====
section
/-! DEFINITION. Walks (13 R331), the retry of fetches (13 R343), migration and read duplication (10 R269 to R271), and collapse (10 R272;
20 R450). -/

namespace Sys2Proof.Machine

/-! ## Walks -/

/-- An access or a fetch of a context waits for a page. -/
def State.pageWanted (s : State) (ctx page : Nat) : Bool :=
  (s.accs.any fun a => a.ctx == ctx && a.stage == .logged page) ||
  (tvals s.threads).any fun t => (s.thrBlock t).ctx == ctx && match t.wait with | .fetch va => (s.absentPage ctx va).1 == page | _ => false

/-- A walk goes on while its tables stand in one stack; `fuel` counts the levels left. To another stack it is forwarded, when that base die can
take it, and it then lets its unit go; until then it keeps the entry that it has read (13 R332). A leaf returns to the requester's buffers; an
entry that is not present returns NOT_RESIDENT, which joins the report of what waits for the page, and for a walk-ahead walk starts nothing
(13 R335); an invalid entry halts the context (20 R437). -/
def State.walkOn (s : State) (w : Walk) : Nat → State
  | 0 => s
  | fuel + 1 =>
    let ended := { s with walks := s.walks.filter fun x => x.id != w.id }.endWalkPacket w.id
    let change (f : Walk → Walk) : State := { s with walks := s.walks.map fun x => if x.id = w.id then f x else x }
    let goOn (t : Nat) : State :=
      if s.walkTaken (stackOf t) then s.sendWalk { w with level := w.level + 1, table := t } else change fun x => { x with next := some t }
    match w.next with
    | some t => goOn t
    | none =>
      match s.readEntry (s.readMem (entryPa w.table w.va w.level) 8) w.level (coreDie w.core) with
      | .next t =>
        if stackOf t = stackOf w.table then
          let w' := { w with level := w.level + 1, table := t }
          (change fun _ => w').walkOn w' fuel
        else goOn t
      | .leaf e f =>
        ended.fillTlb w.core w.ahead
          { ctx := w.ctx, page := pageBase w.va w.level, level := w.level, pte := BitVec.ofNat 64 e, frame := f }
      | .notResident =>
        if !w.ahead && s.pageWanted w.ctx (s.absentPage w.ctx w.va).1 then (ended.demand w.ctx w.va 1 w.level false).1 else ended
      | .invalid r => ended.contextFault w.ctx 0x0407 (BitVec.ofNat 64 w.va) (w.level + 4 * r)

/-- A walk that waits is the first in its base die's queue and finds a free unit. -/
def State.unitFor (s : State) (w : Walk) : Bool :=
  decide (s.unitsUsed (stackOf w.table) < 48) && ((s.walksQueued (stackOf w.table)).head?.map (·.id)) == some w.id

/-- PAGE_WALK: a walk goes to its base die, takes its unit, or reads on with it. -/
def execPageWalk (walk : Nat) (s : State) : Host.Outcome State Fault Refusal :=
  .next (match s.walks.find? fun w => w.id == walk with
    | some w =>
      if !w.sent then (if s.walkTaken (stackOf w.table) then s.sendWalk w else s)
      else if w.inUnit then s.walkOn w 4
      else if s.unitFor w then { s with walks := s.walks.map fun x => if x.id = w.id then { x with inUnit := true } else x }
      else s
    | none => s)

/-- FETCH_RETRY (13 R343; 20 R436). -/
def execFetchRetry (thr : Nat) (s : State) : Host.Outcome State Fault Refusal :=
  .next (match (s.thr thr).wait with
    | .fetch va =>
      let t := s.thr thr
      let ctx := (s.thrBlock t).ctx
      let gone := (((s.ctx ctx).report (s.absentPage ctx va).1).map (·.unresolvable)).getD false
      match s.translate ctx va (coreDie (s.thrCore t)) .fetch with
      | .notResident _ => if gone then s.modThr thr fun t => { t with wait := .ready } else s
      | _ => s.modThr thr fun t => { t with wait := .ready }
    | _ => s)

/-! ## Frames -/

/-- The leaf entries beneath a table, resident or not: VA, PA of the entry, the entry, and its level. -/
def State.leavesOf (s : State) : Nat → Nat → Nat → Nat → List (Nat × Nat × Nat × Nat)
  | 0, _, _, _ => []
  | fuel + 1, level, table, va =>
    (List.range 1024).flatMap fun i =>
      let p := table + 8 * i
      let e := s.readMem p 8
      let v := va + i * 2 ^ levelShift level
      if pteLeaf e then [(v, p, e, level)]
      else if pteV e then s.leavesOf fuel (level + 1) (bits e 47 13 * 8192) v
      else []

/-- The leaf entries of a context. -/
def State.ctxLeaves (s : State) (root : Nat) : List (Nat × Nat × Nat × Nat) := s.leavesOf 4 0 root 0

/-- Bytes of the page of a leaf. -/
def pageBytes (level : Nat) : Nat := 2 ^ levelShift level

/-- The frames of a leaf entry: its own, and those of the duplicates of its page (10 R271). -/
def State.framesOf (s : State) (e level : Nat) : List Nat :=
  pteFrame e :: if decide (level = 3) && pteDup e then (tgetD s.dupMap (pteTag e) []).filter (· != 0xFFFFFFFF) else []

/-- Bytes of memory can no longer be read as plaintext, and no line of them stays in a cache; `n` is the argument of the bytes that are read
in their stead (16 R368). -/
def State.cipher (s : State) (n pa len : Nat) : State :=
  { s with
    lines := s.lines.filter fun x => !decide (pa ≤ x.line * 128 ∧ x.line * 128 < pa + len)
    mem := (List.range len).foldl (fun m i => writeByte m (pa + i) (Config.cipherByte n (pa + i))) s.mem }

/-- A page leaves a range of memory: what a KEY protected there is not read as plaintext (16 R367). -/
def State.leaveRange (s : State) (e pa len : Nat) : State := if pteKey e = 0 ∨ inHost pa then s else (s.cipher s.freeN pa len).draw

/-- The resident 64 KiB pages of every context: context, VA, PA of the entry, and the entry. -/
def State.smallPages (s : State) : List (Nat × Nat × Nat × Nat) :=
  s.ctxs.flatMap fun c => (s.ctxLeaves c.2.root).filterMap fun l => if pteV l.2.2.1 && l.2.2.2 == 3 then some (c.1, l.1, l.2.1, l.2.2.1) else none

/-- A leaf of any level names the frame. -/
def State.frameMapped (s : State) (f : Nat) : Nat → Nat → Nat → Bool
  | 0, _, _ => false
  | fuel + 1, level, table =>
    (List.range 1024).any fun i =>
      let e := s.readMem (table + 8 * i) 8
      if !pteV e then false
      else if pteLeaf e then decide (pteFrame e ≤ f ∧ f < pteFrame e + 2 ^ (levelShift level - 16))
      else s.frameMapped f fuel (level + 1) (bits e 47 13 * 8192)

/-- A frame is in use: by a mapping, a duplicate, a migration or a save region. -/
def State.frameUsed (s : State) (f : Nat) : Bool :=
  (tvals s.ctxs).any (fun c =>
    s.frameMapped f 4 0 c.root || decide (c.desc.savepa ≤ f * 65536 ∧ f * 65536 < c.desc.savepa + c.desc.savemax)) ||
  (tvals s.dupMap).any (·.contains f) || s.migrations.any fun m => m.frame == f

/-- The first frame from a place on, cyclically among `size` from `base`, that is in no use and not among some; `fuel` bounds the search. -/
def State.frameFrom (s : State) (base size : Nat) (but : List Nat) (n : Nat) : Nat → Option Nat
  | 0 => none
  | fuel + 1 =>
    let f := base + n % size
    if but.contains f || s.frameUsed f then s.frameFrom base size but (n + 1) fuel else some f

/-- A free frame of the HBM of a die, or of the capacity tier, whichever the machine picks (10 R270). -/
def State.pickFrame (s : State) (die : Option Nat) (but : List Nat) : Option Nat :=
  match die with
  | some d => s.frameFrom (d * 2 ^ 21) (2 ^ 21) but (Config.freeFrame s.freeN) (2 ^ 21)
  | none => s.frameFrom 0x1000000 0x1000000 but (Config.freeFrame s.freeN) 0x1000000

/-! ## Migration (10 R270) -/

/-- Accesses of an epoch to a page. -/
def PageInfo.total (i : PageInfo) : Nat := i.counts.foldl (· + ·) 0

/-- The die that made most of a page's accesses, the lowest of a tie. -/
def PageInfo.busiest (i : PageInfo) : Nat :=
  (List.range 4).foldl (fun b d => if i.counts.getD b 0 < i.counts.getD d 0 then d else b) 0

/-- The dies that read a page in the epoch. -/
def PageInfo.readers (i : PageInfo) : List Nat := (List.range 4).filter fun d => i.readBy.getLsbD d

/-- PROMOTE of a context. -/
def Context.promote (c : Context) : Nat := if c.desc.promote = 0 then 64 else c.desc.promote

/-- A page is marked migrating to a frame. -/
def State.markMigration (s : State) (ctx va frame : Nat) : State :=
  { s.draw with migrations := s.migrations ++ [{ ctx := ctx, va := va, frame := frame }] }

/-- A page waits for nothing that forbids a move: a report, a migration, a duplicate (13 R344; 10 R272). -/
def State.movable (s : State) (ctx va e : Nat) : Bool :=
  !pteDup e && !s.migrating ctx va && ((s.ctx ctx).report va).isNone

/-- A tier page that the counts promote begins its migration. -/
def State.promote (s : State) (ctx va e : Nat) : State :=
  let i := s.pageInfo (pteFrame e * 65536)
  let hint := pteTier e
  let due := decide ((hint = 0 ∨ hint = 3) ∧ (s.ctx ctx).promote ≤ i.total ∨ hint = 1 ∧ 1 ≤ i.total)
  if inTier (pteFrame e * 65536) && due && s.movable ctx va e then
    match s.pickFrame (some i.busiest) [] with
    | some f => s.markMigration ctx va f
    | none => s.draw
  else s

/-- Memory with the bytes of one frame in another. -/
def copyFrameBytes (m : Memory) (src dst : Nat) : Memory :=
  (m.filter fun e => e.1 / 65536 == src).foldr (fun e m => writeByte m (dst * 65536 + e.1 % 65536) e.2) (m.filter fun e => e.1 / 65536 != dst)

/-- A frame's bytes and poison copied to another. -/
def State.copyFrame (s : State) (src dst : Nat) : State :=
  { s with
    mem := copyFrameBytes s.mem src dst
    poison := (s.poison.filter fun x => x / 2048 != dst) ++ (s.poison.filter fun x => x / 2048 == src).map fun x => x - src * 2048 + dst * 2048 }

/-- Every copy of a frame's lines leaves the caches. -/
def State.dropFrame (s : State) (f : Nat) : State := s.dropLines (inFrame f)

/-- A place in one frame becomes the same place in another. -/
def moveKey (src dst k : Nat) : Nat := if k / 65536 = src then dst * 65536 + k % 65536 else k

/-- Accesses in flight whose bytes stood in one frame now find them in another. -/
def State.rekey (s : State) (ctx src dst : Nat) : State :=
  { s with accs := s.accs.map fun (a : Access) =>
      if a.ctx = ctx then { a with key := a.key.map (moveKey src dst), listAt := a.listAt.map fun e => (e.1, moveKey src dst e.2) } else a }

/-- A page is read-duplicated (10 R271): a copy in the HBM of each reading die but its home. -/
def State.duplicate (s : State) (ctx va p e : Nat) : State :=
  let src := pteFrame e
  let i := s.pageInfo (src * 65536)
  let home := homeDie (src * 65536)
  let free := (List.range 8192).find? fun n => (tget s.dupMap n).isNone
  if pteTier e = 3 ∧ 2 ≤ i.readers.length ∧ !i.wrote ∧ 2 ≤ pteClass e ∧ s.movable ctx va e then
    match free with
    | none => s
    | some n =>
      let r := (List.range 4).foldl
        (fun (r : State × List Nat) d =>
          if i.readers.contains d ∧ home ≠ some d then
            match r.1.pickFrame (some d) r.2 with
            | some f => ((r.1.draw).copyFrame src f, r.2 ++ [f])
            | none => (r.1.draw, r.2 ++ [0xFFFFFFFF])
          else (r.1, r.2 ++ [0xFFFFFFFF])) (s, [])
      if r.2.all fun f => f == 0xFFFFFFFF then r.1
      else
        -- a die that holds a copy knows what its bytes come after (11 R286)
        let s := match home with
          | some h => i.readers.foldl (fun (s : State) d => s.receive d h (s.die h).clock) r.1
          | none => r.1
        let s := { s.dropShared src with dupMap := tset s.dupMap n r.2 }
        (s.writeMem p 8 (pteSetClass e (pteClass e) n true)).tlbDrop ctx va
  else s

/-- The counts of an epoch close. -/
def PageInfo.roll (i : PageInfo) : PageInfo := { i with counts := [0, 0, 0, 0], wrote := false, readBy := 0, epochs := (i.total :: i.epochs).take 4 }

/-- MIGRATION_EPOCH_END. -/
def execMigrationEpochEnd (s : State) : Host.Outcome State Fault Refusal :=
  .next (if s.epochLeft ≠ 0 then s
    else
      let s := s.smallPages.foldl (fun s x => (s.promote x.1 x.2.1 x.2.2.2).duplicate x.1 x.2.1 x.2.2.1 x.2.2.2) s
      { s with epochLeft := 1048576, pages := s.pages.map fun (e : Nat × PageInfo) => (e.1, e.2.roll) })

/-- An access in flight keeps a page where it is: a packet, a request or an acknowledgement of it is away. -/
def State.frameBusy (s : State) (f : Nat) : Bool :=
  s.accs.any fun a => (a.key.map (· / 65536)) == some f && match a.stage with | .atBase | .sent | .acked _ _ => true | _ => false

/-- The L1s write their dirty lines of a frame back to its home (10 R270, step 2). -/
def State.gatherFrame (s : State) (f : Nat) : State :=
  (s.lines.filter fun x => inFrame f x && match x.level with | .l1 _ => true | _ => false).foldl (fun s x => (s.dropLines fun y => y == x).backToHome x) s

/-- The die to which a page moves knows what its bytes come after: it takes the clock of the die that they leave (11 R286). -/
def State.clockMoves (s : State) (src dst : Nat) : State :=
  match homeDie (src * 65536), homeDie (dst * 65536) with
  | some e, some f => s.receive f e (s.die e).clock
  | _, _ => s

/-- The PTE of a page after its migration. -/
def migratedPte (e frame : Nat) : Nat := pteSetClass e (if pteW e then 0 else 2) 0 false % 2 ^ 32 + frame * 2 ^ 32

/-- PAGE_MIGRATION (10 R270, steps 2 to 4). -/
def execPageMigration (ctx va : Nat) (s : State) : Host.Outcome State Fault Refusal :=
  .next (match s.migrations.find? fun m => m.ctx == ctx && m.va == pageBase va 3, s.leaf ctx va with
    | some m, some (p, e, 3) =>
      let old := pteFrame e
      if !pteV e then { s with migrations := s.migrations.filter fun x => x != m }
      else if s.frameBusy old then s
      else
        let s := (s.gatherFrame old).clockMoves old m.frame
        let s := (((s.copyFrame old m.frame).dropFrame old).dropFrame m.frame).leaveRange e (old * 65536) 65536
        let s := (s.writeMem p 8 (migratedPte e m.frame)).tlbDrop ctx va
        let s := { s.rekey ctx old m.frame with migrations := s.migrations.filter fun x => x != m }
        let i := s.pageInfo (old * 65536)
        { s with pages := tset (tdel s.pages old) m.frame { i with written := false, lastFill := [] } }
    | some m, _ => { s with migrations := s.migrations.filter fun x => x != m }
    | none, _ => s)

/-- Frames of a die's HBM in use by pages of every size. -/
def State.hbmUsed (s : State) (die : Nat) : Nat :=
  (s.ctxs.flatMap fun c => s.ctxLeaves c.2.root).foldl
    (fun n x =>
      let pa := pteFrame x.2.2.1 * 65536
      if pteV x.2.2.1 && inHbm pa && homeDie pa == some die then n + 2 ^ (levelShift x.2.2.2 - 16) else n) 0 +
  ((tvals s.dupMap).flatMap id |>.filter fun f => f != 0xFFFFFFFF && f / 2 ^ 21 == die).length +
  ((tvals s.ctxs).filter fun c => homeDie c.desc.savepa == some die).foldl (fun n c => n + c.desc.savemax / 65536) 0

/-- Accesses to a page in the last four epochs (10 R270). -/
def PageInfo.recent (i : PageInfo) : Nat := i.epochs.foldl (· + ·) 0

/-- DEMOTION: when a die's free frames fall below its low mark, a page of the smallest count over the last four epochs goes to the tier. -/
def execDemotion (die : Nat) (s : State) : Host.Outcome State Fault Refusal :=
  .next (
    let free := 2 ^ 21 - s.hbmUsed die
    let mark := Config.lowMark die + 1
    if mark ≤ free then s
    else
      let sum (x : Nat × Nat × Nat × Nat) : Nat := (s.pageInfo (pteFrame x.2.2.2 * 65536)).recent
      let ps := s.smallPages.filter fun x =>
        let e := x.2.2.2
        inHbm (pteFrame e * 65536) && homeDie (pteFrame e * 65536) == some die && (pteTier e == 0 || pteTier e == 3) && s.movable x.1 x.2.1 e
      let least := ps.filter fun x => ps.all fun y => decide (sum x ≤ sum y)
      match least[Config.choose s.freeN % least.length]? with
      | none => s
      | some x =>
        match s.draw.pickFrame none [] with
        | some f => s.draw.markMigration x.1 x.2.1 f
        | none => s.draw.draw)

/-! ## Collapse (10 R272; 20 R450) -/

/-- COLLAPSE. -/
def execCollapse (ctx va : Nat) (s : State) : Host.Outcome State Fault Refusal :=
  .next (match s.leaf ctx va with
    | some (_, e, 3) =>
      if s.duplicated ctx va && ((s.ctx ctx).report (pageBase va 3)).isNone then s.beginCollapse ctx (pageBase va 3) e else s
    | _ => s)

/-- The class of a page that has collapsed: SHARED (10 R272), and SHARED-RO where its PTE grants no write, which never leaves that class
(10 R257; DEDUCED, log 79). -/
def collapsedClass (e : Nat) : Nat := if pteW e then 3 else 2

/-- The page returns to its kept copy: its lines leave the L1s and RDCs that held them read-only (10 R256, R258). -/
def State.endCollapse (s : State) (c : Collapse) : State :=
  let s := { s with collapses := s.collapses.filter fun x => !(x.ctx == c.ctx && x.va == c.va) }
  match s.leaf c.ctx c.va with
  | some (p, e, 3) =>
    let fs := (tgetD s.dupMap (pteTag e) []).filter (· != 0xFFFFFFFF)
    let s := fs.foldl (fun s f => ((s.rekey c.ctx f (pteFrame e)).dropFrame f).leaveRange e (f * 65536) 65536) (s.dropShared (pteFrame e))
    (({ s with dupMap := tdel s.dupMap (pteTag e) }).writeMem p 8 (pteSetClass e (collapsedClass e) 0 false)).tlbDrop c.ctx c.va
  | _ => s

/-- COLLAPSE_ACK: a holder die drops its copy and its translations; the last acknowledgement ends the collapse. -/
def execCollapseAck (ctx va die : Nat) (s : State) : Host.Outcome State Fault Refusal :=
  .next (match s.collapses.find? fun c => c.ctx == ctx && c.va == pageBase va 3 with
    | none => s
    | some c =>
      if c.failed || !c.waiting.any fun w => w.1 == die then s
      else
        let s := match s.leaf ctx va with
          | some (_, e, 3) =>
            match s.dupFrame (pteTag e) die with
            | some f => (s.dropFrame f).tlbDropOn (· == die) ctx va
            | none => s
          | _ => s
        let c' := { c with waiting := c.waiting.filter fun w => w.1 != die }
        if c'.waiting.isEmpty then s.endCollapse c'
        else { s with collapses := s.collapses.map fun x => if x.ctx = c.ctx ∧ x.va = c.va then c' else x })

/-- COLLAPSE_RESEND: after 2^20 counted cycles the invalidate is sent a second time. -/
def execCollapseResend (ctx va die : Nat) (s : State) : Host.Outcome State Fault Refusal :=
  .next { s with collapses := s.collapses.map fun c =>
    if c.ctx = ctx ∧ c.va = pageBase va 3 ∧ !c.failed then
      { c with waiting := c.waiting.map fun w => if w.1 = die ∧ 2 ^ 20 ≤ w.2.1 ∧ !w.2.2 then (die, 0, true) else w }
    else c }

/-- An access writes the page, or is an operation with such a part left. -/
def Access.writesPage (a : Access) (ctx page : Nat) : Bool :=
  a.ctx == ctx && (a.kind.writes && a.key.isSome && pageBase a.va 3 == page ||
    match a.stage with
    | .moving ps hs _ _ => (ps ++ hs.map (·.2)).any fun p => match p with
      | .put (.va b) _ => pageBase (b / 8) 3 == page
      | .lock v | .unlock v => pageBase v 3 == page
      | _ => false
    | _ => false)

/-- COLLAPSE_TIMEOUT: a die silent after the second invalidate halts the page's context; the waiting writes are cancelled, and the page is never
written. -/
def execCollapseTimeout (ctx va : Nat) (s : State) : Host.Outcome State Fault Refusal :=
  .next (match s.collapses.find? fun c => c.ctx == ctx && c.va == pageBase va 3 with
    | none => s
    | some c =>
      let silent := (c.waiting.filter fun w => w.2.2 && decide (2 ^ 20 ≤ w.2.1)).map (·.1)
      match (List.range 4).find? silent.contains with
      | none => s
      | some d =>
        let page := BitVec.ofNat 64 c.va
        let s : State := { s with collapses := s.collapses.map fun (x : Collapse) =>
                             if x.ctx = c.ctx ∧ x.va = c.va then { x with failed := true, waiting := [] } else x }
        let s := (s.accs.filter fun a => a.writesPage ctx c.va).foldl (fun s a => if (s.acc a.id).isSome then s.cancel a else s) s
        (s.contextFault ctx 0x0408 page d).notice 0x0408 page d)

end Sys2Proof.Machine
end

