-- ==== Sys2Proof/Machine/EngineEvents.lean ====
section
/-! DEFINITION. The events of the engines: operations that start, move their parts and complete (09 R229 to R240), clove requests and timers
(10 R273 to R276), credits (09 R231), commands (09 R248, R249), the bank arbiter (12 R322 to R324), and hung Reckoners (21 R461, R462). -/

namespace Sys2Proof.Machine

/-! ## Records and lists -/

/-- What the read of an index list finds. -/
inductive ListRead where
  | values (s : State) (idx : List Nat)
  | later (s : State)
  | failed (s : State) (f : FaultInfo)

/-- The pointer to entry `q` of a list. -/
def listEntry (list : Word) (q : Nat) : Word := BitVec.ofNat 64 (list.toNat / 2 ^ 56 * 2 ^ 56 + listVa list q)

/-- The read of one more index. -/
def ListRead.step (a : Access) (list : Word) (r : ListRead) (q : Nat) : ListRead :=
  match r with
  | .values s idx =>
    match s.readRecord a (listEntry list q) (if list.toNat / 2 ^ 60 = 0 then a.entryKey (listVa list q) else (a.scratchAt list).1 + 4 * q) 4 with
    | .value s v => .values s (idx ++ [v])
    | .later s => .later s
    | .failed s f => .failed s f
  | r => r

/-- The indices of a list. -/
def State.readList (s : State) (a : Access) (list : Word) (n : Nat) : ListRead := (List.range n).foldl (ListRead.step a list) (.values s [])

/-! ## Starting an operation -/

/-- BCOPY.sp (09 R234): every source byte is read before any destination byte is written; poison goes with its sectors. -/
def State.copyBuffer (s : State) (a : Access) (src dst : Word) (n : Nat) : State :=
  let k := (a.scratchAt src).1
  let d := (a.scratchAt dst).1
  let v := s.readMem k n
  let old := s.readMem d n
  let bad := s.poison.filter fun x => decide (k < 32 * x + 32 ∧ 32 * x < k + n)
  let s := s.watchScratch a.blk a.thr k n true false 0 v v
  let s := (s.writeMem d n v).cureRange d n
  let s := bad.foldl (fun s x => let lo := max (32 * x) k; s.poisonRange (d + (lo - k)) (min (32 * x + 32) (k + n) - lo)) s
  let s := s.watchScratch a.blk a.thr d n false true 0 old v
  let s := match bad with | [] => s | _ :: _ => s.tell a (s.sourcePoison a (.key (8 * k)) k n)
  s.finishOp a n

/-- An operation whose record has been read. -/
def State.startRecord (s : State) (a : Access) (op : EngineOp) (r : Nat) : State :=
  match op with
  | .copy dir _ _ dst c0 c1 c2 =>
    match trecBad r with
    | some o => s.refuseOp a { code := 0x0802, addr := a.ea, detail := o } (trecCredit r)
    | none => s.startBox a r (dir == .ld) dst c0 c1 c2
  | .trecld _ c0 c1 c2 =>
    match trecBad r with
    | some o => s.refuseOp a { code := 0x0802, addr := a.ea, detail := o } 0
    | none =>
      let t := readTrec r
      (s.walkAhead a (t.parts (coordinates t.rank c0 c1 c2) 0 true)).performed a
  | .gather _ dst list n | .scatter _ dst list n _ =>
    let scatter := match op with | .scatter _ _ _ _ _ => true | _ => false
    let rowAtomic := match op with | .scatter _ _ _ _ r => r | _ => false
    match s.rowsBad a r n dst rowAtomic with
    | some (f, credit) => s.refuseOp a f credit
    | none =>
      match s.readList a list n with
      | .values s idx => s.startRows a r idx dst scatter rowAtomic
      | .later s => s
      | .failed s f => s.refuseOp a f (n * (readEtab r).rowBytes)

/-- Bytes of the record of an operation. -/
def EngineOp.recordBytes (op : EngineOp) : Nat :=
  match op with
  | .gather _ _ _ _ | .scatter _ _ _ _ _ => 64
  | _ => 128

/-- An operation that nothing holds back any more starts: it reads its record. A record that cannot be read leaves its byte count unknown,
and nothing is credited (log 17). -/
def State.startOperation (s : State) (a : Access) (op : EngineOp) : State :=
  match op with
  | .copy .sp _ src dst c0 _ _ => s.copyBuffer a src dst (bits c0.toNat 17 0)
  | _ =>
    match a.key with
    | none => s
    | some key =>
      match s.readRecord a a.ea key op.recordBytes with
      | .value s r => s.startRecord a op r
      | .later s => s
      | .failed s f => s.refuseOp a f 0

/-- COPY_COMPLETION: an operation starts, or moves so many of its parts; with the last it completes. -/
def execCopyCompletion (acc parts : Nat) (s : State) : Host.Outcome State Fault Refusal :=
  .next (match s.acc acc with
    | none => s
    | some a =>
      match a.kind, a.stage with
      | .engine op, .issued => if (cloveRegs a).isSome ∨ s.waits a then s else s.startOperation a op
      | .engine _, .moving ps hs credit told => s.moveParts a (max 1 parts) ps hs credit told
      | _, _ => s)

/-! ## Cloves -/

/-- A clove load whose record has been read comes to its hold slice; one whose record or scratchpad pointer is refused does not
(log 17). -/
def State.cloveRequest (s : State) (a : Access) (r : Nat) : State :=
  match cloveRegs a with
  | none => s
  | some (dst, c0, c1, c2) =>
    match trecBad r with
    | some o => s.refuseOp a { code := 0x0802, addr := a.ea, detail := o } (trecCredit r)
    | none =>
      let t := readTrec r
      match boxFault (s.block a.blk) t dst (a.scratchAt dst).2 (coordinates t.rank c0 c1 c2) with
      | some f => s.refuseOp a f t.bytes
      | none => s.requestHold a r

/-- CLOVE_LOAD_REQUEST (10 R273), in the order of issue of the member's loads (08 R214). -/
def execCloveLoadRequest (acc : Nat) (s : State) : Host.Outcome State Fault Refusal :=
  .next (match s.acc acc with
    | none => s
    | some a =>
      if (cloveRegs a).isNone ∨ s.asksFirst a then s
      else
        match a.stage, a.key with
        | .behindHolds r, _ => s.requestHold a r
        | .issued, some key =>
          if s.waits a then s
          else
            match s.readRecord a a.ea key 128 with
            | .value s r => s.cloveRequest a r
            | .later s => s
            | .failed s f => s.refuseOp a f 0
        | _, _ => s)

/-- CLOVE_TIMER_EXPIRY (08 R215, R216): the timer has run out, or the context halts or Hold begins, which release a hold in the same way; a
released hold that waited for a page tries its box again. -/
def execCloveTimerExpiry (die clove seq : Nat) (s : State) : Host.Outcome State Fault Refusal :=
  .next (match (s.die die).holds.find? fun h => h.clove == clove && h.seq == seq with
    | none => s
    | some h =>
      if h.left = 0 ∨ h.released ∨ (s.ctx (s.clove die clove).ctx).halted ∨ s.hold.entering then s.releaseHold die h false else s)

/-- ENGINE_CREDIT (09 R231; 20 R441 to R443): the die of the barrier learns the clock that comes with it, a release of what the sender was
ordered after (11 R283). -/
def execEngineCredit (credit : Nat) (s : State) : Host.Outcome State Fault Refusal :=
  .next (match tget s.credits credit with
    | some c => (if c.stamp = [] then s else s.learn ((handleOf c.handle).dquad / 48) c.stamp).applyCredit credit c
    | none => s)

/-! ## Commands (09 R248, R249) -/

/-- MMA_ACCEPT: a command that waited for its id (09 R248), or for a reset of the Reckoner (21 R461). -/
def execMmaAccept (acc : Nat) (s : State) : Host.Outcome State Fault Refusal := .next (s.acceptCommand acc)

/-- A command can start, but for its bank: its predecessors have retired and its reads may be performed. -/
def State.startable (s : State) (a : Access) : Bool :=
  match a.stage with
  | .accepted preds _ => preds.all (fun p => (s.acc p).isNone) && !s.waits a
  | _ => false

/-- The bank of a command is its block's, and free of moves and of other commands. The occupant goes on with its bank while a handover of it
is to come (12 R322, R323). -/
def State.bankReady (s : State) (a : Access) (c : Command) : Bool :=
  let dq := coreQuad a.core
  let b := s.bank dq c.bank
  b.occupant == some a.blk && !s.moveBlocks a.blk c.bank a.id &&
  !(s.commandsOn dq).any fun x => x.2.bank == c.bank && x.1.stage.isExecuting

/-- MMA_START. -/
def execMmaStart (acc : Nat) (s : State) : Host.Outcome State Fault Refusal :=
  .next (match (s.acc acc).bind fun a => a.command.map fun c => (a, c) with
    | none => s
    | some (a, c) =>
      if s.startable a && s.bankReady a c && !(s.quad (coreQuad a.core)).hung then
        (s.modQuad (coreQuad a.core) fun q => { q with idleReck := 0 }).modAcc a.id fun x => { x with stage := .executing 0 }
      else s)

/-- A command that executes, for less than `n` cycles. -/
def Stage.executesBelow (st : Stage) (n : Nat) : Bool := match st with | .executing c => decide (c < n) | _ => false

/-- MMA_RETIRE: the bank is written, the id leaves flight, DONE receives its arrival, and the bead falls. A command that read poison, or
accumulated into a poisoned bank, poisons its bank and says so (20 R455). A command of a hung Reckoner, or one that has executed for 2^20
cycles, retires no more (21 R461). -/
def execMmaRetire (acc : Nat) (s : State) : Host.Outcome State Fault Refusal :=
  .next (match (s.acc acc).bind fun a => a.command.map fun c => (a, c) with
    | none => s
    | some (a, c) =>
      let dq := coreQuad a.core
      if !a.stage.executesBelow (2 ^ 20) ∨ (s.quad dq).hung then s
      else
        let old := s.bank dq c.bank
        let bad := s.mmaPoisoned a.blk c || (old.poisoned && !bit c.mode 3)
        let data := s.mmaData a.blk c old.data
        let s := s.modBank dq c.bank fun b =>
          { b with data := data, dirty := true, poisoned := b.poisoned || bad, cured := if bad then [] else b.cured }
        let s := if bad then s.tell a { code := 0x0A02, detail := 7 } else s
        let s := (s.performed a).sendCredit
          { handle := c.done, bytes := 0, thr := a.thr, blk := a.blk, ctx := a.ctx, pc := a.pc, origin := 2, arrivals := 1,
            stamp := s.clockFor (coreDie a.core) c.done }
        s.settleBank dq c.bank a.blk)

/-! ## The arbiter (12 R323, R324) -/

/-- The owners that wait for a bank, with the place of their first waiting command or move. -/
def State.bankWaiters (s : State) (dq i : Nat) : List (Nat × Nat) :=
  let occ := (s.bank dq i).occupant
  let cs := (s.commandsOn dq).filterMap fun c =>
    match c.1.stage with
    | .accepted _ n => if c.2.bank = i ∧ some c.1.blk ≠ occ then some (c.1.blk, n) else none
    | _ => none
  let ms := (tvals s.threads).filterMap fun t =>
    match t.wait with
    | .slice j _ n => if j = i ∧ t.live ∧ (s.thrBlock t).dquad = dq ∧ some t.blk ≠ occ then some (t.blk, n) else none
    | _ => none
  cs ++ ms

/-- The waiting owner that is served first. -/
def firstWaiter : List (Nat × Nat) → Option (Nat × Nat)
  | [] => none
  | w :: ws => match firstWaiter ws with | some x => some (if x.2 < w.2 then x else w) | none => some w

/-- The occupant lets the bank go: it has held it for RK_SLICE, or has no accepted command and no move on it. -/
def State.bankYields (s : State) (dq i : Nat) : Bool :=
  let b := s.bank dq i
  match b.occupant with
  | none => true
  | some o =>
    decide (s.rkSlice (s.block o).ctx ≤ b.held) ||
    (!((s.inFlight dq).any fun c => c.1.blk == o && c.2.bank == i) && !s.moveWaits o i)

/-- BANK_SWITCH. -/
def execBankSwitch (quad bank : Nat) (s : State) : Host.Outcome State Fault Refusal :=
  .next (match firstWaiter (s.bankWaiters quad bank) with
    | none => s
    | some (blk, _) =>
      if (s.bank quad bank).handover.isSome ∨ s.bankBusy quad bank ∨ !s.bankYields quad bank then s
      else (s.saveBank quad bank).restoreBank quad bank blk)

/-- BANK_HANDOVER: the old occupant's contents are saved, and the new owner occupies zeros. A new owner that has let the bank go
meanwhile leaves the old occupant where it is. -/
def execBankHandover (quad bank : Nat) (s : State) : Host.Outcome State Fault Refusal :=
  .next (match (s.bank quad bank).handover with
    | none => s
    | some blk =>
      if s.bankBusy quad bank then s
      else
        let wanted := (s.block blk).banks.getLsbD bank || ((s.commandsOn quad).any fun c => c.1.blk == blk && c.2.bank == bank) ||
          s.moveWaits blk bank
        if wanted then (s.saveBank quad bank).modBank quad bank fun _ => { occupant := some blk }
        else s.modBank quad bank fun b => { b with handover := none })

/-! ## Hung Reckoners (21 R461, R462) -/

/-- RECKONER_HANG. -/
def execReckonerHang (quad : Nat) (s : State) : Host.Outcome State Fault Refusal :=
  .next (
    let long := (s.commandsOn quad).any fun c => match c.1.stage with | .executing n => decide (2 ^ 20 ≤ n) | _ => false
    if (long || decide (2 ^ 20 ≤ (s.quad quad).idleReck)) && !(s.quad quad).hung then
      s.modQuad quad fun q => { q with hung := true, hungAt := s.nextId }
    else s)

/-- The commands that a reset drops: those in flight, but for those accepted after the Reckoner was declared hung (21 R461, R462). -/
def State.dropped (s : State) (dq : Nat) : List (Access × Command) :=
  (s.inFlight dq).filter fun c =>
    match c.1.stage with
    | .accepted _ n => !(s.quad dq).hung || decide (n < (s.quad dq).hungAt)
    | _ => true

/-- The live banks that a reset loses, by block: those of dropped commands, and those that were dirty or never saved. -/
def State.lostBanks (s : State) (dq : Nat) : List (Nat × Nat) :=
  ((s.dropped dq).map fun c => (c.1.blk, c.2.bank)) ++
  (List.range 16).filterMap fun i =>
    let b := s.bank dq i
    match b.occupant with
    | some o => if !b.dirty && b.saved then none else some (o, i)
    | none => none

/-- A bank after a reset. -/
def Bank.reset (b : Bank) : Bank :=
  { occupant := if !b.dirty && b.saved then none else b.occupant, held := b.held, handover := b.handover }

/-- A block is told of the banks it lost: the threads that stand in slice moves on them take the fault there, else its target does. At the entry
limit of Hold the codes are delivered at exit (21 R468). -/
def State.tellLost (s : State) (blk : Nat) (lost : List Nat) : State :=
  let f : FaultInfo := { code := 0x0703, detail := lost.foldl (fun m i => m ||| 2 ^ i) 0 }
  let ks := ((List.range (s.block blk).nthreads).map (threadKey blk)).filter fun k => lost.any fun i => (s.thr k).inMove i
  if s.hold.overrun then (if ks.isEmpty then [0] else ks).foldl (fun s k => s.deliver k blk (s.block blk).ctx f (s.thr k).pc) s
  else if ks.isEmpty then s.deliver 0 blk (s.block blk).ctx f 0
  else ks.foldl (fun s k => s.takeFault k f (s.thr k).pc false) s

/-- RECKONER_RESET. -/
def State.resetReckoner (s : State) (dq : Nat) : State :=
  let lost := s.lostBanks dq
  let s := ((s.dropped dq).map (·.1)).foldl (fun s a => if (s.acc a.id).isSome then s.cancel a else s) s
  let s := (List.range 16).foldl (fun s i => s.modBank dq i Bank.reset) s
  let s := s.modQuad dq fun q => { q with hung := false, idleReck := 0 }
  ((lost.map (·.1)).eraseDups).foldl (fun s b => s.tellLost b ((lost.filter fun x => x.1 == b).map (·.2))) s

/-- RECKONER_RESET of a hung Reckoner. -/
def execReckonerReset (quad : Nat) (s : State) : Host.Outcome State Fault Refusal :=
  .next (if (s.quad quad).hung then s.resetReckoner quad else s)

end Sys2Proof.Machine
end

