-- ==== Sys2Proof/Machine/Trace.lean ====
section
/-! DEFINITION. The trace ring (17 R390 to R393; 21 R470), the host's memory as the Supervisor and the sink write it, and values that the
manual leaves open. -/

namespace Sys2Proof.Machine

/-! ## Records as bytes -/

/-- Fields of so many bytes, the first lowest (0 R3). -/
def pack : List (Nat × Nat) → Nat
  | [] => 0
  | (n, v) :: fs => v % 256 ^ n + 256 ^ n * pack fs

/-- The bytes of a number, the lowest first. -/
def toBytes : Nat → Nat → List Byte
  | 0, _ => []
  | n + 1, v => BitVec.ofNat 8 v :: toBytes n (v / 256)

/-- Bytes that the manual leaves undefined (log 2). -/
def State.undefinedBytes (s : State) (n : Nat) : List Byte :=
  (List.range n).map fun i => BitVec.ofNat 8 (Config.undefinedBits (s.freeN + i))

/-- The key of a host address (10 Table 10.1). -/
def hostKey (a : Nat) : Nat := hostBase + a

/-- The host address lies in the range that the device reaches. -/
def hostReach (a n : Nat) : Bool := inHost (hostKey a) && decide (hostKey a + n ≤ 2 ^ 48)

/-- `n` bytes of host memory written from the device; nothing lies beyond its range. -/
def State.hostWriteAt (s : State) (a n v : Nat) : State := if hostReach a n then s.writeMem (hostKey a) n v else s

/-- `n` bytes of host memory as the device reads them. -/
def State.hostReadAt (s : State) (a n : Nat) : Nat := if hostReach a n then s.readMem (hostKey a) n else 0

/-! ## The ring -/

/-- A trace record as its 64 bytes (17 Table 17.8). -/
def TraceRecord.packed (r : TraceRecord) (seq : Nat) : Nat :=
  pack [(1, r.type), (1, r.code), (2, r.core), (4, seq), (8, r.time.toNat), (8, r.clk.toNat), (4, r.launch), (2, r.tid), (2, 0),
        (8, r.bid), (8, r.a.toNat), (8, r.b.toNat), (8, r.c.toNat)]

/-- A record goes into the slot of TRTAIL of a ring of 2^log slots, and TRTAIL advances. -/
def State.ringWrite (s : State) (log : Nat) (r : TraceRecord) : State :=
  let d := s.dbg
  let s := s.hostWriteAt (d.trBase.toNat + 64 * (d.trTail % 2 ^ log)) 64 (r.packed d.trTail)
  { s with dbg := { s.dbg with trTail := (d.trTail + 1) % 2 ^ 32 } }

/-- The sink writes its next record when a slot is free: a LOST record while records have been dropped, else the oldest of its buffer. A
closed sink has only the TRUNC that met a full ring. -/
def State.sinkOne (s : State) : State :=
  let d := s.dbg
  match d.closing with
  | some (log, r) => if d.slotsIn log = 0 then s else State.ringWrite { s with dbg := { d with closing := none } } log r
  | none =>
    if !d.sink ∨ d.freeSlots = 0 then s
    else if d.trLost ≠ 0 then
      let s := s.ringWrite d.trlog { type := 9, code := 0, time := s.time, clk := s.clk, a := BitVec.ofNat 64 d.trLost }
      { s with dbg := { s.dbg.eased with trLost := 0 } }
    else
      match d.buffer with
      | [] => s
      | r :: rs =>
        let s := State.ringWrite { s with dbg := { d with buffer := rs } } d.trlog r
        { s with dbg := s.dbg.eased }

/-- The sink writes while slots are free; `fuel` bounds the records. -/
def State.sinkAll (s : State) : Nat → State
  | 0 => s
  | n + 1 => (s.sinkOne).sinkAll n

/-- Records that the sink has still to write, a LOST record among them. -/
def Debug.pending (d : Debug) : Nat := d.buffer.length + if d.trLost = 0 then 0 else 1

/-- TRUNC closes the sink (17 R393): the sink writes what it has buffered while slots are free and one is left for TRUNC, which is the last
record and counts the records not written. A TRUNC that meets a full ring waits for a slot (17 R391). -/
def State.closeSink (s : State) (code : Nat) : State :=
  if !s.dbg.sink then s
  else
    let s := s.sinkAll (min s.dbg.pending (s.dbg.freeSlots - 1))
    let d := s.dbg
    let r : TraceRecord := { type := 8, code := code, time := s.time, clk := s.clk, a := BitVec.ofNat 64 d.buffer.length }
    State.sinkOne { s with dbg := { d with sink := false, buffer := [], overflow := false, dctl := d.dctl &&& ~~~(1#64 <<< 10), closing := some (d.trlog, r) } }

/-- TRACE_RECORD_WRITE (17 R390, R391). -/
def execTraceRecordWrite (s : State) : Host.Outcome State Fault Refusal := .next s.sinkOne

end Sys2Proof.Machine
end

