-- ==== Sys2Proof/Machine/FaultEvents.lean ====
section
/-! DEFINITION. Encoding faults (19 R418, R419), the delivery of asynchronous faults (18 R410), the core dump (18 R411 to R415), the
queue-level reset (21 R465), and soft errors (20 R452 to R454). -/

namespace Sys2Proof.Machine

/-! ## Encoding faults -/

/-- ILLEGAL_OPCODE (19 Table 19.1): every thread of the group raises it. -/
def execIllegalOpcode (opc page : Nat) (past : Bool) (s : State) : Host.Outcome State Fault Refusal :=
  .next (s.execGroup fun l =>
    .fault { code := 0x0101, addr := l.latch.pc, detail := opc + 256 * page + if past then 1024 else 0 })

/-- RESERVED_FIELD (19 Table 19.1): word 3 is the bundle control word. -/
def execReservedField (word bit : Nat) (s : State) : Host.Outcome State Fault Refusal :=
  .next (s.execGroup fun l =>
    .fault { code := 0x0102, addr := if word = 3 then bundleOf l.latch.pc else l.latch.pc + BitVec.ofNat 64 (4 * word),
             detail := word + 4 * bit })

/-! ## Delivery -/

/-- A thread may take the fault it holds: it is live and at an eligible point, its frame is closed, its squad is resident, and its quad
is not frozen, or it is a step (18 R410; 17 R384). After the entry limit of Hold codes wait for exit (21 R468). -/
def State.mayDeliver (s : State) (k : Nat) : Bool :=
  let t := s.thr k
  t.live && !t.stopped && !t.frame.isOpen && !s.hold.overrun && (s.thrBlock t).onQuad && (s.thrSquad t).resident && s.eligible k &&
  (s.dbg.stepping || !(s.quad (s.thrCore t / 4)).frozen)

/-- A run without the lane of a thread. -/
def Run.without (r : Run) (t : Thread) : Option Run :=
  if r.blk = t.blk ∧ r.sq = t.sq then
    let m := r.lanes &&& ~~~(1#32 <<< t.lane)
    if m = 0 then none else some { r with lanes := m }
  else some r

/-- A thread is in no run any more. -/
def State.outOfRun (s : State) (k : Nat) : State :=
  let t := s.thr k
  s.modCore (s.thrCore t) fun c => { c with slot0 := c.slot0.bind (Run.without · t), slot1 := c.slot1.bind (Run.without · t) }

/-- The held fault is taken: pending destinations of cancelled accesses are written with zero, and the thread goes to its handler (18 R410;
20 R438). -/
def State.takeHeld (s : State) (k : Nat) : State :=
  match (s.thr k).held with
  | none => s
  | some (f, pc) => (((s.modThr k fun t => { t with held := none }).outOfRun k).settle k).takeFault k f pc (!f.logged)

/-- ASYNC_FAULT_DELIVERY. -/
def execAsyncFaultDelivery (thr : Nat) (s : State) : Host.Outcome State Fault Refusal :=
  .next (if s.mayDeliver thr then s.takeHeld thr else s)

/-! ## Records as bytes -/

/-- A fault record (18 Table 18.4). -/
def FaultRecord.packed (r : FaultRecord) : Nat :=
  pack [(2, r.code), (2, r.core), (4, r.launch),
        (8, r.bid % 2 ^ 48 + (if r.noThread then 2 ^ 59 else r.tid % 2 ^ 11 * 2 ^ 48)),
        (8, r.pc.toNat % 2 ^ 56 + r.disp % 4 * 2 ^ 56 + if r.nested then 2 ^ 58 else 0), (8, r.addr.toNat)]

/-- The values of a checkpoint: unselected positions are undefined. `redact` leaves all of them zero (18 R412). -/
def State.valueBytes (s : State) (mask : Nat) (v : Nat → Word) (redact : Bool) : List Byte :=
  (List.range 16).flatMap fun i =>
    if redact then toBytes 8 0 else if bit mask i then toBytes 8 (v i).toNat else s.undefinedBytes 8

/-- Bytes 0x80 to 0x9F of a checkpoint slot, with the two bytes that a frame uses for its code (03 Table 3.10). -/
def Checkpoint.tail (c : Checkpoint) (code : Nat) : List Byte :=
  toBytes 32 (pack [(8, c.start.toNat), (2, c.base), (2, c.mask), (1, c.preds.toNat), (1, c.cdepth), (2, code),
                    (2, (sget 0 c.x 0).toNat), (2, (sget 0 c.x 1).toNat), (2, (sget 0 c.x 2).toNat), (2, (sget 0 c.x 3).toNat),
                    (4, c.fpmode.toNat), (4, c.srctr.toNat)])

/-- A trap frame (18 Table 18.5). -/
def State.frameBytes (s : State) (f : TrapFrame) (redact : Bool) : List Byte :=
  s.valueBytes f.slot.mask (fun i => sget 0 f.slot.vals i) redact ++ f.slot.tail f.code ++
  toBytes 32 (pack [(8, f.fpc.toNat % 2 ^ 56 + if f.isOpen then 2 ^ 56 else 0), (8, f.addr.toNat), (8, f.info.toNat), (8, f.ord.toNat)]) ++
  (List.range 8).flatMap fun i => toBytes 8 (sget 0 f.strms i).toNat

/-! ## The parts of a dump (18 Table 18.7) -/

/-- The bytes of a launch record (02 Table 2.3). -/
def LaunchRecord.packed (r : LaunchRecord) : Nat :=
  pack [(8, r.entry.toNat), (4, r.gx), (4, r.gy), (4, r.gz), (2, r.bx), (2, r.byy), (2, r.bz), (2, r.regs), (4, r.scratch),
        (8, r.args.toNat), (4, r.done.toNat), (4, r.flags.toNat), (8, r.handler.toNat), (8, r.rsv.toNat)]

/-- The part of a block. -/
def State.blockPart (s : State) (b : Block) : List Byte :=
  let ranks := (List.range b.ncore).foldl (fun m i => m + 2 ^ (b.rank0 + i)) 0
  toBytes 64 (pack [(8, (s.grid b.grid).launch.toNat), (8, b.bid), (1, b.dquad), (1, ranks), (2, b.nsq), (4, b.allot), (4, b.scratch),
                    (2, b.banks.toNat)])

/-- The part of a squad (03 R76). -/
def Squad.part (q : Squad) : List Byte :=
  ((List.range 64).flatMap fun n => toBytes 8 (q.readS n).toNat) ++ (List.range 8).flatMap fun m => toBytes 4 (q.readJ m).toNat

/-- The part of a thread. -/
def State.threadPart (s : State) (t : Thread) (allot : Nat) (redact : Bool) : List Byte :=
  let now : Checkpoint :=
    { start := if t.live then t.pc else 0, base := t.slot.base, mask := t.slot.mask, preds := t.p, cdepth := t.cdepth, x := t.x,
      fpmode := t.fpmode, srctr := t.srctr }
  s.valueBytes t.slot.mask (fun i => t.readV (t.slot.base + i)) redact ++ now.tail 0 ++
  toBytes 32 (pack [(8, t.ordstate.toNat)]) ++ s.frameBytes t.frame redact ++
  ((List.range 16).flatMap fun i => if i < t.cdepth then toBytes 8 (t.readLink i).toNat else s.undefinedBytes 8) ++
  if redact then [] else (List.range allot).flatMap fun n => toBytes 8 (t.readV n).toNat

/-- The bytes of an owned bank. -/
def State.bankPart (s : State) (blk i : Nat) : List Byte :=
  let d := (tgetD s.bankSave (saveKey blk i) {}).data
  (List.range 16384).flatMap fun k => toBytes 4 (sget 0 d k).toNat

/-- The parts of one block, in order. -/
def State.blockParts (s : State) (blk : Nat) (redact : Bool) : List (List Byte) :=
  let b := s.block blk
  let squads := (List.range b.nsq).flatMap fun j =>
    (s.squad blk j).part :: (squadThreads b blk j).map fun k => s.threadPart (s.thr k) b.allot redact
  let scratch := if redact then [] else
    (List.range b.ncore).map fun r => (List.range b.scratch).map fun i => readByte s.mem (scratchKey blk (b.rank0 + r) + i)
  let handles := ((List.range 16).flatMap fun i => toBytes 16 (b.handle i).toNat) ++
    if redact then [] else ((List.range 16).filter fun i => b.banks.getLsbD i).flatMap fun i => s.bankPart blk i
  [s.blockPart b] ++ squads ++ scratch ++ [handles]

/-- The blocks of a context, by the device core number of the rank-0 core. -/
def State.blocksOf (s : State) (ctx : Nat) : List Nat :=
  let bs := s.blocks.filter fun e => e.2.ctx == ctx && e.2.status != .complete
  (List.range 768).flatMap fun c => (bs.filter fun e => blockCore e.2 0 == c).map (·.1)

/-- `n` bytes of named contents in a layout that the manual does not give (log 61). -/
def dumpBytes (contents : List Nat) (n : Nat) : List Byte := (List.range n).map (Config.dumpByte contents)

/-- The part of a barrier slot: handle, HOLD, INIT, ARR, BYTES and PHASE, in 16 bytes. -/
def BarrierSlot.part (b : BarrierSlot) (dquad slot : Nat) : List Byte :=
  dumpBytes [makeHandle dquad slot b.gen, b.hold, b.init, (BitVec.ofInt 32 b.arr).toNat, (BitVec.ofInt 32 b.bytes).toNat, b.phase] 16

/-- The barrier slots that a context holds. -/
def State.barrierParts (s : State) (ctx : Nat) : List (List Byte) :=
  s.quads.flatMap fun q => (q.2.slots.filter fun e => e.2.allot && e.2.ctx == ctx).map fun e => e.2.part q.1 e.1

/-- A register name as a number. -/
def Dest.number (d : Dest) : Nat := match d with | .v n k => 4 * n + 4096 * k | .s n k => 4 * n + 1 + 4096 * k | .p n => 4 * n + 2

/-- The part of an entry of the operand log: what 13 R338 says that it holds, in 64 bytes. -/
def State.logPart (s : State) (a : Access) : List Byte :=
  let t := s.thr a.thr
  let b := s.thrBlock t
  dumpBytes ([a.pc.toNat, a.ea.toNat, a.data, a.data2, a.strm, a.pred, (s.grid b.grid).launch.toNat, b.bid, t.tid, t.srctr.toNat] ++ a.code ++
    a.dests.map Dest.number) 64

/-- What a part of a dump is. -/
inductive PartKind where
  | block | grid | other
deriving DecidableEq, Repr

/-- The first parts that fit in a room, and whether one did not. -/
def partsThatFit : Nat → List (PartKind × List Byte) → List (PartKind × List Byte) × Bool
  | _, [] => ([], false)
  | room, p :: ps =>
    if room < p.2.length then ([], true)
    else
      let r := partsThatFit (room - p.2.length) ps
      (p :: r.1, r.2)

/-- The parts of a dump, in order: those of blocks, each beginning with its Block part, barriers, the log, and the grids. -/
def State.dumpParts (s : State) (ctx : Nat) : List (PartKind × List Byte) :=
  let c := s.ctx ctx
  let of (k : PartKind) (l : List (List Byte)) := l.map fun p => (k, p)
  ((s.blocksOf ctx).flatMap fun b =>
    let ps := s.blockParts b c.confidential
    of .block (ps.take 1) ++ of .other (ps.drop 1)) ++
  of .other (s.barrierParts ctx ++ c.logDump) ++
  if c.noGrids then [] else of .grid ((s.queued ctx).map fun g => toBytes 64 g.2.rc.packed)

/-- The dump of a context, with FLAGS (18 R412, Table 18.6). NBLOCK and NGRID count the Block parts and the launch records that are written. -/
def State.makeDump (s : State) (ctx : Nat) : List Byte × Nat :=
  let c := s.ctx ctx
  let room := c.desc.savemax - s.saveUsed ctx - 0x240
  let (ps, trunc) := partsThatFit room (s.dumpParts ctx)
  let count (k : PartKind) := (ps.filter fun p => p.1 == k).length
  let flags := (if trunc then 1 else 0) + (if c.lostSec then 2 else 0) + if c.confidential then 4 else 0
  let size := 0x240 + (ps.map fun p => p.2.length).foldl (· + ·) 0
  let header := pack
    ([(4, 0x504D4443), (2, 1), (1, c.secondaries.length), (1, flags), (8, c.desc.id % 2 ^ 16), (8, size), (8, c.haltTime),
      (32, (c.primary.map FaultRecord.packed).getD 0)] ++
     ((List.range 15).map fun i => (32, (c.secondaries[i]?.map FaultRecord.packed).getD 0)) ++
     [(4, count .block), (4, count .grid)])
  (toBytes 0x240 header ++ ps.flatMap (·.2), flags)

/-! ## The halt (18 R411) -/

/-- Threads of a context whose squads are on a die. -/
def State.threadsOf (s : State) (ctx : Nat) : List Nat :=
  (s.threads.filter fun e => (s.thrBlock e.2).ctx == ctx && (s.thrBlock e.2).status != .complete).map (·.1)

/-- A thread stands at a REGION that waits for an access in the operand log, or for one that has been cancelled. -/
def State.atReplay (s : State) (k : Nat) : Bool :=
  s.inRegion k && s.accs.any fun a => a.thr == k && match a.stage with | .logged _ | .cancelled => true | _ => false

/-- A thread stands where the halt stops it: it is not resident, or at an eligible point, or at a REGION that waits for a replay, or at a
fetch that only a MAP could end. -/
def State.halts (s : State) (k : Nat) : Bool :=
  let t := s.thr k
  !t.live || t.stopped || !(s.thrSquad t).resident || s.eligible k ||
  (!s.inRun t && (match t.wait with | .fetch _ => true | _ => false)) ||
  s.atReplay k

/-- A thread at a REGION that waits for a logged replay stops where it stands: it writes no slot (18 R411 step 2). -/
def State.stopAtReplays (s : State) (ctx : Nat) : State :=
  ((s.threadsOf ctx).filter fun k => (s.thr k).live && s.atReplay k).foldl (fun s k => s.modThr k fun t => { t with stopped := true }) s

/-- The log entries of a context are recorded and cancelled (18 R411 step 2). -/
def State.cancelLog (s : State) (ctx : Nat) : State :=
  let as := s.accs.filter fun a => a.ctx == ctx && match a.stage with | .logged _ => true | _ => false
  let s := s.modCtx ctx fun c => { c with logDump := c.logDump ++ as.map s.logPart }
  as.foldl (fun s a => if (s.acc a.id).any fun x => x.stage != .cancelled then s.cancel a else s) s

/-- An operation holds an access for a page. -/
def State.opHolds (s : State) (a : Access) : Bool :=
  match a.kind, a.stage with
  | .engine _, .moving _ (_ :: _) _ _ => true
  | .engine _, .inHold d c q _ => (s.die d).holds.any fun h => h.clove == c && h.seq == q && h.released
  | _, _ => false

/-- Operations that hold an access for a pending demand report are cancelled (18 R411 step 3; 16 R363); a released hold whose requests are
all gone goes. -/
def State.cancelHeldOps (s : State) (ctx : Nat) : State :=
  let s := (s.accs.filter fun a => a.ctx == ctx && s.opHolds a).foldl
    (fun s a => if (s.acc a.id).isSome then s.cancel a else s) s
  { s with dies := s.dies.map fun (d : Nat × Die) =>
      (d.1, { d.2 with holds := d.2.holds.filter fun h => !h.released || h.reqs.any fun r =>
                (s.acc r).any fun a => a.stage != .cancelled }) }

/-- An asynchronous operation of a context that has not completed. -/
def State.opsLeft (s : State) (ctx : Nat) : Bool :=
  s.accs.any fun a => a.ctx == ctx && a.stage != .cancelled && match a.kind with | .engine _ | .mma _ => true | _ => false

/-- Every thread of a halting context stands still, and its operations have completed. -/
def State.haltReady (s : State) (ctx : Nat) : Bool := (s.threadsOf ctx).all s.halts && !s.opsLeft ctx

/-- The CTX_FAULT of a context has been posted: no such event of it waits (18 R413, R414). -/
def State.faultPosted (s : State) (ctx : Nat) : Bool :=
  let mine (e : Event) := e.code == 3 && e.ctx == ctx
  (tvals s.ctl).all (fun p => !p.waiting.any mine) && !s.ownerEvents.any mine && !s.hold.late.any fun e => e.1 == ctx

/-- A halt began before another: in an earlier cycle, or in the same one with a lower context number (18 R413, Table 18.8). -/
def Context.haltedBefore (a b : Context) : Bool := decide (a.haltClk.toNat < b.haltClk.toNat ∨ a.haltClk = b.haltClk ∧ a.desc.id < b.desc.id)

/-- A context is served once those whose halts began before its own have had their CTX_FAULT posted; during Hold entry those wait for exit (18
R413, Table 18.8). -/
def State.firstHalting (s : State) (ctx : Nat) : Bool :=
  s.ctxs.all fun e => e.1 == ctx || !e.2.haltedBefore (s.ctx ctx) ||
    match e.2.status with
    | .halting => false
    | .faulted => s.held || s.faultPosted e.1
    | _ => true

/-- A frame with CODE 0 for a thread that has none of its own (18 R411 step 4). -/
def State.haltFrame (s : State) (k : Nat) : State :=
  let t := s.thr k
  if t.frame.isOpen || t.framed then s
  else s.modThr k fun t => { t with frame := s.frameFor k { code := 0 } (if t.live then t.pc else 0) false false }

/-- Steps 2 and 3 for a context whose threads stand still: they stop, cloves lose their members, and the banks of its blocks are saved. -/
def State.finishHalt (s : State) (ctx : Nat) : State :=
  let ks := s.threadsOf ctx
  let s := ks.foldl (fun s k => s.modThr k fun t => { t with stopped := true }) s
  let bs := s.blocksOf ctx
  let s := bs.foldl (fun s b => (s.block b).cores.foldl (fun s c => s.leaveCloves c b) s) s
  bs.foldl
    (fun s b => (List.range 16).foldl
      (fun s i => if (s.bank (s.block b).dquad i).occupant = some b then s.saveBank (s.block b).dquad i else s) s) s

/-- Step 5: the squads are freed, and the context leaves every die. -/
def State.freeSquads (s : State) (ctx : Nat) : State :=
  let bs := s.blocksOf ctx
  let s := s.dropForDiscard (s.threadsOf ctx)
  let s := bs.foldl
    (fun s b =>
      let s := (s.endRuns b).resetIdle (s.block b)
      (List.range (s.block b).nsq).foldl (fun s j => s.modSquad b j fun q => { q with resident := false, replay := false })
        (s.modBlock b fun x => { x with status := .discarded .stop })) s
  let s := { s with dies := s.dies.map fun (d : Nat × Die) => (d.1, { d.2 with restart := d.2.restart.filter fun b => !bs.contains b }) }
  (List.range 4).foldl (fun s d => if (s.die d).active = some ctx then s.leave d ctx else s) s

/-- CORE_DUMP_WRITE (18 R411 to R415). A halt that ends during Hold entry posts its CTX_FAULT after exit (18 Table 18.8). -/
def execCoreDumpWrite (ctx : Nat) (s : State) : Host.Outcome State Fault Refusal :=
  .next (if (s.ctx ctx).status ≠ .halting then s
    else
      let s := ((s.stopAtReplays ctx).cancelLog ctx).cancelHeldOps ctx
      if !s.haltReady ctx || !s.firstHalting ctx then s
      else
        let s := s.finishHalt ctx
        let s := (s.threadsOf ctx).foldl (fun s k => s.haltFrame k) s
        let (dump, flags) := s.makeDump ctx
        let s := s.freeSquads ctx
        let s := s.draw.modCtx ctx fun c => { c with status := .faulted, dump := dump, dumpFlags := flags }
        let c := s.ctx ctx
        let code := (c.primary.map (·.code)).getD 0
        let e : Event := { code := 3, ctx := ctx, arg0 := BitVec.ofNat 64 (code + c.secondaries.length * 2 ^ 16 + flags * 2 ^ 20),
                           arg1 := BitVec.ofNat 64 dump.length }
        if s.held then { s with hold := { s.hold with late := s.hold.late ++ [(ctx, e)] } } else s.postBoth ctx e)

/-! ## The queue-level reset (21 R465) -/

/-- The queued grids and the restart entries of a context go. A grid with placed blocks keeps them and gets no more. -/
def State.dropQueues (s : State) (ctx : Nat) : State :=
  let gone := (s.dies.flatMap fun d => d.2.restart).filter fun b => (s.block b).ctx == ctx
  let s := gone.foldl (fun s b => s.forgetBlock b) s
  { s with
    dies := s.dies.map fun (d : Nat × Die) => (d.1, { d.2 with restart := d.2.restart.filter fun b => !gone.contains b })
    grids := (s.grids.filter fun e => !(e.2.ctx == ctx && e.2.nextBid == 0)).map fun (e : Nat × Grid) =>
      (e.1, if e.2.ctx = ctx then { e.2 with nextBid := e.2.total } else e.2) }

/-- QUEUE_LEVEL_RESET. -/
def execQueueLevelReset (ctx : Nat) (s : State) : Host.Outcome State Fault Refusal :=
  .next (match tget s.ctxs ctx with
    | none => s
    | some c =>
      if c.status = .faulted then s
      else
        let s := if s.session = ctx then ((s.resumeAll 4).writeStops).closeSink 1 else s
        let s := (s.dropQueues ctx).modCtx ctx fun c => { c with noGrids := true }
        s.contextFault ctx 0x0907 0 0)

/-! ## Soft errors (20 R452 to R454) -/

/-- The REGION at which a thread stands reads a register. -/
def State.regionReads (s : State) (k n : Nat) : Bool :=
  match s.instrAt k with
  | some (.region w) => (List.range 16).any fun i => bit (splitField w) i && w.a.toNat + i == n
  | _ => false

/-- An uncorrectable error in a V register, found as it is read. -/
def State.registerError (s : State) (k n : Nat) : State :=
  let t := s.thr k
  if !t.live ∨ !(s.thrSquad t).resident then s
  else if s.regionReads k n then s.contextFault (s.thrBlock t).ctx 0x0A03 0 0x01
  else (s.modSquad t.blk t.sq fun q => { q with replay := true }).noticeThread t 0x0A04 0x01

/-- The contexts that map a line. -/
def State.contextsOf (s : State) (line : Nat) : List Nat :=
  (s.ctxs.filter fun e => s.frameMapped (line / 512) 4 0 e.2.root).map (·.1)

/-- An uncorrectable error in the tags of the set of a line in one cache: every context with a line in that set halts. -/
def State.tagsError (s : State) (cache : Level) (line : Nat) : State :=
  let mates := s.lines.filter fun x => x.level == cache && s.setOf cache x.line == s.setOf cache line
  ((mates.flatMap fun x => s.contextsOf x.line).eraseDups).foldl (fun s c => s.contextFault c 0x0A03 0 0x06) s

/-- A list without the entry at a place. -/
def dropAt {α : Type} (l : List α) (i : Nat) : List α := l.take i ++ l.drop (i + 1)

/-- A parity error in an entry of a translation buffer or a predictor drops the entry. -/
def State.parityError (s : State) (u : ParityUnit) (i : Nat) : State :=
  match u with
  | .coreTlb c => s.modCore c fun x => { x with tlb := dropAt x.tlb i }
  | .quadTlb q => s.modQuad q fun x => { x with tlb := dropAt x.tlb i }
  | .ahead q => s.modQuad q fun x => { x with ahead := dropAt x.ahead i }
  | .predictor c => s.modCore c fun x => { x with predictor := tdel x.predictor i }

/-- A corrected error: a notice, with the structure of Table 20.3 and the PA, or 0. -/
def State.corrected (s : State) (pa structure_ : Nat) : State := s.notice 0x0A01 (BitVec.ofNat 64 pa) structure_

/-- An uncorrectable error. -/
def State.uncorrected (s : State) (e : SoftError) : State :=
  match e with
  | .register k n _ => s.registerError k n
  | .squadState c _ => s.contextFault c 0x0A03 0 0x02
  | .unitState c _ => s.contextFault c 0x0A03 0 0x08
  | .scratchpad b r o _ => s.poisonRange (scratchKey b r + o / 32 * 32) 32
  | .cleanLine l _ =>
    (s.dropLines fun x => x.line == l && x.dirty == 0).notice 0x0A01 (BitVec.ofNat 64 (l * 128)) 0x04
  | .dirtyLine pa _ | .hbm pa _ | .tier pa _ => s.poisonRange (pa / 32 * 32) 32
  | .cacheTags c l _ => s.tagsError c l
  | .bank q i _ => s.modBank q i fun b => if b.occupant.isSome then { b with poisoned := true, cured := [] } else b
  | .tlb u i => (s.parityError u i).notice 0x0A01 0 0x09
  | .sequencer q => s.modQuad q fun x => { x with hung := true, hungAt := s.nextId }

/-- SCRUB: an error that the protection of Table 20.3 finds, corrected or not. -/
def execScrub (err : SoftError) (s : State) : Host.Outcome State Fault Refusal :=
  .next (match err with
    | .register _ _ true => s.corrected 0 0x01
    | .squadState _ true => s.corrected 0 0x02
    | .scratchpad _ _ _ true => s.corrected 0 0x03
    | .cleanLine l true => s.corrected (l * 128) 0x04
    | .dirtyLine pa true => s.corrected pa 0x05
    | .cacheTags _ _ true => s.corrected 0 0x06
    | .bank _ _ true => s.corrected 0 0x07
    | .unitState _ true => s.corrected 0 0x08
    | .hbm pa true => s.corrected pa 0x0A
    | .tier pa true => s.corrected pa 0x0B
    | e => s.uncorrected e)

end Sys2Proof.Machine
end

