-- ==== Sys2Proof/Machine/DebugEvents.lean ====
section
/-! DEFINITION. The events of the debug window (17 R375 to R389): sessions, freezes, steps and samples. -/

namespace Sys2Proof.Machine

/-! ## Sessions (17 R375) -/

/-- A DCTL value has every field in its range (Table 17.2). -/
def dctlOk (v : Nat) : Bool :=
  decide (bits v 9 8 ≠ 3 ∧ bits v 16 12 ≤ 20 ∧ bits v 63 22 = 0) && (!bit v 10 || decide (6 ≤ bits v 21 17 ∧ bits v 21 17 ≤ 20))

/-- A context may be debugged. -/
def State.debuggable (s : State) (c : Context) : Bool := !c.confidential && (!c.secure || s.firmware.debugFuse)

/-- Watchpoints and comparators are disarmed. -/
def State.disarm (s : State) : State :=
  { s with quads := s.quads.map fun (q : Nat × Quad) =>
      (q.1, { q.2 with watch := q.2.watch.map fun (w : Nat × Watchpoint) => (w.1, { w.2 with ctl := w.2.ctl &&& ~~~1#64 })
                       comps := q.2.comps.map fun (c : Nat × Word) => (c.1, c.2 &&& ~~~(1#64 <<< 63)) }) }

/-- The session ends: freezes end, units are disarmed and the sink closes; `dctl` is what DCTL then holds, with TRACE 0, also where a write
of CTX = 0 sets TRACE while no session is attached (DESIGN CHOICE, log 73). -/
def State.endSession (s : State) (dctl : Word) : State :=
  if s.session = 0 then { s with dbg := { s.dbg with dctl := dctl &&& ~~~(1#64 <<< 10) } }
  else
    let s := (((s.resumeAll 3).writeStops).disarm).closeSink 2
    { s with dbg := { s.dbg with dctl := dctl &&& ~~~(1#64 <<< 10), sink := false, stepN := 0, stepping := false } }

/-- A session is attached, or the one that is attached takes new settings. Sampling counts from the write that sets SAMPLE. A TRUNC of an
earlier sink that still waits for a slot is lost when a new sink opens (DESIGN CHOICE, log 73). -/
def State.attach (s : State) (v : Word) : State :=
  let old := s.dbg.dctl.toNat
  let s := if s.session ≠ 0 ∧ s.session ≠ v.toNat % 64 then s.endSession 0 else s
  let on := bit v.toNat 10
  let s := { s with dbg := { s.dbg with dctl := v, denied := false, sink := on, buffer := if on && s.dbg.sink then s.dbg.buffer else [],
                                            overflow := on && s.dbg.overflow, closing := if on then none else s.dbg.closing } }
  if bit v.toNat 11 && !(bit old 11 && bits old 5 0 == v.toNat % 64 && bits old 16 12 == bits v.toNat 16 12) then
    { s with dbg := { s.dbg with sampleClk := 0 }
             cores := s.cores.map fun (c : Nat × Core) => (c.1, { c.2 with sample := none }) }
  else s

/-- DEBUG_ATTACH. A write that sets DENIED leaves DCTL and the session as they were (DESIGN CHOICE, log 73). -/
def execDebugAttach (value : Word) (s : State) : Host.Outcome State Fault Refusal :=
  .next (match tget s.ctxs (value.toNat % 64) with
    | none => s
    | some c =>
      if !dctlOk value.toNat then s
      else if s.debuggable c then s.attach value
      else { s with dbg := { s.dbg with denied := true } })

/-- DEBUG_DETACH: a DCTL value that names no context. -/
def execDebugDetach (value : Word) (s : State) : Host.Outcome State Fault Refusal :=
  .next (if value.toNat % 64 ≠ 0 ∨ !dctlOk value.toNat then s
    else
      let s := s.endSession value
      { s with dbg := { s.dbg with denied := false } })

/-! ## Freeze and resume (17 R377, R379, R383) -/

/-- A quad that runs the attached context (Table 17.4). -/
def State.attachedQuad (s : State) (q : Nat) : Bool :=
  decide (q < 192) && s.session != 0 && (s.die (q / 48)).active == some s.session

/-- DCMD_FREEZE. -/
def execDcmdFreeze (quad : Nat) (s : State) : Host.Outcome State Fault Refusal :=
  .next (if s.attachedQuad quad then s.stop quad 5 { type := 2, code := 0x50 } else s)

/-- Threads of a quad that stand on an enabled comparator's VA may execute that instruction once. -/
def State.passComparators (s : State) (q : Nat) : State :=
  { s with threads := s.threads.map fun (e : Nat × Thread) =>
      let b := s.thrBlock e.2
      if e.2.live && b.onQuad && b.dquad == q && b.ctx == s.session && !(s.compHits q e.2.pc).isEmpty then (e.1, { e.2 with stepOver := some e.2.pc })
      else e }

/-- DCMD_RESUME. -/
def execDcmdResume (quad : Nat) (s : State) : Host.Outcome State Fault Refusal :=
  .next (if !s.attachedQuad quad then s
    else
      match s.dbg.freezes.find? fun f => f.contains quad with
      | none => s
      | some set => (set.foldl (fun s q => s.passComparators q) s).resumeSet set 0)

/-! ## Step (17 R384) -/

/-- The squad of a slot. -/
def State.squadAt (s : State) (core slot : Nat) : Option Squad :=
  (tvals s.squads).find? fun q => q.resident && q.core == core && q.slot == slot

/-- The squad that is being stepped, by its names; it may have left its slot. -/
def State.steppedSquad (s : State) : Squad :=
  let b := s.block s.dbg.stepBlk
  { s.squad s.dbg.stepBlk s.dbg.stepSq with
      blk := s.dbg.stepBlk, num := s.dbg.stepSq, core := blockCore b s.dbg.stepSq }

/-- The STEP record, and the end of the step. -/
def State.endStep (s : State) (status n : Nat) : State :=
  let q := s.steppedSquad
  let s := s.afterStops 401 (s.traceSquad q
    { type := 4, code := status, a := s.dbg.stepPc, b := ((s.lowestLive q).map (·.pc)).getD 0, c := BitVec.ofNat 64 n })
  { s with dbg := { s.dbg with stepN := 0, stepping := false, stepBrk := false } }

/-- The group that was to be stepped waits for a fetch: it has executed nothing (13 R343). -/
def State.stepHeld (s : State) : Bool :=
  match (s.thr (threadKey s.dbg.stepBlk (32 * s.dbg.stepSq + s.dbg.stepLane))).wait with
  | .fetch _ => true
  | _ => false

/-- After a stepped instruction its run ends, and with it the squad's quantum in a bundle with BCW[YIELD] (12 R314); the squad's arbitration goes
on from its lowest lane. -/
def State.closeStep (s : State) (core : Nat) : State :=
  let d := s.dbg
  let s := s.freeSlot core d.stepSlot
  if s.stepHeld then s else s.modSquad d.stepBlk d.stepSq fun q => { q with lp := d.stepLane }

/-- The next group of the stepped squad issues one instruction; the rest of the step follows it. -/
def State.issueStep (s : State) (quad rank slot count n : Nat) : State :=
  let core := 4 * quad + rank
  let gs := s.offers.filter fun g => g.1 == s.dbg.stepBlk && g.2.1 == s.dbg.stepSq
  let s := { s with offers := [] }
  let q := s.squad s.dbg.stepBlk s.dbg.stepSq
  let l := nextLane q.lp (gs.foldl (fun m g => m ||| g.2.2) 0)
  match gs.find? fun g => g.2.2.getLsbD l with
  | none => s.endStep 1 n
  | some g =>
    let i := if ((s.core core).slot 0).isNone then 0 else 1
    let low := ((List.range 32).find? fun i => g.2.2.getLsbD i).getD 0
    let s := s.modCore core fun c => c.setSlot i (some { blk := g.1, sq := g.2.1, lanes := g.2.2 })
    { s with focus := [(core, i)], agenda := .dcmdStep quad rank slot (count - 1) :: s.agenda
             dbg := { s.dbg with stepping := true, stepN := n + 1, stepSlot := i, stepLane := low } }

/-- One turn of the loop of R384: what the last instruction left, then the next. `n` instructions have been executed. -/
def State.stepTurn (s : State) (quad rank slot count n : Nat) : State :=
  let core := 4 * quad + rank
  let s := if n = 0 then s else s.closeStep core
  if (s.lowestLive s.steppedSquad).isNone then s.endStep 2 n
  else if n ≠ 0 ∧ s.stepHeld then s.endStep 1 (n - 1)
  else if s.dbg.stepBrk ∨ count = 0 then s.endStep 0 n
  else s.issueStep quad rank slot count n

/-- DCMD_STEP: `count` instructions are left. The first turn names the squad. While the freeze has not taken effect the command waits for it
(log 14). A COUNT of 0, and a slot that is empty, have no effect and no record (DESIGN CHOICE, log 73). -/
def execDcmdStep (quad rank slot count : Nat) (s : State) : Host.Outcome State Fault Refusal :=
  .next (
    let calm (s : State) : State := { s with offers := [], dbg := { s.dbg with stepping := false } }
    if !s.attachedQuad quad ∨ !(s.quad quad).frozen then { calm s with dbg := { (calm s).dbg with stepN := 0 } }
    else if s.skidding quad then { calm s with dbg := { (calm s).dbg with later := s.dbg.later ++ [.dcmdStep quad rank slot count] } }
    else if s.dbg.stepN ≠ 0 then s.stepTurn quad rank slot count s.dbg.stepN
    else
      match s.squadAt (4 * quad + rank) slot with
      | none => calm s
      | some q =>
        if count = 0 ∨ 4 ≤ rank then calm s
        else
          let pc := ((s.lowestLive q).map (·.pc)).getD 0
          ({ s with dbg := { s.dbg with stepPc := pc, stepBlk := q.blk, stepSq := q.num, stepBrk := false } } : State).stepTurn
            quad rank slot count 0)

/-! ## Counters and samples (17 R386 to R388) -/

/-- The oldest resident squad of a core (17 R387). -/
def State.oldestSquad (s : State) (core : Nat) : Option Squad := firstBy s.older (s.slotSquads core)

/-- The run of a squad. -/
def State.runOf (s : State) (q : Squad) : Option Run :=
  ([(s.core q.core).slot0, (s.core q.core).slot1].filterMap id).find? fun r => r.blk == q.blk && r.sq == q.num

/-- The instruction at which a thread stands could issue. `run` executes an instruction. -/
def State.couldIssue (run : Instr → State → State) (s : State) (t : Thread) : Bool :=
  s.readyLanes run (s.thrCore t) (t.blk, t.sq, 1#32 <<< t.lane) != 0

/-- The state as if no access stood in the operand log or had been cancelled. -/
def State.withoutLog (s : State) : State :=
  { s with accs := s.accs.filter fun a => match a.stage with | .logged _ | .cancelled => false | _ => true }

/-- The state as if a thread had no access in flight on any stream. -/
def State.withoutBeads (s : State) (k : Nat) : State := s.modThr k fun t => { t with beads := [] }

/-- The thread has a clove load that waits to open a fifth hold (10 R273). -/
def State.atFifthHold (s : State) (k : Nat) : Bool :=
  s.accs.any fun a => a.thr == k && match a.stage with | .behindHolds _ => true | _ => false

/-- The reason of Table 17.6 for a thread. A thread at an instruction that cannot issue waits on what holds it back: an access in the operand
log or a cancelled one, a full stream, or another operand. A member whose clove load waits for a fifth hold is charged to the hold, also
while it stands at its barrier (10 R273). -/
def State.stallReason (run : Instr → State → State) (s : State) (t : Thread) : Nat :=
  let k := threadKey t.blk t.tid
  match t.wait with
  | .bwait _ => if s.atFifthHold k then 4 else 3
  | .jwait _ | .site _ _ _ _ => 3
  | .sleep _ _ => 8
  | .fetch _ | .log => 6
  | .slice _ _ _ => 5
  | .ready =>
    if t.parked then 8
    else
      let free := s.withoutBeads k
      if free.couldIssue run t then (if s.streamFull k then 2 else 1)
      else if free.withoutLog.couldIssue run t then 6
      else 1

/-- What a squad is doing: 0 issuing in the cycle, or a reason (17 R387, R388). -/
def State.squadReason (run : Instr → State → State) (s : State) (q : Squad) (issued : List (Nat × Nat)) : Nat :=
  if issued.contains (q.blk, q.num) then 0
  else
    match s.runOf q with
    | some _ => 7
    | none => match s.lowestLive q with | some t => s.stallReason run t | none => 1

/-- The cycles between two samples. -/
def State.samplePeriod (s : State) : Nat := 2 ^ (bits s.dbg.dctl.toNat 16 12 + 8)

/-- The bin of Table 17.5 that holds an eligible count. -/
def countBin (e : Nat) : Nat := if e ≤ 2 then e else if e ≤ 4 then 3 else if e ≤ 8 then 4 else if e ≤ 16 then 5 else 6

/-- A core counts `n` cycles in which these squads issued (17 R386, R387). -/
def State.countCycles (run : Instr → State → State) (s : State) (core n : Nat) (issued : List (Nat × Nat)) : State :=
  if n = 0 ∨ !s.counting core then s
  else if (s.quad (coreQuad core)).stands then s.count core 16 n
  else
    match s.oldestSquad core with
    | none => s.count core 17 n
    | some q =>
      let e := issued.length + (s.offer run core).offers.length
      let s' := s.count core (countBin e) n
      if e = 0 then s'.count core (6 + s.squadReason run q issued) n else s'

/-- The SAMPLE record of a core in a cycle in which these squads issued (17 R388). -/
def State.sampleOf (run : Instr → State → State) (s : State) (core : Nat) (issued : List (Nat × Nat)) : Option TraceRecord :=
  if !s.counting core || (s.quad (coreQuad core)).stands then none
  else
    (s.oldestSquad core).bind fun q => (s.lowestLive q).map fun t =>
      s.traceThread t { type := 1, code := s.squadReason run q issued, a := t.pc,
                        b := BitVec.ofNat 64 (issued.length + (s.offer run core).offers.length) }

/-- The counters and samples of a core after `n` cycles, in the first of which it has issued what it has noted. -/
def State.countCore (run : Instr → State → State) (n : Nat) (s : State) (core : Nat) : State :=
  let now := (s.core core).now
  let s' := (s.countCycles run core (min n 1) now).countCycles run core (n - 1) []
  let at_ := s.samplePeriod - s.dbg.sampleClk % s.samplePeriod
  let s' := if bit s.dbg.dctl.toNat 11 && decide (at_ ≤ n) then
      match s.sampleOf run core (if at_ = 1 then now else []) with
      | some r => (s'.modCore core fun c => { c with sample := some r }).plan [.pcSample core]
      | none => s'
    else s'
  s'.modCore core fun c => { c with now := [] }

/-- The counters and samples of the cores of a session after `n` cycles (17 R386 to R388). -/
def State.countSession (run : Instr → State → State) (s : State) (n : Nat) : State :=
  if s.session = 0 then { s with cores := s.cores.map fun (c : Nat × Core) => (c.1, { c.2 with now := [] }) }
  else
    let s := ((List.range 768).filter fun c => s.counting c || !(s.core c).now.isEmpty).foldl (State.countCore run n) s
    { s with dbg := { s.dbg with sampleClk := s.dbg.sampleClk + n } }

/-- PC_SAMPLE: the record that is due enters the sink. -/
def execPcSample (core : Nat) (s : State) : Host.Outcome State Fault Refusal :=
  .next (match (s.core core).sample with
    | some r => (s.modCore core fun c => { c with sample := none }).emit r
    | none => s)

end Sys2Proof.Machine
end

