-- ==== Sys2Proof/Machine/HoldEvents.lean ====
section
/-! DEFINITION. Hold (16 R371 to R373; 21 R468, R469): the request, the steps of entry, the entry limit, and exit. -/

namespace Sys2Proof.Machine

/-- A value of an event that the manual does not state (log 2). -/
def State.openWord (s : State) : Word := BitVec.ofNat 64 (Config.undefinedBits s.freeN)

/-- An event of a code whose arguments the manual does not state: they are free. -/
def State.postPlain (s : State) (code ctx : Nat) : State :=
  (s.postOwner { code := code, ctx := ctx, arg0 := s.openWord, arg1 := BitVec.ofNat 64 (Config.undefinedBits (s.freeN + 1)) }).draw.draw

/-! ## Entry -/

/-- Hold is requested (16 R371). -/
def State.holdRequested (s : State) : Bool := s.hold.pin || s.hold.cmd

/-- Entry begins: a pending handover lapses, freezes end, placement and swaps stop, every resident block is asked to leave, and open clove
holds are released as on timer expiry (16 Tables 16.6 and 16.7). -/
def State.beginHold (s : State) : State :=
  let s := { s with pending := false, links := { s.links with marked := true } }
  let s := s.resumeAll 1
  let active := (List.range 4).filterMap fun d => (s.die d).active.map fun c => (d, c)
  let s := { s with hold := { s.hold with entering := true, elapsed := 0, step := 1, inStep := 0, overran := [], overrun := false,
                                          activeAt := active, clkAt := s.clk } }
  let s := { s with cores := s.cores.map fun (e : Nat × Core) => (e.1, { e.2 with swapping := none }) }
  let s := (s.blocks.filter fun e => e.2.onQuad).foldl (fun s e => s.requestDiscard e.1 .hold) s
  s.plan ((List.range 4).flatMap fun d => (s.die d).holds.map fun h => .cloveTimerExpiry d h.clove h.seq)

/-- The request for Hold has changed: entry begins, or exit does. -/
def State.holdChange (s : State) : State :=
  if s.holdRequested then (if s.held then s else s.beginHold)
  else if s.hold.inHold && !s.hold.exiting then { s with hold := { s.hold with exiting := true } }
  else s

/-- HOLD_REQ: the pin, after its debounce. -/
def execHoldReq (asserted : Bool) (s : State) : Host.Outcome State Fault Refusal :=
  .next ({ s with hold := { s.hold with pin := asserted } } : State).holdChange

/-- The bound of a step in nanoseconds at nominal ACLK (Table 16.6); that of the first is 512 cycles. -/
def holdBound (step : Nat) : Nat :=
  match step with
  | 2 => 1000
  | 3 => 700000
  | 4 | 5 => 100000
  | 6 => 1100000
  | _ => 500000

/-- A step has run past its bound: steps 1 to 5 by ACLK cycles, which scale with f, steps 6 and 7 by time. -/
def State.holdLate (s : State) (step : Nat) : Bool :=
  if step = 1 then decide (512 < s.hold.inStep)
  else if step ≤ 5 then decide (holdBound step * 3 < 2 * s.hold.inStep) else decide (holdBound step * s.aclk < 1000000 * s.hold.inStep)

/-- The entry limit in ACLK cycles: 3 ms × f (16 R371). -/
def entryLimit : Nat := 4500000

/-- A copy that the entry limit stops: each 8-byte part that it had still to move holds its old or its new value, and it credits nothing, be
its credit on its way already. -/
def State.abortCopy (s : State) (a : Access) : State :=
  let s := { s with credits := s.credits.filter fun c => c.2.acc != a.id }
  match a.stage with
  | .moving ps hs _ _ =>
    let rest := ps ++ hs.map (·.2)
    -- which parts still arrive is not stated: some first ones do
    let n := Config.undefinedBits s.freeN % (rest.length + 1)
    let s := s.draw.modAcc a.id fun x => { x with stage := .moving rest [] 0 true }
    let s := match s.acc a.id with | some x => if n = 0 then s else s.moveParts x n rest [] 0 true | none => s
    match s.acc a.id with
    | some x => s.failAcc x { code := 0x0805, addr := a.ea }
    | none => s.deliver a.thr a.blk a.ctx { code := 0x0805, addr := a.ea } a.pc
  | _ => s.failAcc a { code := 0x0805, addr := a.ea }

/-- The entry limit (21 R468): Reckoners with a command executing are reset, copies stop, and the contexts of squads that stand at no
eligible point halt. -/
def State.entryOverrun (s : State) : State :=
  let s := { s with hold := { s.hold with overrun := true } }
  let qs := ((s.accs.filter fun a => a.stage.isExecuting).map fun a => coreQuad a.core).eraseDups
  let s := qs.foldl (fun s q => s.resetReckoner q) s
  let cs := s.accs.filter fun a => a.stage != .cancelled && match a.kind with | .engine _ => true | _ => false
  let s := cs.foldl (fun s a => match s.acc a.id with | some x => s.abortCopy x | none => s) s
  let bad := (tvals s.squads).filter fun q => q.resident && (s.ctx (s.block q.blk).ctx).status != .halting && !s.squadEligible q.blk q.num
  ((bad.map fun q => (s.block q.blk).ctx).eraseDups).foldl (fun s c => s.contextFault c 0x0D01 0 s.holdStep) s

/-- HOLD_ENTRY_OVERRUN: a step that runs past its bound is logged once; at the entry limit what still runs is stopped. -/
def execHoldEntryOverrun (step : Nat) (s : State) : Host.Outcome State Fault Refusal :=
  .next (if !s.hold.entering then s
    else
      let s := if s.holdStep = step ∧ s.holdLate step ∧ !s.hold.overran.contains step then
          { s with hold := { s.hold with overran := s.hold.overran ++ [step] } }.notice 0x0D01 0 step
        else s
      if entryLimit ≤ s.hold.elapsed ∧ !s.hold.overrun then s.entryOverrun else s)

/-- Every dirty bank of a quad is saved (12 R325). -/
def State.saveBanks (s : State) (dq : Nat) : State := (List.range 16).foldl (fun s i => s.saveBank dq i) s

/-- Write-back: no cached line is left, and translation buffers are empty (16 R372). -/
def State.emptyCaches (s : State) : State :=
  { s with
    lines := [], sharers := [], notices := [], walks := []
    cores := s.cores.map fun (c : Nat × Core) => (c.1, { c.2 with tlb := [], predictor := [], slot0 := none, slot1 := none })
    quads := s.quads.map fun (q : Nat × Quad) => (q.1, { q.2 with tlb := [], ahead := [] }) }

/-- A CTX_START or a CTX_STOP accepted before the request is under way; it completes during entry (Table 16.7). -/
def State.startsOrStops (s : State) : Bool := (tvals s.ctl).any fun p => p.cmd.any fun m => m.code == 1 || m.code == 2

/-- HOLD_ENTERED: the arbiter saves the dirty banks in step 4, and once every step is done entry ends. The sink writes its records, ending
with HOLD; when the request has ended meanwhile, exit begins at once. -/
def execHoldEntered (s : State) : Host.Outcome State Fault Refusal :=
  .next (if !s.hold.entering then s
    else if s.holdStep = 4 then s.quads.foldl (fun s q => s.saveBanks q.1) s
    else if s.holdStep < 7 ∨ s.startsOrStops then s
    else
      let s := s.emptyCaches
      let s := s.emit { type := 6, code := 0, a := s.clk }
      let s := s.sinkAll s.dbg.pending
      let s := { s with hold := { s.hold with entering := false, inHold := true, exiting := !s.holdRequested } }
      s.postPlain 4 0)

/-! ## Exit -/

/-- ACLK under a cap; only a cap below 3,000 W lowers it (01 R15, R17; log 13). -/
def cappedClock (cap : Nat) : Nat := if cap = 0 ∨ 3000 ≤ cap then 1500000 else 1 + Config.aclkUnderCap cap % 1500000

/-- HOLD_EXITED: `failed` is a memory that does not leave self-refresh, an HBM stack or 8 for the capacity tier (16 R372; 21 R469). -/
def execHoldExited (failed : Option Nat) (s : State) : Host.Outcome State Fault Refusal :=
  .next (if !s.hold.inHold ∨ !s.hold.exiting ∨ s.hold.failed then s
    else
      match failed with
      | some m => ({ s with hold := { s.hold with failed := true } } : State).notice 0x0D02 0 (if m < 8 then m else 16)
      | none =>
        let s := { s with links := { s.links with marked := false }, aclk := cappedClock s.cap }
        let s := s.hold.activeAt.foldl
          (fun s e => if (tget s.ctxs e.2).isSome then s.activate e.1 (some e.2) else s.activate e.1 none) s
        let late := s.hold.late
        let s := { s with hold := { pin := s.hold.pin, cmd := s.hold.cmd } }
        let s := late.foldl (fun s e => s.postBoth e.1 e.2) s
        let s := s.plan ((s.threads.filter fun e => e.2.held.isSome).map fun e => .asyncFaultDelivery e.1)
        let s := s.emit { type := 7, code := 0, a := s.clk }
        let s := s.postPlain 5 0
        let s := s.plan ((s.ctxs.filter fun c => c.2.status == .halting).map fun c => .coreDumpWrite c.1)
        s.holdChange)

end Sys2Proof.Machine
end

