-- ==== Sys2Proof/Machine/Control.lean ====
section
/-! DEFINITION. The control plane (16 R359 to R364, R477; 18 R414): control pages, ownership, event queues, mailboxes and the commands of
Table 16.3. -/

namespace Sys2Proof.Machine

/-! ## Control pages (Table 16.2) -/

/-- OWNER. -/
def State.ownerWord (s : State) : Word :=
  BitVec.ofNat 64 (s.owner % 4 + (if s.owned then 4 else 0) + s.target % 4 * 8 + if s.pending then 32 else 0)

/-- HOLDSTAT. -/
def HoldState.word (h : HoldState) : Nat :=
  (if h.inHold then 1 else 0) + (if h.entering then 2 else 0) + (if h.exiting then 4 else 0) + (if h.pin then 8 else 0) + if h.cmd then 16 else 0

/-- A field of `w` bytes at offset `lo`, after a write of `n` bytes of `v` at offset `off`. -/
def patch (old lo w off n v : Nat) : Nat :=
  pack ((List.range w).map fun i =>
    (1, if off ≤ lo + i ∧ lo + i < off + n then v / 256 ^ (lo + i - off) else old / 256 ^ i))

/-- A write of `n` bytes at `off` touches the field of `w` bytes at `lo`. -/
def touchesField (lo w off n : Nat) : Bool := decide (off < lo + w ∧ lo < off + n)

/-- A field of the mailbox bytes. -/
def Page.field (p : Page) (off : Nat) : Nat → Nat
  | 0 => 0
  | n + 1 => (sget 0 p.mbox off).toNat + 256 * p.field (off + 1) n

/-- The command block in the mailbox. -/
def Page.command (p : Page) : Mailbox :=
  { code := p.field 0 2, seq := p.field 4 4, ctx := p.field 8 4, arg0 := BitVec.ofNat 64 (p.field 0x10 8),
    arg1 := BitVec.ofNat 64 (p.field 0x18 8), arg2 := BitVec.ofNat 64 (p.field 0x20 8), arg3 := BitVec.ofNat 64 (p.field 0x28 8),
    rsv := p.field 2 2 != 0 || p.field 0xC 4 != 0 || p.field 0x30 16 != 0 }

/-- A read of a control page: the 8 bytes at a multiple of 8. -/
def State.pageRead (s : State) (n off : Nat) : Nat :=
  let p := s.page n
  if off = 0x000 then s.ownerWord.toNat
  else if off = 0x020 then p.cmdDone.toNat
  else if off = 0x028 then p.evqBase.toNat
  else if off = 0x030 then p.evqSize + p.evqHead * 2 ^ 32
  else if off = 0x038 then p.evqTail + s.hold.word * 2 ^ 32
  else if 0x080 ≤ off ∧ off < 0x0C0 then p.field (off - 0x080) 8
  else 0

/-! ## Ownership (16 R360) -/

/-- A master becomes the owner: every master receives an OWNER event, and the events that waited for an owner follow it. -/
def State.own (s : State) (m : Nat) : State :=
  let s := { s with owner := m, owned := true, pending := false }
  let a := s.openWord
  let b := BitVec.ofNat 64 (Config.undefinedBits (s.freeN + 1))
  let s := (List.range 4).foldl (fun s p => s.postPage p { code := 6, ctx := 0, arg0 := a, arg1 := b }) s.draw.draw
  let s := s.ownerEvents.foldl (fun s e => s.postPage m e) s
  { s with ownerEvents := [] }

/-- A lower master claims in the same cycle: its CLAIM is still among the events of the cycle. -/
def State.claimedBelow (s : State) (master : Nat) : Bool :=
  s.agenda.any fun e => match e with | .claim m => decide (m < master) | _ => false

/-- CLAIM: of the claims of one cycle the lowest master's wins. -/
def execClaim (master : Nat) (s : State) : Host.Outcome State Fault Refusal :=
  .next (if s.owned ∨ 4 ≤ master ∨ s.claimedBelow master then s else s.own master)

/-- HANDOVER: a write by the owner of GO and a target, and of nothing else. -/
def execHandover (master : Nat) (value : Word) (s : State) : Host.Outcome State Fault Refusal :=
  .next (if s.owned ∧ s.owner = master ∧ value.toNat / 4 = 1 then
      { s with pending := true, target := value.toNat % 4, handoverLeft := 100000000 }
    else s)

/-- ACCEPT, before 100 ms have passed. -/
def execAccept (master : Nat) (s : State) : Host.Outcome State Fault Refusal :=
  .next (if s.pending ∧ s.target = master ∧ s.handoverLeft ≠ 0 then s.own master else s)

/-- HANDOVER_LAPSE: 100 ms have passed. -/
def execHandoverLapse (s : State) : Host.Outcome State Fault Refusal :=
  .next (if s.pending ∧ s.handoverLeft = 0 then { s with pending := false } else s)

/-! ## Event queues (16 R359) -/

/-- A queue has a free entry. EVQHEAD and EVQTAIL count modulo 2^32, and an entry's place is its count modulo EVQSIZE, so that a queue of
EVQSIZE entries holds as many (DESIGN CHOICE, log 73). -/
def Page.evqFree (p : Page) : Bool :=
  decide (p.evqBase.toNat % 4096 = 0 ∧ 16 ≤ p.evqSize ∧ p.evqSize ≤ 65536 ∧ 2 ^ Nat.log2 p.evqSize = p.evqSize) &&
  decide ((p.evqTail + 2 ^ 32 - p.evqHead) % 2 ^ 32 < p.evqSize)

/-- The event that is written next: the first that waits; CTX_FAULT waits for the exit from Hold (18 Table 18.8). -/
def State.nextEvent (s : State) (p : Page) : Option Event := p.waiting.find? fun e => !s.held || e.code != 3

/-- EVENT_QUEUE_POST. -/
def execEventQueuePost (page : Nat) (s : State) : Host.Outcome State Fault Refusal :=
  .next (
    let p := s.page page
    match s.nextEvent p with
    | none => s
    | some e =>
      if !p.evqFree then s
      else
        let entry := pack [(4, e.code), (4, e.ctx), (8, e.arg0.toNat), (8, e.arg1.toNat), (8, p.seq + 1)]
        let s := s.hostWriteAt (p.evqBase.toNat + 32 * (p.evqTail % p.evqSize)) 32 entry
        s.modPage page fun p =>
          { p with waiting := p.waiting.erase e, seq := p.seq + 1, evqTail := (p.evqTail + 1) % 2 ^ 32 })

/-! ## Commands (16 R359, R361, Table 16.3) -/

/-- The status codes of CMDDONE. -/
def stOk : Nat := 0
def stNotOwner : Nat := 1
def stHeld : Nat := 2
def stRefused : Nat := 3
def stBusy : Nat := 4
def stNoContext : Nat := 5

/-- CMDDONE reports a command. -/
def State.report (s : State) (page seq status : Nat) : State :=
  s.modPage page fun p => { p with cmdDone := BitVec.ofNat 64 (seq % 2 ^ 32 + status * 2 ^ 32) }

/-- The command that is outstanding completes. -/
def State.finish (s : State) (page seq status : Nat) : State :=
  (s.report page seq status).modPage page fun p => { p with cmd := none, stage := .fresh }

/-- The event that executes a command. -/
def commandEvent (page code : Nat) : Instr :=
  match code with
  | 1 => .ctxStart page
  | 2 => .ctxStop page
  | 3 => .map page
  | 4 => .unmap page
  | 5 => .unresolvable page
  | 6 => .holdEnter page
  | 7 => .holdExit page
  | 8 => .query page
  | 9 => .powerCap page
  | _ => .mboxUnknownCode page

/-- A code stands in Table 16.3. -/
def knownCode (code : Nat) : Bool := decide (1 ≤ code ∧ code ≤ 9)

/-- The issuer may not give the command: the status of its refusal (16 R360, R361). -/
def State.issuerStatus (s : State) (page : Nat) (m : Mailbox) : Option Nat :=
  if m.code = 8 then (if 4 ≤ page ∧ tget s.bound (page - 3) ≠ some m.ctx then some stRefused else none)
  else if 4 ≤ page then
    if m.code ≠ 2 then some stNotOwner else if tget s.bound (page - 3) = some m.ctx then none else some stRefused
  else if m.code = 9 then (if page = 1 then none else some stRefused)
  else if page = 1 ∧ (m.code = 6 ∨ m.code = 7) then none
  else if s.owned ∧ s.owner = page then none
  else some stNotOwner

/-- A command that may resolve a DEMAND report during entry, until step 5 ends (16 Table 16.6; log 73). -/
def State.resolves (s : State) (code : Nat) : Bool := s.hold.entering && (code == 3 || code == 5) && decide (s.holdStep ≤ 5)

/-- What the Supervisor finds as it reads the command block: a status with which the command completes at once. Ownership and Hold are
looked at here, so that a command that was given before a handover or a request for Hold runs to its end. -/
def State.mailStatus (s : State) (page : Nat) (m : Mailbox) : Option Nat :=
  if m.rsv then some stRefused
  else
    match s.issuerStatus page m with
    | some st => some st
    | none => if (s.hold.entering || s.hold.inHold) && m.code != 7 && m.code != 8 && m.code != 9 && !s.resolves m.code then some stHeld else none

/-- The doorbell: the dword at 0x0BC of a page has been written. -/
def State.doorbell (s : State) (page : Nat) : State :=
  let m := (s.page page).command
  if (s.page page).cmd.isSome then s.report page m.seq stBusy
  else
    match if knownCode m.code then s.mailStatus page m else none with
    | some st => s.report page m.seq st
    | none => (s.modPage page fun p => { p with cmd := some m, stage := .fresh }).plan [commandEvent page m.code]

/-- The command of a page with a code. -/
def State.cmdOf (s : State) (page code : Nat) : Option Mailbox := ((s.page page).cmd).filter fun m => m.code == code

/-- MBOX_UNKNOWN_CODE. -/
def execMboxUnknownCode (page : Nat) (s : State) : Host.Outcome State Fault Refusal :=
  .next (match (s.page page).cmd with
    | some m => if knownCode m.code then s else s.finish page m.seq stRefused
    | none => s)

/-- A command that names a context: NO_CONTEXT when there is none (log 20). -/
def State.onContext (s : State) (page code : Nat) (go : Mailbox → Context → State) : State :=
  match s.cmdOf page code with
  | none => s
  | some m =>
    match tget s.ctxs m.ctx with
    | none => s.finish page m.seq stNoContext
    | some c => go m c

/-! ## Starting a context (16 R362, Table 16.4) -/

/-- A context descriptor, as read; `rsv` says that a reserved byte is non-zero. -/
structure DescRead where
  desc : CtxDesc
  rsv : Bool
deriving DecidableEq, Repr

/-- The descriptor in 64 bytes. -/
def readDesc (r : Nat) : DescRead :=
  let f (o n : Nat) := recField r o n
  { desc :=
      { id := f 0 2, dieset := f 2 1, cflags := f 3 1, tdi := f 4 2, promote := f 6 2, savepa := f 8 8, savemax := f 0x10 8,
        launch := f 0x18 8, slice := f 0x20 4, swaplog := f 0x24 1, rklog := f 0x25 1, shwin := f 0x28 8 }
    rsv := f 0x26 2 != 0 || f 0x30 16 != 0 }

/-- Every field of a descriptor is in its range. -/
def DescRead.ok (r : DescRead) : Bool :=
  let d := r.desc
  !r.rsv && decide (1 ≤ d.id ∧ d.id ≤ 63) && decide (1 ≤ d.dieset ∧ d.dieset ≤ 15) && decide (d.cflags ≤ 7) && decide (d.tdi ≤ 15) &&
  decide (d.savepa % 65536 = 0 ∧ d.savemax % 2 ^ 26 = 0 ∧ 2 ^ 26 ≤ d.savemax ∧ d.savemax ≤ 2 ^ 38 ∧ d.savepa + d.savemax ≤ 0x8000000000) &&
  (decide (d.slice = 0) || decide (100 ≤ d.slice ∧ d.slice ≤ 1000000)) && (decide (d.swaplog = 0) || decide (10 ≤ d.swaplog ∧ d.swaplog ≤ 30)) &&
  (decide (d.rklog = 0) || decide (12 ≤ d.rklog ∧ d.rklog ≤ 24))

/-- The parameters of Table 12.1, with their defaults. -/
def CtxDesc.filled (d : CtxDesc) : CtxDesc :=
  { d with slice := if d.slice = 0 then 2000 else d.slice, swaplog := if d.swaplog = 0 then 20 else d.swaplog,
           rklog := if d.rklog = 0 then 16 else d.rklog }

/-- The shared windows from a host address: none when one of them is not a multiple of 64 KiB. -/
def State.readWindows (s : State) (a : Nat) : Nat → Option (List (Nat × Nat))
  | 0 => some []
  | n + 1 =>
    let base := s.hostReadAt a 8
    let len := s.hostReadAt (a + 8) 8
    if len = 0 then some []
    else if base % 65536 ≠ 0 ∨ len % 65536 ≠ 0 then none
    else (s.readWindows (a + 16) n).map fun ws => (base, len) :: ws

/-- A context descriptor that CTX_START refuses for what else exists: 63 contexts, a CTXID in use, a second export context, a VF that is
bound already, or a confidential context without its world and its locked TDI. -/
def State.descClash (s : State) (d : CtxDesc) : Bool :=
  decide (63 ≤ s.ctxs.length) || (tget s.ctxs d.id).isSome || (bit d.cflags 2 && (tvals s.ctxs).any fun c => bit c.desc.cflags 2) ||
  (d.tdi != 0 && (tget s.bound d.tdi).isSome) ||
  (bit d.cflags 1 && !(bit d.cflags 0 && d.tdi != 0 && tgetD s.tdis d.tdi .unlocked == .locked))

/-- A save region would lie where something is: over another save region, over the frames of a resident page or of its duplicates, or over
a frame to which a page migrates. CTX_START refuses it, so that no pointer reaches a save region (03 R77; DESIGN CHOICE, log 73). -/
def State.saveClash (s : State) (d : CtxDesc) : Bool :=
  let meets (pa n : Nat) := decide (d.savepa < pa + n ∧ pa < d.savepa + d.savemax)
  ((tvals s.ctxs).any fun c =>
    meets c.desc.savepa c.desc.savemax ||
    (s.ctxLeaves c.root).any fun l =>
      pteV l.2.2.1 && (s.framesOf l.2.2.1 l.2.2.2).any fun f => meets (f * 65536) (pageBytes l.2.2.2)) ||
  s.migrations.any fun m => meets (m.frame * 65536) 65536

/-- A context is made: its root table is allotted and empty, and its TDI bound. -/
def State.makeContext (s : State) (d : CtxDesc) (ws : List (Nat × Nat)) (banked : Bool) : State :=
  let c : Context := { desc := d, banked := banked, root := d.savepa, tables := [d.savepa], windows := ws }
  { s with ctxs := tset s.ctxs d.id c, mem := clearBytes s.mem d.savepa 8192,
           bound := if d.tdi = 0 then s.bound else tset s.bound d.tdi d.id }

/-- The context of a descriptor with its root grid; none when the command is refused. The addresses of the descriptor and of the root launch
record may have any alignment (DESIGN CHOICE, log 73). The root grid comes after all that has been performed (log 73). -/
def State.startContext (s : State) (a : Nat) : Option State :=
  let r := readDesc (s.hostReadAt a 64)
  let d := r.desc.filled
  if !hostReach a 64 || !r.ok || s.descClash d || s.saveClash d || !hostReach d.launch 64 then none
  else
    match if bit d.cflags 0 && d.shwin != 0 then s.readWindows d.shwin 16 else some [] with
    | none => none
    | some ws =>
      let rc := readLaunch (s.hostReadAt d.launch 64)
      let s := s.makeContext d ws (bit rc.flags.toNat 2)
      match s.launchFault d.id (BitVec.ofNat 64 d.launch) rc false with
      | some _ => none
      | none => some (s.acceptGrid { launch := 0, ctx := d.id, rc := rc, depth := 1, prio := bits rc.flags.toNat 1 0, since := s.allClocks })

/-- CTX_START. -/
def execCtxStart (page : Nat) (s : State) : Host.Outcome State Fault Refusal :=
  .next (match s.cmdOf page 1 with
    | none => s
    | some m =>
      match s.startContext m.arg0.toNat with
      | some s => s.finish page m.seq stOk
      | none => s.finish page m.seq stRefused)

/-! ## Stopping a context (16 R363) -/

/-- The ranges of device memory that the keys of a context protect: its keyed pages of every size, resident or not, with their duplicates. -/
def State.keyedRanges (s : State) (ctx : Nat) : List (Nat × Nat) :=
  ((s.ctxLeaves (s.ctx ctx).root).filter fun l => pteKey l.2.2.1 != 0 && !inHost (pteFrame l.2.2.1 * 65536)).flatMap fun l =>
    (s.framesOf l.2.2.1 l.2.2.2).map fun f => (f * 65536, pageBytes l.2.2.2)

/-- Keys of a context are destroyed (16 R368). -/
def State.destroyKeys (s : State) (ctx : Nat) : State :=
  let n := s.freeN
  let s := (s.keyedRanges ctx).foldl (fun s r => s.cipher n r.1 r.2) s
  s.draw.modCtx ctx fun c => { c with keys := [], keysDestroyed := true }

/-- The save region of a confidential context that goes, with the tables it has held, cannot be read as plaintext, for its key goes with it
(03 R77; 16 R367, R368; log 74). -/
def State.destroySave (s : State) (d : CtxDesc) : State := (s.cipher s.freeN d.savepa d.savemax).draw

/-- What a context leaves behind goes: blocks, grids, barriers, cloves, banks, its translations, and the context itself. -/
def State.removeContext (s : State) (ctx : Nat) : State :=
  let c := s.ctx ctx
  let dups := (s.smallPages.filter fun x => x.1 == ctx && pteDup x.2.2.2).map fun x => pteTag x.2.2.2
  let s := if c.confidential then (s.destroyKeys ctx).destroySave c.desc else s
  let bs := (s.blocks.filter fun e => e.2.ctx == ctx).map (·.1)
  let s := { s with accs := s.accs.filter fun a => a.ctx != ctx }
  let s := bs.foldl (fun s b => s.forgetBlock b) s
  let mine (b : Nat) := bs.contains b
  let s := { s with
    grids := s.grids.filter fun e => e.2.ctx != ctx
    credits := s.credits.filter fun e => e.2.ctx != ctx
    walks := s.walks.filter fun w => w.ctx != ctx
    migrations := s.migrations.filter fun m => m.ctx != ctx
    collapses := s.collapses.filter fun m => m.ctx != ctx
    dupMap := dups.foldl (fun t i => tdel t i) s.dupMap
    dies := s.dies.map fun (d : Nat × Die) =>
      (d.1, { d.2 with restart := d.2.restart.filter fun b => !mine b, cloves := d.2.cloves.filter fun x => x.2.ctx != ctx,
                       holds := d.2.holds.filter fun h => (tgetD d.2.cloves h.clove {}).ctx != ctx })
    quads := s.quads.map fun (q : Nat × Quad) =>
      (q.1, { q.2 with
        slots := q.2.slots.map fun (b : Nat × BarrierSlot) => (b.1, if b.2.ctx = ctx ∧ b.2.allot then { b.2 with allot := false, hold := 0 } else b.2)
        banks := q.2.banks.filter fun b => !(b.2.occupant.any mine)
        tlb := q.2.tlb.filter fun e => e.ctx != ctx, ahead := q.2.ahead.filter fun e => e.ctx != ctx })
    cores := s.cores.map fun (k : Nat × Core) => (k.1, { k.2 with tlb := k.2.tlb.filter fun e => e.ctx != ctx })
    bound := s.bound.filter fun e => e.2 != ctx
    tdis := if c.confidential then tdel s.tdis c.desc.tdi else s.tdis
    ctxs := tdel s.ctxs ctx }
  (List.range 4).foldl (fun s d => if (s.die d).active = some ctx then s.leave d ctx else s) s

/-- The stop begins: freezes of the session end, the session is detached, reports are withdrawn, and every block is asked to leave. -/
def State.beginStop (s : State) (ctx page seq : Nat) : State :=
  let s := if s.session = ctx then (s.resumeAll 2).endSession 0 else s
  let s := s.modCtx ctx fun c => { c with status := .stopping page seq, reports := [] }
  (s.blocks.filter fun e => e.2.ctx == ctx).foldl (fun s e => s.requestDiscard e.1 .stop) s

/-- Nothing of a context is left on a die or in an engine. -/
def State.stopped (s : State) (ctx : Nat) : Bool :=
  ((tvals s.blocks).all fun b => b.ctx != ctx || !b.onQuad) && !s.opsLeft ctx &&
  s.accs.all fun a => a.ctx != ctx || a.stage == .cancelled || match a.kind with | .store | .atomic _ _ | .sync _ => false | _ => true

/-- CTX_STOP: it begins, and completes once every block has been discarded and every operation has completed. Of a context that halts
it begins once CTX_FAULT has been posted (18 R414). -/
def execCtxStop (page : Nat) (s : State) : Host.Outcome State Fault Refusal :=
  .next (s.onContext page 2 fun m c =>
    match c.status with
    | .halting => s
    | .active => s.beginStop m.ctx page m.seq
    | .faulted => if s.faultPosted m.ctx then s.beginStop m.ctx page m.seq else s
    | .stopping p q =>
      if p ≠ page ∨ q ≠ m.seq then s.finish page m.seq stRefused
      else
        let s := (s.modCtx m.ctx fun c => { c with reports := [] }).cancelHeldOps m.ctx
        if s.stopped m.ctx then (s.removeContext m.ctx).finish page m.seq stOk else s)

/-! ## MAP (16 R477) -/

/-- A range of device memory meets the save region of a context (03 R77). -/
def State.inSaveRegion (s : State) (pa n : Nat) : Bool :=
  (tvals s.ctxs).any fun c => decide (c.desc.savepa < pa + n ∧ pa < c.desc.savepa + c.desc.savemax)

/-- Values that MAP refuses before it looks at the tables. -/
def mapBad (va pte a2 level : Nat) : Bool :=
  decide (level < 1 ∨ 3 < level) || decide (2 ^ 56 ≤ va) || decide (va % pageBytes level ≠ 0) || !pteLeaf pte || decide (16 < pteKey pte) ||
  (decide (level < 3) && pteTier pte != 0) ||
  (let f := pteFrame pte * 65536
   !frameOk (pteFrame pte) || decide (f % pageBytes level ≠ 0) || (!inHost f && decide (a2 ≠ 0) && !hostReach a2 (pageBytes level)))

/-- The tables beneath an entry, itself first; none when a leaf with V = 1 lies beneath it. -/
def State.emptyTables (s : State) : Nat → Nat → Option (List Nat)
  | 0, t => some [t]
  | fuel + 1, t =>
    (List.range 1024).foldl
      (fun (r : Option (List Nat)) i =>
        r.bind fun ts =>
          let e := s.readMem (t + 8 * i) 8
          if !pteV e then some ts
          else if pteLeaf e then none
          else (s.emptyTables fuel (bits e 47 13 * 8192)).map fun more => ts ++ more) (some [t])

/-- A free place for a table in the save region. -/
def Context.freeTable (c : Context) : Nat :=
  ((List.range (c.tables.length + 1)).map fun i => c.desc.savepa + 8192 * i).find? (fun p => !c.tables.contains p) |>.getD c.desc.savepa

/-- A table is allotted, empty, and named by the entry at a PA. -/
def State.newTable (s : State) (ctx entry : Nat) : State × Nat :=
  let t := (s.ctx ctx).freeTable
  let s := { s with mem := clearBytes s.mem t 8192 }
  ((s.modCtx ctx fun c => { c with tables := c.tables ++ [t] }).writeMem entry 8 (t + 1), t)

/-- The table of a level for a VA, with new tables where the path maps nothing; none when the MAP is refused. -/
def State.tablePath (s : State) (ctx va target : Nat) : Nat → Nat → Nat → Option (State × Nat)
  | 0, _, t => some (s, t)
  | fuel + 1, level, t =>
    if level = target then some (s, t)
    else
      let p := entryPa t va level
      let e := s.readMem p 8
      if pteV e && pteLeaf e then none
      else if pteV e then s.tablePath ctx va target fuel (level + 1) (bits e 47 13 * 8192)
      else if !s.saveFits ctx 8192 then none
      else
        let (s, t') := s.newTable ctx p
        s.tablePath ctx va target fuel (level + 1) t'

/-- The device key id for region `r` of a context, drawn at the region's first MAP (16 R367). Where all 255 are in use the model gives id 1
again (DESIGN CHOICE, log 74). -/
def State.regionKey (s : State) (ctx r : Nat) : State × Nat :=
  let c := s.ctx ctx
  if r = 0 ∨ !c.confidential then (s, r)
  else
    match tget c.keys r with
    | some k => (s, k)
    | none =>
      let used := (tvals s.ctxs).flatMap fun c => tvals c.keys
      let d := Config.keyId s.freeN
      let k := ((List.range 255).map fun i => (d + i) % 255 + 1).find? (fun k => !used.contains k) |>.getD 1
      (s.draw.modCtx ctx fun c => { c with keys := tset c.keys r k }, k)

/-- The PTE that MAP writes: CLASS, TAG and DUP are the Supervisor's (13 Table 13.3; 10 R257). -/
def mappedPte (pte level key : Nat) : Nat :=
  let cls := if pteW pte then (if level = 3 then 0 else 3) else 2
  pteSetClass pte cls 0 false % 2 ^ 24 + key * 2 ^ 24 + pteFrame pte * 2 ^ 32

/-- The bytes of a page that is mapped: those at a host address, or zeros; host frames are left as they stand. -/
def State.fillPage (s : State) (frame a2 n : Nat) : State :=
  if inHost frame then s
  else
    let src := s.mem.filter fun e => decide (a2 ≠ 0 ∧ hostKey a2 ≤ e.1 ∧ e.1 < hostKey a2 + n)
    { s with
      mem := src.foldl (fun m e => writeByte m (e.1 - hostKey a2 + frame) e.2) (clearBytes s.mem frame n)
      poison := s.poison.filter fun x => !decide (frame ≤ 32 * x ∧ 32 * x < frame + n)
      lines := s.lines.filter fun x => !decide (frame ≤ x.line * 128 ∧ x.line * 128 < frame + n)
      pages := s.pages.filter fun e => !decide (frame ≤ e.1 * 65536 ∧ e.1 * 65536 < frame + n) }

/-- What the machine keeps of a page whose leaf the Supervisor changes: its duplicates, its migration and its collapse end. -/
def State.dropDuplicates (s : State) (ctx va : Nat) : State :=
  let s := match s.leaf ctx va with
    | some (_, e, 3) => if pteDup e then { s with dupMap := tdel s.dupMap (pteTag e) } else s
    | _ => s
  { s with migrations := s.migrations.filter fun m => !(m.ctx == ctx && m.va == pageBase va 3)
           collapses := s.collapses.filter fun c => !(c.ctx == ctx && c.va == pageBase va 3) }

/-- The reports of a context after MAP: one whose address has a leaf with V = 1 is resolved, and each other is of the page that its address
now lies in, with one report for a page (13 R337). -/
def State.resolveReports (s : State) (ctx : Nat) : State :=
  let left := (s.ctx ctx).reports.filterMap fun r =>
    match s.leaf ctx r.va with
    | some (_, e, _) => if pteV e then none else some { r with page := (s.absentPage ctx r.va).1 }
    | none => some { r with page := (s.absentPage ctx r.va).1 }
  s.modCtx ctx fun c =>
    { c with reports := left.foldl (fun rs r => if rs.any fun x => x.page == r.page then rs else rs ++ [r]) [] }

/-- What a context's keys protected in frames that MAP has left is not read as plaintext; `old` are the ranges that they protected before
(16 R367). -/
def State.leaveRanges (s : State) (ctx : Nat) (old : List (Nat × Nat)) : State :=
  let now := s.keyedRanges ctx
  let n := s.freeN
  ((old.filter fun r => !now.contains r).foldl (fun s r => s.cipher n r.1 r.2) s).draw

/-- MAP's leaf: the state after it, and whether a translation was there; none when it is refused. A frame in a save region is refused, so
that no pointer reaches it (03 R77; log 73). -/
def State.mapPage (s0 : State) (ctx va pte a2 level : Nat) : Option (State × Bool) :=
  if mapBad va pte a2 level || s0.inSaveRegion (pteFrame pte * 65536) (pageBytes level) then none
  else
    match s0.tablePath ctx va level 4 0 (s0.ctx ctx).root with
    | none => none
    | some (s, t) =>
      let p := entryPa t va level
      let old := s.readMem p 8
      let under := if pteV old && !pteLeaf old then s.emptyTables 4 (bits old 47 13 * 8192) else some []
      match under with
      | none => none
      | some ts =>
        let keyed := if (s.ctx ctx).confidential then s0.keyedRanges ctx else []
        let s := s.modCtx ctx fun c => { c with tables := c.tables.filter fun x => !ts.contains x }
        let was := pteV old && pteLeaf old
        let s := if was then s.dropDuplicates ctx va else s
        let (s, key) := s.regionKey ctx (pteKey pte)
        let s := (s.writeMem p 8 (mappedPte pte level key)).tlbDrop ctx va
        let s := if keyed.isEmpty then s else s.leaveRanges ctx keyed
        let s := s.fillPage (pteFrame pte * 65536) a2 (pageBytes level)
        some ((s.restartWalks ctx).resolveReports ctx, was)

/-- Accesses of a context that were translated in a range before a change and have not been performed (13 R336). -/
def State.oldAccesses (s : State) (ctx upto va n : Nat) : Bool :=
  s.accs.any fun a =>
    a.ctx == ctx && decide (a.id < upto) &&
    ((a.key.isSome && a.ea.toNat / 2 ^ 60 == 0 && decide (va < a.va + a.size ∧ a.va < va + n)) ||
      a.listAt.any fun l => decide (va ≤ l.1 ∧ l.1 < va + n)) &&
    match a.stage with | .issued | .acked _ _ | .sent | .atBase => true | _ => false

/-- A command that has changed translations completes, at once or when its shootdown is over (16 R364). -/
def State.shootdown (s : State) (page : Nat) (m : Mailbox) (va n : Nat) : State :=
  if s.oldAccesses m.ctx s.nextId va n then s.modPage page fun p => { p with stage := .shootdown s.nextId va n }
  else s.finish page m.seq stOk

/-- A shootdown goes on. -/
def State.shootMore (s : State) (page : Nat) (m : Mailbox) : State :=
  match (s.page page).stage with
  | .shootdown upto va n => if s.oldAccesses m.ctx upto va n then s else s.finish page m.seq stOk
  | _ => s

/-- MAP. -/
def execMap (page : Nat) (s : State) : Host.Outcome State Fault Refusal :=
  .next (s.onContext page 3 fun m _ =>
    if (s.page page).stage ≠ .fresh then s.shootMore page m
    else
      match s.mapPage m.ctx m.arg0.toNat m.arg1.toNat m.arg2.toNat m.arg3.toNat with
      | none => s.finish page m.seq stRefused
      | some (s, was) => if was then s.shootdown page m m.arg0.toNat (pageBytes m.arg3.toNat) else s.finish page m.seq stOk)

/-! ## UNMAP and UNRESOLVABLE -/

/-- V is cleared of so many pages from a VA; a VA that no leaf covers counts as a 64 KiB page. The VA after them. -/
def State.clearPages (s : State) (ctx : Nat) : Nat → Nat → State × Nat
  | 0, va => (s, va)
  | n + 1, va =>
    if 2 ^ 56 ≤ va then (s, va)
    else
      match s.leaf ctx va with
      | some (p, e, l) =>
        let s := if pteV e then ((s.dropDuplicates ctx va).writeMem p 8 ((if pteDup e then pteSetClass e (pteClass e) 0 false else e) - 1)).tlbDrop ctx va else s
        s.clearPages ctx n (pageBase va l + pageBytes l)
      | none => s.clearPages ctx n (pageBase va 3 + 65536)

/-- UNMAP. -/
def execUnmap (page : Nat) (s : State) : Host.Outcome State Fault Refusal :=
  .next (s.onContext page 4 fun m _ =>
    if (s.page page).stage ≠ .fresh then s.shootMore page m
    else if 2 ^ 56 ≤ m.arg0.toNat then s.finish page m.seq stRefused
    else
      let (s', e) := s.clearPages m.ctx (min m.arg1.toNat (2 ^ 40)) m.arg0.toNat
      let first := pageBase m.arg0.toNat (((s.leaf m.ctx m.arg0.toNat).map (·.2.2)).getD 3)
      s'.shootdown page m first (e - first))

/-- UNRESOLVABLE: the pending report of the page is so declared; a page without one is left as it is. -/
def execUnresolvable (page : Nat) (s : State) : Host.Outcome State Fault Refusal :=
  .next (s.onContext page 5 fun m _ =>
    let p := (s.absentPage m.ctx m.arg0.toNat).1
    (s.modCtx m.ctx fun c => { c with reports := c.reports.map fun (r : Report) => if r.page = p then { r with unresolvable := true } else r }).finish
      page m.seq stOk)

/-! ## Hold, QUERY, POWER_CAP -/

/-- HOLD_ENTER. -/
def execHoldEnter (page : Nat) (s : State) : Host.Outcome State Fault Refusal :=
  .next (match s.cmdOf page 6 with
    | none => s
    | some m => (({ s with hold := { s.hold with cmd := true } } : State).holdChange).finish page m.seq stOk)

/-- HOLD_EXIT. -/
def execHoldExit (page : Nat) (s : State) : Host.Outcome State Fault Refusal :=
  .next (match s.cmdOf page 7 with
    | none => s
    | some m => (({ s with hold := { s.hold with cmd := false } } : State).holdChange).finish page m.seq stOk)

/-- The state of a context as QUERY gives it. -/
def CtxStatus.code : CtxStatus → Nat
  | .active => 1
  | .halting => 2
  | .faulted => 3
  | .stopping _ _ => 4

/-- The QUERY_RESULT event of a context (16 R359). -/
def State.queryResult (s : State) (ctx : Nat) : Event :=
  let c := s.ctx ctx
  let res := ((tvals s.blocks).filter fun b => b.ctx == ctx && b.onQuad).length
  let dies := (List.range 4).foldl (fun m d => if (s.die d).active = some ctx then m + 2 ^ d else m) 0
  { code := 7, ctx := ctx
    arg0 := BitVec.ofNat 64 (c.status.code + res % 2 ^ 24 * 2 ^ 8 + (s.queued ctx).length % 2 ^ 16 * 2 ^ 32 + dies * 2 ^ 48)
    arg1 := BitVec.ofNat 64 (s.saveUsed ctx + if c.status = .faulted then c.dump.length else 0) }

/-- The dump copied to host memory (18 R414). -/
def State.copyDump (s : State) (ctx a n : Nat) : State :=
  let bytes := (s.ctx ctx).dump.take n
  if hostReach a bytes.length then
    { s with mem := ((List.range bytes.length).zip bytes).foldl (fun m e => writeByte m (hostKey a + e.1) e.2) s.mem }
  else s

/-- QUERY. -/
def execQuery (page : Nat) (s : State) : Host.Outcome State Fault Refusal :=
  .next (s.onContext page 8 fun m c =>
    if (s.page page).stage = .posting then
      (if (s.page page).waiting.any fun e => e.code == 7 then s else s.finish page m.seq stOk)
    else if m.arg1.toNat ≠ 0 ∧ (c.status ≠ .faulted ∨ m.arg1.toNat % 4096 ≠ 0) then s.finish page m.seq stRefused
    else
      let s := if m.arg1.toNat = 0 then s else s.copyDump m.ctx m.arg1.toNat m.arg2.toNat
      (s.postPage page (s.queryResult m.ctx)).modPage page fun p => { p with stage := .posting })

/-- POWER_CAP: a cap set during Hold takes effect at exit. -/
def execPowerCap (page : Nat) (s : State) : Host.Outcome State Fault Refusal :=
  .next (match s.cmdOf page 9 with
    | none => s
    | some m =>
      let w := m.arg0.toNat
      if w ≠ 0 ∧ (w < 600 ∨ 3000 < w) then s.finish page m.seq stRefused
      else ({ s with cap := w, aclk := if s.hold.inHold then s.aclk else cappedClock w } : State).finish page m.seq stOk)

end Sys2Proof.Machine
end

