-- ==== Sys2Proof/Machine/Window.lean ====
section
/-! DEFINITION. Writes of control pages and of the debug window, and reads of the window (16 R359; 17 R374 to R376, R384 to R389; 0 R4). -/

namespace Sys2Proof.Machine

/-! ## Control pages -/

/-- A page exists: a master's, or that of a bound VF (16 Table 16.1). -/
def State.pageThere (s : State) (n : Nat) : Bool := decide (n < 4) || (decide (n < 19) && (tget s.bound (n - 3)).isSome)

/-- The bytes of a write that fall in the mailbox. -/
def Page.mailWrite (p : Page) (off n v : Nat) : Page :=
  let put (t : Table Byte) (i : Nat) : Table Byte :=
    if 0x80 ≤ off + i ∧ off + i < 0xC0 then sset 0 t (off + i - 0x80) (BitVec.ofNat 8 (v / 256 ^ i)) else t
  { p with mbox := (List.range n).foldl put p.mbox }

/-- The stored fields of a page after a write. -/
def Page.stored (p : Page) (off n v : Nat) : Page :=
  { p.mailWrite off n v with
      evqBase := BitVec.ofNat 64 (patch p.evqBase.toNat 0x28 8 off n v), evqSize := patch p.evqSize 0x30 4 off n v
      evqHead := patch p.evqHead 0x34 4 off n v }

/-- A write of a control page: RW fields are stored, CLAIM, HANDOVER, ACCEPT and the doorbell act, and nothing else takes the write. -/
def State.pageWrite (s : State) (p off n v : Nat) : State :=
  if !s.pageThere p ∨ n = 0 ∨ 8 < n ∨ 0x1000 < off + n then s
  else
    let s := s.modPage p fun x => x.stored off n v
    let s := if touchesField 0x08 8 off n && decide (p < 4) then s.plan [.claim p] else s
    let s := if touchesField 0x10 8 off n && decide (p < 4) then s.plan [.handover p (BitVec.ofNat 64 (patch 0 0x10 8 off n v))] else s
    let s := if touchesField 0x18 8 off n && decide (p < 4) then s.plan [.accept p] else s
    let s := if touchesField 0x34 4 off n then s.plan [.eventQueuePost p] else s
    if touchesField 0xBC 4 off n then s.doorbell p else s

/-! ## The debug window (17 Table 17.1) -/

/-- A unit of a quad block: its quad and its offset there (Table 17.3). -/
def quadBlock (off : Nat) : Option (Nat × Nat) :=
  if 0x1000 ≤ off ∧ off < 0x1000 + 256 * 192 then some ((off - 0x1000) / 256, (off - 0x1000) % 256) else none
/-- A counter: its core and its offset (Table 17.5). -/
def coreBlock (off : Nat) : Option (Nat × Nat) :=
  if 0x10000 ≤ off ∧ off < 0x10000 + 256 * 768 then some ((off - 0x10000) / 256, (off - 0x10000) % 256) else none
/-- A clove counter: its die, its clove and its offset (Table 17.7). -/
def cloveBlock (off : Nat) : Option (Nat × Nat × Nat) :=
  if 0x40000 ≤ off ∧ off < 0x40000 + 32 * 256 then some ((off - 0x40000) / 2048, (off - 0x40000) / 32 % 64, (off - 0x40000) % 32) else none

/-- A register of a quad block. -/
def Quad.register (q : Quad) (o : Nat) : Nat :=
  if o < 0x80 then (let w := tgetD q.watch (o / 16) {}; if o % 16 = 0 then w.addr.toNat else w.ctl.toNat)
  else if o < 0xA0 then (sget 0 q.comps ((o - 0x80) / 8)).toNat
  else if o = 0xA0 then (if q.frozen then 1 else 0) + q.cause % 8 * 2
  else 0

/-- A quad block after a register of it has been written. A WADDR that is no multiple of 2^LEN, a PCk that is no multiple of 4 and a LEN of 7
are stored as written, and LEN 7 matches 128 bytes (DESIGN CHOICE, log 73; 17 R376). -/
def Quad.setRegister (q : Quad) (o : Nat) (v : Nat) : Quad :=
  if o < 0x80 then
    let w := tgetD q.watch (o / 16) {}
    let w := if o % 16 = 0 then { w with addr := BitVec.ofNat 64 v } else { w with ctl := BitVec.ofNat 64 (v % 512) }
    { q with watch := tset q.watch (o / 16) w }
  else if o < 0xA0 then
    { q with comps := sset 0 q.comps ((o - 0x80) / 8) (BitVec.ofNat 64 (bits v 55 0 + bits v 63 63 * 2 ^ 63)) }
  else q

/-- A counter of a clove. -/
def Clove.counter (c : Clove) (o : Nat) : Nat :=
  if o = 0 then c.full.toNat else if o = 8 then c.timerRel.toNat else if o = 16 then c.stragglers.toNat else 0
def Clove.setCounter (c : Clove) (o v : Nat) : Clove :=
  if o = 0 then { c with full := BitVec.ofNat 64 v }
  else if o = 8 then { c with timerRel := BitVec.ofNat 64 v }
  else if o = 16 then { c with stragglers := BitVec.ofNat 64 v }
  else c

/-- The clove counters that the window shows: those of the attached context (17 R389). -/
def State.shownClove (s : State) (d c : Nat) : Option Clove :=
  let x := s.clove d c
  if s.session ≠ 0 ∧ x.active ∧ x.ctx = s.session then some x else none

/-- The squad view (17 R385). -/
def State.squadView (s : State) (o : Nat) : Nat :=
  let sel := s.dbg.insel.toNat
  let dq := bits sel 7 0
  if !(s.quad dq).frozen then 0
  else
    match s.squadAt (4 * dq + bits sel 9 8) (bits sel 13 10) with
    | none => 0
    | some q =>
      let b := s.block q.blk
      if o = 0 then (s.grid b.grid).launch.toNat + 32 * q.num * 2 ^ 32
      else if o = 8 then b.bid
      else if o = 0x10 then s.liveMask q.blk q.num + s.waitMask q * 2 ^ 32
      else if 0x20 ≤ o ∧ o < 0x120 then
        let l := (o - 0x20) / 8
        let t := s.thr (threadKey q.blk (32 * q.num + l))
        if t.live && decide (32 * q.num + l < b.nthreads) then t.pc.toNat else 0
      else 0

/-- The 8 bytes of the window at a multiple of 8. -/
def State.windowWord (s : State) (o : Nat) : Nat :=
  let d := s.dbg
  match quadBlock o, coreBlock o, cloveBlock o with
  | some (q, r), _, _ => (s.quad q).register r
  | _, some (c, r), _ => if r < 0x90 then (sget 0 (s.core c).counters (r / 8)).toNat else 0
  | _, _, some (die, c, r) => ((s.shownClove die c).map fun x => x.counter r).getD 0
  | none, none, none =>
    if o = 0x00 then d.dctl.toNat
    else if o = 0x08 then (if s.session ≠ 0 then 1 else 0) + (if d.denied then 2 else 0) + if d.sink then 4 else 0
    else if o = 0x10 then d.trBase.toNat
    else if o = 0x18 then d.trHead + d.trTail * 2 ^ 32
    else if o = 0x20 then d.trLost
    else if o = 0x30 then d.insel.toNat
    else if 0x50000 ≤ o ∧ o < 0x50200 then s.squadView (o - 0x50000)
    else 0

/-- A read of 4 or 8 aligned bytes of the window; any other reads zero (17 R374). -/
def State.windowRead (s : State) (o n : Nat) : Nat :=
  if (n = 4 ∨ n = 8) ∧ o % n = 0 then s.windowWord (o / 8 * 8) / 2 ^ (8 * (o % 8)) % 2 ^ (8 * n) else 0

/-- The event of a DCMD value (Table 17.4); none for one that has no effect, among them a STEP with COUNT 0 (DESIGN CHOICE, log 73). -/
def dcmdEvent (v : Nat) : Option Instr :=
  let q := bits v 10 3
  if bits v 63 25 ≠ 0 ∨ 192 ≤ q then none
  else
    match bits v 2 0 with
    | 1 => some (.dcmdFreeze q)
    | 2 => some (.dcmdResume q)
    | 3 => if bits v 24 17 = 0 then none else some (.dcmdStep q (bits v 12 11) (bits v 16 13) (bits v 24 17))
    | _ => none

/-- TRHEAD after a write: a value that would free more slots than the ring has changes nothing (17 R390). -/
def Debug.setHead (d : Debug) (v : Nat) : Debug :=
  if 2 ^ d.trlog < (d.trTail + 2 ^ 32 - v) % 2 ^ 32 then d else { d with trHead := v }

/-- A register of the window, of 8 bytes at a multiple of 8, is written whole. A TRBASE that is not aligned to 4 KiB is stored and used as
written (DESIGN CHOICE, log 73; 17 R374). -/
def State.windowSet (s : State) (o v : Nat) : State :=
  match quadBlock o, coreBlock o, cloveBlock o with
  | some (q, r), _, _ => s.modQuad q fun x => x.setRegister r v
  | _, some (c, r), _ => if r < 0x90 then s.modCore c fun x => { x with counters := sset 0 x.counters (r / 8) (BitVec.ofNat 64 v) } else s
  | _, _, some (die, c, r) => if (s.shownClove die c).isSome then s.modClove die c fun x => x.setCounter r v else s
  | none, none, none =>
    let d := s.dbg
    if o = 0x00 then s.plan [if v % 64 = 0 then .debugDetach (BitVec.ofNat 64 v) else .debugAttach (BitVec.ofNat 64 v)]
    else if o = 0x10 then { s with dbg := { d with trBase := BitVec.ofNat 64 v } }
    else if o = 0x18 then { s with dbg := (d.setHead (v % 2 ^ 32)).eased }
    else if o = 0x28 then s.plan (dcmdEvent v).toList
    else if o = 0x30 then { s with dbg := { d with insel := BitVec.ofNat 64 (v % 2 ^ 14) } }
    else s

/-- A write of the window: 4 or 8 aligned bytes, while master 0 owns the control plane (17 R374). -/
def State.windowWrite (s : State) (o n v : Nat) : State :=
  if !(s.owned && s.owner == 0) ∨ !((n = 4 ∨ n = 8) ∧ o % n = 0) then s
  else if o / 8 * 8 = 0x28 ∧ n = 4 then s.windowSet 0x28 (patch 0 0x28 8 o n v)
  else if o = 0x1C then s
  else s.windowSet (o / 8 * 8) (patch (s.windowWord (o / 8 * 8)) (o / 8 * 8) 8 o n v)

/-- REGISTER_WRITE. -/
def execRegisterWrite (target : RegTarget) (offset size value : Nat) (s : State) : Host.Outcome State Fault Refusal :=
  .next (match target with
    | .page n => s.pageWrite n offset size value
    | .dbgWindow => s.windowWrite offset size value)

end Sys2Proof.Machine
end

