-- ==== Sys2Proof/Machine/HostLink.lean ====
section
/-! DEFINITION. Requests from outside (16 R357, R358, R365, R366), the links (21 R466), security (16 R367, R368; 21 R467), firmware and
attestation (16 R369, R370), module reset, and power (21 R469). -/

namespace Sys2Proof.Machine

/-! ## BAR2 (16 R358) -/

/-- A page with a KEY, or a duplicate of one, holds a byte of a range (16 R358): level by level, leaves with V = 0 among them. -/
def State.keyedIn (s : State) (pa n : Nat) : Nat → Nat → Nat → Bool
  | 0, _, _ => false
  | fuel + 1, level, table =>
    (List.range 1024).any fun i =>
      let e := s.readMem (table + 8 * i) 8
      if pteLeaf e then
        pteKey e != 0 && (s.framesOf e level).any fun f => decide (f * 65536 < pa + n ∧ pa < f * 65536 + pageBytes level)
      else pteV e && s.keyedIn pa n fuel (level + 1) (bits e 47 13 * 8192)

/-- BAR2 does not reach a range: a keyed page, or a save region. -/
def State.barDenied (s : State) (pa n : Nat) : Bool :=
  s.inSaveRegion pa n || (tvals s.ctxs).any fun c => s.keyedIn pa n 4 0 c.root

/-- The pages of contexts, of every size, that map a physical address, themselves or by a duplicate: context and VA. -/
def State.mappers (s : State) (pa : Nat) : List (Nat × Nat) :=
  s.ctxs.flatMap fun c => (s.ctxLeaves c.2.root).filterMap fun l =>
    if pteV l.2.2.1 then
      ((s.framesOf l.2.2.1 l.2.2.2).find? fun f => decide (f * 65536 ≤ pa ∧ pa < f * 65536 + pageBytes l.2.2.2)).map fun f => (c.1, l.1 + (pa - f * 65536))
    else none

/-- The pages of contexts that a range of physical addresses meets. -/
def State.mappersOf (s : State) (pa n : Nat) : List (Nat × Nat) := (pagesOf pa n).flatMap s.mappers

/-- What a request through BAR2 meets before it is performed. -/
inductive BarGate where
  | go
  /-- It completes with zero, or changes nothing. -/
  | nothing
  /-- Refused: a read completes with Unsupported Request, a write is discarded. -/
  | refused (s : State)
deriving DecidableEq, Repr

/-- The gate of BAR2 for `n` bytes at a PA: Hold (21 Table 21.1, HELD_ACCESS), the reserved range, keyed pages and save regions. -/
def State.barGate (s : State) (pa n : Nat) (wr : Bool) : BarGate :=
  if s.hold.inHold then .refused (s.notice 0x0D04 (BitVec.ofNat 64 pa) (if wr then 1 else 0))
  else if !inHbm pa ∧ !inTier pa then .nothing
  else if s.barDenied pa n then .refused (s.notice 0x0C02 (BitVec.ofNat 64 pa) 0)
  else .go

/-- The window of R374 holds a PA. -/
def inWindow (pa : Nat) : Bool := decide (0x8000000000 ≤ pa ∧ pa < 0x8000100000)

/-- An answer leaves the device: a status, 0 for success, 1 for Unsupported Request, 2 for poison, and a value. -/
def State.answer (s : State) (status v : Nat) : State := { s with sentOut := (status, v) :: s.sentOut }

/-- The state before a host access to a range is performed: pages that map it change class under R259, a write to a duplicated page starts
its collapse, and one that waits for its page is asked again. None when it waits. -/
def State.barClass (s : State) (pa n : Nat) (wr : Bool) : Except State State :=
  let ms := s.mappersOf pa n
  match ms.find? fun m => wr && s.duplicated m.1 m.2 with
  | some m => .error (match s.leaf m.1 m.2 with | some (_, e, _) => s.beginCollapse m.1 (pageBase m.2 3) e | none => s)
  | none =>
    if wr && ms.any fun m => s.migrating m.1 m.2 then .error s
    else if ((linePieces pa n).any fun r => s.lineHeld (lineOf (pa + r.1))) || ms.any (fun m => s.classWaits m.1 m.2 none) then .error s
    else .ok (ms.foldl (fun s m => s.classify m.1 m.2 none wr) s)

/-- The home slice of a line is asked for it by a request from outside: an owner's dirty copy comes back, and what L2 lacks comes from the MSC,
the tier or a packet (10 R266, R267). The access counts for the home die (DESIGN CHOICE, log 75). -/
def State.outsideLine (s : State) (pa : Nat) : State × Bool :=
  match homeDie pa with
  | none => (s, true)
  | some home => (s.recall (lineOf pa) none).atHome home (lineOf pa) home false

/-- The same of every line of a range; it waits until each is there. -/
def State.outsideReach (s : State) (pa n : Nat) : State × Bool :=
  (linePieces pa n).foldl (fun r p => let (s, ok) := r.1.outsideLine (pa + p.1); (s, r.2 && ok)) (s, true)

/-- A page that grants no write maps a byte of a range. -/
def State.noWriteAt (s : State) (pa n : Nat) : Bool :=
  (s.mappersOf pa n).any fun m => match s.leaf m.1 m.2 with | some (_, e, _) => !pteW e | none => false

/-- A host write performed at the home slice: one to a page that grants no write drops every L1 and RDC copy of its lines (16 R358; 10
R257). -/
def State.barWrite (s : State) (pa n v : Nat) : State :=
  let ro := s.noWriteAt pa n
  let s := s.unitWrite none pa n v
  if ro then
    s.dropLines fun x => decide (lineOf pa ≤ x.line ∧ x.line ≤ lineOf (pa + n - 1)) && match x.level with | .l1 _ | .rdc _ => true | _ => false
  else s

/-- A page of a range stays duplicated and is never written (20 R450). -/
def State.barred (s : State) (pa n : Nat) : Bool := (s.mappersOf pa n).any fun m => s.neverWritten m.1 m.2

/-- Requests through BAR2 take effect in the order of arrival: one waits behind those that wait, and comes to the head when its own turn comes.
`go` says that it must wait still. -/
def State.inOrder (s : State) (self : Instr) (go : State → Except State State) : State :=
  if s.turn then
    match go { s with turn := false, bar := s.bar.erase self } with
    | .ok s => s
    | .error s => { s with bar := self :: s.bar }
  else if s.bar.isEmpty then
    match go s with
    | .ok s => s
    | .error s => { s with bar := [self] }
  else { s with bar := s.bar ++ [self] }

/-- A host read. -/
def State.barRead (s : State) (pa size : Nat) : Except State State :=
  if inWindow pa ∧ !s.hold.inHold then .ok (s.answer 0 (if s.owned && s.owner == 0 then s.windowRead (pa - 0x8000000000) size else 0))
  else
    match s.barGate pa size false with
    | .nothing => .ok (s.answer 0 0)
    | .refused s => .ok (s.answer 1 0)
    | .go => (s.barClass pa size false).bind fun s =>
      let (s, ok) := s.outsideReach pa size
      if !ok then .error s else .ok (if s.poisoned pa size then s.answer 2 0 else s.answer 0 (s.readMem pa size))

/-- HOST_READ. -/
def execHostRead (pa size : Nat) (s : State) : Host.Outcome State Fault Refusal :=
  if 0x20000000000 < pa + size then .fault .absentAddress
  else .next (s.inOrder (.hostRead pa size) fun s => s.barRead pa size)

/-- A host write. One to a page that is never to be written changes nothing (20 R450). -/
def State.barStore (s : State) (pa size value : Nat) : Except State State :=
  if inWindow pa ∧ !s.hold.inHold then .ok (s.plan [.registerWrite .dbgWindow (pa - 0x8000000000) size value])
  else
    match s.barGate pa size true with
    | .nothing => .ok s
    | .refused s => .ok s
    | .go => if s.barred pa size then .ok s else (s.barClass pa size true).map fun s => s.barWrite pa size value

/-- HOST_WRITE: a write of scope sys; posted writes are performed in the order in which they arrive. -/
def execHostWrite (pa size value : Nat) (s : State) : Host.Outcome State Fault Refusal :=
  if 0x20000000000 < pa + size then .fault .absentAddress
  else .next (s.inOrder (.hostWrite pa size value) fun s => s.barStore pa size value)

/-- The value that a host atomic leaves (16 Table 16.1). -/
def hostAtomNew (op : HostOp) (size old value compare : Nat) : Nat :=
  match op with
  | .fetchAdd => (old + value) % 2 ^ (8 * size)
  | .swap => value % 2 ^ (8 * size)
  | .cas => if old = compare % 2 ^ (8 * size) then value % 2 ^ (8 * size) else old

/-- A host atomic of 32 or 64 bits. One to a page that is never to be written is answered with Unsupported Request (20 R450; DESIGN CHOICE,
log 73). -/
def State.barAtomic (s : State) (op : HostOp) (pa size value compare : Nat) : Except State State :=
  match s.barGate pa size true with
  | .nothing => .ok (s.answer 0 0)
  | .refused s => .ok (s.answer 1 0)
  | .go =>
    if s.barred pa size then .ok (s.answer 1 0)
    else
      (s.barClass pa size true).bind fun s =>
        let (s, ok) := s.outsideReach pa size
        if !ok then .error s
        else if s.poisoned pa size then .ok (s.answer 2 0)
        else
          let old := s.readMem pa size
          .ok ((s.barWrite pa size (hostAtomNew op size old value compare)).answer 0 old)

/-- HOST_ATOMIC: of 32 and 64 bits; one of another size, or misaligned, is answered with Unsupported Request (DESIGN CHOICE, log 73). -/
def execHostAtomic (op : HostOp) (pa size value compare : Nat) (s : State) : Host.Outcome State Fault Refusal :=
  if 0x20000000000 < pa + size then .fault .absentAddress
  else
    .next (if !((size = 4 ∨ size = 8) ∧ pa % size = 0) then s.answer 1 0
      else s.inOrder (.hostAtomic op pa size value compare) fun s => s.barAtomic op pa size value compare)

/-! ## Requests of other packages (16 R365, R366) -/

/-- The context whose descriptor set EXPORT. -/
def State.exportCtx (s : State) : Option Nat := (s.ctxs.find? fun c => bit c.2.desc.cflags 2).map (·.1)

/-- What a request asks of its page. -/
def remoteNeed (k : RemoteKind) : Need := match k with | .read => .read | .write _ => .write | .atomic _ _ _ _ => .both
def remoteWrites (k : RemoteKind) : Bool := match k with | .read => false | _ => true

/-- The die whose copy a request of another package reads: none, so the kept copy (13 R330). -/
def noDie : Nat := 4

/-- The request is done. -/
def State.forget (s : State) (req : RemoteReq) : State := { s with remote := s.remote.erase req }

/-- The answer to a request: to this package's own access, which its tag names, it comes as its acknowledgement. -/
def State.reply (s : State) (req : RemoteReq) (v : Nat) (refusal : Option Nat) : State :=
  let s := s.forget req
  if req.src = s.links.packageId then s.plan [.space4Ack req.tag v refusal] else s.answer (refusal.getD 0) v

/-- The 8-byte parts of a request that are left (08 R200; 11 R292). -/
def remoteLeft (r : RemoteReq) : List Nat := (List.range (max 1 (r.size / 8))).filter fun i => !r.got.contains i

/-- The part of a request that is performed next: the parts have no order among them. -/
def State.nextRemotePart (s : State) (req : RemoteReq) : State × Nat :=
  match remoteLeft req with
  | [i] => (s, i)
  | ps => (s.draw, ps.getD (Config.choose s.freeN % ps.length) 0)

/-- A part of a request has been performed and has returned `v`; with the last the request is answered. -/
def State.remotePart (s : State) (req : RemoteReq) (i v : Nat) : State :=
  let value := req.value + v * 2 ^ (64 * i)
  if remoteLeft req = [i] then s.reply req value none
  else { s with remote := s.remote.replace req { req with got := req.got ++ [i], value := value } }

/-- Byte offsets of a request at a PA that it does not write: those that higher lanes of its execution write (08 R205). Of this package's own
access the other lanes' places may have become known since it was sent. -/
def State.remoteMasked (s : State) (req : RemoteReq) (pa : Nat) : List Nat :=
  match if req.src = s.links.packageId then s.acc req.tag else none with
  | some a =>
    let a := { a with key := some pa }
    req.masked ++ a.shadowed ++
      ((s.accs.filter fun x => x.execId == a.execId && x.kind == .store && decide (a.id < x.id)).flatMap fun y => a.overlap y)
  | none => req.masked

/-- The stores of lower lanes do not write the bytes that this package's own request has written (08 R205). -/
def State.remoteShadow (s : State) (req : RemoteReq) (runs : List (Nat × Nat)) : State :=
  match if req.src = s.links.packageId then s.acc req.tag else none with
  | some a =>
    { s with accs := s.accs.map fun (x : Access) =>
        if x.execId = a.execId ∧ x.kind = .store ∧ x.id < a.id then
          let y := { x with shadow := x.shadow ++ runs }
          if x.key.isSome then { y with masked := y.masked ++ y.shadowed } else y
        else x }
  | none => s

/-- A part of a write request at its home slice; the last cures the poisoned sectors that the request covers (20 R455). -/
def State.remoteWrite (s : State) (req : RemoteReq) (pa i v : Nat) : State :=
  let masked := s.remoteMasked req pa
  let runs := storeRuns (List.range (8 * i) ++ masked) (8 * i + min req.size 8)
  let s := runs.foldl (fun s r => s.unitWrite none (pa + r.1) r.2 (v / 256 ^ r.1 % 2 ^ (8 * r.2))) s
  let s := s.remoteShadow req (runs.map fun r => (pa + r.1, r.2))
  if remoteLeft req = [i] then (storeRuns masked req.size).foldl (fun s r => s.cureRange (pa + r.1) r.2) s else s

/-- A request, or a part of it, performed at the home slice of its line, at device scope. A read that meets poison is answered with a
poisoned flit (20 R455). -/
def State.remotePerform (s : State) (req : RemoteReq) (pa : Nat) : State :=
  match req.kind with
  | .write v =>
    let (s, i) := s.nextRemotePart req
    (s.remoteWrite req pa i v).remotePart req i 0
  | .read =>
    let (s, ok) := s.outsideReach pa req.size
    if !ok then s
    else if s.poisoned pa req.size then s.reply req (poisonConsumed 0 pa).detail (some 0x0A02)
    else
      let (s, i) := s.nextRemotePart req
      s.remotePart req i (s.readMem (pa + 8 * i) (min req.size 8))
  | .atomic op var v cmp =>
    let (s, ok) := s.outsideReach pa req.size
    if !ok then s
    else if s.poisoned pa req.size then s.reply req (poisonConsumed 0 pa).detail (some 0x0A02)
    else
      let old := s.readMem pa req.size
      let (x, y) := if op = 9 then (cmp, v) else (v, 0)
      (match atomResult { code := op, var := var } req.size old (x % 2 ^ (8 * req.size)) (y % 2 ^ (8 * req.size)) with
        | some new => s.unitWrite none pa req.size new
        | none => s).reply req old none

/-- A request in the export context: it waits for a page that is not resident, and for a collapse or a migration. -/
def State.remoteAccess (s : State) (req : RemoteReq) (ctx : Nat) : State :=
  let va := req.offset
  let kind := match req.kind with | .read => 1 | .write _ => 2 | .atomic _ _ _ _ => 3
  match s.translate ctx va noDie (remoteNeed req.kind) with
  | .prot c _ => s.reply req 0 (some c)
  | .invalid l r => (s.contextFault ctx 0x0407 (BitVec.ofNat 64 va) (l + 4 * r)).reply req 0 (some 0x0407)
  | .notResident l =>
    match (s.ctx ctx).report (s.absentPage ctx va).1 with
    | some r => if r.unresolvable then s.reply req 0 (some 0x0403) else s
    | none => (s.demand ctx va kind l false).1
  | .ok pa _ _ =>
    if inHost pa then
      match s.hostRefusal ctx 4 (BitVec.ofNat 64 va) with
      | some f => s.reply req 0 (some f.code)
      | none => s.remotePerform req pa
    else if remoteWrites req.kind && s.duplicated ctx va then
      if s.neverWritten ctx va then s.reply req 0 (some 0x0408)
      else match s.leaf ctx va with
        | some (_, e, _) => s.beginCollapse ctx (pageBase va 3) e
        | none => s
    else if (remoteWrites req.kind && s.migrating ctx va) || s.lineHeld (lineOf pa) || s.classWaits ctx va none then s
    else (s.classify ctx va none (remoteWrites req.kind)).remotePerform req pa

/-- Two requests write or read a byte in common. -/
def remoteShares (a b : RemoteReq) : Bool := decide (a.offset < b.offset + b.size ∧ b.offset < a.offset + a.size)

/-- A later request of one thread of a package is ordered after an earlier one (11 R281, R282; 16 R366), in the mode of the export context
(11 R280). -/
def remoteAfter (banked : Bool) (b a : RemoteReq) : Bool :=
  a.src == b.src && a.thr == b.thr &&
  (bit b.pred a.strm || remoteShares a b ||
    a.strm == b.strm && match a.kind, b.kind with | .write _, .read => false | .write _, .write _ => !banked | _, _ => true)

/-- SPACE4_REQUEST: a request that arrives, or that has waited; it keeps its place among those that wait until it has been performed. Requests
of one thread are performed in their order. From the first step of Hold to its exit a request is refused; a package without an export context
refuses it with LINK_UNREACHABLE. -/
def execSpace4Request (req : RemoteReq) (s : State) : Host.Outcome State Fault Refusal :=
  if 2 ^ 46 < req.offset + req.size then .fault .absentAddress
  else
    .next (
      let waited := s.turn
      let s := { s with turn := false, remote := if s.turn then s.remote else s.remote ++ [req] }
      if s.held && !waited || s.hold.inHold then s.reply req 0 (some 0x0D04)
      else
        match s.exportCtx with
        | none => s.reply req 0 (some 0x0B01)
        | some c => if (s.remote.takeWhile fun r => r != req).any fun r => remoteAfter (s.banked c) req r then s else s.remoteAccess req c)

/-! ## Links (21 R466) -/

/-- Host accesses that have been sent fail. -/
def State.failHost (s : State) : State :=
  (s.accs.filter fun a => a.stage == .sent && a.key.isSome).foldl
    (fun s a => match s.acc a.id with | some x => s.failAcc x { code := 0x0B05, addr := x.ea } | none => s) s

/-- HOST_LINK_DOWN. -/
def execHostLinkDown (s : State) : Host.Outcome State Fault Refusal :=
  .next (if !s.links.hostUp then s
    else (({ s with links := { s.links with hostUp := false } } : State).failHost).notice 0x0B04 0 0x3F)

/-- The rates of a lane in tenths of a GT/s: those of the base specification up to 128 GT/s (16 Table 16.1; log 7). -/
def linkRates : List Nat := [25, 50, 80, 160, 320, 640, 1280]

/-- HOST_LINK_TRAINED: at x16, x8, x4 or x1 and one of the rates. -/
def execHostLinkTrained (width rate : Nat) (s : State) : Host.Outcome State Fault Refusal :=
  .next (if [16, 8, 4, 1].contains width ∧ linkRates.contains rate then
      { s with links := { s.links with hostUp := true, hostWidth := width, hostRate := rate } }
    else s)

/-- LINK_DEGRADED: a port retrains, loses lanes or goes down. -/
def execLinkDegraded (port lanes : Nat) (s : State) : Host.Outcome State Fault Refusal :=
  .next (if port < 36 ∧ lanes ≤ 4 then
      ({ s with links := { s.links with ports := sset 4 s.links.ports port lanes } } : State).notice 0x0B04 0 (port + lanes * 64)
    else s)

/-! ## TDIs and keys (16 R368; 21 R467) -/

/-- A TDI, a VF from 1 to 15. -/
def State.tdi (s : State) (vf : Nat) : TdiState := tgetD s.tdis vf .unlocked
def State.setTdi (s : State) (vf : Nat) (t : TdiState) : State := { s with tdis := tset s.tdis vf t }

/-- The VAs of global memory at which an access in flight reads or writes, of every part of an operation (21 R467). -/
def Access.everyVa (a : Access) : List Nat :=
  (match a.kind with | .sync _ => [] | _ => a.touches) ++
  match a.stage with
  | .moving ps held _ _ => (ps ++ held.map (·.2)).flatMap Part.vas
  | _ => []

/-- The bound TDI leaves RUN (cause 0), or its stream fails (1): its context's keys are destroyed, accesses to keyed pages are cancelled, the
TDI goes to ERROR, and the context halts with KEY_DESTROYED (21 Table 21.1). -/
def State.loseTdi (s : State) (vf ctx cause : Nat) : State :=
  let keyed (s : State) (a : Access) : Bool :=
    a.ctx == ctx && a.everyVa.any fun v => match s.leaf ctx (v % 2 ^ 56) with | some (_, e, _) => pteKey e != 0 | none => false
  let s := (s.accs.filter (keyed s)).foldl (fun s a => match s.acc a.id with | some x => s.cancel x | none => s) s
  ((s.destroyKeys ctx).setTdi vf .error).contextFault ctx 0x0C01 0 cause

/-- TDI_LEAVE_RUN. -/
def execTdiLeaveRun (vf : Nat) (s : State) : Host.Outcome State Fault Refusal :=
  .next (match tget s.bound vf with
    | some c => if s.tdi vf = .run then s.loseTdi vf c 0 else s
    | none => s)

/-- IDE_INTEGRITY_FAILURE: on the stream of a bound TDI. Every bound TDI of that stream is lost (log 7). -/
def execIdeIntegrityFailure (vf : Nat) (s : State) : Host.Outcome State Fault Refusal :=
  .next (match tget s.bound vf with
    | none => s
    | some _ =>
      if s.tdi vf = .error then s
      else
        let x := Config.ideStream vf
        let s := { s with links := { s.links with streams := s.links.streams &&& ~~~(1#4 <<< x.toNat) } }
        (s.bound.filter fun e => decide (Config.ideStream e.1 = x)).foldl (fun s e => if s.tdi e.1 = .error then s else s.loseTdi e.1 e.2 1) s)

/-! ## Attestation and firmware (16 R369, R370) -/

/-- A TDISP message that asks a TDI to change its state (16 Table 16.1); locking it makes its IDE stream secure (log 7). -/
def State.tdispMove (s : State) (body : SpdmBody) : State :=
  match body with
  | .tdispLock vf =>
    if 1 ≤ vf ∧ vf ≤ 15 ∧ s.tdi vf = .unlocked then
      { s with links := { s.links with streams := s.links.streams ||| 1#4 <<< (Config.ideStream vf).toNat } }.setTdi vf .locked
    else s
  | .tdispStart vf => if 1 ≤ vf ∧ vf ≤ 15 ∧ s.tdi vf = .locked then s.setTdi vf .run else s
  | .tdispStop vf =>
    if vf = 0 ∨ 15 < vf then s
    else
      match tget s.bound vf with
      | some c => if s.tdi vf = .run then s.loseTdi vf c 0 else s.setTdi vf .unlocked
      | none => s.setTdi vf .unlocked
  | _ => s

/-- The measurement blocks (16 Table 16.5): digests as bytes, then the numbers of the block. Block 5 has a report for each TDI in
CONFIG_LOCKED or RUN. -/
def State.measurement (s : State) (index : Nat) : List Nat :=
  let f := s.firmware
  match index with
  | 1 => Config.sha512 Config.bootRom
  | 2 => Config.sha512 f.supervisor.bytes ++ [f.supervisor.svn]
  | 3 => Config.sha512 f.management.bytes ++ [f.management.svn]
  | 4 => [f.minSup, f.minMgmt, if f.debugFuse then 1 else 0] ++ Config.aunathDigest
  | 5 => ((List.range 16).filter fun v => s.tdi v == .locked || s.tdi v == .run).flatMap fun v => Config.sha512 (Config.interfaceReport v)
  | _ => []

/-- The alias key: what the device secret and the measurements of the images give (16 R370). -/
def State.aliasKey (s : State) : List Nat := Config.aliasKey ([1, 2, 3, 4].map s.measurement)

/-- The answer to a message: the certificate chain that ends in the alias key, a measurement signed with that key, or what TDISP answers. -/
def State.trustAnswer (s : State) (body : SpdmBody) : List Nat :=
  match body with
  | .certificate => Config.chain s.aliasKey
  | .measurement i => s.measurement i ++ Config.sign s.aliasKey (s.measurement i) s.freeN
  | .tdispLock _ | .tdispStart _ | .tdispStop _ => Config.tdispAnswer s.freeN

/-- SPDM_MESSAGE: every message is answered; a TDISP message moves its TDI only inside a secured session (16 R370; log 12). -/
def execSpdmMessage (req : SpdmReq) (s : State) : Host.Outcome State Fault Refusal :=
  .next (
    let s := if req.secured then s.tdispMove req.body else s
    ({ s with firmware := { s.firmware with answers := (req.doe, s.trustAnswer req.body) :: s.firmware.answers } } : State).draw)

/-- An image passes its checks against a fused minimum. -/
def imageRejects (i : FirmwareImage) (min : Nat) : Option Nat :=
  if !Config.signatureOk i.bytes then some 1 else if i.svn < min then some 0 else none

/-- FIRMWARE_STAGE: the image is verified and waits for the next module reset, or is rejected. -/
def execFirmwareStage (image : FirmwareImage) (s : State) : Host.Outcome State Fault Refusal :=
  .next (
    let f := s.firmware
    match imageRejects image (if image.supervisor then f.minSup else f.minMgmt) with
    | some d => s.notice 0x0C04 0 d
    | none =>
      let i : Image := { bytes := image.bytes, svn := image.svn }
      { s with firmware := if image.supervisor then { f with stagedSup := some i } else { f with stagedMgmt := some i } })

/-- The image that the boot ROM runs: the staged one when it passes its checks, else the present one when that does, else none (16 R369). -/
def bootImage (staged : Option Image) (now : Image) (min : Nat) : Image :=
  let ok (i : Image) : Bool := Config.signatureOk i.bytes && decide (min ≤ i.svn)
  match staged.filter ok with
  | some i => i
  | none => if ok now then now else {}

/-- The firmware after a boot: a higher SVN raises the fused minimum. -/
def Firmware.boot (f : Firmware) : Firmware :=
  let sup := bootImage f.stagedSup f.supervisor f.minSup
  let mg := bootImage f.stagedMgmt f.management f.minMgmt
  { supervisor := sup, management := mg, minSup := max f.minSup sup.svn, minMgmt := max f.minMgmt mg.svn, debugFuse := f.debugFuse }

/-- MODULE_RESET: the boot ROM runs the verified images, and everything else is as it is after reset. The host's memory, the pin, the
fuses and what the fabric managers have set stay. -/
def execModuleReset (s : State) : Host.Outcome State Fault Refusal :=
  .next ({ State.reset with
    firmware := s.firmware.boot
    mem := s.mem.filter fun e => inHost e.1
    links := { packageId := s.links.packageId, routes := s.links.routes, hostUp := s.links.hostUp, hostWidth := s.links.hostWidth,
               hostRate := s.links.hostRate, ports := s.links.ports }
    freeN := s.freeN
    hold := { pin := s.hold.pin } } : State).holdChange

/-- POWER_EXCURSION: a draw above the cap for more than 1 ms; ACLK falls further. -/
def execPowerExcursion (s : State) : Host.Outcome State Fault Refusal :=
  .next (if s.cap = 0 then s
    else ({ s with aclk := max 1 (Config.aclkBelow s.freeN % s.aclk) } : State).draw.notice 0x0D03 0 0)

end Sys2Proof.Machine
end

