-- ==== Sys2Proof/Machine/Dispatch.lean ====
section
/-! DEFINITION. One arm for each instruction and event: a direct call of its meaning. -/

namespace Sys2Proof.Machine

/-- What an instruction or event does to the state. -/
def exec (i : Instr) (s : State) : Host.Outcome State Fault Refusal :=
  match i with
  | .nop => Sys2Proof.Machine.execNop s
  | .movA32 w => Sys2Proof.Machine.execMovA32 w s
  | .moviI64A32 w => Sys2Proof.Machine.execMoviI64A32 w s
  | .iaddI32A32 w => Sys2Proof.Machine.execIaddI32A32 w s
  | .iaddI32A32Imm w => Sys2Proof.Machine.execIaddI32A32Imm w s
  | .iaddI64A32 w => Sys2Proof.Machine.execIaddI64A32 w s
  | .iaddI64A32Imm w => Sys2Proof.Machine.execIaddI64A32Imm w s
  | .isubI32A32 w => Sys2Proof.Machine.execIsubI32A32 w s
  | .isubI64A32 w => Sys2Proof.Machine.execIsubI64A32 w s
  | .imulI32A32 w => Sys2Proof.Machine.execImulI32A32 w s
  | .imulI32A32Imm w => Sys2Proof.Machine.execImulI32A32Imm w s
  | .iminI32A32 w => Sys2Proof.Machine.execIminI32A32 w s
  | .imaxI32A32 w => Sys2Proof.Machine.execImaxI32A32 w s
  | .andN64A32 w => Sys2Proof.Machine.execAndN64A32 w s
  | .andN64A32Imm w => Sys2Proof.Machine.execAndN64A32Imm w s
  | .orN64A32 w => Sys2Proof.Machine.execOrN64A32 w s
  | .xorN64A32 w => Sys2Proof.Machine.execXorN64A32 w s
  | .shlN32A32Imm w => Sys2Proof.Machine.execShlN32A32Imm w s
  | .shrN32A32Imm w => Sys2Proof.Machine.execShrN32A32Imm w s
  | .shraI32A32Imm w => Sys2Proof.Machine.execShraI32A32Imm w s
  | .shlN64A32Imm w => Sys2Proof.Machine.execShlN64A32Imm w s
  | .shrN64A32Imm w => Sys2Proof.Machine.execShrN64A32Imm w s
  | .faddF32A32 w => Sys2Proof.Machine.execFaddF32A32 w s
  | .fsubF32A32 w => Sys2Proof.Machine.execFsubF32A32 w s
  | .fmulF32A32 w => Sys2Proof.Machine.execFmulF32A32 w s
  | .fminF32A32 w => Sys2Proof.Machine.execFminF32A32 w s
  | .fmaxF32A32 w => Sys2Proof.Machine.execFmaxF32A32 w s
  | .faddBf16A32 w => Sys2Proof.Machine.execFaddBf16A32 w s
  | .fmulBf16A32 w => Sys2Proof.Machine.execFmulBf16A32 w s
  | .faddF16A32 w => Sys2Proof.Machine.execFaddF16A32 w s
  | .fmulF16A32 w => Sys2Proof.Machine.execFmulF16A32 w s
  | .ldB32A32 w => Sys2Proof.Machine.execLdB32A32 w s
  | .ldB64A32 w => Sys2Proof.Machine.execLdB64A32 w s
  | .ldB128A32 w => Sys2Proof.Machine.execLdB128A32 w s
  | .stB32A32 w => Sys2Proof.Machine.execStB32A32 w s
  | .stB64A32 w => Sys2Proof.Machine.execStB64A32 w s
  | .stB128A32 w => Sys2Proof.Machine.execStB128A32 w s
  | .bra w => Sys2Proof.Machine.execBra w s
  | .brp w => Sys2Proof.Machine.execBrp w s
  | .call w => Sys2Proof.Machine.execCall w s
  | .brx w => Sys2Proof.Machine.execBrx w s
  | .callx w => Sys2Proof.Machine.execCallx w s
  | .ret w => Sys2Proof.Machine.execRet w s
  | .pad w => Sys2Proof.Machine.execPad w s
  | .jset w => Sys2Proof.Machine.execJset w s
  | .jwait w => Sys2Proof.Machine.execJwait w s
  | .jdrop w => Sys2Proof.Machine.execJdrop w s
  | .exit w => Sys2Proof.Machine.execExit w s
  | .region w => Sys2Proof.Machine.execRegion w s
  | .yield w => Sys2Proof.Machine.execYield w s
  | .elect w => Sys2Proof.Machine.execElect w s
  | .trap w => Sys2Proof.Machine.execTrap w s
  | .tret w => Sys2Proof.Machine.execTret w s
  | .brk w => Sys2Proof.Machine.execBrk w s
  | .sleep w => Sys2Proof.Machine.execSleep w s
  | .rdsr w => Sys2Proof.Machine.execRdsr w s
  | .wrsr w => Sys2Proof.Machine.execWrsr w s
  | .rdclk w => Sys2Proof.Machine.execRdclk w s
  | .launch w => Sys2Proof.Machine.execLaunch w s
  | .iadd w => Sys2Proof.Machine.execIadd w s
  | .isub w => Sys2Proof.Machine.execIsub w s
  | .iadd3 w => Sys2Proof.Machine.execIadd3 w s
  | .imul w => Sys2Proof.Machine.execImul w s
  | .imulh w => Sys2Proof.Machine.execImulh w s
  | .imad w => Sys2Proof.Machine.execImad w s
  | .imadw w => Sys2Proof.Machine.execImadw w s
  | .idiv w => Sys2Proof.Machine.execIdiv w s
  | .irem w => Sys2Proof.Machine.execIrem w s
  | .imin w => Sys2Proof.Machine.execImin w s
  | .imax w => Sys2Proof.Machine.execImax w s
  | .iclamp w => Sys2Proof.Machine.execIclamp w s
  | .isad w => Sys2Proof.Machine.execIsad w s
  | .popc w => Sys2Proof.Machine.execPopc w s
  | .clz w => Sys2Proof.Machine.execClz w s
  | .ctz w => Sys2Proof.Machine.execCtz w s
  | .and w => Sys2Proof.Machine.execAnd w s
  | .or w => Sys2Proof.Machine.execOr w s
  | .xor w => Sys2Proof.Machine.execXor w s
  | .not w => Sys2Proof.Machine.execNot w s
  | .andn w => Sys2Proof.Machine.execAndn w s
  | .shl w => Sys2Proof.Machine.execShl w s
  | .shr w => Sys2Proof.Machine.execShr w s
  | .shra w => Sys2Proof.Machine.execShra w s
  | .rotl w => Sys2Proof.Machine.execRotl w s
  | .bfx w => Sys2Proof.Machine.execBfx w s
  | .bfi w => Sys2Proof.Machine.execBfi w s
  | .brev w => Sys2Proof.Machine.execBrev w s
  | .icmp w => Sys2Proof.Machine.execIcmp w s
  | .sel w => Sys2Proof.Machine.execSel w s
  | .plop w => Sys2Proof.Machine.execPlop w s
  | .mov w => Sys2Proof.Machine.execMov w s
  | .movi w => Sys2Proof.Machine.execMovi w s
  | .movs w => Sys2Proof.Machine.execMovs w s
  | .lea w => Sys2Proof.Machine.execLea w s
  | .ptrx w => Sys2Proof.Machine.execPtrx w s
  | .fadd w => Sys2Proof.Machine.execFadd w s
  | .fsub w => Sys2Proof.Machine.execFsub w s
  | .fmul w => Sys2Proof.Machine.execFmul w s
  | .ffma w => Sys2Proof.Machine.execFfma w s
  | .fmin w => Sys2Proof.Machine.execFmin w s
  | .fmax w => Sys2Proof.Machine.execFmax w s
  | .fminn w => Sys2Proof.Machine.execFminn w s
  | .fmaxn w => Sys2Proof.Machine.execFmaxn w s
  | .fcmp w => Sys2Proof.Machine.execFcmp w s
  | .fclass w => Sys2Proof.Machine.execFclass w s
  | .frnd w => Sys2Proof.Machine.execFrnd w s
  | .fdot2 w => Sys2Proof.Machine.execFdot2 w s
  | .frcp w => Sys2Proof.Machine.execFrcp w s
  | .frsq w => Sys2Proof.Machine.execFrsq w s
  | .fsqrt w => Sys2Proof.Machine.execFsqrt w s
  | .fexp2 w => Sys2Proof.Machine.execFexp2 w s
  | .flog2 w => Sys2Proof.Machine.execFlog2 w s
  | .fsin w => Sys2Proof.Machine.execFsin w s
  | .fcos w => Sys2Proof.Machine.execFcos w s
  | .ftanh w => Sys2Proof.Machine.execFtanh w s
  | .cvt w => Sys2Proof.Machine.execCvt w s
  | .cvti w => Sys2Proof.Machine.execCvti w s
  | .pack w => Sys2Proof.Machine.execPack w s
  | .unpack w => Sys2Proof.Machine.execUnpack w s
  | .qmx w => Sys2Proof.Machine.execQmx w s
  | .dqmx w => Sys2Proof.Machine.execDqmx w s
  | .srseed w => Sys2Proof.Machine.execSrseed w s
  | .shfl w => Sys2Proof.Machine.execShfl w s
  | .shflx w => Sys2Proof.Machine.execShflx w s
  | .subp w => Sys2Proof.Machine.execSubp w s
  | .vote w => Sys2Proof.Machine.execVote w s
  | .lred w => Sys2Proof.Machine.execLred w s
  | .lscan w => Sys2Proof.Machine.execLscan w s
  | .matchLanes w => Sys2Proof.Machine.execMatchLanes w s
  | .ld w => Sys2Proof.Machine.execLd w s
  | .st w => Sys2Proof.Machine.execSt w s
  | .ldw w => Sys2Proof.Machine.execLdw w s
  | .stw w => Sys2Proof.Machine.execStw w s
  | .atomc w => Sys2Proof.Machine.execAtomc w s
  | .red w => Sys2Proof.Machine.execRed w s
  | .pref w => Sys2Proof.Machine.execPref w s
  | .cjoin w => Sys2Proof.Machine.execCjoin w s
  | .cleave w => Sys2Proof.Machine.execCleave w s
  | .atomAdd w => Sys2Proof.Machine.execAtomAdd w s
  | .atomSub w => Sys2Proof.Machine.execAtomSub w s
  | .atomMin w => Sys2Proof.Machine.execAtomMin w s
  | .atomMax w => Sys2Proof.Machine.execAtomMax w s
  | .atomAnd w => Sys2Proof.Machine.execAtomAnd w s
  | .atomOr w => Sys2Proof.Machine.execAtomOr w s
  | .atomXor w => Sys2Proof.Machine.execAtomXor w s
  | .atomExch w => Sys2Proof.Machine.execAtomExch w s
  | .atomFadd w => Sys2Proof.Machine.execAtomFadd w s
  | .balloc w => Sys2Proof.Machine.execBalloc w s
  | .bref w => Sys2Proof.Machine.execBref w s
  | .bfree w => Sys2Proof.Machine.execBfree w s
  | .bexpect w => Sys2Proof.Machine.execBexpect w s
  | .barrive w => Sys2Proof.Machine.execBarrive w s
  | .bwait w => Sys2Proof.Machine.execBwait w s
  | .btest w => Sys2Proof.Machine.execBtest w s
  | .bcopy w => Sys2Proof.Machine.execBcopy w s
  | .bgather w => Sys2Proof.Machine.execBgather w s
  | .bscatter w => Sys2Proof.Machine.execBscatter w s
  | .trecld w => Sys2Proof.Machine.execTrecld w s
  | .tcfg w => Sys2Proof.Machine.execTcfg w s
  | .tinfo w => Sys2Proof.Machine.execTinfo w s
  | .rkacq w => Sys2Proof.Machine.execRkacq w s
  | .rkrel w => Sys2Proof.Machine.execRkrel w s
  | .mma w => Sys2Proof.Machine.execMma w s
  | .rkstat w => Sys2Proof.Machine.execRkstat w s
  | .acrdr w => Sys2Proof.Machine.execAcrdr w s
  | .acrdc w => Sys2Proof.Machine.execAcrdc w s
  | .acwrr w => Sys2Proof.Machine.execAcwrr w s
  | .acwrc w => Sys2Proof.Machine.execAcwrc w s
  | .runArbitration core slot => Sys2Proof.Machine.execRunArbitration core slot s
  | .stallBreak core slot => Sys2Proof.Machine.execStallBreak core slot s
  | .sleepExpiry thr => Sys2Proof.Machine.execSleepExpiry thr s
  | .loadPerform acc => Sys2Proof.Machine.execLoadPerform acc s
  | .storePerform acc => Sys2Proof.Machine.execStorePerform acc s
  | .atomicPerform acc => Sys2Proof.Machine.execAtomicPerform acc s
  | .peerProbe core line => Sys2Proof.Machine.execPeerProbe core line s
  | .pageClassTransition ctx va core wr => Sys2Proof.Machine.execPageClassTransition ctx va core wr s
  | .writeNotice src dst => Sys2Proof.Machine.execWriteNotice src dst s
  | .clockProbe asker asked => Sys2Proof.Machine.execClockProbe asker asked s
  | .hbmReadPacket stack tag => Sys2Proof.Machine.execHbmReadPacket stack tag s
  | .hbmWritePacket stack tag => Sys2Proof.Machine.execHbmWritePacket stack tag s
  | .hbmAtomicPacket stack tag => Sys2Proof.Machine.execHbmAtomicPacket stack tag s
  | .pageWalk walk => Sys2Proof.Machine.execPageWalk walk s
  | .operandLogReplay acc => Sys2Proof.Machine.execOperandLogReplay acc s
  | .fetchRetry thr => Sys2Proof.Machine.execFetchRetry thr s
  | .pageMigration ctx va => Sys2Proof.Machine.execPageMigration ctx va s
  | .demotion die => Sys2Proof.Machine.execDemotion die s
  | .collapse ctx va => Sys2Proof.Machine.execCollapse ctx va s
  | .collapseAck ctx va die => Sys2Proof.Machine.execCollapseAck ctx va die s
  | .collapseTimeout ctx va => Sys2Proof.Machine.execCollapseTimeout ctx va s
  | .cloveLoadRequest acc => Sys2Proof.Machine.execCloveLoadRequest acc s
  | .cloveTimerExpiry die clove seq => Sys2Proof.Machine.execCloveTimerExpiry die clove seq s
  | .copyCompletion acc parts => Sys2Proof.Machine.execCopyCompletion acc parts s
  | .engineCredit credit => Sys2Proof.Machine.execEngineCredit credit s
  | .mmaAccept acc => Sys2Proof.Machine.execMmaAccept acc s
  | .mmaStart acc => Sys2Proof.Machine.execMmaStart acc s
  | .mmaRetire acc => Sys2Proof.Machine.execMmaRetire acc s
  | .bankSwitch quad bank => Sys2Proof.Machine.execBankSwitch quad bank s
  | .bankHandover quad bank => Sys2Proof.Machine.execBankHandover quad bank s
  | .reckonerHang quad => Sys2Proof.Machine.execReckonerHang quad s
  | .reckonerReset quad => Sys2Proof.Machine.execReckonerReset quad s
  | .launchAccept acc => Sys2Proof.Machine.execLaunchAccept acc s
  | .blockPlacement die => Sys2Proof.Machine.execBlockPlacement die s
  | .progressSwap core => Sys2Proof.Machine.execProgressSwap core s
  | .ctxSliceExpiry die => Sys2Proof.Machine.execCtxSliceExpiry die s
  | .squadDiscard blk sq => Sys2Proof.Machine.execSquadDiscard blk sq s
  | .discardStuck blk => Sys2Proof.Machine.execDiscardStuck blk s
  | .asyncFaultDelivery thr => Sys2Proof.Machine.execAsyncFaultDelivery thr s
  | .coreDumpWrite ctx => Sys2Proof.Machine.execCoreDumpWrite ctx s
  | .queueLevelReset ctx => Sys2Proof.Machine.execQueueLevelReset ctx s
  | .claim master => Sys2Proof.Machine.execClaim master s
  | .handover master value => Sys2Proof.Machine.execHandover master value s
  | .accept master => Sys2Proof.Machine.execAccept master s
  | .eventQueuePost page => Sys2Proof.Machine.execEventQueuePost page s
  | .ctxStart page => Sys2Proof.Machine.execCtxStart page s
  | .ctxStop page => Sys2Proof.Machine.execCtxStop page s
  | .map page => Sys2Proof.Machine.execMap page s
  | .unmap page => Sys2Proof.Machine.execUnmap page s
  | .unresolvable page => Sys2Proof.Machine.execUnresolvable page s
  | .holdEnter page => Sys2Proof.Machine.execHoldEnter page s
  | .holdExit page => Sys2Proof.Machine.execHoldExit page s
  | .query page => Sys2Proof.Machine.execQuery page s
  | .powerCap page => Sys2Proof.Machine.execPowerCap page s
  | .hostRead pa size => Sys2Proof.Machine.execHostRead pa size s
  | .hostWrite pa size value => Sys2Proof.Machine.execHostWrite pa size value s
  | .hostAtomic op pa size value compare => Sys2Proof.Machine.execHostAtomic op pa size value compare s
  | .hostAccessCompletion acc status => Sys2Proof.Machine.execHostAccessCompletion acc status s
  | .space4Request req => Sys2Proof.Machine.execSpace4Request req s
  | .space4Ack acc value refusal => Sys2Proof.Machine.execSpace4Ack acc value refusal s
  | .linkTimeout acc => Sys2Proof.Machine.execLinkTimeout acc s
  | .holdEntryOverrun step => Sys2Proof.Machine.execHoldEntryOverrun step s
  | .holdExited failed => Sys2Proof.Machine.execHoldExited failed s
  | .debugAttach value => Sys2Proof.Machine.execDebugAttach value s
  | .debugDetach value => Sys2Proof.Machine.execDebugDetach value s
  | .dcmdFreeze quad => Sys2Proof.Machine.execDcmdFreeze quad s
  | .dcmdResume quad => Sys2Proof.Machine.execDcmdResume quad s
  | .dcmdStep quad rank slot count => Sys2Proof.Machine.execDcmdStep quad rank slot count s
  | .pcSample core => Sys2Proof.Machine.execPcSample core s
  | .registerWrite target offset size value => Sys2Proof.Machine.execRegisterWrite target offset size value s
  | .illegalOpcode opc page past => Sys2Proof.Machine.execIllegalOpcode opc page past s
  | .reservedField word bit => Sys2Proof.Machine.execReservedField word bit s
  | .mboxUnknownCode page => Sys2Proof.Machine.execMboxUnknownCode page s
  | .barrierUpdate acc => Sys2Proof.Machine.execBarrierUpdate acc s
  | .cloveTableUpdate acc => Sys2Proof.Machine.execCloveTableUpdate acc s
  | .collapseResend ctx va die => Sys2Proof.Machine.execCollapseResend ctx va die s
  | .holdReq asserted => Sys2Proof.Machine.execHoldReq asserted s
  | .linkDegraded port lanes => Sys2Proof.Machine.execLinkDegraded port lanes s
  | .tdiLeaveRun vf => Sys2Proof.Machine.execTdiLeaveRun vf s
  | .ideIntegrityFailure vf => Sys2Proof.Machine.execIdeIntegrityFailure vf s
  | .spdmMessage req => Sys2Proof.Machine.execSpdmMessage req s
  | .firmwareStage image => Sys2Proof.Machine.execFirmwareStage image s
  | .scrub err => Sys2Proof.Machine.execScrub err s
  | .hostLinkTrained width rate => Sys2Proof.Machine.execHostLinkTrained width rate s
  | .migrationEpochEnd => Sys2Proof.Machine.execMigrationEpochEnd s
  | .handoverLapse => Sys2Proof.Machine.execHandoverLapse s
  | .hostLinkDown => Sys2Proof.Machine.execHostLinkDown s
  | .moduleReset => Sys2Proof.Machine.execModuleReset s
  | .holdEntered => Sys2Proof.Machine.execHoldEntered s
  | .powerExcursion => Sys2Proof.Machine.execPowerExcursion s
  | .traceRecordWrite => Sys2Proof.Machine.execTraceRecordWrite s

end Sys2Proof.Machine
end

