-- ==== Sys2Proof/Machine/Tick.lean ====
section
/-! DEFINITION. What goes on between the events: time passes, waits that only time or an event ends are ended, complete grids retire, and
the next event is chosen (log 1). -/

namespace Sys2Proof.Machine

/-! ## Time -/

/-- A quad of a die is frozen. -/
def State.dieFrozen (s : State) (die : Nat) : Bool := s.quads.any fun q => q.1 / 48 == die && q.2.frozen

/-- A run after cycles in which it has not issued. -/
def Run.wait (r : Run) (n : Nat) : Run := { r with idle := r.idle + n }

/-- Cores after `n` cycles: runs and cores that issue nothing. The count of an idle core stands still in frozen cycles and from the request for
Hold on (12 R316; 16 Table 16.7). -/
def State.ageCores (s : State) (n : Nat) : State :=
  { s with cores := s.cores.map fun (c : Nat × Core) =>
      if (s.quad (coreQuad c.1)).frozen then c
      else (c.1, { c.2 with slot0 := c.2.slot0.map (Run.wait · n), slot1 := c.2.slot1.map (Run.wait · n),
                            idle := if s.held then c.2.idle else c.2.idle + n }) }

/-- Sleeping threads after `n` cycles: a frozen quad does not count (06 R149; 17 R380). -/
def State.ageThreads (s : State) (n : Nat) : State :=
  { s with threads := s.threads.map fun (e : Nat × Thread) =>
      match e.2.wait with
      | .sleep left next =>
        let b := s.thrBlock e.2
        if b.onQuad && !(s.quad b.dquad).frozen then (e.1, { e.2 with wait := .sleep (left - n) next }) else e
      | _ => e }

/-- A hold's timer counts while the quad of no member is frozen (08 R215). -/
def State.ageHold (s : State) (d n : Nat) (h : Hold) : Hold :=
  if (s.clove d h.clove).members.any fun m => (s.quad (coreQuad m.1.1)).frozen then h else { h with left := h.left - n }

/-- Dies after `n` cycles and `ns` nanoseconds: slices and clove timers. -/
def State.ageDies (s : State) (n ns : Nat) : State :=
  { s with dies := s.dies.map fun (d : Nat × Die) =>
      (d.1, { d.2 with sliceLeft := if s.dieFrozen d.1 ∨ s.held then d.2.sliceLeft else d.2.sliceLeft - ns
                       holds := d.2.holds.map (s.ageHold d.1 n) }) }

/-- A Reckoner has a command that could start, and executes none (21 R461). -/
def State.reckIdle (s : State) (dq : Nat) : Bool :=
  let cs := s.commandsOn dq
  (cs.any fun c => s.startable c.1 && s.bankReady c.1 c.2) && !cs.any fun c => c.1.stage.isExecuting

/-- Quads after `n` cycles: freezes, banks and idle Reckoners. The hold of a bank counts neither frozen cycles nor Hold, from its request on
(12 R324; 16 Table 16.7). -/
def State.ageQuads (s : State) (n : Nat) : State :=
  { s with quads := s.quads.map fun (q : Nat × Quad) =>
      (q.1, { q.2 with frozenFor := if q.2.frozen then q.2.frozenFor + n else 0
                       idleReck := if s.reckIdle q.1 then q.2.idleReck + n else 0
                       skidLeft := q.2.skidLeft - n
                       banks := if q.2.frozen ∨ s.held then q.2.banks else q.2.banks.map fun (b : Nat × Bank) => (b.1, { b.2 with held := b.2.held + n }) }) }

/-- A discard after `n` cycles; frozen cycles are not counted (21 R464). -/
def State.ageBlocks (s : State) (n : Nat) : State :=
  { s with blocks := s.blocks.map fun (b : Nat × Block) =>
      match b.2.status with
      | .discarding c k => if (s.quad b.2.dquad).frozen ∨ stuckMark ≤ k then b else (b.1, { b.2 with status := .discarding c (k + n) })
      | _ => b }

/-- What else counts cycles: commands, collapses (frozen dies do not), the migration epoch and Hold entry. -/
def State.ageRest (s : State) (n ns : Nat) : State :=
  { s with
    accs := s.accs.map fun (a : Access) => match a.stage with | .executing c => { a with stage := .executing (c + n) } | _ => a
    collapses := s.collapses.map fun (c : Collapse) =>
      { c with waiting := c.waiting.map fun (w : Nat × Nat × Bool) => if s.dieFrozen w.1 ∨ s.held then w else (w.1, w.2.1 + n, w.2.2) }
    epochLeft := s.epochLeft - n
    handoverLeft := s.handoverLeft - ns
    hold := if s.hold.entering then
        { s.hold with elapsed := s.hold.elapsed + n, step := s.holdStep, inStep := if s.hold.step = s.holdStep then s.hold.inStep + n else n }
      else s.hold }

/-- The cycles of ACLK in one tick: at least one, and none in Hold, where ACLK stands still (03 R66). -/
def State.tickCycles (s : State) : Nat := if s.hold.inHold then 0 else 1 + Config.cycles s.freeN

/-- `n` cycles of ACLK pass: $clk counts them, and $time advances by the time that they take at the present ACLK (01 R15; 03 R66). In Hold
$time advances by a free amount. -/
def State.age (s : State) (n : Nat) : State :=
  let p := s.phase + 1000000 * n
  let ns := if s.hold.inHold then 1 + Config.nanos s.freeN else p / s.aclk
  let s := { s with clk := s.clk + BitVec.ofNat 64 n, time := s.time + BitVec.ofNat 64 ns,
                    phase := if s.hold.inHold then s.phase else p % s.aclk }
  (((((s.ageCores n).ageThreads n).ageDies n ns).ageQuads n).ageBlocks n).ageRest n ns

/-! ## What follows without an event of its own -/

/-- The end of a cycle: the waits of squads in which several slots issued are evaluated (06 R141), and the writers of bank elements are
forgotten (09 R244). -/
def State.endCycle (s : State) : State :=
  let s := s.settleAll
  { s with quads := s.quads.map fun (q : Nat × Quad) => (q.1, { q.2 with banks := q.2.banks.map fun (b : Nat × Bank) => (b.1, { b.2 with wrote := [] }) }) }

/-- Stops take effect (17 R379), and cores without SKID records to come forget what they have issued. -/
def State.endStops (s : State) : State :=
  let s := s.writeStops
  { s with cores := s.cores.map fun (c : Nat × Core) => (c.1, if s.skidding (coreQuad c.1) then c.2 else { c.2 with issued := [] }) }

/-- A thread that stands in a REGION that waits, while its squad is to be discarded or its context halts, has begun that REGION and writes its
slot before it stops (12 R318; 13 R340; 18 R411). -/
def State.beginWaiting (s : State) : State :=
  let ks := (s.threads.filter fun e =>
    let b := s.thrBlock e.2
    let ending := (s.ctx b.ctx).halted || (match b.status with | .discarding _ _ => true | _ => false) || (s.thrSquad e.2).replay
    ending && e.2.live && e.2.owed == .nothing && !s.inRun e.2 && s.inRegion e.1).map (·.1)
  ks.foldl (fun s k => s.modThr k fun t => { t with owed := .begun }) s

/-- A squad that waits for the stores it issued before it was discarded: it issues again once they have been performed, and one that has left
its slot, its swap abandoned, comes back to that slot once it has room (02 R24, R48; 21 R464). -/
def State.endDrain (s : State) (key : Nat) : State :=
  match tget s.squads key with
  | none => s
  | some q =>
    let b := s.block q.blk
    if !q.draining || s.storesLeft (squadThreads b q.blk q.num) then s
    else if q.resident then s.modSquad q.blk q.num fun x => { x with draining := false }
    else if b.status = .resident ∧ s.coreFits q.core 1 b.allot 0 ∧ (s.freeSlots q.core).contains q.slot then
      s.modSquad q.blk q.num fun x => { x with draining := false, resident := true, qt := 4, last := (s.core q.core).n, lp := 0 }
    else s

/-- Squads that may issue again do. -/
def State.endDraining (s : State) : State := (s.squads.map (·.1)).foldl State.endDrain s

/-- What needs no event: REGIONs under way, squads that may issue again, discards that wait for copies, and evicted lines that wait for a place. -/
def State.upkeep (s : State) : State :=
  let s := s.beginWaiting.endDraining
  let s := ((s.blocks.filter fun b => match b.2.status with | .discarding _ _ => true | _ => false).map (·.1)).foldl (fun s b => s.finishDiscard b) s
  (List.range 8).foldl (fun s st => if (s.packetsAt st).length < 1024 then s.sendEvicted st else s) s

/-- A slice move's wait is over: the commands that were before it have gone and its bank is its block's and quiet (09 R244). -/
def State.moveReady (s : State) (t : Thread) (i : Nat) (before : List Nat) : Bool :=
  let dq := (s.thrBlock t).dquad
  let b := s.bank dq i
  before.all (fun a => (s.acc a).isNone) && b.occupant == some t.blk && !(s.quad dq).hung &&
  !(s.commandsOn dq).any fun c => c.2.bank == i && c.1.stage.isExecuting

/-- Threads whose slice moves may go on. -/
def State.wakeMoves (s : State) : State :=
  { s with threads := s.threads.map fun (e : Nat × Thread) =>
      match e.2.wait with
      | .slice i before _ => if e.2.live && s.moveReady e.2 i before then (e.1, { e.2 with wait := .ready, pass := some i }) else e
      | _ => e }

/-- Complete grids retire, children first; a root grid's end is CTX_DONE (02 R36; 16 R362). -/
def State.retireGrids (s : State) : State :=
  (s.grids.filter fun g => s.retirable g.1 g.2).foldl
    (fun s g =>
      let s := s.retireGrid g.1
      if g.2.parent.isNone ∧ !(s.ctx g.2.ctx).halted then s.postPlain 1 g.2.ctx else s) s

/-! ## What may come next -/

/-- What an access may do next. `c` chooses what comes from outside; `own` is this package's id. -/
def Access.nextEvents (a : Access) (own c : Nat) : List Instr :=
  match a.stage with
  | .logged _ => [.operandLogReplay a.id]
  | .acked _ _ => [.storePerform a.id]
  | .bound _ _ => [.loadPerform a.id]
  | .sent =>
    if a.key.isSome then [.hostAccessCompletion a.id (if c % 16 = 0 then c / 16 % 8 else 0)]
    else (if a.package = own then [] else [.space4Ack a.id (c / 16) (if c % 16 = 0 then some (c / 16 % 65536) else none)]) ++ [.linkTimeout a.id]
  | .behindHolds _ => [.cloveLoadRequest a.id]
  | .moving _ _ _ _ => [.copyCompletion a.id (1 + c)]
  | .accepted _ _ => [.mmaStart a.id]
  | .executing _ => [.mmaRetire a.id]
  | .issued =>
    match a.kind with
    | .load => [.loadPerform a.id]
    | .store => [.storePerform a.id]
    | .atomic _ _ => [.atomicPerform a.id]
    | .launch => [.launchAccept a.id]
    | .engine _ => if (cloveRegs a).isSome then [.cloveLoadRequest a.id] else [.copyCompletion a.id 1]
    | .mma _ => [.mmaAccept a.id]
    | .sync (.cjoin _ _) | .sync (.cleave _) => [.cloveTableUpdate a.id]
    | .sync _ => [.barrierUpdate a.id]
  | _ => []

/-- Page events that an access which is due brings with it: its class transition, and the collapse that a write starts. -/
def State.pageEvents (s : State) (a : Access) : List Instr :=
  if a.stage ≠ .issued ∨ a.key.isNone ∨ a.ea.toNat / 2 ^ 60 ≠ 0 ∨ s.waits a then []
  else
    match a.kind with
    | .load => [.pageClassTransition a.ctx a.va (some a.core) false]
    | .store => [.collapse a.ctx a.va]
    | .atomic _ _ => [.collapse a.ctx a.va]
    | _ => []

/-- The peer probe that an access has sent (10 R261). -/
def Access.probeEvents (a : Access) : List Instr := (a.probe.map fun p => Instr.peerProbe p.1 p.2).toList

/-- What the memory hierarchy may do next. -/
def State.memoryEvents (s : State) : List Instr :=
  (s.notices.map fun n => .writeNotice n.src n.dst) ++
  ((List.range 4).flatMap fun a => (List.range 4).filterMap fun b =>
    if a ≠ b ∧ !countLe ((s.die b).clock.getD b 0) ((s.die a).clock.getD b 0) then some (.clockProbe a b) else none) ++
  (s.packets.flatMap fun st => st.2.filterMap fun p =>
    match p with
    | .read t _ _ _ _ => some (.hbmReadPacket st.1 t)
    | .write t _ _ => some (.hbmWritePacket st.1 t)
    | .atomic t _ => some (.hbmAtomicPacket st.1 t)
    | .walk _ _ => none) ++
  (s.walks.map fun w => .pageWalk w.id) ++
  (s.migrations.map fun m => .pageMigration m.ctx m.va) ++
  ((List.range 4).map fun d => .demotion d) ++
  (if s.epochLeft = 0 then [.migrationEpochEnd] else []) ++
  ((s.collapses.filter fun c => !c.failed).flatMap fun c =>
    .collapseTimeout c.ctx c.va :: c.waiting.flatMap fun w => [.collapseAck c.ctx c.va w.1, .collapseResend c.ctx c.va w.1])

/-- What the threads and their blocks may bring next. -/
def State.threadEvents (s : State) : List Instr :=
  (s.threads.flatMap fun e =>
    (match e.2.wait with
      | .sleep 0 _ => [.sleepExpiry e.1]
      | .fetch _ => [.fetchRetry e.1]
      | _ => []) ++ if e.2.held.isSome then [.asyncFaultDelivery e.1] else []) ++
  (s.squads.filterMap fun q =>
    if q.2.resident && (q.2.replay || match (s.block q.2.blk).status with | .discarding _ _ => true | _ => false)
    then some (.squadDiscard q.2.blk q.2.num) else none) ++
  (s.blocks.filterMap fun b => match b.2.status with | .discarding _ _ => some (.discardStuck b.1) | _ => none)

/-- What cores, quads and dies may do next. -/
def State.unitEvents (s : State) : List Instr :=
  (s.cores.flatMap fun c =>
    (if s.held && !s.hold.entering then [] else
      ([0, 1].flatMap fun i =>
        (if c.2.mayArbitrate i && !(s.slotSquads c.1).isEmpty then [.runArbitration c.1 i] else []) ++
        (match c.2.slot i with | some r => if 256 ≤ r.idle then [.stallBreak c.1 i] else [] | none => [])) ++
      [.progressSwap c.1]) ++
    if c.2.sample.isSome then [.pcSample c.1] else []) ++
  (s.quads.flatMap fun q =>
    [.reckonerHang q.1, .reckonerReset q.1] ++ q.2.banks.flatMap fun b => [.bankSwitch q.1 b.1, .bankHandover q.1 b.1]) ++
  ((List.range 4).flatMap fun d =>
    [.blockPlacement d, .ctxSliceExpiry d] ++ (s.die d).holds.map fun h => .cloveTimerExpiry d h.clove h.seq) ++
  (s.credits.map fun c => .engineCredit c.1)

/-- What the control plane may do next. -/
def State.controlEvents (s : State) (c : Nat) : List Instr :=
  (s.ctl.flatMap fun p =>
    (if p.2.waiting.isEmpty then [] else [.eventQueuePost p.1]) ++
    (match p.2.cmd with | some m => [commandEvent p.1 m.code] | none => [])) ++
  (s.ctxs.filterMap fun x => if x.2.status = .halting then some (.coreDumpWrite x.1) else none) ++
  (if s.pending then [.handoverLapse] else []) ++
  (if s.hold.entering then [.holdEntryOverrun s.holdStep, .holdEntered] else []) ++
  (if s.hold.exiting then [.holdExited (if c % 16 = 0 then some (c / 16 % 9) else none)] else []) ++
  (if s.dbg.sink || s.dbg.closing.isSome then [.traceRecordWrite] else [])

/-- Events that come from outside the device. -/
def isExternal (e : Instr) : Bool :=
  match e with
  | .hostRead _ _ | .hostWrite _ _ _ | .hostAtomic _ _ _ _ _ | .hostLinkDown | .hostLinkTrained _ _ | .space4Request _ | .linkDegraded _ _
  | .tdiLeaveRun _ | .ideIntegrityFailure _ | .spdmMessage _ | .firmwareStage _ | .moduleReset | .holdReq _ | .powerExcursion | .scrub _
  | .registerWrite _ _ _ _ | .queueLevelReset _ => true
  | _ => false

/-- An event that `Config.external` gives comes from outside; a request of another package does not carry this package's id. -/
def State.external (s : State) : List Instr :=
  match Config.external s.freeN with
  | some e => if isExternal e && (match e with | .space4Request r => r.src != s.links.packageId | _ => true) then [e] else []
  | none => []

/-- What may come next: an event, whether it is one that has waited, and the issue of some slots in one cycle. -/
inductive Choice where
  | event (e : Instr)
  | waited (e : Instr)
  | issue (slots : List (Nat × Nat))
deriving DecidableEq, Repr

/-- The instruction at which the group of a slot stands, with the group and its block. -/
def State.slotInstr (s : State) (x : Nat × Nat) : Option (Instr × List Nat × Block) :=
  match (s.core x.1).slot x.2 with
  | none => none
  | some r =>
    match s.runGroup r with
    | k :: ks => (s.instrAt k).map fun i => (i, k :: ks, s.block r.blk)
    | [] => none

/-- The highest thread index of a group among the threads whose guard holds. -/
def State.highestOn (s : State) (ks : List Nat) (g : BitVec 3) (n : Bool) : Nat :=
  ks.foldl (fun m k => if (s.thr k).guard g n then max m (s.thr k).tid else m) 0

/-- The place of a slot among those that issue in its cycle: JSET with FORM = 1 first (06 R141), by thread index (03 R59); RKACQ by the most
recent placement of the block, then the number of its rank-0 core (12 Table 12.2); SRSEED last, by thread index (03 R67; 07 R186). -/
def State.issueKey (s : State) (x : Nat × Nat) : List Nat :=
  match s.slotInstr x with
  | some (.jset w, ks, _) => if bit w.b.toNat 0 then [0, s.highestOn ks w.g w.n, 0] else [2, 0, 0]
  | some (.rkacq _, _, b) => [1, b.placedAt, blockCore b 0]
  | some (.srseed w, ks, _) => [3, s.highestOn ks w.g w.n, 0]
  | _ => [2, 0, 0]

/-- A key comes before another or is equal to it. -/
def keyLe : List Nat → List Nat → Bool
  | x :: xs, y :: ys => decide (x < y) || (x == y && keyLe xs ys)
  | _, _ => true

/-- A slot enters an ordered list. -/
def State.insertSlot (s : State) (x : Nat × Nat) : List (Nat × Nat) → List (Nat × Nat)
  | [] => [x]
  | y :: ys => if keyLe (s.issueKey x) (s.issueKey y) then x :: y :: ys else y :: s.insertSlot x ys

/-- Slots in the order in which they issue in one cycle. -/
def State.orderSlots (s : State) (l : List (Nat × Nat)) : List (Nat × Nat) := l.foldr s.insertSlot []

/-- The slots of a quad that hold runs. -/
def State.busySlots (s : State) (dq : Nat) : List (Nat × Nat) :=
  (List.range 4).flatMap fun r => [0, 1].filterMap fun i => if ((s.core (4 * dq + r)).slot i).isSome then some (4 * dq + r, i) else none

/-- What may issue in one cycle, of one quad: one slot, two, or all of them. -/
def State.cycleIssues (s : State) (dq : Nat) : List (List (Nat × Nat)) :=
  let l := s.busySlots dq
  if l.isEmpty then []
  else l.map (fun x => [x]) ++ (l.flatMap fun x => (l.filter (· != x)).map fun y => s.orderSlots [x, y]) ++ [s.orderSlots l, s.orderSlots l.reverse]

/-- Everything that may come next. Each event looks for itself whether it can happen. -/
def State.choices (s : State) (c : Nat) : List Choice :=
  ((s.accs.flatMap fun a => a.nextEvents s.links.packageId c ++ s.pageEvents a ++ a.probeEvents) ++ s.memoryEvents ++ s.threadEvents ++
    s.unitEvents ++ s.controlEvents c ++ s.external).map Choice.event ++
  ((s.bar.take 1).map Choice.waited) ++ (s.remote.map fun r => Choice.waited (.space4Request r)) ++
  (((s.cores.map fun k => coreQuad k.1).eraseDups).flatMap s.cycleIssues).map Choice.issue

/-- The next event or issue is chosen. -/
def State.choose (s : State) : State :=
  let cs := s.choices (Config.choose (s.freeN + 1))
  match cs[Config.choose s.freeN % cs.length]? with
  | none => s.draw.draw
  | some (.event e) => { s.draw.draw with agenda := [e] }
  | some (.waited e) => { s.draw.draw with agenda := [e], turn := true }
  | some (.issue l) => { s.draw.draw with focus := l }

/-- The cycle ends, time passes, and the machine comes to what is next: what the cycle's end has planned, or a choice. `run` executes an
instruction. -/
def State.tick (run : Instr → State → State) (s : State) : State :=
  let n := s.tickCycles
  let s := (((s.endCycle).countSession run n).age n).draw.endStops
  let s := s.upkeep.wakeMoves.retireGrids
  if s.agenda.isEmpty then s.choose else s

/-! ## An event begins -/

/-- The first event of the agenda is taken from it. Arbitration and a step are told which groups are ready; a step first ends the run of the
instruction before (12 R311; 17 R384). `run` executes an instruction. -/
def State.beginEvent (run : Instr → State → State) (e : Instr) (rest : List Instr) (s : State) : State :=
  let s := { s with latch := none, agenda := rest, offers := [] }
  match e with
  | .runArbitration core _ => s.offer run core
  | .dcmdStep quad rank _ _ =>
    let s := if s.dbg.stepN = 0 then s else s.closeStep (4 * quad + rank)
    State.offer run { s with dbg := { s.dbg with stepping := true } } (4 * quad + rank)
  | _ => s

end Sys2Proof.Machine
end

