-- ==== Sys2Proof/Machine/Step.lean ====
section
/-! DEFINITION. One step of the machine: an issue slot executes its next instruction, or the next event happens, or time passes and the
machine comes to what is next (log 1). -/

namespace Sys2Proof.Machine

/-- Executing an instruction as a change of state. -/
def runInstr (i : Instr) (s : State) : State :=
  match exec i s with
  | .next t => t
  | .fault _ => s
  | .refused _ => s

/-- One step. -/
def step (s : State) : Host.Outcome State Fault Refusal :=
  match s.focus with
  | (core, slot) :: rest =>
    match State.fetchRun runInstr { s with focus := rest, latch := none } core slot with
    | (t, some i) => exec i t
    | (t, none) => .next t
  | [] =>
    match s.agenda with
    | e :: rest => exec e (s.beginEvent runInstr e rest)
    | [] => .next (s.tick runInstr)

/-! ## A program placed from outside (log 11) -/

/-- The context of a placed program: context 1, its root table at PA 0x2000. -/
def placedContext : Context :=
  { desc := { id := 1, dieset := 1, cflags := 0, tdi := 0, promote := 0, savepa := 0, savemax := 0, launch := 0, slice := 0, swaplog := 20,
              rklog := 16, shwin := 0 },
    banked := false, root := 0x2000, tables := [0x2000, 0x4000, 0x6000, 0x8000] }

/-- Its grid: one block of one thread, whose program begins at VA 0. -/
def placedGrid : Grid :=
  { launch := 1, ctx := 1, depth := 1, prio := 0, nextBid := 1,
    rc := { entry := 0, gx := 1, gy := 1, gz := 1, bx := 1, byy := 1, bz := 1, regs := 256, scratch := 0, args := 0, done := 0, flags := 0,
            handler := 0, rsv := 0 } }

/-- Its block, on core 0. -/
def placedBlock : Block :=
  { grid := 1, ctx := 1, bid := 0, die := 0, quad := 0, rank0 := 0, ncore := 1, nthreads := 1, nsq := 1, perCore := 1, allot := 256,
    scratch := 0, prio := 0 }

/-- Its thread, which stands at word 1 of the first bundle. -/
def placedThread : Thread := { blk := 1, sq := 0, lane := 0, tid := 0, pc := 4 }

/-- The entry that names a table (13 Table 13.2). -/
def tableEntry (pa : Nat) : Nat := pa + 1

/-- Memory with the four tables that map VA 0 to the frame at PA 0x10000, readable, writable and executable, and with a bundle of three
words after its control word there. -/
def placedMem (m : Memory) (w : Nat) : Memory :=
  writeBytes (writeBytes (writeBytes (writeBytes (writeBytes m 0x2000 8 (tableEntry 0x4000)) 0x4000 8 (tableEntry 0x6000)) 0x6000 8
    (tableEntry 0x8000)) 0x8000 8 (2 ^ 32 + 31)) 0x10000 64 (w % 2 ^ 96 * 2 ^ 32)

/-- The state with an instruction where the next step fetches it: context 1 with a grid of one thread on core 0 of the device, which holds
a run in issue slot 0. The instruction stands at word 1 of its bundle; the bundle's other words are zero. -/
def State.withFetchWord (s : State) (_nbits w : Nat) : State :=
  { s with
    agenda := [], focus := [(0, 0)], unsettled := [], nextId := max s.nextId 2
    mem := placedMem s.mem w
    ctxs := tset s.ctxs 1 placedContext
    grids := tset s.grids 1 placedGrid
    blocks := tset s.blocks 1 placedBlock
    squads := tset s.squads 64 { blk := 1, num := 0, core := 0, slot := 0 }
    threads := tset s.threads 2048 placedThread
    cores := tset s.cores 0 { s.core 0 with slot0 := some { blk := 1, sq := 0, lanes := 1 } }
    quads := tset s.quads 0 { s.quad 0 with frozen := false, cause := 0 }
    dies := tset s.dies 0 { s.die 0 with active := some 1 } }

end Sys2Proof.Machine
end

