-- ==== Sys2Proof/Safety.lean ====
section
/-! DEFINITION. The terms in which claims about steps are stated: what counts as a safe run, an issue group that stands at an instruction,
and what an instruction may change. -/

namespace Sys2Proof.Machine

/-! ## Safe runs -/

/-- Memory is in canonical form, so that equal contents are equal lists. -/
def State.memOk (s : State) : Prop := Memory.wf s.mem = true

/-- No context has halted (18 R411). -/
def State.noHalt (s : State) : Prop := ∀ c ∈ s.ctxs, c.2.halted = false

/-! ## An issue group at its instruction (02 R37) -/

/-- The key of the thread in lane `x` of an issue group. -/
def Latch.key (l : Latch) (x : Nat) : Nat := threadKey l.blk (32 * l.sq + x)

/-- Lane `x` of an issue group, with the state before the instruction. -/
def State.laneAt (s : State) (l : Latch) (x : Nat) : Lane := { s := s, k := l.key x, t := s.thr (l.key x), latch := l }

/-- The issue group `l` stands at its instruction and issues it: it has at least one lane, and each of its lanes is a thread of its squad. -/
abbrev State.issues (s : State) (l : Latch) : Prop :=
  s.latch = some l ∧ l.trial = false ∧ l.lanesOf ≠ [] ∧
  ∀ x ∈ l.lanesOf, (tget s.threads (l.key x)).isSome = true ∧ (s.thr (l.key x)).blk = l.blk ∧ (s.thr (l.key x)).sq = l.sq ∧
    (s.thr (l.key x)).lane = x

/-- No lane of the group waits for the predicate of its guard. -/
abbrev State.guardsKnown (s : State) (l : Latch) (g : BitVec 3) : Prop :=
  ∀ x ∈ l.lanesOf, s.pendingPred (l.key x) g.toNat = false

/-- The operands of lane `x` are inside the register allotment, and none waits for an access (18 R401, 19 R422, 02 R39). -/
abbrev State.operandsFit (s : State) (l : Latch) (x : Nat) (os : List Operand) : Prop :=
  firstBounds os (s.thrBlock (s.thr (l.key x))).allot = none ∧ s.operandsReady (l.key x) os = true

/-! ## Frames -/

/-- Only threads, squads, blocks, cores and accesses differ: memory, contexts, grids, quads, dies, caches, the control plane, the clocks and
the management plane are as before. -/
abbrev State.onlyGroup (s t : State) : Prop :=
  t = { s with threads := t.threads, squads := t.squads, blocks := t.blocks, cores := t.cores, accs := t.accs }

/-- Every byte of memory reads as before. -/
def State.sameMem (s t : State) : Prop := ∀ k : Nat, readByte t.mem k = readByte s.mem k

/-- An access without its destinations and the threads whose read waits for them. -/
def Access.noDests (a : Access) : Access := { a with dests := [], waiters := [] }

/-- The accesses in flight are the same, but for destinations that a younger write has taken from them (20 R438). -/
abbrev State.sameAccs (s t : State) : Prop := t.accs.map Access.noDests = s.accs.map Access.noDests

/-- The S and J registers of every squad are as before. -/
abbrev State.sameSquads (s t : State) : Prop := ∀ b n, (t.squad b n).s = (s.squad b n).s ∧ (t.squad b n).j = (s.squad b n).j

/-- What an instruction of the group `l` leaves alone beside its own lanes' threads and S and J registers: every other thread, every block but
for the mark of a swap (12 R316), every access but for superseded destinations, every other core, and everything else the state holds. -/
abbrev State.groupFrame (s t : State) (l : Latch) : Prop :=
  s.onlyGroup t ∧ t.blocks = tmod s.blocks l.blk (fun b => { b with bySwap := false }) ∧ s.sameAccs t ∧
  (∀ k, (∀ x ∈ l.lanesOf, k ≠ l.key x) → t.thr k = s.thr k) ∧ (∀ c, c ≠ l.core → t.core c = s.core c)

/-- The S and J registers of every squad but the group's own are as before. -/
abbrev State.squadFrame (s t : State) (l : Latch) : Prop :=
  ∀ b n, squadKey b n ≠ squadKey l.blk l.sq → (t.squad b n).s = (s.squad b n).s ∧ (t.squad b n).j = (s.squad b n).j

/-- The group's squad stands in the table of squads. -/
abbrev State.squadListed (s : State) (l : Latch) : Prop := (tget s.squads (squadKey l.blk l.sq)).isSome = true

/-- The outcome is a next state. -/
def isNext (o : Host.Outcome State Fault Refusal) : Prop := ∃ t, o = .next t

/-! ## Element instructions: what each reads and computes (05 R107, R108; 07) -/

/-- An instruction that writes one register of its lane or its squad: guard, whether the destination is of the squad, field D, the operands
with their bounds and readiness, the predicates it reads, the value, and whether it advances $srctr (04 R91). -/
structure RegForm where
  g : BitVec 3
  n : Bool
  sq : Bool
  d : BitVec 9
  ops : Thread → List Operand
  preds : List Nat
  val : Lane → Word
  steps : Lane → Bool

/-- Whether an instruction that rounds is under the stochastic mode in a lane. -/
def stepsCounter (rounds : Bool) (w : AluWord) (L : Lane) : Bool := rounds && (fpModeOf L.t.fpmode w.rnd.toNat).rnd == 5

/-- A word of ALU class, with its source B. -/
def RegForm.ofSource (sh : AluShape) (w : AluWord) (b : Lane → Word) (val : LaneIn → Word) : RegForm :=
  { g := w.g, n := w.n, sq := w.sq, d := w.d, ops := aluOperands sh w, preds := sh.preds, val := fun L => val (aluIn w L (b L)),
    steps := stepsCounter sh.rounds w }
/-- A 64-bit or 96-bit word. -/
def RegForm.ofWord (sh : AluShape) (w : AluWord) (val : LaneIn → Word) : RegForm := RegForm.ofSource sh w (aluB w) val
/-- An A32 word with three registers, under a type (R107). -/
def RegForm.ofRegs (sh : AluShape) (w : A32Word) (ty : Nat) (val : LaneIn → Word) : RegForm := RegForm.ofWord sh (a32Alu w ty) val
/-- An A32 word with imm7 as source B (R108). -/
def RegForm.ofImm (sh : AluShape) (w : A32Word) (ty : Nat) (val : LaneIn → Word) : RegForm :=
  RegForm.ofSource { sh with rb := false } (a32Alu w ty) (fun _ => spreadImm ty w.b) val
/-- A copy of a value to the register of field D. -/
def RegForm.ofCopy (w : AluWord) (sq : Bool) (ops : Thread → List Operand) (val : Lane → Word) : RegForm :=
  { g := w.g, n := w.n, sq := sq, d := w.d, ops := ops, preds := [], val := val, steps := fun _ => false }

/-- The element instructions: the A32 forms of Table 5.4, the instructions of Table 7.1 that write one register from the registers of their
own lane, SUBP, the comparisons in mask form (Table 7.5), MOVS (R171), the reads of special registers (R156), and RKSTAT, which gives the
command ids of the quad that are not in flight (R250). -/
def regForm (i : Instr) : Option RegForm :=
  match i with
  | .movA32 w => some (RegForm.ofRegs shapeA w 7 fun i => i.a)
  | .moviI64A32 w => some (RegForm.ofImm { ra := false } w 6 fun i => i.b)
  | .iaddI32A32 w => some (RegForm.ofRegs shapeAB w 4 (intElements (a32Alu w 4) iaddVal))
  | .iaddI32A32Imm w => some (RegForm.ofImm shapeAB w 4 (intElements (a32Alu w 4) iaddVal))
  | .iaddI64A32 w => some (RegForm.ofRegs shapeAB w 6 (intElements (a32Alu w 6) iaddVal))
  | .iaddI64A32Imm w => some (RegForm.ofImm shapeAB w 6 (intElements (a32Alu w 6) iaddVal))
  | .isubI32A32 w => some (RegForm.ofRegs shapeAB w 4 (intElements (a32Alu w 4) isubVal))
  | .isubI64A32 w => some (RegForm.ofRegs shapeAB w 6 (intElements (a32Alu w 6) isubVal))
  | .imulI32A32 w => some (RegForm.ofRegs shapeAB w 4 (intElements (a32Alu w 4) imulVal))
  | .imulI32A32Imm w => some (RegForm.ofImm shapeAB w 4 (intElements (a32Alu w 4) imulVal))
  | .iminI32A32 w => some (RegForm.ofRegs shapeAB w 4 (intElements (a32Alu w 4) fun a b _ => min a b))
  | .imaxI32A32 w => some (RegForm.ofRegs shapeAB w 4 (intElements (a32Alu w 4) fun a b _ => max a b))
  | .andN64A32 w => some (RegForm.ofRegs shapeAB w 7 fun i => i.a &&& i.b)
  | .andN64A32Imm w => some (RegForm.ofImm shapeAB w 7 fun i => i.a &&& i.b)
  | .orN64A32 w => some (RegForm.ofRegs shapeAB w 7 fun i => i.a ||| i.b)
  | .xorN64A32 w => some (RegForm.ofRegs shapeAB w 7 fun i => i.a ^^^ i.b)
  | .shlN32A32Imm w => some (RegForm.ofImm shapeAB w 5 (bitElements (a32Alu w 5) shiftLeft))
  | .shrN32A32Imm w => some (RegForm.ofImm shapeAB w 5 (bitElements (a32Alu w 5) shiftRight))
  | .shraI32A32Imm w => some (RegForm.ofImm shapeAB w 4 (bitElements (a32Alu w 4) shiftArith))
  | .shlN64A32Imm w => some (RegForm.ofImm shapeAB w 7 (bitElements (a32Alu w 7) shiftLeft))
  | .shrN64A32Imm w => some (RegForm.ofImm shapeAB w 7 (bitElements (a32Alu w 7) shiftRight))
  | .faddF32A32 w => some (RegForm.ofRegs shapeFloatAB w 10 (floatElements (a32Alu w 10) faddVal))
  | .fsubF32A32 w => some (RegForm.ofRegs shapeFloatAB w 10 (floatElements (a32Alu w 10) fsubVal))
  | .fmulF32A32 w => some (RegForm.ofRegs shapeFloatAB w 10 (floatElements (a32Alu w 10) fmulVal))
  | .fminF32A32 w => some (RegForm.ofRegs shapeAB w 10 (minMaxValue (a32Alu w 10) false false))
  | .fmaxF32A32 w => some (RegForm.ofRegs shapeAB w 10 (minMaxValue (a32Alu w 10) true false))
  | .faddBf16A32 w => some (RegForm.ofRegs shapeFloatAB w 9 (floatElements (a32Alu w 9) faddVal))
  | .fmulBf16A32 w => some (RegForm.ofRegs shapeFloatAB w 9 (floatElements (a32Alu w 9) fmulVal))
  | .faddF16A32 w => some (RegForm.ofRegs shapeFloatAB w 8 (floatElements (a32Alu w 8) faddVal))
  | .fmulF16A32 w => some (RegForm.ofRegs shapeFloatAB w 8 (floatElements (a32Alu w 8) fmulVal))
  | .iadd w => some (RegForm.ofWord shapeAB w (intElements w iaddVal))
  | .isub w => some (RegForm.ofWord shapeAB w (intElements w isubVal))
  | .imul w => some (RegForm.ofWord shapeAB w (intElements w imulVal))
  | .iadd3 w => some (RegForm.ofWord shapeABC w (intElements w fun a b c => a + b + c))
  | .imulh w => some (RegForm.ofWord shapeAB w (intElements w fun a b _ => a * b / ((2 ^ formatBits w.ty.toNat : Nat) : Int)))
  | .imad w => some (RegForm.ofWord shapeABC w (intElements w fun a b c => a * b + c))
  | .imadw w => some (RegForm.ofWord shapeABC w (imadwValue w))
  | .idiv w => some (RegForm.ofWord shapeAB w (intElements w fun a b _ => quotient w a b))
  | .irem w => some (RegForm.ofWord shapeAB w (intElements w fun a b _ => remainder a b))
  | .imin w => some (RegForm.ofWord shapeAB w (intElements w fun a b _ => min a b))
  | .imax w => some (RegForm.ofWord shapeAB w (intElements w fun a b _ => max a b))
  | .iclamp w => some (RegForm.ofWord shapeABC w (intElements w fun a b c => min (max a b) c))
  | .isad w => some (RegForm.ofWord shapeABC w (intElements w fun a b c => ((a - b).natAbs : Int) + c))
  | .popc w => some (RegForm.ofWord shapeA w (bitElements w fun n a _ => popCount n a))
  | .clz w => some (RegForm.ofWord shapeA w (bitElements w fun n a _ => leadingZeros n a))
  | .ctz w => some (RegForm.ofWord shapeA w (bitElements w fun n a _ => trailingZeros n a))
  | .and w => some (RegForm.ofWord shapeAB w (fun i => i.a &&& i.b))
  | .or w => some (RegForm.ofWord shapeAB w (fun i => i.a ||| i.b))
  | .xor w => some (RegForm.ofWord shapeAB w (fun i => i.a ^^^ i.b))
  | .not w => some (RegForm.ofWord shapeA w (fun i => ~~~i.a))
  | .andn w => some (RegForm.ofWord shapeAB w (fun i => i.a &&& ~~~i.b))
  | .shl w => some (RegForm.ofWord shapeAB w (bitElements w shiftLeft))
  | .shr w => some (RegForm.ofWord shapeAB w (bitElements w shiftRight))
  | .shra w => some (RegForm.ofWord shapeAB w (bitElements w shiftArith))
  | .rotl w => some (RegForm.ofWord shapeAB w (bitElements w rotateLeft))
  | .bfx w => some (RegForm.ofWord shapeAB w (bfxValue w))
  | .bfi w => some (RegForm.ofWord shapeABC w (bfiValue w))
  | .brev w => some (RegForm.ofWord shapeA w (bitElements w fun n a _ => reverseBits n a))
  | .sel w => some (RegForm.ofWord { preds := [w.c.toNat % 8] } w (selValue w))
  | .mov w => some (RegForm.ofWord shapeA w (fun i => i.a))
  | .movi w => some (RegForm.ofWord { ra := false, rb := false, rd := w.c.getLsbD 0 } w (moviValue w))
  | .lea w => some (RegForm.ofWord shapeAB w (leaValue w))
  | .ptrx w => some (RegForm.ofWord { rb := w.c.toNat % 8 == 2 || w.c.toNat % 8 == 3 } w (ptrxValue w))
  | .fadd w => some (RegForm.ofWord shapeFloatAB w (floatElements w faddVal))
  | .fsub w => some (RegForm.ofWord shapeFloatAB w (floatElements w fsubVal))
  | .fmul w => some (RegForm.ofWord shapeFloatAB w (floatElements w fmulVal))
  | .ffma w => some (RegForm.ofWord { rc := true, rounds := true } w (floatElements w ffmaVal))
  | .fmin w => some (RegForm.ofWord shapeAB w (minMaxValue w false false))
  | .fmax w => some (RegForm.ofWord shapeAB w (minMaxValue w true false))
  | .fminn w => some (RegForm.ofWord shapeAB w (minMaxValue w false true))
  | .fmaxn w => some (RegForm.ofWord shapeAB w (minMaxValue w true true))
  | .fclass w => some (RegForm.ofWord shapeA w (fclassValue w))
  | .frnd w => some (RegForm.ofWord shapeFloatA w (frndValue w))
  | .fdot2 w => some (RegForm.ofWord { rc := true, rounds := true } w (fdot2Value w))
  | .frcp w => some (RegForm.ofWord shapeFloatA w (funcValue .rcp w))
  | .frsq w => some (RegForm.ofWord shapeFloatA w (funcValue .rsq w))
  | .fsqrt w => some (RegForm.ofWord shapeFloatA w (funcValue .sqrt w))
  | .fexp2 w => some (RegForm.ofWord shapeFloatA w (funcValue .exp2 w))
  | .flog2 w => some (RegForm.ofWord shapeFloatA w (funcValue .log2 w))
  | .fsin w => some (RegForm.ofWord shapeFloatA w (funcValue .sin w))
  | .fcos w => some (RegForm.ofWord shapeFloatA w (funcValue .cos w))
  | .ftanh w => some (RegForm.ofWord shapeFloatA w (funcValue .tanh w))
  | .cvt w => some (RegForm.ofWord { rb := false, rd := cvtKeeps (w.b.toNat % 32) (w.c.toNat % 32), rounds := cvtRounds w } w (cvtValue w))
  | .cvti w => some (RegForm.ofWord { rb := false, rd := cvtKeeps ((w.lit.getD 0).toNat % 32) ((w.lit.getD 0).toNat / 32 % 32), rounds := cvtiRounds w } w (cvtiValue w))
  | .pack w => some (RegForm.ofWord { rb := !w.c.getLsbD 0 } w (packValue w))
  | .unpack w => some (RegForm.ofWord shapeA w (unpackValue w))
  | .subp w => some (RegForm.ofWord shapeABC w (subpValue w))
  | .icmp w => if w.c.getLsbD 5 then some (RegForm.ofWord shapeAB w fun i => testMask w.ty.toNat (icmpTest w i)) else none
  | .fcmp w => if w.c.getLsbD 5 then some (RegForm.ofWord shapeAB w fun i => testMask w.ty.toNat (fcmpTest w i)) else none
  | .movs w =>
    let dir := w.c.getLsbD 0
    let a := fun t : Thread => fieldName (!dir) w.ind w.a (t.readX w.xs.toNat)
    some (RegForm.ofCopy w dir
      (fun t => [{ field := 0, name := fieldName dir false w.d 0, rd := false, wr := true }, { field := 1, name := a t }])
      fun L => L.s.readReg L.t (a L.t))
  | .rdsr w => some (RegForm.ofCopy w w.sq (fun _ => [destOperand w]) fun L => L.s.special L.t (w.b.toNat % 256))
  | .rdclk w => some (RegForm.ofCopy w w.sq (fun _ => [destOperand w]) fun L => L.s.clk)
  | .rkstat w =>
    some (RegForm.ofCopy w w.sq (fun _ => [destOperand w]) fun L =>
      let busy := (L.s.commandsOn L.block.dquad).filterMap fun c => if c.1.stage.inFlight then some c.2.id else none
      BitVec.ofNat 64 ((List.range 64).foldl (fun m i => if busy.contains i then m else m + 2 ^ i) 0))
  | _ => none

/-- Table 7.3: the word and the exact value of an integer instruction, from its sub-elements a, b and c; IDIV and IREM as R80 gives them. -/
def exactInt (i : Instr) : Option (AluWord × (Int → Int → Int → Int)) :=
  match i with
  | .iadd w => some (w, fun a b _ => a + b)
  | .isub w => some (w, fun a b _ => a - b)
  | .iadd3 w => some (w, fun a b c => a + b + c)
  | .imul w => some (w, fun a b _ => a * b)
  | .imad w => some (w, fun a b c => a * b + c)
  | .isad w => some (w, fun a b c => (if a ≤ b then b - a else a - b) + c)
  | .imulh w => some (w, fun a b _ => (a * b).fdiv (2 ^ formatBits w.ty.toNat))
  | .idiv w => some (w, fun a b _ => if b = 0 then (if codeSigned w.ty.toNat then -1 else 2 ^ formatBits w.ty.toNat - 1) else a.tdiv b)
  | .irem w => some (w, fun a b _ => if b = 0 then a else a.tmod b)
  | .imin w => some (w, fun a b _ => if a ≤ b then a else b)
  | .imax w => some (w, fun a b _ => if a ≤ b then b else a)
  | .iclamp w => some (w, fun a b c => if c < b then c else if a < b then b else if c < a then c else a)
  | _ => none

/-- An integer of type `ty` in a sub-element: two's complement for a signed type (03 R56, Table 5.10). -/
def typedInt (ty x : Nat) : Int :=
  let n := formatBits ty
  if codeSigned ty ∧ 2 ^ (n - 1) ≤ x then (x : Int) - 2 ^ n else x

/-- A value brought into the range of an integer type: clamped under saturate, else modulo 2^w (R80). -/
def narrowed (ty : Nat) (sat : Bool) (v : Int) : Int :=
  let n := formatBits ty
  let lo : Int := if codeSigned ty then -2 ^ (n - 1) else 0
  let hi : Int := if codeSigned ty then 2 ^ (n - 1) - 1 else 2 ^ n - 1
  if sat then (if v < lo then lo else if hi < v then hi else v) % 2 ^ n else v % 2 ^ n

/-- An encoding of a floating type is a NaN (R82, Table 4.2). -/
def nanCode (ty x : Nat) : Bool := x / 2 ^ fmtM ty % 2 ^ fmtE ty == 2 ^ fmtE ty - 1 && x % 2 ^ fmtM ty != 0

/-- The default NaN of a floating type (Table 4.5). -/
def defaultNanCode (ty : Nat) : Nat := (2 ^ (fmtE ty + 1) - 1) * 2 ^ (fmtM ty - 1)

/-- An instruction whose lane writes one predicate from what it reads: its word, what it reads, the predicate, and the value. -/
structure PredForm where
  word : AluWord
  shape : AluShape
  pred : Nat
  val : LaneIn → Bool

/-- The instructions that write a predicate: the comparisons in predicate form, and PLOP (R169, R170). -/
def predForm (i : Instr) : Option PredForm :=
  match i with
  | .icmp w =>
    if w.c.getLsbD 5 then none
    else some { word := w, shape := shapeAB, pred := w.d.toNat % 8,
                val := fun i => reduceTests (w.c.toNat / 8 % 4) (64 / formatBits w.ty.toNat) (icmpTest w i) }
  | .fcmp w =>
    if w.c.getLsbD 5 then none
    else some { word := w, shape := shapeAB, pred := w.d.toNat % 8,
                val := fun i => reduceTests (w.c.toNat / 8 % 4) (64 / formatBits w.ty.toNat) (fcmpTest w i) }
  | .plop w =>
    some { word := w, shape := { ra := false, rb := false, preds := [w.a.toNat % 8, w.b.toNat % 8] }, pred := w.d.toNat % 8,
           val := fun i => plopBit (w.c.toNat % 16) (i.pred (w.a.toNat % 8)) (i.pred (w.b.toNat % 8)) }
  | _ => none

/-- The operands of lane `x` are in bounds and ready, and no predicate it reads is pending. -/
abbrev State.laneReady (s : State) (l : Latch) (x : Nat) (ops : Thread → List Operand) (preds : List Nat) : Prop :=
  s.operandsFit l x (ops (s.thr (l.key x))) ∧ ∀ p ∈ preds, s.pendingPred (l.key x) p = false

/-- $srctr after the instruction in a lane. -/
def RegForm.counter (f : RegForm) (L : Lane) : BitVec 32 := if f.steps L = true then L.t.srctr + 1 else L.t.srctr

/-- The guard of a lane holds (05 R110). -/
abbrev State.laneOn (s : State) (l : Latch) (x : Nat) (g : BitVec 3) (n : Bool) : Prop := (s.thr (l.key x)).guard g n = true

/-- The highest lane of the group whose guard holds: its write to an S register stands (03 R59). -/
def State.lastOn (s : State) (l : Latch) (g : BitVec 3) (n : Bool) : Option Nat := (l.lanesOf.filter fun x => decide (s.laneOn l x g n)).getLast?

/-- S register `m` of the group's squad, after each executing lane in increasing order has written `v x` to S[d] (03 R59, R60). -/
def State.squadWritten (s : State) (l : Latch) (g : BitVec 3) (n : Bool) (d : Nat) (v : Nat → Word) (m : Nat) : Word :=
  match s.lastOn l g n with
  | some x => if m = d ∧ d < 64 then v x else (s.squad l.blk l.sq).readS m
  | none => (s.squad l.blk l.sq).readS m

/-- The PC after the group's instruction. -/
def Latch.next (l : Latch) : Word := nextPc l.pc l.len

/-! ## Control flow -/

/-- The target of BRX or CALLX in lane `x`. -/
def State.targetAt (s : State) (l : Latch) (x : Nat) (w : AluWord) : Word := s.readReg (s.thr (l.key x)) (targetOperand w).name

/-- The bundle of code at a VA, as the thread of lane `x` fetches it, has these words. -/
abbrev State.codeAt (s : State) (l : Latch) (x : Nat) (va : Nat) (ws : List Nat) : Prop :=
  s.fetchBundle (s.thrBlock (s.thr (l.key x))).ctx va (coreDie (s.thrCore (s.thr (l.key x)))) = .words ws

/-- The target of an indirect transfer is good (06 R135): a space-0 address of a bundle, with the landing pad of the tag when it is checked. -/
abbrev State.goodTarget (s : State) (l : Latch) (x : Nat) (w : AluWord) : Prop :=
  s.operandsFit l x [targetOperand w] ∧ (s.targetAt l x w).toNat < 2 ^ 56 ∧ (s.targetAt l x w).toNat % 64 = 0 ∧
  (w.b.getLsbD 8 = true → ∃ ws, s.codeAt l x (s.targetAt l x w).toNat ws ∧ padTag ws = some (w.b.toNat % 256))

/-- A REGION stands right after the group's instruction, for lane `x` (19 R426): in the same bundle, or first in the next one. -/
abbrev State.regionNext (s : State) (l : Latch) (x : Nat) : Prop :=
  l.eor = false ∧
  match l.follow with
  | some v => isRegionWord v = true
  | none => ∃ ws, s.codeAt l x (bundleOf l.next).toNat ws ∧ isRegionWord (ws.getD 1 0) = true

/-! ## Rejoin masks (06 R140, R141) -/

/-- No thread of a squad waits at a synchronising site. -/
def State.noSites (s : State) (blk sq : Nat) : Bool :=
  (squadThreads (s.block blk) blk sq).all fun k => match (s.thr k).wait with | .site _ _ _ _ => false | _ => true

/-- No thread of a squad is still in a JWAIT whose condition holds. -/
def State.jwaitsSettled (s : State) (blk sq : Nat) : Bool :=
  (List.range 8).all fun m =>
    !s.jwaitHolds blk sq m || (squadThreads (s.block blk) blk sq).all fun k => !(s.thr k).inJwait m

/-- The bits of the lanes of a group whose guard holds. -/
def State.onBits (s : State) (l : Latch) (g : BitVec 3) (n : Bool) : BitVec 32 :=
  (l.lanesOf.filter fun x => decide (s.laneOn l x g n)).foldl (fun b x => b ||| (1#32 <<< x)) 0#32

/-- The thread of key `k` executes the group's instruction as a lane whose guard holds. -/
def State.arrives (s : State) (l : Latch) (g : BitVec 3) (n : Bool) (k : Nat) : Bool :=
  l.lanesOf.any fun x => k == l.key x && decide (s.laneOn l x g n)

/-- The thread of key `k` waits in a JWAIT on mask `m`, where `joins` says whether the group's lanes now wait there too. -/
def State.waitsAt (s : State) (l : Latch) (g : BitVec 3) (n : Bool) (m : Nat) (joins : Bool) (k : Nat) : Bool :=
  (s.thr k).inJwait m || (joins && s.arrives l g n k)

/-- Every lane that `j` names holds a thread waiting in a JWAIT on mask `m`. -/
def State.jwaitMet (s : State) (l : Latch) (g : BitVec 3) (n : Bool) (m : Nat) (joins : Bool) (j : BitVec 32) : Bool :=
  (List.range 32).all fun y =>
    !j.getLsbD y || (squadThreads (s.block l.blk) l.blk l.sq).any fun k => (s.thr k).lane == y && s.waitsAt l g n m joins k

/-- No other squad has waits to be evaluated at the end of this cycle: none has arrived anywhere in it, or another slot is still to issue. -/
def State.aloneInCycle (s : State) (l : Latch) : Prop := s.focus = [] → ∀ e ∈ s.unsettled, e = (l.blk, l.sq)

/-- What an instruction on a rejoin mask does (06 R140, R141): J[m] becomes `j`; with no other group to issue in the cycle, when every lane it
names then waits in a JWAIT on it, every thread waiting there goes on at next(PC) of its own JWAIT; with another group to come, the squad is left for
the end of the cycle; with `joins` the lanes whose guard holds are among those that wait. The group's other lanes move to next(PC). Nothing else
changes. -/
def State.rejoins (s : State) (l : Latch) (i : Instr) (g : BitVec 3) (n : Bool) (m : Nat) (j : BitVec 32) (joins : Bool) : Prop :=
  ∃ t, exec i s = .next t ∧ ({ s with unsettled := t.unsettled } : State).onlyGroup t ∧ s.sameAccs t ∧
    t.unsettled = (if s.focus = [] then [] else s.unsettled ++ [(l.blk, l.sq)]) ∧
    (∀ b q, (t.squad b q).s = (s.squad b q).s) ∧
    (∀ b q r, (t.squad b q).readJ r = if squadKey b q = squadKey l.blk l.sq ∧ r = m then j else (s.squad b q).readJ r) ∧
    ∀ k, let u := s.thr k
      t.thr k =
        if k ∈ squadThreads (s.block l.blk) l.blk l.sq ∧ s.waitsAt l g n m joins k = true then
          if s.focus = [] ∧ s.jwaitMet l g n m joins j = true then
            { u with wait := .ready, pc := nextPc u.pc 2, stepOver := if joins ∧ s.arrives l g n k = true then none else u.stepOver }
          else if joins ∧ s.arrives l g n k = true then { u with wait := .jwait m, stepOver := none } else u
        else if ∃ x ∈ l.lanesOf, k = l.key x then { u with pc := l.next, stepOver := none } else u

/-! ## EXIT (06 R143) -/

/-- The thread goes on from a JWAIT on a mask once the masks of its squad have lost the lanes of `gone`: every lane still named waits there
(06 R141). -/
def State.freedBy (s : State) (blk sq : Nat) (gone : BitVec 32) (k : Nat) : Bool :=
  (List.range 8).any fun m =>
    (s.thr k).inJwait m &&
    (List.range 32).all fun y =>
      !((s.squad blk sq).readJ m &&& ~~~gone).getLsbD y ||
      (squadThreads (s.block blk) blk sq).any fun j => (s.thr j).lane == y && (s.thr j).inJwait m

/-! ## Instructions that issue an access (06 R151; 08 R199 to R213; 09 R218 to R248) -/

/-- An access without its names, without what the lanes of its execution give to and take from each other, and, of a command, without its
acceptance. -/
def Access.plain (a : Access) : Access :=
  { a with id := 0, execId := 0, masked := [], dests := [], waiters := []
           stage := match a.kind with | .mma _ => .issued | _ => a.stage }

/-- The pointer that an access goes through: the spaces its operand takes, what it asks of the page, and the pointer (20 R433). -/
structure Through where
  takes : Accept
  ask : Ask
  p : Word

/-- An instruction whose lanes each issue one access: guard, operands, stream and predecessors, whether a REGION follows (02 R42), whether the
lane stands until the access is performed (BWAIT), what the instruction itself requires of a lane, its pointer, and the access. -/
structure IssueForm where
  g : BitVec 3
  n : Bool
  ops : Thread → List Operand
  strm : BitVec 3
  pred : BitVec 8
  commits : Bool := false
  stands : Bool := false
  may : Lane → Prop := fun _ => True
  through : Lane → Option Through
  acc : Lane → Access

/-- The key of the first byte behind a pointer: a scratchpad byte, or the physical address of a resident page; `some none` names a byte of
another package. -/
def Lane.placed (l : Lane) (g : Through) : Option (Option Nat) :=
  match pointer l.block l.rank g.takes g.p g.ask.size (sizeCode g.ask.size) with
  | .error _ => none
  | .ok (.scratch r off) => some (some (scratchKey l.t.blk r + off))
  | .ok (.remote _ _) => some none
  | .ok (.global va) =>
    match l.s.translate l.block.ctx va (coreDie (l.s.thrCore l.t)) g.ask.need with
    | .ok pa _ _ => some (some pa)
    | _ => none

/-- The access of a lane, with its place. -/
def IssueForm.access (f : IssueForm) (l : Lane) : Access :=
  { f.acc l with key := ((f.through l).bind l.placed).join }

/-- The effective address (08 R199, R204): the base, plus the signed displacement, plus lane times size for a window. -/
def Lane.ea (l : Lane) (w : MemWord) (window : Bool) : Word :=
  l.s.readReg l.t (fieldName (w.sq || window) false w.base 0) + ((w.lit.map fun d => d.signExtend 64).getD 0) +
    (if window then BitVec.ofNat 64 (l.t.lane * 2 ^ w.size.toNat) else 0)

/-- A load (08 R203, R204). -/
def IssueForm.ofLoad (w : MemWord) (window : Bool) : IssueForm :=
  { g := w.g, n := w.n, strm := w.strm, pred := w.pred
    ops := fun t => [{ field := 0, name := memDest w t, count := memRegs w, rd := false, wr := true }, { field := 2, name := memBase w window }]
    through := fun l => some { takes := .any, ask := memAsk w .read 1, p := l.ea w window }
    acc := fun l => { l.access (memAsk w .read 1) (l.ea w window) .load with
                        dests := destsOf (memDest w l.t) (memRegs w), scope := w.scope.toNat, ro := w.ro } }

/-- A store (08 R203, R204): the low bytes of the source registers. -/
def IssueForm.ofStore (w : MemWord) (window : Bool) : IssueForm :=
  { g := w.g, n := w.n, strm := w.strm, pred := w.pred
    ops := fun t => [{ field := 0, name := memDest w t, count := memRegs w }, { field := 2, name := memBase w window }]
    through := fun l => some { takes := .any, ask := memAsk w .write 2, p := l.ea w window }
    acc := fun l => { l.access (memAsk w .write 2) (l.ea w window) .store with
                        data := l.s.readRange l.t (memDest w l.t) (memRegs w) % 2 ^ (8 * memSize w), scope := w.scope.toNat } }

/-- An atomic (08 R206, R207): operation `code`, one that returns the old value commits; ATOMC reads the pair A, A + 1. -/
def IssueForm.ofAtomic (w : MemWord) (code : Nat) (var returns pair : Bool) : IssueForm :=
  { g := w.g, n := w.n, strm := w.strm, pred := w.pred, commits := returns
    ops := fun t => (if returns then [{ field := 0, name := memDest w t, rd := false, wr := true }] else []) ++
      [{ field := 1, name := .v w.a.toNat }, { field := 2, name := memBase w false }] ++
      (if pair then [{ field := 4, name := .v (w.a.toNat + 1) }] else [])
    through := fun l => some { takes := .any, ask := memAsk w .both 3, p := l.ea w false }
    acc := fun l => { l.access (memAsk w .both 3) (l.ea w false) (.atomic { code := code, var := var } returns) with
                        data := (l.t.readV w.a.toNat).toNat % 2 ^ (8 * memSize w)
                        data2 := if pair then (l.t.readV (w.a.toNat + 1)).toNat % 2 ^ (8 * memSize w) else 0
                        scope := w.scope.toNat, dests := if returns then destsOf (memDest w l.t) 1 else [] } }

/-- A synchronisation access (09 R220): it has no pointer. -/
def IssueForm.ofSync (w : AsyncWord) (ops : List Operand) (commits stands : Bool) (may : Lane → Prop) (op : Lane → SyncOp) (ea : Lane → Word)
    (ds : List Dest) : IssueForm :=
  { g := w.g, n := w.n, strm := w.strm, pred := w.pred, commits := commits, stands := stands, ops := fun _ => ops, may := may
    through := fun _ => none
    acc := fun l => { l.access { strm := w.strm.toNat, pred := w.pred.toNat, kind := 0 } (ea l) (.sync (op l)) with dests := ds } }

/-- The handle in a squad-form field names a barrier slot in use, of the block's context and of its generation (09 R222). -/
def Lane.holds (l : Lane) (f : BitVec 9) : Prop := l.s.current l.block.ctx ((l.sq f).truncate 32) = true

/-- No barrier, or one in use (09 R235). -/
def Lane.mayCredit (l : Lane) (h : BitVec 32) : Prop := h = 0 ∨ l.s.current l.block.ctx h = true

/-- An operation of a copy engine (09 R229, R234 to R240): it reads a record of `size` bytes through a pointer in A. -/
def IssueForm.ofRecord (w : AsyncWord) (size : Nat) (commits : Bool) (ops : List Operand) (may : Lane → Prop) (op : Lane → EngineOp)
    (h : Lane → BitVec 32) (list : Lane → List (Nat × Nat) := fun _ => []) : IssueForm :=
  let q : Ask := { strm := w.strm.toNat, pred := w.pred.toNat, size := size, kind := 1 }
  { g := w.g, n := w.n, strm := w.strm, pred := w.pred, commits := commits, ops := fun _ => ops, may := may
    through := fun l => some { takes := .noRemote, ask := q, p := l.v w.a }
    acc := fun l => { l.access q (l.v w.a) (.engine (op l)) with barrier := h l, listAt := list l } }

/-- The places of the pages of an index list of `n` entries, when all of them are resident (13 R333): one pair of VA and PA a page, the first at
the list's first byte. One in a scratchpad has none. -/
def Lane.listPlaced (l : Lane) (p : Word) (n : Nat) : Option (List (Nat × Nat)) :=
  if p.toNat / 2 ^ 60 ≠ 0 then some []
  else (pagesOf (p.toNat % 2 ^ 56) (4 * n)).mapM fun v =>
    match l.s.translate l.block.ctx (v % 2 ^ 56) (coreDie (l.s.thrCore l.t)) .read with
    | .ok pa _ _ => some (v % 2 ^ 56, pa)
    | _ => none

/-- A pointer names scratchpad of the lane's block, over `n` bytes (20 R433). -/
def Lane.inScratch (l : Lane) (p : Word) (n : Nat) : Prop := scratchFault l.block l.rank p n = none

/-- The instructions that issue an access in every executing lane. -/
def issueForm (i : Instr) : Option IssueForm :=
  match i with
  | .ldB32A32 w => some (IssueForm.ofLoad (a32Mem w 2) false)
  | .ldB64A32 w => some (IssueForm.ofLoad (a32Mem w 3) false)
  | .ldB128A32 w => some (IssueForm.ofLoad (a32Mem w 4) false)
  | .stB32A32 w => some (IssueForm.ofStore (a32Mem w 2) false)
  | .stB64A32 w => some (IssueForm.ofStore (a32Mem w 3) false)
  | .stB128A32 w => some (IssueForm.ofStore (a32Mem w 4) false)
  | .ld w => some (IssueForm.ofLoad w false)
  | .st w => some (IssueForm.ofStore w false)
  | .ldw w => some (IssueForm.ofLoad w true)
  | .stw w => some (IssueForm.ofStore w true)
  | .atomAdd w => some (IssueForm.ofAtomic w 0 w.ro true false)
  | .atomSub w => some (IssueForm.ofAtomic w 1 w.ro true false)
  | .atomMin w => some (IssueForm.ofAtomic w 2 w.ro true false)
  | .atomMax w => some (IssueForm.ofAtomic w 3 w.ro true false)
  | .atomAnd w => some (IssueForm.ofAtomic w 4 w.ro true false)
  | .atomOr w => some (IssueForm.ofAtomic w 5 w.ro true false)
  | .atomXor w => some (IssueForm.ofAtomic w 6 w.ro true false)
  | .atomExch w => some (IssueForm.ofAtomic w 7 w.ro true false)
  | .atomFadd w => some (IssueForm.ofAtomic w 8 w.ro true false)
  | .atomc w => some (IssueForm.ofAtomic w 9 false true true)
  | .red w => some (IssueForm.ofAtomic w w.d.toNat w.ro false false)
  | .launch w =>
    let q : Ask := { strm := w.strm.toNat, pred := w.pred.toNat, size := 64 }
    some { g := w.g, n := w.n, strm := w.strm, pred := w.pred, commits := true
           ops := fun _ => [vOperand 0 w.d 1 false true, vOperand 1 w.a]
           may := fun l => l.block.leader = some l.t.tid ∧ (l.s.thrGrid l.t).depth < 10
           through := fun l => some { takes := .globalOnly, ask := q, p := l.v w.a }
           acc := fun l => { l.access q (l.v w.a) .launch with dests := [.v w.d.toNat 0] } }
  | .cjoin w =>
    let reg := w.md.getLsbD 0
    let n := fun l : Lane => if reg then (l.sq w.b).toNat % 512 else w.b.toNat
    some (IssueForm.ofSync w (if reg then [sOperand 1 w.a, sOperand 2 w.b] else []) false false (fun l => 1 ≤ n l ∧ n l ≤ 192)
      (fun l => .cjoin (if reg then (l.sq w.a).toNat % 64 else w.a.toNat % 64) (n l)) (fun _ => 0) [])
  | .cleave w =>
    let reg := w.md.getLsbD 0
    some (IssueForm.ofSync w (if reg then [sOperand 1 w.a] else []) false false (fun _ => True)
      (fun l => .cleave (if reg then (l.sq w.a).toNat % 64 else w.a.toNat % 64)) (fun _ => 0) [])
  | .bexpect w =>
    some (IssueForm.ofSync w [sOperand 1 w.a, sOperand 2 w.b, sOperand 3 w.c] true false (fun l => l.holds w.a)
      (fun l => .expect ((l.sq w.b).toNat % 2 ^ 21) ((l.sq w.c).toNat % 2 ^ 31)) (fun l => (l.sq w.a) &&& 0xFFFFFFFF#64) [])
  | .barrive w =>
    let cnt := w.md.getLsbD 0
    some (IssueForm.ofSync w ([vOperand 0 w.d 1 false true, sOperand 1 w.a, sOperand 2 w.b] ++ if cnt then [sOperand 3 w.c] else []) true false
      (fun l => l.holds w.a) (fun l => .arrive (if cnt then (l.sq w.c).toNat % 2 ^ 21 else 1) ((l.sq w.b).toNat % 2 ^ 31))
      (fun l => (l.sq w.a) &&& 0xFFFFFFFF#64) [.v w.d.toNat 0])
  | .bwait w =>
    some (IssueForm.ofSync w [sOperand 1 w.a, vOperand 2 w.b] false true (fun l => l.holds w.a)
      (fun l => .wait ((l.v w.b).toNat % 65536)) (fun l => (l.sq w.a) &&& 0xFFFFFFFF#64) [])
  | .btest w =>
    some (IssueForm.ofSync w [sOperand 1 w.a, vOperand 2 w.b] false false (fun l => l.holds w.a)
      (fun l => .test ((l.v w.b).toNat % 65536)) (fun l => (l.sq w.a) &&& 0xFFFFFFFF#64)
      (if w.d.toNat % 8 = 7 then [] else [.p (w.d.toNat % 8)]))
  | .bcopy w =>
    let c := fun (l : Lane) (k : Nat) => l.t.readV (w.c.toNat + k)
    let h := fun l : Lane => ((l.sq w.d).truncate 32 : BitVec 32)
    let ops := fun n => [sOperand 0 w.d, vOperand 1 w.a, vOperand 2 w.b, vOperand 3 w.c n]
    let clove := w.md.getLsbD 2
    match copyDir w with
    | .sp =>
      let n := fun l : Lane => (c l 0).toNat % 2 ^ 18
      some { g := w.g, n := w.n, strm := w.strm, pred := w.pred, commits := true, ops := fun _ => ops 1
             may := fun l => 16 ≤ n l ∧ n l ≤ 229376 ∧ n l % 16 = 0 ∧ (l.v w.a).toNat % 16 = 0 ∧ (l.v w.b).toNat % 16 = 0 ∧
               l.mayCredit (h l) ∧ l.inScratch (l.v w.a) (n l) ∧ l.inScratch (l.v w.b) (n l)
             through := fun _ => none
             acc := fun l => { l.access { strm := w.strm.toNat, pred := w.pred.toNat } (l.v w.a)
                                 (.engine (.copy .sp false (l.v w.a) (l.v w.b) (BitVec.ofNat 64 (n l)) 0 0)) with barrier := h l } }
    | dir =>
      some (IssueForm.ofRecord w 128 true (ops 3)
        (fun l => (c l 2).toNat < 2 ^ (if clove then 38 else 32) ∧ l.mayCredit (h l) ∧ l.inScratch (l.v w.b) 0)
        (fun l => .copy dir clove (l.v w.a) (l.v w.b) (c l 0) (c l 1) (c l 2)) h)
  | .bgather w =>
    let n := fun l : Lane => (l.t.readV (w.c.toNat + 1)).toNat % 65536
    let h := fun l : Lane => ((l.sq w.d).truncate 32 : BitVec 32)
    some (IssueForm.ofRecord w 64 true (rowsOperands w)
      (fun l => n l ≠ 0 ∧ l.mayCredit (h l) ∧ l.inScratch (l.v w.b) 0 ∧ spaceFault l.block l.rank (l.v w.c) (4 * n l) = none ∧
        (l.v w.c).toNat % 4 = 0 ∧ (l.listPlaced (l.v w.c) (n l)).isSome = true)
      (fun l => .gather (l.v w.a) (l.v w.b) (l.v w.c) (n l)) h (fun l => (l.listPlaced (l.v w.c) (n l)).getD []))
  | .bscatter w =>
    let n := fun l : Lane => (l.t.readV (w.c.toNat + 1)).toNat % 65536
    let h := fun l : Lane => ((l.sq w.d).truncate 32 : BitVec 32)
    some (IssueForm.ofRecord w 64 true (rowsOperands w)
      (fun l => n l ≠ 0 ∧ l.mayCredit (h l) ∧ l.inScratch (l.v w.b) 0 ∧ spaceFault l.block l.rank (l.v w.c) (4 * n l) = none ∧
        (l.v w.c).toNat % 4 = 0 ∧ (l.listPlaced (l.v w.c) (n l)).isSome = true)
      (fun l => .scatter (l.v w.a) (l.v w.b) (l.v w.c) (n l) (w.md.getLsbD 0)) h (fun l => (l.listPlaced (l.v w.c) (n l)).getD []))
  | .trecld w =>
    let c := fun (l : Lane) (k : Nat) => l.t.readV (w.c.toNat + k)
    some (IssueForm.ofRecord w 128 false [vOperand 1 w.a, vOperand 3 w.c 3] (fun _ => True)
      (fun l => .trecld (l.v w.a) (c l 0) (c l 1) (c l 2)) (fun _ => 0))
  | .mma w =>
    let r := fun l : Lane => l.s.readRange l.t (fieldName true false w.a 0) 8
    some { g := w.g, n := w.n, strm := w.strm, pred := w.pred, commits := true, ops := fun _ => [sOperand 1 w.a 8]
           may := fun l => let c := commandOf l.block (r l)
             rpbBad l.block (r l) = none ∧ tileFaults l.block (r l) c = none ∧ l.block.banks.getLsbD c.bank = true ∧ l.mayCredit c.done
           through := fun _ => none
           acc := fun l => let c := commandOf l.block (r l)
             { l.access { strm := w.strm.toNat, pred := w.pred.toNat, kind := 0 } 0 (.mma c) with barrier := c.done } }
  | _ => none

/-- The executing lanes of a group, in increasing order. -/
def State.onLanes (s : State) (l : Latch) (g : BitVec 3) (n : Bool) : List Nat := l.lanesOf.filter fun x => decide (s.laneOn l x g n)

/-- Lane `x` may issue its access: operands in bounds and ready, no named stream broken or full (11 R299, 20 R439), what the instruction
requires, and a pointer, where it has one, to a byte that is there. -/
abbrev State.mayAccess (s : State) (l : Latch) (x : Nat) (f : IssueForm) : Prop :=
  let L := s.laneAt l x
  s.operandsFit l x (f.ops L.t) ∧ brokenNamed L.t f.strm.toNat f.pred.toNat = 0 ∧ L.t.bead f.strm.toNat < 32 ∧ f.may L ∧
  ∀ g, f.through L = some g → (L.placed g).isSome = true

/-- No watchpoint of a debug session is armed. -/
abbrev State.noWatch (s : State) : Prop := s.session = 0 ∨ s.dbg.dctl.getLsbD 7 = false

/-- The packets at a base die that carry no walk. -/
def State.dataPackets (s : State) (stack : Nat) : List Packet :=
  (s.packetsAt stack).filter fun p => match p with | .walk _ _ => false | _ => true

/-- What issuing accesses leaves alone: memory, contexts, grids, dies, caches, the control plane and the clocks, every thread, S and J register
but the group's own, and the quads but for their translation buffers; the base dies receive walks alone. -/
abbrev State.issueFrame (s t : State) (l : Latch) : Prop :=
  t = { s with threads := t.threads, squads := t.squads, blocks := t.blocks, cores := t.cores, accs := t.accs, quads := t.quads,
               walks := t.walks, packets := t.packets, nextId := t.nextId } ∧
  t.blocks = tmod s.blocks l.blk (fun b => { b with bySwap := false }) ∧ s.sameSquads t ∧
  (∀ k, (∀ x ∈ l.lanesOf, k ≠ l.key x) → t.thr k = s.thr k) ∧ (∀ q, t.quad q = { s.quad q with tlb := (t.quad q).tlb }) ∧
  ∀ st, t.dataPackets st = s.dataPackets st

/-- The S registers that the access of lane `x` names. -/
def IssueForm.sharedBy (f : IssueForm) (s : State) (l : Latch) (x : Nat) : List Nat := sDests (f.acc (s.laneAt l x)).dests

/-- Destinations of lane `x` once the lanes above it have issued: an S register that a higher lane loads is left to that lane (08 R203). -/
def IssueForm.heldDests (f : IssueForm) (s : State) (l : Latch) (x : Nat) : List Dest :=
  (f.acc (s.laneAt l x)).dests.filter fun d =>
    !(s.onLanes l f.g f.n).any fun y => decide (x < y) && d.isS (f.sharedBy s l y)

/-- The threads `ks` are of lower lanes of the execution, and among them every lane that names an S register of lane `x` (08 R203). Accesses
in flight that bear the execution's own name, of which a run has none, count with it. -/
abbrev IssueForm.waitersOf (f : IssueForm) (s : State) (l : Latch) (x : Nat) (ks : List Nat) : Prop :=
  (∀ k ∈ ks, (∃ y ∈ s.onLanes l f.g f.n, y < x ∧ k = l.key y) ∨ ∃ b ∈ s.accs, b.execId = s.nextId ∧ (k = b.thr ∨ k ∈ b.waiters)) ∧
  ∀ y ∈ s.onLanes l f.g f.n, y < x → (∃ r ∈ f.sharedBy s l y, r ∈ f.sharedBy s l x) → l.key y ∈ ks

/-- The acceptance of a command at its issue (09 R248; 21 R461): of a group with one executing lane, when no command of its id is on the quad, also
while a reset is under way, with the predecessors in flight bound. -/
abbrev IssueForm.acceptedAs (f : IssueForm) (s : State) (l : Latch) (x : Nat) (st : Stage) : Prop :=
  ∀ c, (f.acc (s.laneAt l x)).kind = .mma c → s.onLanes l f.g f.n = [x] →
    let dq := coreQuad (s.thrCore (s.thr (l.key x)))
    (∀ e ∈ s.commandsOn dq, e.2.id ≠ c.id) →
    ∃ since, st = .accepted ((s.inFlight dq).filterMap fun e => if e.2.id = c.pre0 ∨ e.2.id = c.pre1 then some e.1.id else none) since

/-- Where an access stands against another: their keys when both are known, else their addresses. -/
def Access.atBeside (a b : Access) : Nat :=
  match a.key, b.key with
  | some i, some _ => i
  | _, _ => a.ea.toNat

/-- Byte `o` of the store of lane `x` is written by a higher lane of the same execution (08 R205). -/
def IssueForm.maskedByte (f : IssueForm) (s : State) (l : Latch) (x o : Nat) : Prop :=
  let a := f.access (s.laneAt l x)
  ∃ y ∈ s.onLanes l f.g f.n, x < y ∧
    let b := f.access (s.laneAt l y)
    a.kind = .store ∧ o < a.size ∧ b.atBeside a ≤ a.atBeside b + o ∧ a.atBeside b + o < b.atBeside a + b.size

/-! ## Taking a fault, and the return (18 R405, R408, R411) -/

/-- A fault of the thread can enter its handler: the grid has one, the frame is closed, and the context does not halt. -/
abbrev State.canHandle (s : State) (k : Nat) : Prop :=
  let b := s.thrBlock (s.thr k)
  (s.grid b.grid).rc.handler ≠ 0 ∧ (s.thr k).frame.isOpen = false ∧ (s.ctx b.ctx).halted = false

/-- The thread of key `k`, standing as `u`, after it has taken a synchronous fault at `pc` into its handler (18 R403 to R405). -/
def State.handled (s : State) (k : Nat) (u : Thread) (f : FaultInfo) (pc : Word) : Thread :=
  { u with
    frame := { slot := u.slot, code := f.code, fpc := pc, isOpen := true, addr := f.addr, info := f.info false, ord := u.ordstate,
               strms := s.oldestOf k }
    pc := (s.grid (s.thrBlock u).grid).rc.handler + 4
    wait := .ready, owed := .atHandler, trap := none, commit := none, pass := none, entered := none, stepOver := none }

/-- The shape of a pointer for an access of `size` bytes (20 R433, R434, in the order of R476): the space, its unused bits, the block's scratchpad
and its quad ranks, and the alignment. -/
def shapeFault (b : Block) (rank : Nat) (p : Word) (size : Nat) : Option FaultInfo :=
  let x := p.toNat
  let space := x / 2 ^ 60
  let near := space = 1 ∨ space = 2
  let off := x % 2 ^ (if space = 0 then 56 else if space = 4 then 46 else 18)
  let unused := if space = 0 ∨ space = 4 then x / 2 ^ 56 % 2 ^ 4 else if space = 1 then x / 2 ^ 18 % 2 ^ 42 else x / 2 ^ 18 % 2 ^ 40
  let r := if space = 1 then rank else x / 2 ^ 58 % 4
  let no (reason : Nat) : Option FaultInfo := some { code := 0x0301, addr := p, detail := reason }
  if space = 15 then no 0
  else if space = 3 ∨ 4 < space then no 1
  else if unused ≠ 0 then no 2
  else if near ∧ b.scratch < off + size then no 3
  else if near ∧ ¬ (b.rank0 ≤ r ∧ r < b.rank0 + b.ncore) then no 4
  else if 1 < size ∧ off % size ≠ 0 then some { code := 0x0302, addr := p, detail := Nat.log2 size }
  else none

/-- The fault of a load, a store or a RED in one lane (18 R401): a register out of bounds; a broken stream that it names (20 R439); the shape of its
pointer; the permissions of a resident page (20 R435). It carries the access's stream, predecessors, size and kind (18 R403). -/
def memFault (w : MemWord) (window : Bool) (need : Need) (kind : Nat) (os : Thread → List Operand) (l : Lane) : Option FaultInfo :=
  let p := l.ea w window
  let broken := brokenNamed l.t w.strm.toNat w.pred.toNat
  let f :=
    match firstBounds (os l.t) l.block.allot with
    | some f => some f
    | none =>
      if l.s.operandsReady l.k (os l.t) = false then none
      else if broken ≠ 0 then some { code := 0x0501, detail := broken }
      else if 32 ≤ l.t.bead w.strm.toNat then none
      else
        match shapeFault l.block l.rank p (2 ^ w.size.toNat) with
        | some f => some f
        | none =>
          if p.toNat / 2 ^ 60 ≠ 0 then none
          else match l.s.translate l.block.ctx (p.toNat % 2 ^ 56) (coreDie (l.s.thrCore l.t)) need with
            | .prot c d => some { code := c, addr := p, detail := d }
            | _ => none
  f.map fun f => { f with strm := w.strm.toNat, pred := w.pred.toNat, size := w.size.toNat % 7, kind := kind }

/-- The entry of `faultForm` for a load or a store. -/
def loadFault (w : MemWord) (window : Bool) : BitVec 3 × Bool × (Lane → Option FaultInfo) :=
  (w.g, w.n, memFault w window .read 1 (IssueForm.ofLoad w window).ops)
def storeFault (w : MemWord) (window : Bool) : BitVec 3 × Bool × (Lane → Option FaultInfo) :=
  (w.g, w.n, memFault w window .write 2 (IssueForm.ofStore w window).ops)

/-- Instructions that fault before any effect: the guard, and the fault that a lane raises from its own registers: REG_BOUNDS (19 R422),
RET at call depth 0 (19 R425), TRET outside a handler (R408), WRSR with a reserved value (19 R420), the encoding faults of every lane
(19 R418, R419), and those of a load, a store or a RED (20 R433 to R439). -/
def faultForm (i : Instr) : Option (BitVec 3 × Bool × (Lane → Option FaultInfo)) :=
  match i with
  | .illegalOpcode opc page past => some (7, false, fun l =>
      some { code := 0x0101, addr := l.latch.pc, detail := opc + 256 * page + if past then 1024 else 0 })
  | .reservedField word bit => some (7, false, fun l =>
      some { code := 0x0102, addr := if word = 3 then bundleOf l.latch.pc else l.latch.pc + BitVec.ofNat 64 (4 * word), detail := word + 4 * bit })
  | .ret w => some (w.g, w.n, fun l => if l.t.cdepth = 0 then some { code := 0x0202 } else none)
  | .tret w => some (w.g, w.n, fun l => if l.t.frame.isOpen then none else some { code := 0x0002 })
  | .wrsr w => some (w.g, w.n, fun l =>
      let o : Operand := { field := 1, name := fieldName w.sq false w.a 0 }
      let x := (l.s.readReg l.t o.name).toNat % 2 ^ 32
      if (firstBounds [o] l.block.allot).isSome then firstBounds [o] l.block.allot
      else if l.s.operandsReady l.k [o] = true ∧ (x % 8 = 0 ∨ x % 8 = 7) then some { code := 0x0102, detail := 3 }
      else none)
  | .ld w => some (loadFault w false)
  | .ldw w => some (loadFault w true)
  | .st w => some (storeFault w false)
  | .stw w => some (storeFault w true)
  | .ldB32A32 w => some (loadFault (a32Mem w 2) false)
  | .ldB64A32 w => some (loadFault (a32Mem w 3) false)
  | .ldB128A32 w => some (loadFault (a32Mem w 4) false)
  | .stB32A32 w => some (storeFault (a32Mem w 2) false)
  | .stB64A32 w => some (storeFault (a32Mem w 3) false)
  | .stB128A32 w => some (storeFault (a32Mem w 4) false)
  | .red w => some (w.g, w.n, memFault w false .both 2 (IssueForm.ofAtomic w w.d.toNat w.ro false false).ops)
  | i => (regForm i).map fun f => (f.g, f.n, fun l => if f.preds.any fun p => l.s.pendingPred l.k p then none else firstBounds (f.ops l.t) l.block.allot)

/-- A lane with a false guard goes past an instruction of `faultForm`: RET asks it too for the REGION at its link (19 R418). -/
def State.passesOver (s : State) (l : Latch) (i : Instr) (x : Nat) : Prop :=
  match i with
  | .ret _ =>
    let u := s.thr (l.key x)
    u.cdepth ≠ 0 → ∃ ws, s.codeAt l x (u.readLink (u.cdepth - 1)).toNat ws ∧ isRegionWord (ws.getD 1 0) = true
  | _ => True

/-- The record of a fault of a thread (18 Table 18.4). -/
def State.faultRecord (s : State) (k : Nat) (f : FaultInfo) (pc : Word) : FaultRecord :=
  let u := s.thr k
  let b := s.thrBlock u
  { code := f.code, core := s.thrCore u, launch := (s.grid b.grid).launch.toNat, bid := b.bid, tid := u.tid, noThread := false, pc := pc,
    disp := 0, nested := u.frame.isOpen, addr := f.addr, detail := f.detail }

/-- The STOP record of a BRK: it names the thread, its PC and VALUE (17 Table 17.8). -/
def State.brkRecord (s : State) (k : Nat) (pc : Word) (value : Nat) : TraceRecord :=
  let u := s.thr k
  { type := 2, code := 16, core := s.thrCore u, launch := (s.thrGrid u).launch.toNat, tid := u.tid, bid := (s.thrBlock u).bid, a := pc,
    b := BitVec.ofNat 64 value, time := s.time, clk := s.clk }

/-! ## Lane instructions (08 R187 to R197; 06 R150) -/

/-- A lane instruction with a site: its word, the field of its member mask, the operands, and the predicates it reads. -/
def siteForm (i : Instr) : Option (AluWord × BitVec 9 × (Thread → List Operand) × List Nat) :=
  match i with
  | .shfl w => some (w, w.c, exchangeOperands w, [])
  | .shflx w => some (w, w.c, exchangeOperands w, [])
  | .vote w => some (w, w.c, voteOperands w, [w.a.toNat % 8])
  | .lred w => some (w, w.c, reduceOperands w, [])
  | .lscan w => some (w, w.c, reduceOperands w, [])
  | .matchLanes w => some (w, w.c, reduceOperands w, [])
  | .elect w => some (w, w.a, fun _ => [], [])
  | _ => none

/-- Lane `x` of the group at its site: its members are the lanes of its mask and itself (08 R187). -/
def State.siteOf (s : State) (l : Latch) (i : Instr) (w : AluWord) (mask : BitVec 9) (x : Nat) : AtSite :=
  let u := s.thr (l.key x)
  let m := ((s.readReg u (fieldName true false mask 0)).truncate 32 : BitVec 32) ||| (1#32 <<< x)
  { k := l.key x, t := { u with wait := .site l.pc m (u.guard w.g w.n) i, stepOver := none }, pc := l.pc, members := m.toNat, guard := u.guard w.g w.n, i := i }

/-- The lanes of the group that contribute: those whose guard holds (08 R189). -/
def State.contributors (s : State) (l : Latch) (i : Instr) (w : AluWord) (mask : BitVec 9) : List AtSite :=
  (l.lanesOf.map (s.siteOf l i w mask)).filter (·.guard)

/-- The vote of lane `y` for a member of a VOTE: the predicate, negated or not, of a contributor of that lane, and false of any other (08 R195). -/
def voteOf (con : List AtSite) (w : AluWord) (y : Nat) : Prop := ∃ a ∈ con, a.t.lane = y ∧ a.t.readP (w.a.toNat % 8) ≠ w.a.getLsbD 3

/-- Element `k` of LRED and LSCAN: the sub-element of a contributing member, zero of another member, none of a lane that is no member (08 R197). -/
def State.elementAt (s : State) (con : List AtSite) (me : AtSite) (w : AluWord) (k : Nat) : Option Nat :=
  let ty := w.ty.toNat
  let n := formatBits ty
  let lane := k / (64 / n)
  if me.members.testBit lane then
    match con.find? fun a => a.t.lane == lane with
    | some a => some (if 8 ≤ ty then flushIn (laneMode me.t w) ty (elem (s.siteA w a) n (k % (64 / n))) else elem (s.siteA w a) n (k % (64 / n)))
    | none => some 0
  else none

/-- The reduction of R97 over 2^`r` elements from element `i`: the two halves, combined where both have an element. -/
def reducedFrom (c : Nat → Nat → Nat) (e : Nat → Option Nat) : Nat → Nat → Option Nat
  | 0, i => e i
  | r + 1, i =>
    match reducedFrom c e r i, reducedFrom c e r (i + 2 ^ r) with
    | some x, some y => some (c x y)
    | some x, none => some x
    | none, y => y

/-- A thread after what its lane writes at the release. -/
def Thread.afterSite (u : Thread) (w : Option SiteWrite) : Thread :=
  match w with
  | some (.reg (.v n) x) => u.writeV n x
  | some (.pred n b) => u.writeP n b
  | _ => u

/-- The leader after an ELECT: the highest lane that wins among its own members (06 R150). -/
def State.elected (s : State) (l : Latch) (i : Instr) (w : AluWord) (mask : BitVec 9) : Option Nat :=
  match i with
  | .elect _ =>
    let con := s.contributors l i w mask
    ((con.filter fun a => electWins con a).getLast?.map (·.t.tid)).orElse fun _ => (s.block l.blk).leader
  | _ => (s.block l.blk).leader

/-! ## Banks (09 R242 to R244) -/

/-- Lane `x` may move a slice: its registers are in bounds and ready, its block owns the bank and occupies it, no command of the block on it
is accepted, the slice is inside the bank, and a bank that is read is whole. -/
abbrev State.mayMove (s : State) (l : Latch) (x : Nat) (w : AluWord) (row reads : Bool) : Prop :=
  let L := s.laneAt l x
  let b := s.bank L.block.dquad (w.b.toNat % 16)
  let idx := (s.readReg L.t (aluNameA w L.t)).toNat
  s.operandsFit l x (sliceOperands w reads L) ∧ L.block.banks.getLsbD (w.b.toNat % 16) = true ∧ b.occupant = some l.blk ∧
  s.acceptedOn L.block.dquad (w.b.toNat % 16) l.blk = [] ∧ (reads = true → b.poisoned = false) ∧
  (if row then idx / 65536 % 128 else idx % 128) + 2 * (w.c.toNat % 8 + 1) ≤ 128

/-- The key of element `j` of the slice of lane `x`. -/
def State.sliceAt (s : State) (l : Latch) (x : Nat) (w : AluWord) (row : Bool) (j : Nat) : Nat :=
  let u := s.thr (l.key x)
  let idx := (s.readReg u (aluNameA w u)).toNat
  if row then 128 * (idx % 128) + (idx / 65536 % 128 + j) else 128 * (idx % 128 + j) + idx / 65536 % 128

/-- The low or high half of the register that gives element `j` of a slice. -/
def Thread.sliceHalf (u : Thread) (w : AluWord) (j : Nat) : BitVec 32 :=
  BitVec.ofNat 32 ((u.readV (w.d.toNat + j / 2)).toNat / 2 ^ (32 * (j % 2)))

/-! ## Performing accesses (11 R279 to R293; 08 R200 to R210) -/

/-- The thread of an access stands in the table of threads, and its squad in the table of squads. -/
abbrev State.hasIssuer (s : State) (a : Access) : Prop :=
  (tget s.threads a.thr).isSome = true ∧ (tget s.squads (squadKey a.blk (s.thr a.thr).sq)).isSome = true

/-- An access stands at its place, and nothing that it is ordered after is left (11 R281). -/
abbrev State.dueNow (s : State) (a : Access) : Prop := s.due a.id = some a ∧ s.hasIssuer a

/-- The access makes no transition of its page's class (10 R258, R259). -/
abbrev State.keepsClass (s : State) (a : Access) (core : Nat) (wr : Bool) : Prop := s.classify a.ctx a.va (some core) wr = s

/-- A thread after a value has been returned to the V registers and predicates of an access, and its bead has fallen. -/
def Access.returnTo (a : Access) (u : Thread) (v : Nat) : Thread :=
  let u := a.dests.foldl (fun u d => match d with
    | .v n k => u.writeV n (BitVec.ofNat 64 (v / 2 ^ (64 * k)))
    | .p n => u.writeP n (v % 2 = 1)
    | _ => u) u
  if a.counted then u.setBead a.strm (u.bead a.strm - 1) else u

/-- The S registers of a squad after a value has been returned to those of an access. -/
def Access.returnToSquad (a : Access) (q : Squad) (v : Nat) : Squad :=
  a.dests.foldl (fun q d => match d with | .s n k => q.writeS n (BitVec.ofNat 64 (v / 2 ^ (64 * k))) | _ => q) q

/-- An access without what accesses of other lanes of its execution have left with it (08 R203, R205). -/
def Access.own (a : Access) : Access := { a with lent := none, shadow := [] }

/-- The access has been performed and has returned `v`: its registers and its bead are written and it is no longer in flight; every other
thread, squad and access is as before. -/
def State.hasReturned (s t : State) (a : Access) (v : Nat) : Prop :=
  t.accs.map Access.own = (s.accs.filter (fun x => x.id != a.id)).map Access.own ∧
  (∀ k, t.thr k = if k = a.thr then a.returnTo (s.thr k) v else s.thr k) ∧
  (∀ b n, (t.squad b n).s = if squadKey b n = squadKey a.blk (s.thr a.thr).sq then (a.returnToSquad (s.squad b n) v).s else (s.squad b n).s) ∧
  ∀ b n, (t.squad b n).j = (s.squad b n).j

/-- Memory after a store: the bytes of its data, but for those a higher lane of its execution writes (08 R205); every other byte as before. -/
def State.hasStored (s t : State) (a : Access) (key : Nat) : Prop :=
  ∀ k, readByte t.mem k =
    if key ≤ k ∧ k < key + a.size ∧ (k - key) ∉ a.masked then BitVec.ofNat 8 (a.data / 2 ^ (8 * (k - key))) else readByte s.mem k

/-- Memory after `n` bytes at a key have become a value, or none when there is no value. -/
def State.hasBytes (s t : State) (key n : Nat) (v : Option Nat) : Prop :=
  ∀ k, readByte t.mem k =
    match v with
    | some x => if key ≤ k ∧ k < key + n then BitVec.ofNat 8 (x / 2 ^ (8 * (k - key))) else readByte s.mem k
    | none => readByte s.mem k

/-- Nothing is on its way between dies that a message could overtake: no write notice, and no acknowledgement (11 R297). -/
abbrev State.quiet (s : State) : Prop := s.notices = [] ∧ s.acks = [] ∧ ∀ x ∈ s.accs, ∀ home stamp, x.stage ≠ .acked home stamp

/-- A line that is recalled comes back from cores of one die alone (10 R260). -/
abbrev State.recallsOn (s : State) (line die : Nat) : Prop :=
  ∀ x ∈ s.lines, x.line = line → x.excl = true → ∀ c, x.level = .l1 c → coreDie c = die

/-- The value of an access has been written to its registers; it stays in flight. -/
def State.hasGiven (s t : State) (a : Access) (v : Nat) : Prop :=
  (∀ k, t.thr k = if k = a.thr then ({ a with counted := false } : Access).returnTo (s.thr k) v else s.thr k) ∧
  (∀ b n, (t.squad b n).s = if squadKey b n = squadKey a.blk (s.thr a.thr).sq then (a.returnToSquad (s.squad b n) v).s else (s.squad b n).s) ∧
  ∀ b n, (t.squad b n).j = (s.squad b n).j

/-- A part of a load has been performed (08 R200, 11 R292): the last one returns the bytes of all, another is kept with those before it. -/
def State.hasLoadedPart (s t : State) (a : Access) (key : Nat) : Prop :=
  t.mem = s.mem ∧ ∃ i ∈ a.partsLeft,
    let value := a.data + s.readMem (key + 8 * i) a.partSize * 2 ^ (64 * i)
    (a.partsLeft = [i] → s.hasReturned t a (value % 2 ^ (8 * a.size))) ∧
    (a.partsLeft ≠ [i] → t.threads = s.threads ∧ s.sameSquads t ∧
      t.accs = s.accs.map fun x => if x.id = a.id then { x with got := x.got ++ [i], data := value } else x)

/-- A part of a store has been performed: its bytes, but for those a higher lane of its execution writes (08 R205), stand in memory, every other
byte is as before, and after the last part `ends` holds. -/
def State.hasStoredPart (s t : State) (a : Access) (key : Nat) (ends : Prop) : Prop :=
  ∃ i ∈ a.partsLeft,
    (∀ k, readByte t.mem k =
      if key + 8 * i ≤ k ∧ k < key + 8 * i + a.partSize ∧ (k - key) ∉ a.masked then BitVec.ofNat 8 (a.data / 2 ^ (8 * (k - key)))
      else readByte s.mem k) ∧
    (a.partsLeft = [i] → ends) ∧
    (a.partsLeft ≠ [i] → t.threads = s.threads ∧
      t.accs.map Access.own = s.accs.map fun x => if x.id = a.id then ({ x with got := x.got ++ [i] } : Access).own else x.own)

/-- A part of a store has been performed at a home slice of another die (11 R279, R297): its bytes stand in memory, and its acknowledgement is on
its way with the home's clock; the store waits for that of its last part. A part with no byte to write has none. -/
def State.hasSentPart (s t : State) (a : Access) (key home : Nat) : Prop :=
  ∃ i ∈ a.partsLeft,
    (∀ k, readByte t.mem k =
      if key + 8 * i ≤ k ∧ k < key + 8 * i + a.partSize ∧ (k - key) ∉ a.masked then BitVec.ofNat 8 (a.data / 2 ^ (8 * (k - key)))
      else readByte s.mem k) ∧
    (a.partRuns i ≠ [] → t.threads = s.threads ∧
      if a.partsLeft = [i] then
        t.acks = s.acks ∧
        t.accs.map Access.own =
          s.accs.map fun x => if x.id = a.id then ({ x with stage := .acked home (t.die home).clock } : Access).own else x.own
      else
        t.acks = s.acks ++ [{ acc := a.id, part := i, home := home, dst := coreDie a.core, stamp := (t.die home).clock, puts := a.partPuts i }] ∧
        t.accs.map Access.own = s.accs.map fun x => if x.id = a.id then ({ x with got := x.got ++ [i] } : Access).own else x.own)

/-- The access failed: it is no longer in flight to its place, and its thread holds the fault (18 R410, 20 R438). -/
def State.hasFailed (s t : State) (a : Access) (code detail : Nat) : Prop :=
  (∀ x ∈ t.accs, x.id = a.id → x.stage = .cancelled) ∧ t.mem = s.mem ∧
  ∃ f : FaultInfo, (t.thr a.thr).held = some (f, a.pc) ∧ f.code = code ∧ f.addr = a.ea ∧ f.detail = detail

/-- The issuing thread can take a failure of the access: it is live, of the access's block, holds no fault, and its context does not halt. -/
abbrev State.canTell (s : State) (a : Access) : Prop :=
  (tget s.threads a.thr).isSome = true ∧ (s.thr a.thr).live = true ∧ (s.thr a.thr).blk = a.blk ∧ (s.thr a.thr).held = none ∧
  (s.ctx a.ctx).halted = false

/-! ## Barrier units, cloves, engines and banks (09 R222 to R249; 10 R262 to R274; 12 R322 to R324) -/

/-- A slot after an update: a phase ends when no arrival and no byte is expected any more (09 R222). -/
def BarrierSlot.moved (b : BarrierSlot) (arr bytes : Int) : BarrierSlot :=
  if b.arr + arr = 0 ∧ b.bytes + bytes = 0 then { b with phase := (b.phase + 1) % 65536, arr := b.init, bytes := 0 }
  else { b with arr := b.arr + arr, bytes := b.bytes + bytes }

/-- An update stays in the ranges of ARR and BYTES (20 R443). -/
abbrev BarrierSlot.fits (b : BarrierSlot) (arr bytes : Int) : Prop :=
  0 ≤ b.arr + arr ∧ b.arr + arr < 2 ^ 31 ∧ -(2 ^ 31) ≤ b.bytes + bytes ∧ b.bytes + bytes < 2 ^ 31

/-- Phase `p` of a slot has completed (09 R222): the current phase is 1 to 32,768 ahead of it, modulo 65,536. -/
abbrev BarrierSlot.past (b : BarrierSlot) (p : Nat) : Prop :=
  1 ≤ (b.phase + 65536 - p % 65536) % 65536 ∧ (b.phase + 65536 - p % 65536) % 65536 ≤ 32768

/-- The other slots of every pool are as before. -/
abbrev State.otherSlots (s t : State) (h : Handle) : Prop :=
  ∀ q i, ¬ (q = h.dquad ∧ i = h.slot) → (t.quad q).barrier i = (s.quad q).barrier i

/-- The element of an accumulator bank after a command without TOPK (04 R98 to R101; 09 R248): row `i`, column `j`. -/
def State.mmaElement (s : State) (a : Access) (c : Command) (i j : Nat) : BitVec 32 :=
  let old := if c.mode.testBit 3 then 0 else (sget 0 (s.bank (coreQuad a.core) c.bank).data (128 * i + j)).toNat
  let w := max (formatBits (tileOf c.ah).fmt) (formatBits (tileOf c.bh).fmt)
  BitVec.ofNat 32 (accumulate (fun k => mmaTerm (c.mode % 4 == 1) (s.aAt a.blk c i k) (s.bAt a.blk c k j)) c.k (chunkSize w) old)

/-! ## Pages, contexts and the control plane (10 R258, R259; 16 R359 to R371; 18 R411) -/

/-- CLASS and TAG of a 64 KiB page after an access (10 R258, R259): `written` says that a write has reached the page since it was claimed, `who`
names the core of an access on a core's own L1 path. -/
def classAfter (e : Nat) (written : Bool) (who : Option Nat) (wr : Bool) : Nat × Nat :=
  match pteClass e, who with
  | 0, some c => (1, c)
  | 0, none => (if wr then 3 else 2, 0)
  | 1, _ => if who = some (pteTag e) then (1, pteTag e) else (if wr ∨ written = true then 3 else 2, 0)
  | 2, _ => (if wr then 3 else 2, 0)
  | c, _ => (c, 0)

/-- A page of the tier whose counts promote it (10 R270): hint AUTO or AUTO-DUP and PROMOTE accesses in the epoch, or hint HBM and one access. -/
abbrev State.promotes (s : State) (ctx va e : Nat) : Prop :=
  let n := (s.pageInfo (pteFrame e * 65536)).counts.foldl (· + ·) 0
  inTier (pteFrame e * 65536) = true ∧ s.movable ctx va e = true ∧
  ((pteTier e = 0 ∨ pteTier e = 3) ∧ (s.ctx ctx).promote ≤ n ∨ pteTier e = 1 ∧ 1 ≤ n)

/-- A page that is read-duplicated (10 R271): hint AUTO-DUP, read by two dies or more in the epoch, written by none, of a class that dies share. -/
abbrev State.duplicates (s : State) (ctx va e : Nat) : Prop :=
  let i := s.pageInfo (pteFrame e * 65536)
  pteTier e = 3 ∧ 2 ≤ i.readers.length ∧ i.wrote = false ∧ 2 ≤ pteClass e ∧ s.movable ctx va e = true

/-- The tag under which the next duplicated page is named. -/
def State.freeTag (s : State) : Option Nat := (List.range 8192).find? fun n => (tget s.dupMap n).isNone

/-- The lowest of the dies that read a page of HBM and are not its home. -/
abbrev State.lowestReader (s : State) (e d : Nat) : Prop :=
  let ds := (s.pageInfo (pteFrame e * 65536)).readers.filter fun d => homeDie (pteFrame e * 65536) != some d
  d ∈ ds ∧ ∀ x ∈ ds, d ≤ x

/-- A context exists and is active. -/
abbrev State.active (s : State) (c : Nat) : Prop := (tget s.ctxs c).isSome = true ∧ (s.ctx c).status = .active

/-- The context halts, with a primary record of this code (18 R411). -/
def State.hasHalted (t : State) (c code : Nat) : Prop := (t.ctx c).status = .halting ∧ ∃ r, (t.ctx c).primary = some r ∧ r.code = code

/-- Where a die would place the next block of a grid: the first quad, in order, that can take it, with its best set (12 R309). -/
def State.placeAt (s : State) (die g : Nat) : Option (Nat × Nat) :=
  (quadOrder die (s.die die).q0).findSome? fun q =>
    if (s.quad q).frozen then none else (s.bestSet q (demandOf (s.grid g).rc)).map fun r => (q, r)

/-- A page reports a command with a status, and has none outstanding (16 R359). -/
def State.reports (t : State) (page seq status : Nat) : Prop :=
  (t.page page).cmdDone = BitVec.ofNat 64 (seq % 2 ^ 32 + status * 2 ^ 32) ∧ (t.page page).cmd = none

/-- The 32 bytes of an entry of an event queue (16 R359). -/
def eventEntry (e : Event) (seq : Nat) : Nat :=
  e.code % 2 ^ 32 + e.ctx % 2 ^ 32 * 2 ^ 32 + e.arg0.toNat * 2 ^ 64 + e.arg1.toNat * 2 ^ 128 + seq % 2 ^ 64 * 2 ^ 192

/-- A host request that comes when none waits. -/
abbrev State.barIdle (s : State) : Prop := s.turn = false ∧ s.bar = []

end Sys2Proof.Machine
end

