-- ==== Sys2Proof/Certificates/Slice0/Obligations.lean ====
section
/-! DEFINITION. The statements for the provers, from the numbered rules of spec/. -/

open Sys2Proof Sys2Proof.Machine

/-! ## Instructions that write one register or one predicate -/

/-- 05 R110, R113; 07 R160, R162; 04 R91; 06 R156; 09 R250: every instruction of `regForm` whose destination is a thread register, on every issue group
whose lanes with a true guard have their operands in bounds and ready, answers a next state in which each such lane's thread has the
instruction's value in V[D], its PC after the instruction, and $srctr one more when the instruction rounds stochastically; a lane with a
false guard only moves its PC; nothing else changes. -/
def Obligations.RegisterThreadForm : Prop :=
  ∀ (i : Instr) (f : RegForm) (s : State) (l : Latch), regForm i = some f → f.sq = false → s.issues l → s.guardsKnown l f.g →
    (∀ x ∈ l.lanesOf, s.laneOn l x f.g f.n → s.laneReady l x f.ops f.preds) →
    ∃ t, exec i s = .next t ∧ s.groupFrame t l ∧ s.sameSquads t ∧
      ∀ x ∈ l.lanesOf,
        let u := s.thr (l.key x)
        let L := s.laneAt l x
        t.thr (l.key x) =
          if s.laneOn l x f.g f.n then { u.writeV f.d.toNat (f.val L) with pc := l.next, stepOver := none, srctr := f.counter L } else { u with pc := l.next, stepOver := none }

/-- 03 R59, R60; 05 R110, R114: every instruction of `regForm` whose destination is of the squad answers a next state in which S[D] of the
group's squad holds the value of the highest lane whose guard holds, when D names an S register; every other S register and every J register
is as before, and each thread has its PC after the instruction and $srctr one more when the instruction rounds stochastically. A destination
that names a read-only operand writes nothing. -/
def Obligations.RegisterSquadForm : Prop :=
  ∀ (i : Instr) (f : RegForm) (s : State) (l : Latch), regForm i = some f → f.sq = true → s.issues l → s.squadListed l →
    s.guardsKnown l f.g → (∀ x ∈ l.lanesOf, s.laneOn l x f.g f.n → s.laneReady l x f.ops f.preds) →
    ∃ t, exec i s = .next t ∧ s.groupFrame t l ∧ s.squadFrame t l ∧ (t.squad l.blk l.sq).j = (s.squad l.blk l.sq).j ∧
      (∀ m, (t.squad l.blk l.sq).readS m = s.squadWritten l f.g f.n f.d.toNat (fun x => f.val (s.laneAt l x)) m) ∧
      ∀ x ∈ l.lanesOf,
        let u := s.thr (l.key x)
        t.thr (l.key x) =
          if s.laneOn l x f.g f.n then { u with pc := l.next, stepOver := none, srctr := f.counter (s.laneAt l x) } else { u with pc := l.next, stepOver := none }

/-- 03 R57; 05 R110; 07 R169, R170: ICMP and FCMP in predicate form and PLOP answer a next state in which each lane with a true guard has
the value in predicate P[D], a write of P7 leaving it true, and its PC after the instruction; a lane with a false guard only moves its PC;
nothing else changes. -/
def Obligations.PredicateForm : Prop :=
  ∀ (i : Instr) (f : PredForm) (s : State) (l : Latch), predForm i = some f → s.issues l → s.guardsKnown l f.word.g →
    (∀ x ∈ l.lanesOf, s.laneOn l x f.word.g f.word.n → s.laneReady l x (aluOperands { f.shape with wd := false } f.word) f.shape.preds) →
    ∃ t, exec i s = .next t ∧ s.groupFrame t l ∧ s.sameSquads t ∧
      ∀ x ∈ l.lanesOf,
        let u := s.thr (l.key x)
        let L := s.laneAt l x
        t.thr (l.key x) =
          if s.laneOn l x f.word.g f.word.n then { u.writeP f.pred (f.val (aluIn f.word L (aluB f.word L))) with pc := l.next, stepOver := none }
          else { u with pc := l.next, stepOver := none }

/-! ## Values -/

/-- R80, R165 and Table 7.3: each sub-element of an integer instruction of Table 7.3 holds its exact value, clamped to the range of the type
under saturate and reduced modulo 2^w otherwise; a quotient by zero has every bit set, a remainder by zero is the dividend, and division
truncates toward zero. -/
def Obligations.IntegerElementResults : Prop :=
  ∀ (i : Instr) (w : AluWord) (v : Int → Int → Int → Int), exactInt i = some (w, v) → w.ty.toNat < 8 →
    ∃ f, regForm i = some f ∧
      ∀ (L : Lane) (k : Nat),
        let ty := w.ty.toNat
        let n := formatBits ty
        let r := aluIn w L (aluB w L)
        k < 64 / n →
          ((elem (f.val L).toNat n k : Nat) : Int) =
            narrowed ty w.sat (v (typedInt ty (elem r.a.toNat n k)) (typedInt ty (elem r.b.toNat n k)) (typedInt ty (elem r.c.toNat n k)))

/-- R80, R167: shifts and rotates. A shift count is the count sub-element read as unsigned; SHL and SHR by the width or more give 0, SHRA by
the width or more gives every bit equal to the sign bit, and ROTL rotates by the count modulo the width. -/
def Obligations.ShiftResults : Prop :=
  ∀ (w : AluWord) (L : Lane) (k : Nat), w.ty.toNat < 8 →
    let n := formatBits w.ty.toNat
    let r := aluIn w L (aluB w L)
    let a := elem r.a.toNat n k
    let c := elem r.b.toNat n k
    k < 64 / n →
      ∃ fl fr fa ft, regForm (.shl w) = some fl ∧ regForm (.shr w) = some fr ∧ regForm (.shra w) = some fa ∧ regForm (.rotl w) = some ft ∧
        elem (fl.val L).toNat n k = (if c < n then a * 2 ^ c % 2 ^ n else 0) ∧
        elem (fr.val L).toNat n k = (if c < n then a / 2 ^ c else 0) ∧
        (∀ j, j < n → bit (elem (fa.val L).toNat n k) j = bit a (if j + c < n then j + c else n - 1)) ∧
        (∀ j, j < n → bit (elem (ft.val L).toNat n k) ((j + c) % n) = bit a j)

/-- R167, R168: BFX writes the field of each sub-element that its control names, zero- or sign-extended by the type, and BFI puts the low bits of B into
the field that C names; a field does not reach beyond its sub-element. POPC, CLZ and CTZ write the number of set bits, of leading zero bits and of trailing zero bits of each sub-element, CLZ and CTZ
of zero giving the width, and BREV reverses the bits of each sub-element. -/
def Obligations.BitCountResults : Prop :=
  ∀ (w : AluWord) (L : Lane) (k : Nat), w.ty.toNat < 8 →
    let n := formatBits w.ty.toNat
    let a := elem (aluIn w L (aluB w L)).a.toNat n k
    k < 64 / n →
      (∃ fx fi, regForm (.bfx w) = some fx ∧ regForm (.bfi w) = some fi ∧
        let r := aluIn w L (aluB w L)
        let len := fun ctl : Nat => if n ≤ ctl % 256 ∨ ctl / 256 % 256 = 0 then 0 else min (ctl % 256 + ctl / 256 % 256) n - ctl % 256
        let cx := match w.lit with | some x => x.toNat % 65536 | none => r.b.toNat % 65536
        let ci := r.c.toNat % 65536
        (∀ j, j < n → bit (elem (fx.val L).toNat n k) j =
          if j < len cx then bit a (cx % 256 + j) else decide (len cx ≠ 0 ∧ w.ty.toNat % 2 = 0) && bit a (cx % 256 + len cx - 1)) ∧
        ∀ j, j < n → bit (elem (fi.val L).toNat n k) j =
          if ci % 256 ≤ j ∧ j < ci % 256 + len ci then bit (elem r.b.toNat n k) (j - ci % 256) else bit a j) ∧
      ∃ fp fc ft fr, regForm (.popc w) = some fp ∧ regForm (.clz w) = some fc ∧ regForm (.ctz w) = some ft ∧ regForm (.brev w) = some fr ∧
        elem (fp.val L).toNat n k = ((List.range n).filter (bit a)).length ∧
        (let z := elem (fc.val L).toNat n k
         z ≤ n ∧ (∀ j, j < z → bit a (n - 1 - j) = false) ∧ (z < n → bit a (n - 1 - z) = true)) ∧
        (let z := elem (ft.val L).toNat n k
         z ≤ n ∧ (∀ j, j < z → bit a j = false) ∧ (z < n → bit a z = true)) ∧
        ∀ j, j < n → bit (elem (fr.val L).toNat n k) j = bit a (n - 1 - j)

/-- R93: in FADD, FSUB, FMUL and FFMA a sub-element with a NaN operand gives the default NaN of the type under DNAN = 1, and the first NaN
operand in the order A, B, C with its quiet bit set under DNAN = 0. -/
def Obligations.FloatNanResults : Prop :=
  ∀ (w : AluWord) (i : Instr) (L : Lane) (k : Nat),
    let ty := w.ty.toNat
    let n := formatBits ty
    let r := aluIn w L (aluB w L)
    let ab := [elem r.a.toNat n k, elem r.b.toNat n k]
    8 ≤ ty → ty < 12 → k < 64 / n → i = .fadd w ∨ i = .fsub w ∨ i = .fmul w ∨ i = .ffma w →
      let ops := if i = .ffma w then ab ++ [elem r.c.toNat n k] else ab
      ∃ f, regForm i = some f ∧
        ∀ x, ops.find? (nanCode ty) = some x →
          elem (f.val L).toNat n k = if r.fp.dnan then defaultNanCode ty else x ||| 2 ^ (fmtM ty - 1)

/-! ## Control flow -/

/-- R132: the word 0 is NOP. NOP changes no state; it is one instruction of its run, and its only effect is that the thread's PC becomes next(PC). -/
def Obligations.NopResult : Prop :=
  decodeWords [0] = .ok (.nop, 1) ∧
  ∀ (s : State) (l : Latch), s.issues l →
    ∃ t, exec .nop s = .next t ∧ s.groupFrame t l ∧ s.sameSquads t ∧
      (∀ x ∈ l.lanesOf, t.thr (l.key x) = { s.thr (l.key x) with pc := nextPc l.pc l.len, stepOver := none }) ∧
      ∀ r r', (s.core l.core).slot l.slot = some r → (t.core l.core).slot l.slot = some r' → r'.count = r.count + 1

/-- R133, R109, R136: a lane of BRA with a true guard goes to the bundle at the branch's own bundle plus 64 times the signed offset; one of
BRP subtracts 1 from X3 modulo 2^16 and goes there while X3 is not zero, else to next(PC); a lane with a false guard moves to next(PC), as
every lane of PAD does. Nothing else changes. R135: a lane of BRX with a true guard and a good target goes to word 1 of the target's bundle;
nothing else changes. A lane that goes elsewhere than to next(PC) enters a bundle anew (R106). -/
def Obligations.BranchResults : Prop :=
   (∀ (w : B32Word) (p : AluWord) (s : State) (l : Latch), s.issues l →
      let target := (l.pc - BitVec.ofNat 64 (l.pc.toNat % 64)) + w.ofs.signExtend 64 * 64 + 4
      (s.guardsKnown l w.g →
        (∃ t, exec (.bra w) s = .next t ∧ s.groupFrame t l ∧ s.sameSquads t ∧
          ∀ x ∈ l.lanesOf, t.thr (l.key x) = (s.thr (l.key x)).goTo l.next (if s.laneOn l x w.g w.n then target else l.next)) ∧
        ∃ t, exec (.brp w) s = .next t ∧ s.groupFrame t l ∧ s.sameSquads t ∧
          ∀ x ∈ l.lanesOf,
            let u := s.thr (l.key x)
            let c := u.readX 3 - 1
            t.thr (l.key x) =
              if s.laneOn l x w.g w.n then (u.writeX 3 c).goTo l.next (if c = 0 then l.next else target) else { u with pc := l.next, stepOver := none }) ∧
      (s.guardsKnown l p.g →
        ∃ t, exec (.pad p) s = .next t ∧ s.groupFrame t l ∧ s.sameSquads t ∧
          ∀ x ∈ l.lanesOf, t.thr (l.key x) = { s.thr (l.key x) with pc := l.next, stepOver := none })) ∧
   (∀ (w : AluWord) (s : State) (l : Latch), s.issues l → s.guardsKnown l w.g →
      (∀ x ∈ l.lanesOf, s.laneOn l x w.g w.n → s.goodTarget l x w) →
      ∃ t, exec (.brx w) s = .next t ∧ s.groupFrame t l ∧ s.sameSquads t ∧
        ∀ x ∈ l.lanesOf,
          t.thr (l.key x) = (s.thr (l.key x)).goTo l.next (if s.laneOn l x w.g w.n then s.targetAt l x w + 4 else l.next))

/-- R137, R135: a lane of CALL or CALLX with a true guard, at a call depth below 16, pushes the start of the next bundle on its link stack
and goes to its target; a lane with a false guard pushes nothing and goes to the start of the next bundle. Nothing else changes, but that a
bundle is entered anew (R106). -/
def Obligations.CallResults : Prop :=
  ∀ (w : B32Word) (v : AluWord) (s : State) (l : Latch), s.issues l →
    let next := (l.pc - BitVec.ofNat 64 (l.pc.toNat % 64)) + 64
    let target := (l.pc - BitVec.ofNat 64 (l.pc.toNat % 64)) + w.ofs.signExtend 64 * 64
    let pushed := fun u : Thread => { u with link := sset 0 u.link u.cdepth next, cdepth := u.cdepth + 1 }
    (s.guardsKnown l w.g → (∀ x ∈ l.lanesOf, s.laneOn l x w.g w.n → (s.thr (l.key x)).cdepth < 16) →
      ∃ t, exec (.call w) s = .next t ∧ s.groupFrame t l ∧ s.sameSquads t ∧
        ∀ x ∈ l.lanesOf,
          let u := s.thr (l.key x)
          t.thr (l.key x) = if s.laneOn l x w.g w.n then (pushed u).goTo l.next (target + 4) else u.goTo l.next (next + 4)) ∧
    (s.guardsKnown l v.g → (∀ x ∈ l.lanesOf, s.laneOn l x v.g v.n → s.goodTarget l x v ∧ (s.thr (l.key x)).cdepth < 16) →
      ∃ t, exec (.callx v) s = .next t ∧ s.groupFrame t l ∧ s.sameSquads t ∧
        ∀ x ∈ l.lanesOf,
          let u := s.thr (l.key x)
          t.thr (l.key x) = if s.laneOn l x v.g v.n then (pushed u).goTo l.next (s.targetAt l x v + 4) else u.goTo l.next (next + 4))

/-- R138, R139: a lane of RET with a true guard, whose call depth is not 0 and whose return bundle begins with REGION (R418 asks for it whatever the
guard), lowers its call depth by 1, goes to word 1 of the bundle of its link, which it enters anew (R106), and owes that REGION. Nothing else changes. -/
def Obligations.RetResult : Prop :=
  ∀ (w : AluWord) (s : State) (l : Latch), s.issues l → s.guardsKnown l w.g →
    (∀ x ∈ l.lanesOf,
      let u := s.thr (l.key x)
      (s.laneOn l x w.g w.n → u.cdepth ≠ 0) ∧
      (u.cdepth ≠ 0 → ∃ ws, s.codeAt l x (u.readLink (u.cdepth - 1)).toNat ws ∧ isRegionWord (ws.getD 1 0) = true)) →
    ∃ t, exec (.ret w) s = .next t ∧ s.groupFrame t l ∧ s.sameSquads t ∧
      ∀ x ∈ l.lanesOf,
        let u := s.thr (l.key x)
        t.thr (l.key x) =
          if s.laneOn l x w.g w.n then
            ({ u with cdepth := u.cdepth - 1, owed := .afterRet } : Thread).goTo l.next (u.readLink (u.cdepth - 1) + 4)
          else { u with pc := l.next, stepOver := none }

/-- R145, R75, R41: a lane of REGION whose base is in bounds, whose selected registers are ready, and whose committing instruction is not in
the operand log, writes its checkpoint slot (the selected registers, P0 to P6, X0 to X3, $fpmode, $srctr, the call depth, base, mask,
and next(PC) as region start), owes no REGION any more and goes on at next(PC). Nothing else changes. A TRAP that waits for it is the subject of
TrapEntersHandler. -/
def Obligations.RegionResult : Prop :=
  ∀ (w : AluWord) (s : State) (l : Latch), s.issues l → s.guardsKnown l w.g →
    let base := w.a.toNat
    let mask := w.b.toNat + w.c.toNat % 128 * 512
    (∀ x ∈ l.lanesOf, s.laneOn l x w.g w.n →
      let u := s.thr (l.key x)
      base + 16 ≤ (s.thrBlock u).allot ∧ s.regionWaits (l.key x) base mask = false ∧ u.trap = none) →
    ∃ t, exec (.region w) s = .next t ∧ s.groupFrame t l ∧ s.sameSquads t ∧
      ∀ x ∈ l.lanesOf,
        let u := s.thr (l.key x)
        let v := t.thr (l.key x)
        if s.laneOn l x w.g w.n then
          v = { u with slot := v.slot, owed := .nothing, commit := none, pc := l.next, stepOver := none } ∧
          (∀ i, i < 16 → mask.testBit i = true → sget 0 v.slot.vals i = u.readV (base + i)) ∧
          v.slot.start = l.next ∧ v.slot.base = base ∧ v.slot.mask = mask ∧ v.slot.preds = u.p ∧ v.slot.x = u.x ∧
          v.slot.fpmode = u.fpmode ∧ v.slot.srctr = u.srctr ∧ v.slot.cdepth = u.cdepth
        else v = { u with pc := l.next, stepOver := none }

/-- R149: a lane of SLEEP with a true guard waits for the low 32 bits of its count when they are not 0, and stands where it is; SLEEP 0, and
a lane with a false guard, only move to next(PC). Nothing else changes. -/
def Obligations.SleepResult : Prop :=
  ∀ (w : AluWord) (s : State) (l : Latch), s.issues l → s.guardsKnown l w.g →
    let name := fieldName w.sq false w.b 0
    (w.lit = none → ∀ x ∈ l.lanesOf, s.laneOn l x w.g w.n → s.operandsFit l x [{ field := 2, name := name }]) →
    ∃ t, exec (.sleep w) s = .next t ∧ s.groupFrame t l ∧ s.sameSquads t ∧
      ∀ x ∈ l.lanesOf,
        let u := s.thr (l.key x)
        let c := if w.lit.isSome then (w.lit.getD 0).toNat else (s.readReg u name).toNat % 2 ^ 32
        t.thr (l.key x) = if s.laneOn l x w.g w.n ∧ c ≠ 0 then { u with wait := .sleep c l.next, stepOver := none } else { u with pc := l.next, stepOver := none }

/-- R157, 03 Table 3.4: a lane of WRSR with a true guard, whose source selects a rounding mode from 1 to 6 and sets no reserved bit in bits
[31:0], has those bits in $fpmode and moves to next(PC). Nothing else changes. -/
def Obligations.WrsrResult : Prop :=
  ∀ (w : AluWord) (s : State) (l : Latch), s.issues l → s.guardsKnown l w.g →
    let name := fieldName w.sq false w.a 0
    (∀ x ∈ l.lanesOf, s.laneOn l x w.g w.n →
      s.operandsFit l x [{ field := 1, name := name }] ∧
      let v := (s.readReg (s.thr (l.key x)) name).toNat % 2 ^ 32
      v < 512 ∧ v % 8 ≠ 0 ∧ v % 8 ≠ 7) →
    ∃ t, exec (.wrsr w) s = .next t ∧ s.groupFrame t l ∧ s.sameSquads t ∧
      ∀ x ∈ l.lanesOf,
        let u := s.thr (l.key x)
        t.thr (l.key x) =
          if s.laneOn l x w.g w.n then { u with fpmode := (s.readReg u name).truncate 32, pc := l.next, stepOver := none } else { u with pc := l.next, stepOver := none }

/-- R153: a lane of TRAP with a true guard, followed by REGION, keeps VALUE and the PC of the TRAP for that REGION, which it owes, and moves to
next(PC); a lane with a false guard only moves. Nothing else changes. -/
def Obligations.TrapResult : Prop :=
  ∀ (w : AluWord) (s : State) (l : Latch), s.issues l → s.guardsKnown l w.g → (∀ x ∈ l.lanesOf, s.regionNext l x) →
    ∃ t, exec (.trap w) s = .next t ∧ s.groupFrame t l ∧ s.sameSquads t ∧
      ∀ x ∈ l.lanesOf,
        let u := s.thr (l.key x)
        t.thr (l.key x) =
          if s.laneOn l x w.g w.n then
            { u with trap := some (w.b.toNat + w.c.toNat % 128 * 512, l.pc), owed := .afterCommit, pc := l.next, stepOver := none }
          else { u with pc := l.next, stepOver := none }

/-- R140, R141, R59: JSET with FORM = 0 adds the executing lanes to J[m], with FORM = 1 it assigns the named live lanes (the highest executing
lane's source stands), JDROP removes the executing lanes, and JWAIT changes no mask and waits; each then releases together every thread
waiting in a JWAIT on J[m], when no lane is named or every named lane waits there. The squad has no thread at a synchronising site, and no other
squad has waits to be evaluated in this cycle. -/
def Obligations.RejoinMaskResults : Prop :=
  ∀ (w : AluWord) (s : State) (l : Latch), s.issues l → s.squadListed l → s.guardsKnown l w.g → s.noSites l.blk l.sq = true →
    s.jwaitsSettled l.blk l.sq = true → s.aloneInCycle l →
    (∀ x ∈ l.lanesOf, 32 * l.sq + x < (s.block l.blk).nthreads ∧ (s.thr (l.key x)).live = true ∧ (s.thr (l.key x)).wait = .ready) →
    let m := w.d.toNat % 8
    let old := (s.squad l.blk l.sq).readJ m
    (w.b.getLsbD 0 = false → s.rejoins l (.jset w) w.g w.n m (old ||| s.onBits l w.g w.n) false) ∧
    (w.b.getLsbD 0 = true → (∀ x ∈ l.lanesOf, s.laneOn l x w.g w.n → s.operandsFit l x [sOperand 1 w.a]) →
      s.rejoins l (.jset w) w.g w.n m
        (match s.lastOn l w.g w.n with
         | some x => (s.readReg (s.thr (l.key x)) (fieldName true false w.a 0)).truncate 32 &&& BitVec.ofNat 32 (s.liveMask l.blk l.sq)
         | none => old) false) ∧
    s.rejoins l (.jdrop w) w.g w.n m (old &&& ~~~ s.onBits l w.g w.n) false ∧
    s.rejoins l (.jwait w) w.g w.n m old true

/-- R143, R141, R22: each lane of EXIT with a true guard stops being live; its bit goes from J0 to J7 of its squad; its loads are dropped and
its other accesses stay, writing no register of it; a leader that exits leaves the block without one; threads waiting in a JWAIT that this
satisfies go on, at the end of the cycle when another group still issues in it. A lane with a false guard moves to next(PC). Here another thread of the block stays live on the same core, no thread of the
squad is at a synchronising site, no other squad has waits to be evaluated in this cycle, and no exiting thread holds a fault or has a load of
an S register in flight. R29, R144: when the last live threads of a block exit, and it is in no clove, the block is complete: its squads leave their
slots, its runs end, it holds no bank, no reference and no handle, and its grid has one more complete block. -/
def Obligations.ExitResult : Prop :=
  (∀ (w : AluWord) (s : State) (l : Latch), s.issues l → s.squadListed l → s.guardsKnown l w.g → s.noSites l.blk l.sq = true →
    s.aloneInCycle l →
    (∀ x ∈ l.lanesOf, 32 * l.sq + x < (s.block l.blk).nthreads ∧ (s.thr (l.key x)).wait = .ready ∧
      (s.laneOn l x w.g w.n → (s.thr (l.key x)).held = none)) →
    (∀ a ∈ s.accs, s.arrives l w.g w.n a.thr = true → a.stage ≠ .cancelled → sDests a.dests = []) →
    (∃ k ∈ s.liveThreads l.blk, s.arrives l w.g w.n k = false ∧
      blockCore (s.block l.blk) (s.thr k).sq = blockCore (s.block l.blk) l.sq) →
    ∃ t, exec (.exit w) s = .next t ∧ ({ s with unsettled := t.unsettled } : State).onlyGroup t ∧
      t.unsettled = (if s.focus = [] then [] else s.unsettled ++ [(l.blk, l.sq)]) ∧ (∀ b q, (t.squad b q).s = (s.squad b q).s) ∧
      (∀ b q r, r < 8 → (t.squad b q).readJ r =
        if squadKey b q = squadKey l.blk l.sq then (s.squad b q).readJ r &&& ~~~ s.onBits l w.g w.n else (s.squad b q).readJ r) ∧
      t.accs = (s.accs.filter fun a => !(s.arrives l w.g w.n a.thr && (a.kind == .load || a.stage == .cancelled))).map
        (fun a => if s.arrives l w.g w.n a.thr then { a with dests := [] } else a) ∧
      (∀ b, (t.block b).leader =
        if b = l.blk ∧ ∃ x ∈ l.lanesOf, s.laneOn l x w.g w.n ∧ (s.block l.blk).leader = some (s.thr (l.key x)).tid then none
        else (s.block b).leader) ∧
      ∀ k, let u := s.thr k
        t.thr k =
          if s.arrives l w.g w.n k then
            { u with live := false, wait := .ready, held := none, parked := false, stepOver := none }
          else if ∃ x ∈ l.lanesOf, k = l.key x then { u with pc := l.next, stepOver := none }
          else if s.focus = [] ∧ k ∈ squadThreads (s.block l.blk) l.blk l.sq ∧ s.freedBy l.blk l.sq (s.onBits l w.g w.n) k = true then
            { u with wait := .ready, pc := nextPc u.pc 2 }
          else u) ∧
  (∀ (w : AluWord) (s : State) (l : Latch), s.issues l → s.squadListed l → s.guardsKnown l w.g → s.noSites l.blk l.sq = true →
    s.aloneInCycle l → (tget s.blocks l.blk).isSome = true → (s.block l.blk).status ≠ .complete →
    (tget s.grids (s.block l.blk).grid).isSome = true →
    (∀ x ∈ l.lanesOf, 32 * l.sq + x < (s.block l.blk).nthreads ∧ s.laneOn l x w.g w.n ∧ (s.thr (l.key x)).held = none) →
    (∀ a ∈ s.accs, s.arrives l w.g w.n a.thr = true → a.stage ≠ .cancelled → sDests a.dests = []) →
    (∀ k ∈ s.liveThreads l.blk, s.arrives l w.g w.n k = true) →
    (∀ d, ∀ e ∈ (s.die d).cloves, ∀ m ∈ e.2.members, m.1.2 ≠ l.blk) →
    ∃ t, exec (.exit w) s = .next t ∧ t.mem = s.mem ∧ (t.block l.blk).status = .complete ∧ (t.block l.blk).banks = 0 ∧
      (t.block l.blk).refs = [] ∧ (t.block l.blk).h = [] ∧ (∀ e ∈ t.squads, e.2.blk ≠ l.blk) ∧
      (∀ core slot r, slot < 2 → (t.core core).slot slot = some r → (tget s.cores core).isSome = true → r.blk ≠ l.blk) ∧
      (t.grid (s.block l.blk).grid).doneBlocks = (s.grid (s.block l.blk).grid).doneBlocks + 1 ∧
      ∀ x ∈ l.lanesOf, (t.thr (l.key x)).live = false)

/-! ## Instructions that issue an access -/

/-- R199, R203 to R207, R213, R220, R225 to R227, R234 to R240, R246, R248, R151: every instruction of `issueForm`, on an issue group whose lanes with a
true guard may issue, answers a next state in which the accesses in flight are those of before and then one of each such lane, in increasing
lane order, with the address, bytes, operands, stream, predecessors and scope of `issueForm` at the byte its pointer names; its stream's bead
count is one more; its PC is after the instruction (BWAIT stands where it is); a committing instruction owes REGION. An S register that a
higher lane loads too is left to it, and the lower lane waits for it; a byte that a higher lane stores too is left to it. A command whose id is
free is accepted at once. A lane with a false guard only moves its PC. Nothing else
changes but translation buffers and walks. R337, R338: a load or a store of one executing lane whose page is not resident is reported, once for its
page, and goes into the operand log of its core, its thread going on; when the log is full it has not issued, and its thread waits for an entry. -/
def Obligations.AccessIssue : Prop :=
  (∀ (i : Instr) (f : IssueForm) (s : State) (l : Latch), issueForm i = some f → s.issues l → s.guardsKnown l f.g → s.noWatch →
    (f.commits = true → ∀ x ∈ l.lanesOf, s.regionNext l x) →
    (∀ x ∈ l.lanesOf, s.laneOn l x f.g f.n → s.mayAccess l x f) →
    ∃ t, exec i s = .next t ∧ s.issueFrame t l ∧
      t.accs.map Access.plain = s.accs.map Access.plain ++ (s.onLanes l f.g f.n).map (fun x => (f.access (s.laneAt l x)).plain) ∧
      ∀ x ∈ l.lanesOf,
        let u := s.thr (l.key x)
        if s.laneOn l x f.g f.n then
          ∃ a ∈ t.accs, a.plain = (f.access (s.laneAt l x)).plain ∧ s.nextId ≤ a.id ∧ a.dests = f.heldDests s l x ∧
            f.waitersOf s l x a.waiters ∧ f.acceptedAs s l x a.stage ∧ (∀ o, o ∈ a.masked ↔ f.maskedByte s l x o) ∧
            let v := u.setBead f.strm.toNat (u.bead f.strm.toNat + 1)
            let v := if f.commits then { v with owed := .afterCommit, commit := some a.id } else v
            t.thr (l.key x) = if f.stands then { v with wait := .bwait a.id, stepOver := none } else { v with pc := l.next, stepOver := none }
        else t.thr (l.key x) = { u with pc := l.next, stepOver := none }) ∧
  (∀ (i : Instr) (f : IssueForm) (s : State) (l : Latch) (x va lv : Nat) (g : Through), issueForm i = some f → s.issues l → s.guardsKnown l f.g →
    s.noWatch → s.onLanes l f.g f.n = [x] →
    let L := s.laneAt l x
    let u := s.thr (l.key x)
    let ctx := L.block.ctx
    let page := (s.absentPage ctx va).1
    ((f.acc L).kind = .load ∨ (f.acc L).kind = .store) → s.operandsFit l x (f.ops L.t) → brokenNamed L.t f.strm.toNat f.pred.toNat = 0 →
    L.t.bead f.strm.toNat < 32 → f.through L = some g → pointer L.block L.rank g.takes g.p g.ask.size (sizeCode g.ask.size) = .ok (.global va) →
    s.translate ctx va (coreDie (s.thrCore L.t)) g.ask.need = .notResident lv → s.active ctx →
    ∃ t, exec i s = .next t ∧ t.mem = s.mem ∧ ((t.ctx ctx).report page).isSome = true ∧
      ((s.ctx ctx).report page = none → s.owned = true →
        ∃ e ∈ (t.page s.owner).waiting, e.code = 2 ∧ e.ctx = ctx ∧ e.arg0 = BitVec.ofNat 64 va) ∧
      (s.logUsed (s.thrCore L.t) < 64 →
        t.accs.map Access.plain = s.accs.map Access.plain ++ [({ f.access L with stage := .logged page, wasLogged := true } : Access).plain] ∧
        t.thr (l.key x) = { u.setBead f.strm.toNat (u.bead f.strm.toNat + 1) with pc := l.next, stepOver := none }) ∧
      (64 ≤ s.logUsed (s.thrCore L.t) → t.accs = s.accs ∧ t.thr (l.key x) = { u with wait := .log }))

/-! ## System instructions -/

/-- R148, R314: YIELD changes no register; its lanes move to next(PC); when it ends its run and a lane executes it, the threads of the run are
parked and the quantum of their squad ends. Nothing else changes. -/
def Obligations.YieldResult : Prop :=
  ∀ (w : AluWord) (s : State) (l : Latch), s.issues l → s.guardsKnown l w.g →
    ∃ t, exec (.yield w) s = .next t ∧ s.groupFrame t l ∧ s.sameSquads t ∧
      (l.eor = true → s.onLanes l w.g w.n ≠ [] → s.squadListed l → (t.squad l.blk l.sq).qt = 0) ∧
      ∀ x ∈ l.lanesOf,
        let u := s.thr (l.key x)
        t.thr (l.key x) = if l.eor = true ∧ s.onLanes l w.g w.n ≠ [] then { u with parked := true, pc := l.next, stepOver := none } else { u with pc := l.next, stepOver := none }

/-- R155: BRK moves its lanes to next(PC). Without an attached session, when DCTL[BRK] is 0 and it is not stepped, the session is of another
context or no lane executes, nothing else changes. R155, R377, R379, R382, R384: under a session of the block's context with DCTL[BRK] set, or
when it is stepped, BRK in a group with an executing lane moves its lanes to next(PC) and stops: a STOP record that names the lowest executing
lane, its PC and VALUE is among those of the cycle, whose end writes the records in their order and then those of the skid, and memory, the
accesses and every other thread are as before. On a quad that is not frozen every quad of its freeze set is then frozen with cause BRK. A BRK
that a STEP executes on its frozen quad changes no freeze and no QSTAT, and the step ends with it: one STEP record DONE, which counts it. -/
def Obligations.BrkResults : Prop :=
   (∀ (w : AluWord) (s : State) (l : Latch), s.issues l → s.guardsKnown l w.g →
      (s.session = 0 ∨ (s.dbg.dctl.getLsbD 6 = false ∧ s.dbg.stepping = false) ∨ (s.block l.blk).ctx ≠ s.session ∨ s.onLanes l w.g w.n = []) →
      ∃ t, exec (.brk w) s = .next t ∧ s.groupFrame t l ∧ s.sameSquads t ∧
        ∀ x ∈ l.lanesOf, t.thr (l.key x) = { s.thr (l.key x) with pc := l.next, stepOver := none }) ∧
   (∀ (w : AluWord) (s : State) (l : Latch), s.issues l → s.guardsKnown l w.g → s.session ≠ 0 →
      (s.dbg.dctl.getLsbD 6 = true ∨ s.dbg.stepping = true) → (s.block l.blk).ctx = s.session →
      ∀ x, (s.onLanes l w.g w.n).head? = some x →
      let dq := s.thrCore (s.thr (l.key x)) / 4
      let value := w.b.toNat + w.c.toNat % 128 * 512
      ∃ t, exec (.brk w) s = .next t ∧ t.mem = s.mem ∧ t.accs = s.accs ∧ t.blocks = tmod s.blocks l.blk (fun b => { b with bySwap := false }) ∧
        (∀ k, (∀ y ∈ l.lanesOf, k ≠ l.key y) → t.thr k = s.thr k) ∧
        (∀ y ∈ l.lanesOf, t.thr (l.key y) = { s.thr (l.key y) with pc := l.next, stepOver := none }) ∧
        t.dbg.stops = s.dbg.stops ++ [(100, s.brkRecord (l.key x) l.pc value)] ∧ t.dbg.stepBrk = s.dbg.stepping ∧
        ((s.quad dq).frozen = false →
          (∀ q ∈ s.freezeSet dq, (t.quad q).frozen = true ∧ (t.quad q).cause = 1) ∧ t.dbg.freezes = s.dbg.freezes ++ [s.freezeSet dq] ∧
          t.dbg.skids = s.dbg.skids ++ [s.freezeSet dq]) ∧
        ((s.quad dq).frozen = true → t.quads = s.quads ∧ t.dbg.freezes = s.dbg.freezes ∧ t.dbg.skids = s.dbg.skids)) ∧
   (∀ (s : State) (quad rank slot count : Nat), s.attachedQuad quad = true → (s.quad quad).frozen = true → s.skidding quad = false →
      s.dbg.stepN ≠ 0 → s.dbg.stepBrk = true → s.dbg.stops ≠ [] → (s.lowestLive s.steppedSquad).isSome = true → s.stepHeld = false →
      ∃ t, exec (.dcmdStep quad rank slot count) s = .next t ∧ t.dbg.stepN = 0 ∧
        ∃ q r, t.dbg.stops = s.dbg.stops ++ [(401, r)] ∧ r = { s.traceSquad s.steppedSquad
          { type := 4, code := 0, a := s.dbg.stepPc, b := q, c := BitVec.ofNat 64 s.dbg.stepN } with time := s.time, clk := s.clk }) ∧
   (∀ (s : State) (o : Nat) (r : TraceRecord), s.dbg.stops = [(o, r)] → o ≤ 300 → r.type ≠ 1 → s.dbg.sink = true →
      (s.dbg.overflow = false ∨ s.dbg.backlog ≤ 512) → ∃ rest, (s.writeStops).dbg.buffer = s.dbg.buffer ++ r :: rest)

/-- R153, R145, R405: a REGION after a TRAP writes its checkpoint slot and then enters the handler: the frame holds USER_TRAP with VALUE and the
PC of the TRAP, and the slot just written, and the thread goes to word 1 of the handler. -/
def Obligations.TrapEntersHandler : Prop :=
  ∀ (w : AluWord) (s : State) (l : Latch), s.issues l → s.guardsKnown l w.g →
    let base := w.a.toNat
    let mask := w.b.toNat + w.c.toNat % 128 * 512
    (∀ x ∈ l.lanesOf, s.laneOn l x w.g w.n →
      let u := s.thr (l.key x)
      base + 16 ≤ (s.thrBlock u).allot ∧ s.regionWaits (l.key x) base mask = false ∧ u.trap.isSome = true ∧ s.canHandle (l.key x)) →
    ∃ t, exec (.region w) s = .next t ∧ s.groupFrame t l ∧ s.sameSquads t ∧
      ∀ x ∈ l.lanesOf,
        let u := s.thr (l.key x)
        t.thr (l.key x) =
          match u.trap with
          | some (v, pc) =>
            if s.laneOn l x w.g w.n then
              s.handled (l.key x) { u with slot := u.checkpoint base mask l.next } { code := 0x0001, addr := BitVec.ofNat 64 v, value := v } pc
            else { u with pc := l.next, stepOver := none }
          | none => { u with pc := l.next, stepOver := none }

/-- R154, R408, R439: a lane of TRET with a true guard and an open frame, none of whose loads is outstanding and which holds no fault, restarts
from the checkpoint of its frame: selected registers take their values and every other V register is 0, P, X, $fpmode, $srctr and the call
depth are those of the frame, the frame closes, streams are whole, and accesses of the handler write no register. -/
def Obligations.TretResult : Prop :=
  ∀ (w : AluWord) (s : State) (l : Latch), s.issues l → s.guardsKnown l w.g →
    (∀ x ∈ l.lanesOf, s.laneOn l x w.g w.n →
      let u := s.thr (l.key x)
      u.frame.isOpen = true ∧ u.held = none ∧ ∀ a ∈ s.accs, a.thr = l.key x → a.kind ≠ .load ∧ a.stage ≠ .cancelled) →
    ∃ t, exec (.tret w) s = .next t ∧ s.groupFrame t l ∧ s.sameSquads t ∧
      (∀ a ∈ t.accs, ∀ x ∈ l.lanesOf, s.laneOn l x w.g w.n → a.thr = l.key x → a.dests = []) ∧
      ∀ x ∈ l.lanesOf,
        let u := s.thr (l.key x)
        let v := t.thr (l.key x)
        let c := u.frame.slot
        if s.laneOn l x w.g w.n then
          v = { u with v := v.v, p := c.preds, x := c.x, fpmode := c.fpmode, srctr := c.srctr, cdepth := c.cdepth, pc := c.start, slot := c,
                       frame := { u.frame with isOpen := false }, broken := 0, owed := .nothing, commit := none, pass := none,
                       entered := none, stepOver := none } ∧
          ∀ n, v.readV n = if c.base ≤ n ∧ n < c.base + 16 ∧ c.mask.testBit (n - c.base) = true then sget 0 c.vals (n - c.base) else 0
        else v = { u with pc := l.next, stepOver := none }

/-- R400, R401, R403 to R405, R420, R422, R425, R433 to R435, R439: an instruction of `faultForm` whose executing lanes all fault, in threads that can handle it, changes no
register: each of them stands at word 1 of the handler with its frame open, holding the code, ADDR, INFO and the PC of the instruction. -/
def Obligations.FaultEntersHandler : Prop :=
  ∀ (i : Instr) (g : BitVec 3) (n : Bool) (fault : Lane → Option FaultInfo) (s : State) (l : Latch), faultForm i = some (g, n, fault) →
    s.issues l → s.guardsKnown l g →
    (∀ x ∈ l.lanesOf, s.laneOn l x g n → (fault (s.laneAt l x)).isSome = true ∧ s.canHandle (l.key x)) →
    (∀ x ∈ l.lanesOf, ¬ s.laneOn l x g n → s.passesOver l i x) →
    ∃ t, exec i s = .next t ∧ s.groupFrame t l ∧ s.sameSquads t ∧
      ∀ x ∈ l.lanesOf,
        let u := s.thr (l.key x)
        t.thr (l.key x) =
          match fault (s.laneAt l x) with
          | some f => if s.laneOn l x g n then s.handled (l.key x) u f l.pc else { u with pc := l.next, stepOver := none }
          | none => { u with pc := l.next, stepOver := none }

/-- R405, R411, R413: an instruction of `faultForm` whose executing lanes all fault, each in a thread that has no handler or whose frame is open,
halts the context: its primary record is that of the executing lane of lowest thread index, with NESTED = 1 when that lane's frame was open; each
of the lanes stops where it stands, an open frame as it was, and a closed one written for its own fault. A thread that holds no fault is
otherwise as before. -/
def Obligations.FaultHaltsContext : Prop :=
  ∀ (i : Instr) (g : BitVec 3) (n : Bool) (fault : Lane → Option FaultInfo) (s : State) (l : Latch),
    faultForm i = some (g, n, fault) → s.issues l → s.guardsKnown l g →
    let ctx := (s.block l.blk).ctx
    (tget s.ctxs ctx).isSome = true → (s.ctx ctx).status = .active →
    let holdsNone := fun k => ∀ e ∈ s.threads, e.1 = k → e.2.held = none
    (∀ x ∈ l.lanesOf, holdsNone (l.key x)) →
    (∀ x ∈ l.lanesOf, s.laneOn l x g n → (fault (s.laneAt l x)).isSome = true ∧
      ((s.grid (s.block l.blk).grid).rc.handler = 0 ∨ (s.thr (l.key x)).frame.isOpen = true)) →
    (∀ x ∈ l.lanesOf, ¬ s.laneOn l x g n → s.passesOver l i x) →
    s.onLanes l g n ≠ [] →
    ∃ t, exec i s = .next t ∧ t.mem = s.mem ∧ t.accs = s.accs ∧ s.sameSquads t ∧
      (∀ k, (∀ x ∈ l.lanesOf, k ≠ l.key x) → holdsNone k → t.thr k = s.thr k) ∧
      (t.ctx ctx).status = .halting ∧
      (∃ x ∈ s.onLanes l g n, ∃ f, fault (s.laneAt l x) = some f ∧ (t.ctx ctx).primary = some (s.faultRecord (l.key x) f l.pc) ∧
        ∀ y ∈ s.onLanes l g n, (s.thr (l.key x)).tid ≤ (s.thr (l.key y)).tid) ∧
      (∀ c, c ≠ ctx → t.ctx c = s.ctx c) ∧ .coreDumpWrite ctx ∈ t.agenda ∧
      ∀ x ∈ l.lanesOf,
        let u := s.thr (l.key x)
        let v := t.thr (l.key x)
        match fault (s.laneAt l x) with
        | some f =>
          if s.laneOn l x g n then
            if u.frame.isOpen = true ∨ u.framed = true then v = { u with stopped := true, wait := .ready, trap := none }
            else
              v = { u with frame := v.frame, framed := true, stopped := true, wait := .ready, trap := none } ∧ v.frame.isOpen = false ∧
              v.frame.code = f.code ∧ v.frame.fpc = l.pc ∧ v.frame.addr = f.addr ∧ v.frame.info = f.info false ∧ v.frame.slot = u.slot
          else v = { u with pc := l.next, stepOver := none }
        | none => v = { u with pc := l.next, stepOver := none }

/-! ## Stochastic rounding and MX (07 R184 to R186) -/

/-- R186: SRSEED writes the seed of its block with the value of the highest executing lane, and each executing lane has $srctr 0 and its PC
after the instruction. Nothing else changes. -/
def Obligations.SrseedResult : Prop :=
  ∀ (w : AluWord) (s : State) (l : Latch), s.issues l → s.guardsKnown l w.g → (tget s.blocks l.blk).isSome = true →
    (∀ x ∈ l.lanesOf, s.laneOn l x w.g w.n → s.operandsFit l x [{ field := 1, name := aluNameA w (s.thr (l.key x)) }]) →
    ∃ t, exec (.srseed w) s = .next t ∧ s.onlyGroup t ∧ s.sameAccs t ∧ s.sameSquads t ∧
      (∀ k, (∀ x ∈ l.lanesOf, k ≠ l.key x) → t.thr k = s.thr k) ∧ (∀ b, b ≠ l.blk → t.block b = s.block b) ∧
      t.block l.blk = { s.block l.blk with
        bySwap := false
        srseed := match s.lastOn l w.g w.n with
          | some x => s.readReg (s.thr (l.key x)) (aluNameA w (s.thr (l.key x)))
          | none => (s.block l.blk).srseed } ∧
      ∀ x ∈ l.lanesOf,
        let u := s.thr (l.key x)
        t.thr (l.key x) = if s.laneOn l x w.g w.n then { u with srctr := 0, pc := l.next, stepOver := none } else { u with pc := l.next, stepOver := none }

/-- R184, R185, R110: a lane of QMX or DQMX with a true guard reads its source registers and has the quantised block with its scale, or the 32
dequantised elements, in consecutive V registers from D, $srctr one more when it rounds stochastically, and its PC after the instruction. Nothing
else changes. -/
def Obligations.MxResults : Prop :=
  ∀ (w : AluWord) (s : State) (l : Latch), s.issues l → s.guardsKnown l w.g →
    let big := mxRegs (w.b.toNat % 32) + 1
    let small := formatBits w.ty.toNat / 2
    let ops := fun (u : Thread) (d a : Nat) =>
      [({ field := 0, name := .v w.d.toNat, count := d, rd := false, wr := true } : Operand), { field := 1, name := aluNameA w u, count := a }]
    let result := fun (x d : Nat) (r : Nat × Bool) =>
      let u := s.thr (l.key x)
      let v := (List.range d).foldl (fun v j => v.writeV (w.d.toNat + j) (BitVec.ofNat 64 (r.1 / 2 ^ (64 * j)))) u
      let rounds := r.2 && (fpModeOf u.fpmode w.rnd.toNat).rnd == 5
      { v with pc := l.next, stepOver := none, srctr := if rounds then u.srctr + 1 else u.srctr }
    let source := fun (x a : Nat) => s.readRange (s.thr (l.key x)) (aluNameA w (s.thr (l.key x))) a
    ((∀ x ∈ l.lanesOf, s.laneOn l x w.g w.n → s.operandsFit l x (ops (s.thr (l.key x)) big small)) →
      ∃ t, exec (.qmx w) s = .next t ∧ s.groupFrame t l ∧ s.sameSquads t ∧
        ∀ x ∈ l.lanesOf, t.thr (l.key x) =
          if s.laneOn l x w.g w.n then result x big (qmxValue w (aluIn w (s.laneAt l x) 0) (source x small))
          else { s.thr (l.key x) with pc := l.next, stepOver := none }) ∧
    ((∀ x ∈ l.lanesOf, s.laneOn l x w.g w.n → s.operandsFit l x (ops (s.thr (l.key x)) small big)) →
      ∃ t, exec (.dqmx w) s = .next t ∧ s.groupFrame t l ∧ s.sameSquads t ∧
        ∀ x ∈ l.lanesOf, t.thr (l.key x) =
          if s.laneOn l x w.g w.n then result x small (dqmxValue w (aluIn w (s.laneAt l x) 0) (source x big))
          else { s.thr (l.key x) with pc := l.next, stepOver := none })

/-! ## Lane instructions -/

/-- R187 to R189, R150: a lane instruction whose members are all in the issue group is released at once: every contributor writes what
`State.siteWrite` computes from the contributors, every lane goes on after the instruction, and ELECT makes the winner the leader. Nothing
else changes. While another slot is still to issue in the cycle its lanes wait at the site instead. R195, R196, R150, R192, R193, R197, R97: over
contributors of distinct lanes, VOTE.BALLOT gives bit y for each member y that contributes and whose predicate holds, VOTE.ALL, .ANY and .UNI
give whether all votes of the members hold, one does, or all agree; MATCH gives bit y for each contributing member y whose value equals the
lane's own, ELECT gives true in the lowest contributing member alone, SHFL and SHFLX give each sub-element its indexed element of a contributing
member's source, or the old destination; LRED gives every sub-element the reduction of R97 over the members' elements, LSCAN that of the
elements up to its own, without its own under EXCL and then the identity when there is none; and addition, minimum and maximum of integers are
those of R97. -/
def Obligations.LaneSiteResults : Prop :=
   (∀ (i : Instr) (w : AluWord) (mask : BitVec 9) (os : Thread → List Operand) (ps : List Nat) (s : State) (l : Latch),
      siteForm i = some (w, mask, os, ps) → s.issues l → s.squadListed l → (tget s.blocks l.blk).isSome = true → s.guardsKnown l w.g →
      s.noSites l.blk l.sq = true → s.jwaitsSettled l.blk l.sq = true → s.aloneInCycle l →
      (∀ x ∈ l.lanesOf, 32 * l.sq + x < (s.block l.blk).nthreads ∧ (s.thr (l.key x)).live = true ∧ (s.thr (l.key x)).wait = .ready ∧
        s.pendingReg (l.key x) (fieldName true false mask 0) 1 = false ∧
        (∀ y, (s.siteOf l i w mask x).members.testBit y = true → y ∈ l.lanesOf ∨ (s.liveMask l.blk l.sq).testBit y = false) ∧
        (s.laneOn l x w.g w.n → s.laneReady l x os ps)) →
      ∃ t, exec i s = .next t ∧ ({ s with unsettled := t.unsettled } : State).onlyGroup t ∧
        t.unsettled = (if s.focus = [] then [] else s.unsettled ++ [(l.blk, l.sq)]) ∧ s.sameAccs t ∧ s.sameSquads t ∧
        (∀ k, (∀ x ∈ l.lanesOf, k ≠ l.key x) → t.thr k = s.thr k) ∧ (∀ b, b ≠ l.blk → t.block b = s.block b) ∧
        t.block l.blk = { s.block l.blk with
          bySwap := false, leader := if s.focus = [] then s.elected l i w mask else (s.block l.blk).leader } ∧
        ∀ x ∈ l.lanesOf,
          let u := s.thr (l.key x)
          let me := s.siteOf l i w mask x
          t.thr (l.key x) =
            if s.focus ≠ [] then me.t
            else { u.afterSite (if me.guard then s.siteWrite (s.contributors l i w mask) me else none) with pc := nextPc l.pc i.wordCount, stepOver := none }) ∧
   (∀ (s : State) (con : List AtSite) (me : AtSite) (w : AluWord), (con.map (·.t.lane)).Pairwise (· < ·) → (∀ a ∈ con, a.t.lane < 32) →
      me.members < 2 ^ 32 →
      (me.i = .vote w → w.b.toNat % 4 = 3 → ∃ v, s.siteWrite con me = some (.reg (.v w.d.toNat) v) ∧
        ∀ y, v.getLsbD y = true ↔ me.members.testBit y = true ∧ voteOf con w y) ∧
      (me.i = .vote w → w.b.toNat % 4 ≠ 3 → ∃ b, s.siteWrite con me = some (.pred (w.d.toNat % 8) b) ∧
        (b = true ↔
          if w.b.toNat % 4 = 0 then ∀ y, me.members.testBit y = true → voteOf con w y
          else if w.b.toNat % 4 = 1 then ∃ y, me.members.testBit y = true ∧ voteOf con w y
          else ∀ y z, me.members.testBit y = true → me.members.testBit z = true → (voteOf con w y ↔ voteOf con w z))) ∧
      (me.i = .matchLanes w → ∃ v, s.siteWrite con me = some (.reg (.v w.d.toNat) v) ∧
        ∀ y, v.getLsbD y = true ↔ me.members.testBit y = true ∧ ∃ a ∈ con, a.t.lane = y ∧
          s.siteA w a % 2 ^ formatBits w.ty.toNat = s.siteA w me % 2 ^ formatBits w.ty.toNat) ∧
      (me.i = .elect w → ∃ b, s.siteWrite con me = some (.pred (w.d.toNat % 8) b) ∧
        (b = true ↔ ∃ a ∈ con, a.t.lane = me.t.lane ∧ me.members.testBit a.t.lane = true ∧
          ∀ c ∈ con, me.members.testBit c.t.lane = true → a.t.lane ≤ c.t.lane)) ∧
      (me.i = .shfl w → ∃ v, s.siteWrite con me = some (.reg (.v w.d.toNat) v) ∧
        ∀ sub, let n := formatBits w.ty.toNat
          sub < 64 / n →
            let j := match w.lit with | some k => k.toNat % 2 ^ n | none => elem (me.t.readV w.b.toNat).toNat n sub
            elem v.toNat n sub =
              match con.find? (fun a => a.t.lane == j / (64 / n)) with
              | some a => if me.members.testBit a.t.lane then elem (s.siteA w a) n (j % (64 / n)) else elem (me.t.readV w.d.toNat).toNat n sub
              | none => elem (me.t.readV w.d.toNat).toNat n sub) ∧
      (me.i = .shflx w → ∃ v, s.siteWrite con me = some (.reg (.v w.d.toNat) v) ∧
        ∀ sub, let n := formatBits w.ty.toNat
          sub < 64 / n →
            let ctl : Nat := match w.lit with | some k => k.toNat | none => (me.t.readV w.b.toNat).toNat
            let k : Nat := me.t.lane * (64 / n) + sub
            let dist : Nat := ctl % 65536
            let j : Int :=
              match ctl / 65536 % 4 with
              | 0 => (dist : Int)
              | 1 => (k : Int) - dist
              | 2 => (k : Int) + dist
              | _ => ((Nat.xor k dist : Nat) : Int)
            let low : Bool := match j with | .ofNat _ => false | .negSucc _ => true
            elem v.toNat n sub =
              match con.find? (fun a => !low && a.t.lane == j.toNat / (64 / n)) with
              | some a =>
                if me.members.testBit a.t.lane then elem (s.siteA w a) n (j.toNat % (64 / n)) else elem (me.t.readV w.d.toNat).toNat n sub
              | none => elem (me.t.readV w.d.toNat).toNat n sub) ∧
      (me.i = .lred w → ∃ v, s.siteWrite con me = some (.reg (.v w.d.toNat) v) ∧
        ∀ sub, let n := formatBits w.ty.toNat
          sub < 64 / n →
            elem v.toNat n sub =
              (reducedFrom (laneCombine (w.b.toNat % 16) w.ty.toNat w.sat (laneMode me.t w)) (s.elementAt con me w) (laneRounds w.ty.toNat) 0).getD 0
                % 2 ^ n) ∧
      (me.i = .lscan w → ∃ v, s.siteWrite con me = some (.reg (.v w.d.toNat) v) ∧
        ∀ sub, let n := formatBits w.ty.toNat
          sub < 64 / n →
            let own := me.t.lane * (64 / n) + sub
            let last := if w.b.getLsbD 4 = true then own else own + 1
            elem v.toNat n sub =
              (reducedFrom (laneCombine (w.b.toNat % 16) w.ty.toNat w.sat (laneMode me.t w))
                (fun k => if k < last then s.elementAt con me w k else none) (laneRounds w.ty.toNat) 0).getD
                (laneIdentity (w.b.toNat % 16) w.ty.toNat) % 2 ^ n)) ∧
   (∀ (ty x y : Nat) (fp : FpMode), ty < 8 → x < 2 ^ formatBits ty → y < 2 ^ formatBits ty →
      (laneCombine 0 ty false fp x y = (x + y) % 2 ^ formatBits ty) ∧
      (laneCombine 1 ty false fp x y = if typedInt ty x ≤ typedInt ty y then x else y) ∧
      (laneCombine 2 ty false fp x y = if typedInt ty y ≤ typedInt ty x then x else y))

/-! ## Barriers, tile handles and banks at issue -/

/-- R223: BALLOC takes the lowest free slot of its quad: its generation rises (1 after 255), it has one hold, the context, INIT and ARR
equal to the count, no bytes and phase 0; every executing lane writes the handle to S[D] and true to P[A]; without a free slot S[D] is 0 and
P[A] false. R224: BREF on a current handle with fewer than 65,535 holds raises the holds of its slot and the references of the block by one;
BFREE lowers both by one and returns the slot to the pool at no hold; once for the group. The lanes owe REGION and move to next(PC). -/
def Obligations.BarrierPoolResults : Prop :=
   (∀ (w : AluWord) (s : State) (l : Latch), s.issues l → s.squadListed l → (tget s.blocks l.blk).isSome = true → s.guardsKnown l w.g →
      (∀ x ∈ l.lanesOf, s.regionNext l x) → s.onLanes l w.g w.n ≠ [] → w.d.toNat < 64 → w.a.toNat % 8 < 7 →
      ∀ (count : Nat), 1 ≤ count → count ≤ 2 ^ 20 →
      (∀ x ∈ l.lanesOf, s.laneOn l x w.g w.n →
        s.operandsFit l x ([sOperand 0 w.d 1 false true] ++ if w.lit.isNone then [sOperand 2 w.b] else []) ∧
        count = (match w.lit with | some c => c.toNat | none => ((s.laneAt l x).sq w.b).toNat) % 2 ^ 21) →
      let dq := blockCore (s.block l.blk) l.sq / 4
      let free := (List.range 256).find? fun i => !((s.quad dq).barrier i).allot
      ∃ t, exec (.balloc w) s = .next t ∧ t.mem = s.mem ∧ s.sameAccs t ∧ (∀ k, (∀ x ∈ l.lanesOf, k ≠ l.key x) → t.thr k = s.thr k) ∧
        (∀ m, m ≠ w.d.toNat → (t.squad l.blk l.sq).readS m = (s.squad l.blk l.sq).readS m) ∧
        (∀ x ∈ l.lanesOf, s.laneOn l x w.g w.n →
          t.thr (l.key x) = { (s.thr (l.key x)).writeP (w.a.toNat % 8) free.isSome with owed := .afterCommit, pc := l.next, stepOver := none }) ∧
        (∀ x ∈ l.lanesOf, ¬ s.laneOn l x w.g w.n → t.thr (l.key x) = { s.thr (l.key x) with pc := l.next, stepOver := none }) ∧
        (∀ q i, (t.quad q).barrier i =
          if q = dq ∧ free = some i then
            { allot := true, gen := ((s.quad dq).barrier i).gen % 255 + 1, hold := 1, ctx := (s.block l.blk).ctx, init := count, arr := count,
              bytes := 0, phase := 0 }
          else (s.quad q).barrier i) ∧
        ((t.squad l.blk l.sq).readS w.d.toNat).toNat =
          match free with
          | some i => i + dq % 48 * 2 ^ 8 + dq / 48 * 2 ^ 14 + (((s.quad dq).barrier i).gen % 255 + 1) * 2 ^ 16
          | none => 0) ∧
   (∀ (w : AluWord) (s : State) (l : Latch), s.issues l → s.guardsKnown l w.g → (tget s.blocks l.blk).isSome = true →
      (∀ x ∈ l.lanesOf, s.regionNext l x) → s.onLanes l w.g w.n ≠ [] →
      ∀ (h : BitVec 32),
      (∀ x ∈ l.lanesOf, s.laneOn l x w.g w.n →
        s.operandsFit l x [sOperand 1 w.a] ∧ h = ((s.laneAt l x).sq w.a).truncate 32 ∧ s.current (s.block l.blk).ctx h = true) →
      let d := handleOf h
      let old := s.slotOf d
      let done := fun t : State => t.mem = s.mem ∧ t.accs = s.accs ∧ s.sameSquads t ∧ (∀ k, (∀ x ∈ l.lanesOf, k ≠ l.key x) → t.thr k = s.thr k) ∧
        (∀ q i, ¬ (q = d.dquad ∧ i = d.slot) → (t.quad q).barrier i = (s.quad q).barrier i) ∧
        ∀ x ∈ l.lanesOf, t.thr (l.key x) =
          if s.laneOn l x w.g w.n then { s.thr (l.key x) with owed := .afterCommit, pc := l.next, stepOver := none } else { s.thr (l.key x) with pc := l.next, stepOver := none }
      (old.hold < 65535 →
        ∃ t, exec (.bref w) s = .next t ∧ done t ∧ t.slotOf d = { old with hold := old.hold + 1 } ∧
          (t.block l.blk).ref h = (s.block l.blk).ref h + 1) ∧
      (1 ≤ old.hold →
        ∃ t, exec (.bfree w) s = .next t ∧ done t ∧ t.slotOf d = { old with hold := old.hold - 1, allot := decide (1 < old.hold) } ∧
          (t.block l.blk).ref h = (s.block l.blk).ref h - 1))

/-- R241: TCFG writes the 128 bits of two S registers to a tile handle of its block when no reserved bit is set and STRIPE is not 3; TINFO
writes a handle to two S registers. The lanes move to next(PC), and nothing else changes. -/
def Obligations.TileHandleResults : Prop :=
  ∀ (w : AluWord) (s : State) (l : Latch), s.issues l → s.squadListed l → (tget s.blocks l.blk).isSome = true → s.guardsKnown l w.g →
    s.onLanes l w.g w.n ≠ [] →
    let pcs := fun t : State => ∀ x ∈ l.lanesOf, t.thr (l.key x) = { s.thr (l.key x) with pc := l.next, stepOver := none }
    let rest := fun t : State => s.onlyGroup t ∧ s.sameAccs t ∧ (∀ k, (∀ x ∈ l.lanesOf, k ≠ l.key x) → t.thr k = s.thr k) ∧
      (t.squad l.blk l.sq).j = (s.squad l.blk l.sq).j ∧ s.squadFrame t l ∧ ∀ b, b ≠ l.blk → t.block b = s.block b
    (w.a.toNat < 63 →
      (∀ x ∈ l.lanesOf, s.laneOn l x w.g w.n → s.operandsFit l x [sOperand 1 w.a 2]) →
      let v := ((s.squad l.blk l.sq).readS w.a.toNat).toNat + ((s.squad l.blk l.sq).readS (w.a.toNat + 1)).toNat * 2 ^ 64
      tileReserved v = none →
      ∃ t, exec (.tcfg w) s = .next t ∧ rest t ∧ pcs t ∧ (t.squad l.blk l.sq).s = (s.squad l.blk l.sq).s ∧
        (∀ i, (t.block l.blk).handle i = if i = w.d.toNat % 16 then BitVec.ofNat 128 v else (s.block l.blk).handle i) ∧
        t.block l.blk = { s.block l.blk with bySwap := false, h := (t.block l.blk).h }) ∧
    (w.d.toNat < 63 →
      (∀ x ∈ l.lanesOf, s.laneOn l x w.g w.n → s.operandsFit l x [sOperand 0 w.d 2 false true]) →
      ∃ t, exec (.tinfo w) s = .next t ∧ rest t ∧ pcs t ∧ t.block l.blk = { s.block l.blk with bySwap := false } ∧
        ∀ m, (t.squad l.blk l.sq).readS m =
          if m = w.d.toNat then ((s.block l.blk).handle (w.b.toNat % 16)).truncate 64
          else if m = w.d.toNat + 1 then (((s.block l.blk).handle (w.b.toNat % 16)) >>> 64).truncate 64
          else (s.squad l.blk l.sq).readS m)

/-- R244: ACRDR and ACRDC write the registers from D, each with two consecutive elements of a row or column of the bank, the first in its low
half; ACWRR and ACWRC write the elements of their slice from the registers from D, and make the bank dirty; of the writes of a cycle to one
element that of the highest thread index stands: the highest lane's of the group, unless another slot's thread of a higher index has written it. The
lanes move to next(PC); memory, S registers, other threads and other banks are as before. -/
def Obligations.SliceMoveResults : Prop :=
  ∀ (w : AluWord) (s : State) (l : Latch) (row : Bool), s.issues l → s.guardsKnown l w.g → s.onLanes l w.g w.n ≠ [] →
    let dq := (s.block l.blk).dquad
    let bank := w.b.toNat % 16
    let n := 2 * (w.c.toNat % 8 + 1)
    let rest := fun t : State => t.mem = s.mem ∧ s.sameAccs t ∧ s.sameSquads t ∧ (∀ k, (∀ x ∈ l.lanesOf, k ≠ l.key x) → t.thr k = s.thr k) ∧
      ∀ q i, ¬ (q = dq ∧ i = bank) → t.bank q i = s.bank q i
    ((∀ x ∈ l.lanesOf, s.laneOn l x w.g w.n → s.mayMove l x w row true) →
      ∃ t, exec (if row then .acrdr w else .acrdc w) s = .next t ∧ rest t ∧ t.bank dq bank = s.bank dq bank ∧
        ∀ x ∈ l.lanesOf,
          let u := s.thr (l.key x)
          let v := t.thr (l.key x)
          if s.laneOn l x w.g w.n then
            v = { u with v := v.v, pass := none, pc := l.next, stepOver := none } ∧
            (∀ m, m < n / 2 → v.readV (w.d.toNat + m) =
              (sget 0 (s.bank dq bank).data (s.sliceAt l x w row (2 * m + 1)) ++ sget 0 (s.bank dq bank).data (s.sliceAt l x w row (2 * m)) : BitVec 64)) ∧
            ∀ m, m < w.d.toNat ∨ w.d.toNat + n / 2 ≤ m → v.readV m = u.readV m
          else v = { u with pc := l.next, stepOver := none }) ∧
    ((∀ x ∈ l.lanesOf, s.laneOn l x w.g w.n → s.mayMove l x w row false) → (s.bank dq bank).poisoned = false →
      (∀ x ∈ l.lanesOf, (s.thr (l.key x)).tid = 32 * l.sq + x) →
      let wrote := fun k => tgetD (s.bank dq bank).wrote k 0
      ∃ t, exec (if row then .acwrr w else .acwrc w) s = .next t ∧ rest t ∧
        t.bank dq bank = { s.bank dq bank with data := (t.bank dq bank).data, wrote := (t.bank dq bank).wrote, dirty := (t.bank dq bank).dirty,
                                               cured := (t.bank dq bank).cured } ∧
        ((s.bank dq bank).wrote = [] → (t.bank dq bank).dirty = true ∧ (t.bank dq bank).cured = []) ∧
        (∀ k, sget 0 (t.bank dq bank).data k =
          match ((s.onLanes l w.g w.n).filter fun x => (List.range n).any fun j => s.sliceAt l x w row j == k).getLast? with
          | some x => match (List.range n).find? (fun j => s.sliceAt l x w row j == k) with
            | some j => if 32 * l.sq + x < wrote k then sget 0 (s.bank dq bank).data k else (s.thr (l.key x)).sliceHalf w j
            | none => sget 0 (s.bank dq bank).data k
          | none => sget 0 (s.bank dq bank).data k) ∧
        ∀ x ∈ l.lanesOf,
          let u := s.thr (l.key x)
          t.thr (l.key x) = if s.laneOn l x w.g w.n then { u with pass := none, pc := l.next, stepOver := none } else { u with pc := l.next, stepOver := none })

/-- R242, R323: RKACQ asks for the banks of a mask or for the lowest free ones of a count; with all of them free and their save area within the
reservation it has them all, else none. S[D] holds the mask of what it has and P[A] whether that is not empty; the block owns them; a
bank without another occupant holds zeros at once, and one with another occupant is handed over. The lanes owe REGION. -/
def Obligations.RkacqResult : Prop :=
  ∀ (w : AluWord) (s : State) (l : Latch), s.issues l → s.squadListed l → (tget s.blocks l.blk).isSome = true → s.guardsKnown l w.g →
    (∀ x ∈ l.lanesOf, s.regionNext l x) → s.onLanes l w.g w.n ≠ [] → w.d.toNat < 64 → w.a.toNat % 8 < 7 →
    ∀ (ask : Nat),
    (∀ x ∈ l.lanesOf, s.laneOn l x w.g w.n →
      s.operandsFit l x ([sOperand 0 w.d 1 false true] ++ if w.lit.isNone then [sOperand 2 w.b] else []) ∧
      ask = match w.lit with | some c => c.toNat | none => ((s.laneAt l x).sq w.b).toNat) →
    let b := s.block l.blk
    let free := (List.range 16).filter fun i => s.bankFree b.dquad i
    let want := if w.c.getLsbD 0 then (List.range 16).filter (fun i => ask.testBit i) else free.take ask
    let possible := if w.c.getLsbD 0 then decide (∀ i ∈ want, i ∈ free) else decide (1 ≤ ask ∧ ask ≤ 16 ∧ ask ≤ free.length)
    let got := if possible ∧ s.saveFits b.ctx (65536 * want.length) = true then want else []
    ∃ t, exec (.rkacq w) s = .next t ∧ t.mem = s.mem ∧ s.sameAccs t ∧ (∀ k, (∀ x ∈ l.lanesOf, k ≠ l.key x) → t.thr k = s.thr k) ∧
      (∀ i, ((t.squad l.blk l.sq).readS w.d.toNat).getLsbD i = true ↔ i ∈ got) ∧
      (∀ m, m ≠ w.d.toNat → (t.squad l.blk l.sq).readS m = (s.squad l.blk l.sq).readS m) ∧
      (∀ i, (t.block l.blk).banks.getLsbD i = true ↔ b.banks.getLsbD i = true ∨ i ∈ got) ∧
      (∀ q i, t.bank q i =
        if q = b.dquad ∧ i ∈ got then
          match (s.bank q i).occupant with
          | none => { occupant := some l.blk }
          | some o => if o = l.blk then { occupant := some l.blk } else { s.bank q i with handover := some l.blk }
        else s.bank q i) ∧
      ∀ x ∈ l.lanesOf,
        let u := s.thr (l.key x)
        t.thr (l.key x) =
          if s.laneOn l x w.g w.n then { u.writeP (w.a.toNat % 8) (!got.isEmpty) with owed := .afterCommit, pc := l.next, stepOver := none } else { u with pc := l.next, stepOver := none }

/-- R243: RKREL takes the banks of its mask from its block; a released bank that the block occupied, on which it has no command and no move,
has no occupant and zero contents. The lanes owe REGION and move to next(PC); memory, the accesses and every register are as before. -/
def Obligations.RkrelResult : Prop :=
  ∀ (w : AluWord) (s : State) (l : Latch), s.issues l → (tget s.blocks l.blk).isSome = true → s.guardsKnown l w.g →
    (∀ x ∈ l.lanesOf, s.regionNext l x) → s.onLanes l w.g w.n ≠ [] →
    ∀ (mask : Nat),
    (∀ x ∈ l.lanesOf, s.laneOn l x w.g w.n →
      s.operandsFit l x [sOperand 1 w.a] ∧ mask = ((s.laneAt l x).sq w.a).toNat % 65536) →
    let b := s.block l.blk
    ∃ t, exec (.rkrel w) s = .next t ∧ t.mem = s.mem ∧ t.accs = s.accs ∧ s.sameSquads t ∧
      (∀ k, (∀ x ∈ l.lanesOf, k ≠ l.key x) → t.thr k = s.thr k) ∧
      (∀ i, (t.block l.blk).banks.getLsbD i = (b.banks.getLsbD i && !mask.testBit i)) ∧
      (∀ i, i < 16 → mask.testBit i = true → b.banks.getLsbD i = true → (s.bank b.dquad i).occupant = some l.blk →
        (∀ c ∈ s.commandsOn b.dquad, ¬ (c.1.blk = l.blk ∧ c.2.bank = i)) → s.moveWaits l.blk i = false →
        (t.bank b.dquad i).occupant = none ∧ ∀ k, sget 0 (t.bank b.dquad i).data k = 0) ∧
      (∀ q i, ¬ (q = b.dquad ∧ i < 16 ∧ mask.testBit i = true ∧ b.banks.getLsbD i = true) → t.bank q i = s.bank q i) ∧
      ∀ x ∈ l.lanesOf,
        let u := s.thr (l.key x)
        t.thr (l.key x) = if s.laneOn l x w.g w.n then { u with owed := .afterCommit, pc := l.next, stepOver := none } else { u with pc := l.next, stepOver := none }

/-- R211, R278: PREF makes no access and writes no register: its lanes move to next(PC), and memory, the contexts, the page classes and every
register are as before. With no message of another die on its way, whose arrival it could bring forward, the accesses and every thread are as
before. A line of a resident page in HBM that no level has is asked of its stack, when the queue has room. -/
def Obligations.PrefetchResult : Prop :=
  ∀ (w : MemWord) (s : State) (l : Latch), s.issues l → s.guardsKnown l w.g →
    (∀ x ∈ l.lanesOf, s.laneOn l x w.g w.n → s.operandsFit l x [{ field := 2, name := memBase w false }]) →
    ∃ t, exec (.pref w) s = .next t ∧ t.mem = s.mem ∧ t.ctxs = s.ctxs ∧ s.sameSquads t ∧
      t.blocks = tmod s.blocks l.blk (fun b => { b with bySwap := false }) ∧
      (∀ k, (t.thr k).v = (s.thr k).v ∧ (t.thr k).p = (s.thr k).p) ∧ (∀ x ∈ l.lanesOf, (t.thr (l.key x)).pc = l.next) ∧
      (s.quiet → t.accs = s.accs ∧ (∀ k, (∀ x ∈ l.lanesOf, k ≠ l.key x) → t.thr k = s.thr k) ∧
        ∀ x ∈ l.lanesOf, t.thr (l.key x) = { s.thr (l.key x) with pc := l.next, stepOver := none }) ∧
      ∀ x, s.onLanes l w.g w.n = [x] → ∀ va pa e lv,
        let L := s.laneAt l x
        pointer L.block L.rank .any (L.ea w false) (2 ^ w.size.toNat) 0 = .ok (.global va) →
        s.translate L.block.ctx va (coreDie (s.thrCore L.t)) .read = .ok pa e lv → inHbm pa = true → s.lineHeld (lineOf pa) = false →
        (∀ lvl, s.holds lvl (lineOf pa) = none) → s.asked (lineOf pa) = false → (s.packetsAt (stackOf (lineOf pa * 128))).length < 1024 →
        t.asked (lineOf pa) = true

/-! ## Performing accesses -/

/-- R200, R261, R279, R281, R282, R292: LOAD_PERFORM of a load that nothing precedes performs one of its parts of 8 bytes, or the whole of at
most 8, from a scratchpad or from device memory whose line is in its L1; the last part returns the bytes of all and lowers its bead. A load that
its own thread's store covers returns the store's bytes, and is performed once the store has been. A load of a line of HBM that no level has asks
the stack for it and waits; one that must probe a peer sends its probe and waits for the answer; one whose page's owner has accesses left waits; and
one of host memory or of another package is sent. -/
def Obligations.LoadPerformResults : Prop :=
  (∀ (s : State) (a : Access), s.dueNow a → a.kind = .load → s.noWatch → a.partsLeft ≠ [] →
    (a.got ≠ [] ∨ s.ownStore a = none → ∀ key, a.key = some key →
      let device := key < 2 ^ 48 ∧ inHost key = false ∧ s.classWaits a.ctx a.va (some a.core) = false ∧ s.keepsClass a a.core false ∧
        s.lineHeld (lineOf key) = false
      (2 ^ 48 ≤ key → s.poisoned key a.size = false → ∃ t, exec (.loadPerform a.id) s = .next t ∧ s.hasLoadedPart t a key) ∧
      (device → a.probe = none → (s.holds (.l1 a.core) (lineOf key)).isSome = true → s.poisoned key a.size = false →
        (homeDie key = some (coreDie a.core) ∨ s.classOf a.ctx a.va ≠ 3) →
        ∃ t, exec (.loadPerform a.id) s = .next t ∧ s.hasLoadedPart t a key) ∧
      (device → inHbm key = true → (homeDie key = some (coreDie a.core) ∨ s.quiet) → a.probe = none → s.probes a a.va (lineOf key) = none →
        (∀ lv, s.holds lv (lineOf key) = none) → s.asked (lineOf key) = false → (s.packetsAt (stackOf (lineOf key * 128))).length < 1024 →
        ∃ t, exec (.loadPerform a.id) s = .next t ∧ t.mem = s.mem ∧ t.accs = s.accs ∧ t.threads = s.threads ∧ t.asked (lineOf key) = true) ∧
      (∀ core, device → a.probe = none → s.probes a a.va (lineOf key) = some core →
        ∃ t, exec (.loadPerform a.id) s = .next t ∧
          t = { s with accs := s.accs.map fun x => if x.id = a.id then { x with probe := some (core, lineOf key) } else x }) ∧
      (device → a.probe.isSome = true → exec (.loadPerform a.id) s = .next s) ∧
      (key < 2 ^ 48 → inHost key = false → s.classWaits a.ctx a.va (some a.core) = true → exec (.loadPerform a.id) s = .next s) ∧
      (inHost key = true → key < 2 ^ 48 → s.ideDenied a.ctx a.scope = false → s.links.hostUp = true →
        ∃ t, exec (.loadPerform a.id) s = .next t ∧
          t = { s with accs := s.accs.map fun x => if x.id = a.id then { x with stage := .sent, sentAt := s.time.toNat } else x })) ∧
    (∀ x key k, a.got = [] → s.ownStore a = some x → x.masked = [] → x.key = some k → a.key = some key →
      let v := x.data / 2 ^ (8 * (key - k)) % 2 ^ (8 * a.size)
      ∃ t, exec (.loadPerform a.id) s = .next t ∧ t.mem = s.mem ∧ s.hasGiven t a v ∧
        t.accs.map Access.own =
          s.accs.map fun y => if y.id = a.id then ({ y with dests := [], data := v, stage := .bound x.id s.nextId } : Access).own else y.own) ∧
    (a.key = none → a.package ≠ s.links.packageId → ∀ r, tget s.links.routes a.package = some r → r.held = false →
      ∃ t, exec (.loadPerform a.id) s = .next t ∧
        t = { s with accs := s.accs.map fun x => if x.id = a.id then { x with stage := .sent, sentAt := s.time.toNat } else x })) ∧
  (∀ (s : State) (a : Access) (x upto : Nat), s.acc a.id = some a → s.hasIssuer a → a.stage = .bound x upto → s.noWatch →
    (s.acc x = none → a.dests = [] → ∃ t, exec (.loadPerform a.id) s = .next t ∧ t.mem = s.mem ∧ s.hasReturned t a 0) ∧
    (s.acc x ≠ none → exec (.loadPerform a.id) s = .next s))

/-- R200, R205, R258, R260, R279, R292, R297: STORE_PERFORM of a store that nothing precedes writes a part of 8 bytes, or the whole of at most 8,
to its place and nothing else of memory, and with the last part lowers its bead: in a scratchpad, in host memory, in the L1 of the owner of a private
page or one that holds the line exclusive, and at a home slice of its own die. At a home slice of another die every part's acknowledgement is on its
way with the home's clock, and the last part waits for its own, a second STORE_PERFORM, which lowers the bead and writes nothing. A store to a page
whose owner has accesses left waits. -/
def Obligations.StorePerformResults : Prop :=
  ∀ (s : State) (a : Access) (key : Nat), s.acc a.id = some a → s.hasIssuer a → a.kind = .store → a.key = some key →
    a.dests = [] → s.noWatch → (∀ m ∈ s.acks, m.acc ≠ a.id) →
    let die := coreDie a.core
    let device := key < 2 ^ 48 ∧ inHost key = false ∧ s.writeWaits a key = none ∧ s.keepsClass a a.core true
    let inL1 := s.classOf a.ctx a.va = 1 ∨ s.exclusive a.core (lineOf key) = true
    (a.stage = .issued → s.waits a = false →
      (a.partsLeft ≠ [] →
        2 ^ 48 ≤ key ∨ (key < 2 ^ 48 ∧ inHost key = true ∧ s.ideDenied a.ctx a.scope = false ∧ s.links.hostUp = true) ∨
          (device ∧ inL1 ∧ ((s.holds (.l1 a.core) (lineOf key)).isSome = true ∨ s.quiet)) ∨
          (device ∧ ¬ inL1 ∧ homeDie key = some die ∧ (s.recallsOn (lineOf key) die ∨ s.quiet)) →
        ∃ t, exec (.storePerform a.id) s = .next t ∧ s.hasStoredPart t a key (s.hasReturned t a 0)) ∧
      (a.partsLeft ≠ [] → device → ¬ inL1 → s.quiet → ∀ home, homeDie key = some home → home ≠ die →
        ∃ t, exec (.storePerform a.id) s = .next t ∧ s.hasSentPart t a key home) ∧
      (key < 2 ^ 48 → inHost key = false → s.duplicated a.ctx a.va = false → s.classWaits a.ctx a.va (some a.core) = true →
        exec (.storePerform a.id) s = .next s)) ∧
    (∀ home stamp i, a.stage = .acked home stamp → a.partsLeft = [i] → home < 4 → home ≠ die →
      countLe (stamp.getD home 0) ((s.die die).clock.getD home 0) = true ∨ countLe ((s.die die).clock.getD home 0) (stamp.getD home 0) = true →
      s.notices = [] → s.acks = [] → (∀ x ∈ s.accs, x ≠ a → ∀ h st, x.stage ≠ .acked h st) →
      ∃ t, exec (.storePerform a.id) s = .next t ∧ t.mem = s.mem ∧ s.hasReturned t a 0)

/-- R206 to R210, R260, R268: ATOMIC_PERFORM of an atomic that nothing precedes leaves the value of Table 8.7 at its place (none for a failed
compare), and returns the old value: in a scratchpad, in an L1 for the scopes blk and quad, and at a home slice that has the line. A far atomic of a
line that no level holds dirty goes as a packet to its base die, and HBM_ATOMIC_PACKET makes it there. Table 8.7: the values that the atomics leave,
for sizes of 4 and 8 bytes: sum and difference modulo 2^w, minimum and maximum of signed or unsigned numbers, the bitwise operations, the exchange,
and the compare-exchange, which leaves the old value when it does not match. -/
def Obligations.AtomicResults : Prop :=
   (∀ (s : State) (a : Access) (op : AtomOp) (returns : Bool) (key : Nat), s.hasIssuer a → a.kind = .atomic op returns →
      a.key = some key → s.noWatch → s.poisoned key a.size = false →
      let old := s.readMem key a.size
      let line := lineOf key
      let near := a.scope = 1 ∨ a.scope = 2
      let core := if near then s.atomCore a else a.core
      let device := key < 2 ^ 48 ∧ inHost key = false ∧ s.writeWaits a key = none ∧ s.classWaits a.ctx a.va (some core) = false ∧
        s.keepsClass a core true
      (s.due a.id = some a →
        (2 ^ 48 ≤ key ∨
          (device ∧ near ∧ ∃ home, homeDie key = some home ∧ (s.classOf a.ctx a.va = 1 ∨ home = coreDie core) ∧
            ((s.holds (.l1 core) line).isSome = true ∧ (s.classOf a.ctx a.va = 1 ∨ s.exclusive core line = true ∨ s.quiet) ∨
             (s.quiet ∧ home = coreDie core ∧ s.sectorsAt (.l2 home) line = 15))) ∨
          (device ∧ ¬ near ∧ a.scope ≠ 6 ∧ ∃ home, homeDie key = some home ∧ s.sectorsAt (.l2 home) line = 15 ∧
            (home = coreDie a.core ∧ s.recallsOn line home ∨ s.quiet)) →
          ∃ t, exec (.atomicPerform a.id) s = .next t ∧ s.hasBytes t key a.size (a.atomNew op old) ∧ s.hasReturned t a old) ∧
        (device → a.scope = 6 → inHbm key = true → (∀ lv, s.holds lv line = none) → (homeDie key = some (coreDie a.core) ∨ s.quiet) →
          (s.packetsAt (stackOf key)).length < 1024 →
          ∃ t, exec (.atomicPerform a.id) s = .next t ∧ t.mem = s.mem ∧ t.threads = s.threads ∧
            t.packetsAt (stackOf key) = s.packetsAt (stackOf key) ++ [.atomic s.nextId a.id] ∧
            t.accs = s.accs.map fun x => if x.id = a.id then { x with stage := .atBase } else x)) ∧
      (∀ stack tag, s.acc a.id = some a → s.packetsAt stack = [.atomic tag a.id] → s.evicted = [] → s.quiet → s.keyGone a = none →
        ∃ t, exec (.hbmAtomicPacket stack tag) s = .next t ∧ s.hasBytes t key a.size (a.atomNew op old) ∧ s.hasReturned t a old ∧
          t.packetsAt stack = [])) ∧
   (∀ (var : Bool) (size old v v2 : Nat), size = 4 ∨ size = 8 → old < 2 ^ (8 * size) → v < 2 ^ (8 * size) →
      let w := 8 * size
      let value := fun c => atomResult { code := c, var := var } size old v v2
      let num := fun x : Nat => if var then (if 2 ^ (w - 1) ≤ x then (x : Int) - 2 ^ w else x) else (x : Int)
      value 0 = some ((old + v) % 2 ^ w) ∧
      (∃ d, value 1 = some d ∧ d < 2 ^ w ∧ (d + v) % 2 ^ w = old) ∧
      (∃ d, value 2 = some d ∧ (d = old ∨ d = v) ∧ num d ≤ num old ∧ num d ≤ num v) ∧
      (∃ d, value 3 = some d ∧ (d = old ∨ d = v) ∧ num old ≤ num d ∧ num v ≤ num d) ∧
      (∃ d, value 4 = some d ∧ ∀ i, d.testBit i = (old.testBit i && v.testBit i)) ∧
      (∃ d, value 5 = some d ∧ ∀ i, d.testBit i = (old.testBit i || v.testBit i)) ∧
      (∃ d, value 6 = some d ∧ ∀ i, d.testBit i = (old.testBit i != v.testBit i)) ∧
      value 7 = some v ∧ value 9 = if old = v then some v2 else none)

/-- R200, R277, R279, R366, R365, R466, R455: the completion of a host access returns the host's bytes to a load, a part of 8 bytes at a time, and
makes an atomic on them, or with another status fails it with HOST_ACCESS_FAILED; the acknowledgement of a space-4 access performs it with its
value, or fails it with REMOTE_ERROR, and a poisoned one with POISON_CONSUMED, which names the structure; and an access without an
acknowledgement for 10 ms of $time fails with LINK_TIMEOUT, naming its port, unless its own package has its request waiting. -/
def Obligations.AnswerResults : Prop :=
  ∀ (s : State) (a : Access), s.acc a.id = some a → a.stage = .sent → s.hasIssuer a →
    (∀ key, a.key = some key →
      (a.kind = .load → a.partsLeft ≠ [] → ∃ t, exec (.hostAccessCompletion a.id 0) s = .next t ∧ s.hasLoadedPart t a key) ∧
      (∀ op r, a.kind = .atomic op r → ∃ t, exec (.hostAccessCompletion a.id 0) s = .next t ∧
        s.hasBytes t key a.size (a.atomNew op (s.readMem key a.size)) ∧ s.hasReturned t a (s.readMem key a.size)) ∧
      (∀ status, status ≠ 0 → s.canTell a → ∃ t, exec (.hostAccessCompletion a.id status) s = .next t ∧
        s.hasFailed t a 0x0B05 (status % 8))) ∧
    (a.key = none →
      (∀ value, a.kind = .load ∨ (∃ op r, a.kind = .atomic op r) ∨ (a.kind = .store ∧ a.dests = []) →
        ∃ t, exec (.space4Ack a.id value none) s = .next t ∧ t.mem = s.mem ∧ s.hasReturned t a (value % 2 ^ (8 * a.size))) ∧
      (∀ value, s.canTell a → ∃ t, exec (.space4Ack a.id value (some 0x0A02)) s = .next t ∧ s.hasFailed t a 0x0A02 (value % 256)) ∧
      (∀ value code, code ≠ 0x0B01 → code ≠ 0x0A02 → code < 65536 → s.canTell a → ∃ t, exec (.space4Ack a.id value (some code)) s = .next t ∧ s.hasFailed t a 0x0B03 code) ∧
      (∀ r, tget s.links.routes a.package = some r → a.sentAt + 10000000 ≤ s.time.toNat → s.canTell a →
        s.waitsHere a.id = false → ∃ t, exec (.linkTimeout a.id) s = .next t ∧ s.hasFailed t a 0x0B02 r.port) ∧
      (s.waitsHere a.id = true → exec (.linkTimeout a.id) s = .next s))

/-! ## Barrier units, cloves, engines and banks -/

/-- R222, R225 to R227, R440: a BEXPECT and a BARRIVE move ARR and BYTES of a current slot, the phase ending when both reach 0, and BARRIVE
returns the phase before; BTEST returns whether the phase has completed; a thread in BWAIT goes on after its instruction once the phase has
completed and stays while it has not; an update of a stale handle fails with BARRIER_STALE. R231, R441: a byte credit of an engine, or the
arrival of a command or grid, lowers BYTES and ARR of its current slot, the phase ending when both are 0, and the bead of its operation
falls; one to a stale handle changes no slot and fails with BARRIER_STALE that names its origin. R283, R291, R297: a BTEST and a BWAIT whose
phase has completed, and BARRIVE, bring the clock of the slot's die to the die of the thread, and a credit brings its stamp to the slot's die. -/
def Obligations.BarrierUnitResults : Prop :=
   (∀ (s : State) (a : Access), s.dueNow a → ((handleOf (a.ea.truncate 32)).dquad / 48 = coreDie a.core ∨ s.quiet) →
      let h := handleOf (a.ea.truncate 32)
      let b := s.slotOf h
      (s.current a.ctx (a.ea.truncate 32) = true →
        (∀ arr bytes, a.kind = .sync (.expect arr bytes) → a.dests = [] → b.fits arr bytes →
          ∃ t, exec (.barrierUpdate a.id) s = .next t ∧ t.mem = s.mem ∧ t.slotOf h = b.moved arr bytes ∧ s.otherSlots t h ∧ s.hasReturned t a 0) ∧
        (∀ count bytes, a.kind = .sync (.arrive count bytes) → b.fits (-(count : Int)) bytes →
          ∃ t, exec (.barrierUpdate a.id) s = .next t ∧ t.mem = s.mem ∧ t.slotOf h = b.moved (-(count : Int)) bytes ∧ s.otherSlots t h ∧
            s.hasReturned t a b.phase) ∧
        (∀ phase, a.kind = .sync (.test phase) → (s.thr a.thr).held = none →
          ∃ t, exec (.barrierUpdate a.id) s = .next t ∧ t.mem = s.mem ∧ t.quads = s.quads ∧ s.hasReturned t a (if b.past phase then 1 else 0)) ∧
        (∀ phase, a.kind = .sync (.wait phase) → a.dests = [] → (s.thr a.thr).wait = .bwait a.id → (s.thr a.thr).held = none →
          (b.past phase → ∃ t, exec (.barrierUpdate a.id) s = .next t ∧ t.mem = s.mem ∧ t.quads = s.quads ∧
            t.accs = s.accs.filter (fun x => x.id != a.id) ∧
            ∀ k, t.thr k = if k = a.thr then { a.returnTo (s.thr k) 0 with wait := .ready, pc := nextPc (s.thr k).pc 2 } else s.thr k) ∧
          (¬ b.past phase → exec (.barrierUpdate a.id) s = .next s))) ∧
      (∀ arr bytes, s.current a.ctx (a.ea.truncate 32) = false → a.kind = .sync (.expect arr bytes) → a.ea.toNat < 2 ^ 32 → s.canTell a →
        ∃ t, exec (.barrierUpdate a.id) s = .next t ∧ s.hasFailed t a 0x0603 0 ∧ t.quads = s.quads)) ∧
   (∀ (s : State) (n : Nat) (c : Credit), tget s.credits n = some c → s.acc c.acc = none → (c.stamp = [] ∨ s.quiet) →
      let h := handleOf c.handle
      (s.current c.ctx c.handle = true → (s.slotOf h).fits (-(c.arrivals : Int)) (-(c.bytes : Int)) →
        ∃ t, exec (.engineCredit n) s = .next t ∧ t.mem = s.mem ∧ t.threads = s.threads ∧ t.accs = s.accs ∧ tget t.credits n = none ∧
          t.slotOf h = (s.slotOf h).moved (-(c.arrivals : Int)) (-(c.bytes : Int)) ∧ s.otherSlots t h) ∧
      (s.current c.ctx c.handle = false → c.blk ≠ 0 → (tget s.threads c.thr).isSome = true → (s.thr c.thr).live = true → (s.thr c.thr).blk = c.blk →
        (s.thr c.thr).held = none → (s.ctx c.ctx).halted = false →
        ∃ t, exec (.engineCredit n) s = .next t ∧ t.mem = s.mem ∧ t.quads = s.quads ∧
          ∃ f : FaultInfo, (t.thr c.thr).held = some (f, c.pc) ∧ f.code = 0x0603 ∧ f.detail = c.origin)) ∧
   (∀ (s : State) (n : Nat) (c : Credit) (a : Access), tget s.credits n = some c → s.acc c.acc = some a → s.hasIssuer a → a.dests = [] →
      (c.stamp = [] ∨ s.quiet) → s.current c.ctx c.handle = true → (s.slotOf (handleOf c.handle)).fits (-(c.arrivals : Int)) (-(c.bytes : Int)) →
      ∃ t, exec (.engineCredit n) s = .next t ∧ t.mem = s.mem ∧ s.hasReturned t a 0 ∧ tget t.credits n = none ∧
        t.slotOf (handleOf c.handle) = (s.slotOf (handleOf c.handle)).moved (-(c.arrivals : Int)) (-(c.bytes : Int)) ∧ s.otherSlots t (handleOf c.handle)) ∧
   (∀ (s : State) (a : Access), s.dueNow a → s.current a.ctx (a.ea.truncate 32) = true → s.quiet → (s.thr a.thr).held = none →
      let b := s.slotOf (handleOf (a.ea.truncate 32))
      let unit := (handleOf (a.ea.truncate 32)).dquad / 48
      let die := coreDie a.core
      let count := (s.die unit).clock.getD unit 0
      unit ≠ die → countLe count ((s.die die).clock.getD unit 0) = true ∨ countLe ((s.die die).clock.getD unit 0) count = true →
      (∃ n bytes, a.kind = .sync (.arrive n bytes) ∧ b.fits (-(n : Int)) bytes) ∨ (∃ phase, a.kind = .sync (.test phase)) ∨
        (∃ phase, a.kind = .sync (.wait phase) ∧ (s.thr a.thr).wait = .bwait a.id ∧ b.past phase) →
      ∃ t, exec (.barrierUpdate a.id) s = .next t ∧ countLe count ((t.die die).clock.getD unit 0) = true) ∧
   (∀ (s : State) (n e : Nat) (c : Credit), tget s.credits n = some c → s.quiet → c.stamp ≠ [] → e < 4 →
      let unit := (handleOf c.handle).dquad / 48
      let mine := (s.die unit).clock.getD e 0
      e ≠ unit → countLe (c.stamp.getD e 0) mine = true ∨ countLe mine (c.stamp.getD e 0) = true →
      ∃ t, exec (.engineCredit n) s = .next t ∧ countLe (c.stamp.getD e 0) ((t.die unit).clock.getD e 0) = true)

/-- R213, R445: CJOIN makes the core and block a member of the clove, which it makes when it is not active, with the timer of the grid, and
which has then reached its size when it has so many members; CLEAVE takes it out, and frees a clove that has no member left. Here the clove
has no open hold. A join of another size fails with CLOVE_MISMATCH and is performed all the same. R215, R273, R274, R447: a clove load of a
member, whose record is read and good and which has issued no earlier load that still waits, opens a hold of its sequence number with the timer of
the clove when no hold of it is open, and the member's number rises; when the timer of a hold has expired and its box is resident and whole, the
hold is gone, its one request goes on to write at its own destination each piece that the read of the box by its record has given, and the
expiry is counted. -/
def Obligations.CloveResults : Prop :=
   (∀ (s : State) (a : Access) (c : Nat), s.dueNow a → a.dests = [] →
      let die := coreDie a.core
      let x := s.clove die c
      let me := (a.core, a.blk)
      let f := (s.grid (s.block a.blk).grid).rc.flags.toNat
      (∀ h ∈ (s.die die).holds, h.clove ≠ c) →
      (∀ n, a.kind = .sync (.cjoin c n) → x.active = false →
        ∃ t, exec (.cloveTableUpdate a.id) s = .next t ∧ t.mem = s.mem ∧ s.hasReturned t a 0 ∧
          t.clove die c = { active := true, n := n, timer := (if f / 256 % 256 = 0 then 12 else f / 256 % 256), ctx := a.ctx, members := [(me, 0)],
                            reached := decide (n ≤ 1) }) ∧
      (∀ n, a.kind = .sync (.cjoin c n) → x.active = true → x.ctx = a.ctx → x.n = n → (∀ m ∈ x.members, m.1 ≠ me) →
        ∃ t, exec (.cloveTableUpdate a.id) s = .next t ∧ t.mem = s.mem ∧ s.hasReturned t a 0 ∧
          t.clove die c = { x with members := x.members ++ [(me, x.nextSeq)], reached := x.reached || decide (n ≤ x.members.length + 1) }) ∧
      (∀ n, a.kind = .sync (.cjoin c n) → x.active = true → x.ctx = a.ctx → x.n ≠ n → s.canTell a →
        ∃ t, exec (.cloveTableUpdate a.id) s = .next t ∧ t.mem = s.mem ∧ t.clove die c = x ∧ t.accs = s.accs.filter (fun y => y.id != a.id) ∧
          ∃ g : FaultInfo, (t.thr a.thr).held = some (g, a.pc) ∧ g.code = 0x0601 ∧ g.detail = 256 * c) ∧
      (a.kind = .sync (.cleave c) → (∃ m ∈ x.members, m.1 = me) →
        ∃ t, exec (.cloveTableUpdate a.id) s = .next t ∧ t.mem = s.mem ∧ s.hasReturned t a 0 ∧
          t.clove die c = if ∃ m ∈ x.members, m.1 ≠ me then { x with members := x.members.filter fun m => m.1 != me } else {})) ∧
   (∀ (s : State) (a : Access) (src dst c0 c1 c2 : Word), s.acc a.id = some a → a.kind = .engine (.copy .ld true src dst c0 c1 c2) → s.noWatch →
      let die := coreDie a.core
      let c := c2.toNat / 2 ^ 32 % 64
      let x := s.clove die c
      (∀ key seq, a.stage = .issued → s.waits a = false → a.key = some key → 2 ^ 48 ≤ key → s.poisoned key 128 = false →
        let r := s.readMem key 128
        trecBad r = none → boxFault (s.block a.blk) (readTrec r) dst (a.scratchAt dst).2 (coordinates (readTrec r).rank c0 c1 c2) = none →
        (x.members.find? fun m => m.1 == (a.core, a.blk)) = some ((a.core, a.blk), seq) → x.nextSeq ≤ seq → x.reached = false →
        (∀ h ∈ (s.die die).holds, h.clove ≠ c) → s.asksFirst a = false →
        ∃ t, exec (.cloveLoadRequest a.id) s = .next t ∧ t.mem = s.mem ∧ t.threads = s.threads ∧
          (t.die die).holds = (s.die die).holds ++
            [{ clove := c, seq := seq, reqs := [a.id], left := 2 ^ x.timer, slice := s.holdSlice a r }] ∧
          t.accs = s.accs.map (fun y => if y.id = a.id then { y with stage := .inHold die c seq r } else y) ∧
          (t.clove die c).members = x.members.map fun m => if m.1 = (a.core, a.blk) then (m.1, m.2 + 1) else m) ∧
      (∀ h record, (s.die die).holds.find? (fun y => y.clove == c && y.seq == h.seq) = some h → h.clove = c → h.left = 0 → h.released = false →
        h.reqs = [a.id] → a.stage = .inHold die c h.seq record → x.active = true →
        let box := readTrec record
        let reader := { a with noAlloc := box.noAlloc }
        let parts := box.parts (coordinates box.rank c0 c1 c2) 0 true
        let counted := s.modClove die c fun y => { y with nextSeq := max y.nextSeq (h.seq + 1), timerRel := y.timerRel + 1 }
        let read := parts.foldl (fun b p => b.step reader p) { state := counted.walkAhead reader parts : BoxRead }
        let base := 8 * (a.scratchAt dst).1
        read.absent = false → read.fault = none → (∀ y ∈ s.accs, y.id = a.id → y = a) →
        ∃ t, exec (.cloveTimerExpiry die c h.seq) s = .next t ∧ (t.die die).holds.all (fun y => !(y.clove == c && y.seq == h.seq)) = true ∧
          (∃ y, t.acc a.id = some y ∧
            y.stage = .moving (read.fills.map fun f => .put (.key (base + f.1)) (f.2.map fun x => .value x.1 (x.2.getD 0))) [] box.bytes false) ∧
          (∀ f ∈ read.fills, ∀ x ∈ f.2, x.2.isSome = true) ∧ t.mem = s.mem ∧
          (t.clove die c).timerRel = x.timerRel + 1 ∧ h.seq < (t.clove die c).nextSeq))

/-- R229, R231, R234: a scratchpad copy that nothing precedes writes the source bytes, as they were, to the destination and nothing else, and is performed
when it has no barrier, else sends its credit; the last part of a load from a resident page moves its bytes and performs the operation. -/
def Obligations.CopyResults : Prop :=
  ∀ (s : State) (a : Access), s.acc a.id = some a → s.hasIssuer a → a.dests = [] → s.noWatch →
    (∀ src dst c0 c1 c2 parts, a.kind = .engine (.copy .sp false src dst c0 c1 c2) → a.stage = .issued → s.waits a = false →
      let n := c0.toNat % 2 ^ 18
      let k := (a.scratchAt src).1
      let d := (a.scratchAt dst).1
      s.poisoned k n = false →
      (a.barrier = 0 → ∃ t, exec (.copyCompletion a.id parts) s = .next t ∧ s.hasBytes t d n (some (s.readMem k n)) ∧ s.hasReturned t a 0) ∧
      (a.barrier ≠ 0 → n ≠ 0 → ∃ t, exec (.copyCompletion a.id parts) s = .next t ∧ s.hasBytes t d n (some (s.readMem k n)) ∧
        t.threads = s.threads ∧ (t.acc a.id).map (·.stage) = some .crediting ∧
        ∃ m cr, tget t.credits m = some cr ∧ cr.handle = a.barrier ∧ cr.bytes = n ∧ cr.acc = a.id ∧ .engineCredit m ∈ t.agenda)) ∧
    (∀ op parts g l n credit told pa e lv, a.kind = .engine op →
      a.stage = .moving [.put (.key (8 * l)) [.mem (.va (8 * g)) (8 * n)]] [] credit told →
      a.barrier = 0 → 2 ^ 48 ≤ l → s.translate a.ctx g (coreDie a.core) .read = .ok pa e lv → inHost pa = false → s.poisoned pa n = false →
      s.classWaits a.ctx g none = false → s.lineHeld (lineOf pa) = false → s.classify a.ctx g none false = s → 1 ≤ n →
      homeDie pa = some (coreDie a.core) → s.sectorsAt (.l2 (coreDie a.core)) (lineOf pa) = 15 →
      s.recallsOn (lineOf pa) (coreDie a.core) ∨ s.quiet →
      ∃ t, exec (.copyCompletion a.id parts) s = .next t ∧ s.hasBytes t l n (some (s.readMem pa n)) ∧ s.hasReturned t a 0)

/-- R248, R249, R461, R98 to R101: the sequencer accepts a command whose id is not in flight and binds its predecessors; an accepted command whose
predecessors have retired starts when its bank is its block's and free; one that has executed for 2^20 cycles, or on a hung Reckoner, does not
retire; when one retires, each element of its m by n rows and columns holds the
accumulation of its terms, every other element stays, the bank is dirty, and its bead falls. -/
def Obligations.CommandResults : Prop :=
  ∀ (s : State) (a : Access) (c : Command), s.acc a.id = some a → a.kind = .mma c → s.hasIssuer a → a.dests = [] →
    let dq := coreQuad a.core
    let b := s.bank dq c.bank
    (a.stage = .issued → (∀ x ∈ s.commandsOn dq, x.2.id = c.id → x.1.stage ≠ .issued ∨ a.id ≤ x.1.id) →
      (∀ x ∈ s.inFlight dq, x.2.id ≠ c.id) →
      ∃ t, exec (.mmaAccept a.id) s = .next t ∧ t.mem = s.mem ∧ t.threads = s.threads ∧ t.quads = s.quads ∧
        t.accs = s.accs.map fun x =>
          if x.id = a.id then
            { x with stage := .accepted ((s.inFlight dq).filterMap fun y => if y.2.id = c.pre0 ∨ y.2.id = c.pre1 then some y.1.id else none) s.nextId }
          else x) ∧
    (∀ preds since, a.stage = .accepted preds since → (∀ p ∈ preds, s.acc p = none) → s.waits a = false → (s.quad dq).hung = false →
      b.occupant = some a.blk → s.moveBlocks a.blk c.bank a.id = false →
      (∀ x ∈ s.commandsOn dq, x.2.bank = c.bank → x.1.stage.isExecuting = false) →
      ∃ t, exec (.mmaStart a.id) s = .next t ∧ t.mem = s.mem ∧ t.threads = s.threads ∧
        t.accs = s.accs.map fun x => if x.id = a.id then { x with stage := .executing 0 } else x) ∧
    (∀ cycles, a.stage = .executing cycles → 2 ^ 20 ≤ cycles ∨ (s.quad dq).hung = true → exec (.mmaRetire a.id) s = .next s) ∧
    (∀ cycles, a.stage = .executing cycles → cycles < 2 ^ 20 → (s.quad dq).hung = false → s.mmaPoisoned a.blk c = false → b.poisoned = false → (s.block a.blk).banks.getLsbD c.bank = true →
      c.mode.testBit 2 = false → c.m ≤ 128 → c.n ≤ 128 → c.done = 0 →
      ∃ t, exec (.mmaRetire a.id) s = .next t ∧ t.mem = s.mem ∧ s.hasReturned t a 0 ∧
        t.bank dq c.bank = { b with data := (t.bank dq c.bank).data, dirty := true } ∧
        ∀ i j, j < 128 → sget 0 (t.bank dq c.bank).data (128 * i + j) =
          if i < c.m ∧ j < c.n then s.mmaElement a c i j else sget 0 b.data (128 * i + j))

/-- R322 to R324: the arbiter saves a dirty occupant's bank that yields, with its poison, and restores that of the first waiter; a handover saves the
old contents, and the new owner occupies zeros. No other bank changes, and no memory. R461, R462: a quad whose command has executed for 2^20
cycles, or that has had a startable command and executed none for so long, is hung; the reset of a hung Reckoner leaves no command in flight
on it but those accepted since it hung, every bank zero and clean, and the quad no longer hung. -/
def Obligations.BankResults : Prop :=
   (∀ (s : State) (dq i o : Nat), (s.bank dq i).occupant = some o → s.bankBusy dq i = false →
      let b := s.bank dq i
      let others := fun t : State => t.mem = s.mem ∧ t.threads = s.threads ∧ t.accs = s.accs ∧ ∀ q j, ¬ (q = dq ∧ j = i) → t.bank q j = s.bank q j
      let saved := fun t : State => (b.dirty = true → tget t.bankSave (16 * o + i) = some { data := b.data, poisoned := b.poisoned, cured := b.cured }) ∧
        (b.dirty = false → b.saved = true → tget t.bankSave (16 * o + i) = tget s.bankSave (16 * o + i)) ∧
        ∀ k, k ≠ 16 * o + i → tget t.bankSave k = tget s.bankSave k
      (∀ blk n, firstWaiter (s.bankWaiters dq i) = some (blk, n) → blk ≠ o → b.handover = none → s.bankYields dq i = true →
        ∃ t, exec (.bankSwitch dq i) s = .next t ∧ others t ∧ saved t ∧ (t.bank dq i).occupant = some blk ∧ (t.bank dq i).dirty = false ∧
          let kept := tgetD s.bankSave (16 * blk + i) {}
          (t.bank dq i).data = kept.data ∧ (t.bank dq i).poisoned = kept.poisoned ∧ (t.bank dq i).cured = kept.cured) ∧
      (∀ blk, b.handover = some blk → (s.block blk).banks.getLsbD i = true →
        ∃ t, exec (.bankHandover dq i) s = .next t ∧ others t ∧ saved t ∧ t.bank dq i = { occupant := some blk })) ∧
   (∀ (s : State) (dq : Nat),
      ((∃ x ∈ s.commandsOn dq, ∃ n, x.1.stage = .executing n ∧ 2 ^ 20 ≤ n) ∨ 2 ^ 20 ≤ (s.quad dq).idleReck →
        (s.quad dq).hung = false → ∃ t, exec (.reckonerHang dq) s = .next t ∧ t = s.modQuad dq fun q => { q with hung := true, hungAt := s.nextId }) ∧
      ((s.quad dq).hung = true →
        ∃ t, exec (.reckonerReset dq) s = .next t ∧ t.mem = s.mem ∧ (t.quad dq).hung = false ∧
          (∀ x ∈ t.inFlight dq, ∃ preds since, x.1.stage = .accepted preds since ∧ (s.quad dq).hungAt ≤ since) ∧
          ∀ i, i < 16 → (t.bank dq i).data = [] ∧ (t.bank dq i).dirty = false))

/-- R262, R264, R266, R267, R297: a read packet that no earlier packet to one of its sectors holds back leaves its queue and fills its sectors in L2 of
its home, and the RDCs that a prefetch named take a line that is then whole; a write packet leaves its queue likewise; either waits for an
earlier packet to one of its sectors; a write notice drops the line from the RDC of its die and brings its stamp to the clock; a clock probe brings
every entry of the asked die's clock, and with it a notice that the clock says has been sent; a probed L1 that has the page SHARED-RO gives the line
to the core that asked, whose load goes on. No byte of memory changes. -/
def Obligations.PacketResults : Prop :=
  ∀ (s : State) (stack tag line : Nat),
    let clash := fun (q : Packet) (sec : BitVec 4) => (s.packetSectors q).1 = line ∧ (s.packetSectors q).2 &&& sec ≠ 0
    (∀ before after sec na rdcs, s.packetsAt stack = before ++ .read tag line sec na rdcs :: after → (∀ q ∈ before, q.tag ≠ tag) →
      ((∀ q ∈ before, ¬ clash q sec) →
        ∃ t, exec (.hbmReadPacket stack tag) s = .next t ∧ t.mem = s.mem ∧ t.ctxs = s.ctxs ∧
          .read tag line sec na rdcs ∉ t.packetsAt stack ∧ t.sectorsAt (.l2 (stack / 2)) line &&& sec = sec ∧
          (rdcs = 0 ∨ s.quiet → t.accs = s.accs ∧ t.threads = s.threads) ∧
          (s.quiet → s.lineHeld line = false → t.sectorsAt (.l2 (stack / 2)) line = 15 →
            ∀ d, d < 4 → rdcs.getLsbD d = true → d ≠ stack / 2 → (t.holds (.rdc d) line).isSome = true)) ∧
      ((∃ q ∈ before, clash q sec) → exec (.hbmReadPacket stack tag) s = .next s)) ∧
    (∀ before after sec, s.packetsAt stack = before ++ .write tag line sec :: after → (∀ q ∈ before, q.tag ≠ tag) →
      ((∀ q ∈ before, ¬ clash q sec) →
        ∃ t, exec (.hbmWritePacket stack tag) s = .next t ∧
          t = { s with packets := t.packets, evicted := t.evicted, nextId := t.nextId } ∧
          ((∀ x ∈ s.evicted, stackOf (x.line * 128) ≠ stack) → t.evicted = s.evicted ∧
            t.packetsAt stack = (before ++ after).filter fun q => q != .write tag line sec)) ∧
      ((∃ q ∈ before, clash q sec) → exec (.hbmWritePacket stack tag) s = .next s)) ∧
    (∀ (src dst : Nat) (n : Notice), s.notices.find? (fun x => x.src == src && x.dst == dst) = some n → n.line = line →
      ∃ t, exec (.writeNotice src dst) s = .next t ∧ t.mem = s.mem ∧ t.ctxs = s.ctxs ∧ t.notices.length < s.notices.length ∧
        (t.holds (.rdc dst) line).isNone = true ∧
        (s.notices = [n] → s.acks = [] → (∀ x ∈ s.accs, ∀ home stamp, x.stage ≠ .acked home stamp) →
          t.accs = s.accs ∧ t.threads = s.threads ∧ t.notices = [] ∧
          ∀ e, e < 4 → e ≠ dst → (t.die dst).clock.getD e 0 = laterCount ((s.die dst).clock.getD e 0) (n.stamp.getD e 0))) ∧
    (∀ asker asked, asker ≠ asked →
      (∃ t, exec (.clockProbe asker asked) s = .next t ∧ t.mem = s.mem ∧ t.ctxs = s.ctxs) ∧
      (s.knows asker (s.die asked).clock = true → exec (.clockProbe asker asked) s = .next s) ∧
      (s.knows asker (s.die asked).clock = false → s.acks = [] → (∀ x ∈ s.accs, ∀ home stamp, x.stage ≠ .acked home stamp) →
        (s.notices = [] → ∃ t, exec (.clockProbe asker asked) s = .next t ∧ t.mem = s.mem ∧ t.accs = s.accs ∧
          ∀ e, e < 4 → (t.die asker).clock.getD e 0 =
            if e = asker then (s.die asker).clock.getD e 0 else laterCount ((s.die asker).clock.getD e 0) ((s.die asked).clock.getD e 0)) ∧
        (∀ n : Notice, s.notices = [n] → n.dst = asker → n.src = asked → n.line = line → asked < 4 →
          countLe (n.stamp.getD asked 0) ((s.die asked).clock.getD asked 0) = true →
          countLe ((s.die asker).clock.getD asked 0) ((s.die asked).clock.getD asked 0) = true →
          ∃ t, exec (.clockProbe asker asked) s = .next t ∧ t.mem = s.mem ∧ t.accs = s.accs ∧ t.notices = [] ∧
            (t.holds (.rdc asker) line).isNone = true))) ∧
    (∀ core a, s.prober core line = some a →
      ∃ t, exec (.peerProbe core line) s = .next t ∧ t.mem = s.mem ∧ t.ctxs = s.ctxs ∧
        (s.quiet → t.threads = s.threads ∧
          t.accs = s.accs.map fun x => if x.id = a.id then { x with probe := none, probed := some line } else x) ∧
        ((s.holds (.l1 core) line).isSome = true →
          (∃ e ∈ (s.core core).tlb, e.ctx = a.ctx ∧ (∃ v ∈ a.lineVas line, e.page = pageBase v e.level) ∧
            (pteClass e.pte.toNat = 2 ∨ pteW e.pte.toNat = false)) →
          (t.holds (.l1 a.core) line).isSome = true))

/-! ## Pages (10 R258, R259, R269 to R272; 13 R331, R340 to R343; 20 R450) -/

/-- R258, R259, R331, R332, R341, R343: an access moves a 64 KiB page to the class of its table, once the accesses of a private page's owner are
performed, and changes no other byte of memory; a walk that is the first of its base die's queue takes a free unit, and one with a unit that finds a
leaf puts it into the buffers of its requester; a logged access whose page has come stands at its place again, a store of it without the bytes that
higher lanes of its execution write (08 R205), and one whose page has been declared unresolvable fails, an engine operation of the log completing
with its streams whole (21 R456); a thread that waits for the page of its fetch
goes on when the page has come, and waits on while it has not. -/
def Obligations.PagingResults : Prop :=
  ∀ s : State,
    (∀ ctx va p e who wr, (tget s.ctxs ctx).isSome = true → s.leaf ctx va = some (p, e, 3) → pteV e = true → pteW e = true → pteDup e = false →
      inHost (pteFrame e * 65536) = false → s.classWaits ctx va who = false → (pteClass e = 1 → s.quiet) →
      let c := classAfter e (s.pageInfo (pteFrame e * 65536)).written who wr
      ∃ t, exec (.pageClassTransition ctx va who wr) s = .next t ∧ t.accs = s.accs ∧ t.threads = s.threads ∧
        s.hasBytes t p 8 (if c.1 = pteClass e then none else some (pteSetClass e c.1 c.2 false))) ∧
    (∀ (w : Walk), s.walks.find? (fun x => x.id == w.id) = some w → w.sent = true → w.inUnit = false →
      (s.unitsUsed (stackOf w.table) < 48 → (s.walksQueued (stackOf w.table)).head? = some w →
        ∃ t, exec (.pageWalk w.id) s = .next t ∧
          t = { s with walks := s.walks.map fun x => if x.id = w.id then { x with inUnit := true } else x }) ∧
      (48 ≤ s.unitsUsed (stackOf w.table) → exec (.pageWalk w.id) s = .next s)) ∧
    (∀ (w : Walk) e f, s.walks.find? (fun x => x.id == w.id) = some w → w.sent = true → w.inUnit = true → w.next = none →
      s.readEntry (s.readMem (entryPa w.table w.va w.level) 8) w.level (coreDie w.core) = .leaf e f →
      let x : TlbEntry := { ctx := w.ctx, page := pageBase w.va w.level, level := w.level, pte := BitVec.ofNat 64 e, frame := f }
      ∃ t, exec (.pageWalk w.id) s = .next t ∧ t.mem = s.mem ∧ t.accs = s.accs ∧ t.threads = s.threads ∧
        t.walks = s.walks.filter (fun y => y.id != w.id) ∧
        if w.ahead = true then x ∈ (t.quad (coreQuad w.core)).ahead else x ∈ (t.core w.core).tlb ∧ x ∈ (t.quad (coreQuad w.core)).tlb) ∧
    (∀ (a : Access) page, s.acc a.id = some a → a.stage = .logged page → (s.quad (coreQuad a.core)).frozen = false →
      (((s.ctx a.ctx).report page).all fun r => !r.unresolvable) = true → s.replayFirst a = false → a.ea.toNat / 2 ^ 60 = 0 →
      ∀ pa e l x y z, (s.replayCheck a a.touches).1 = .ok x y z → s.translate a.ctx a.va (coreDie a.core) a.kind.need = .ok pa e l →
      ∃ t, exec (.operandLogReplay a.id) s = .next t ∧
        (a.kind ≠ .store → t = { s with accs := s.accs.map fun x =>
          if x.id = a.id then { x with stage := .issued, key := some pa, listAt := s.listPlaces a } else x }) ∧
        (a.kind = .store → t = { s with accs := t.accs } ∧
          ∃ x ∈ t.accs, x.id = a.id ∧ x.stage = .issued ∧ x.key = some pa ∧
            ∀ o, o ∈ x.masked ↔ o ∈ a.masked ∨ (o < a.size ∧ ∃ r ∈ a.shadow, r.1 ≤ pa + o ∧ pa + o < r.1 + r.2) ∨
              (o < a.size ∧ ∃ y ∈ s.accs, y.execId = a.execId ∧ y.kind = .store ∧ a.id < y.id ∧
                ∃ k, y.key = some k ∧ k ≤ pa + o ∧ pa + o < k + y.size))) ∧
    (∀ (a : Access) page r, s.acc a.id = some a → a.stage = .logged page → (s.quad (coreQuad a.core)).frozen = false →
      s.replayFirst a = false → (s.ctx a.ctx).report page = some r → r.unresolvable = true → s.canTell a →
      ∃ t, exec (.operandLogReplay a.id) s = .next t ∧ t.mem = s.mem ∧
        ((∀ op, a.kind ≠ .engine op) → ∀ x ∈ t.accs, x.id = a.id → x.stage = .cancelled) ∧
        (∀ op, a.kind = .engine op → (∀ x ∈ t.accs, x.id ≠ a.id) ∧ (t.thr a.thr).broken = (s.thr a.thr).broken) ∧
        ∃ f : FaultInfo, (t.thr a.thr).held = some (f, a.pc) ∧ f.code = 0x0403 ∧ f.detail = r.level) ∧
    (∀ k va, (tget s.threads k).isSome = true → (s.thr k).wait = .fetch va →
      let ctx := (s.thrBlock (s.thr k)).ctx
      (∀ pa e l, s.translate ctx va (coreDie (s.thrCore (s.thr k))) .fetch = .ok pa e l →
        ∃ t, exec (.fetchRetry k) s = .next t ∧ t = { s with threads := t.threads } ∧
          ∀ j, t.thr j = if j = k then { s.thr k with wait := .ready } else s.thr j) ∧
      (∀ l, s.translate ctx va (coreDie (s.thrCore (s.thr k))) .fetch = .notResident l →
        (((s.ctx ctx).report (s.absentPage ctx va).1).all fun r => !r.unresolvable) = true → exec (.fetchRetry k) s = .next s))

/-- R270, R272, R450: PAGE_MIGRATION copies a page to its new frame, whose bytes are then those of the old one, and its entry names the frame;
what a keyed page leaves behind is not read as plaintext (16 R367); MIGRATION_EPOCH_END starts a new epoch with no counts, promotes the pages of
the tier whose counts ask for it to a frame of the die that used them most, and read-duplicates the pages that R271 names, a copy with the page's
bytes for each reading die but its home; DEMOTION, when the free frames of a die are below its low mark, marks a page of the smallest
count over the last four epochs for a free frame of the tier; COLLAPSE sends an
invalidate to each holder, whose last acknowledgement makes the page SHARED (SHARED-RO without W: the model's choice, log 79) and not duplicated; a die that is silent is asked a second time, and
silent again it halts the context with COLLAPSE_TIMEOUT. -/
def Obligations.MigrationResults : Prop :=
  ∀ s : State,
    (∀ ctx va m p e, s.migrations.find? (fun x => x.ctx == ctx && x.va == pageBase va 3) = some m → s.leaf ctx va = some (p, e, 3) → pteV e = true →
      s.frameBusy (pteFrame e) = false → m.frame ≠ pteFrame e →
      ∃ t n, exec (.pageMigration ctx va) s = .next t ∧ (s.quiet → t.threads = s.threads) ∧ t.migrations = s.migrations.filter (fun x => x != m) ∧
        ∀ k, readByte t.mem k =
          if p ≤ k ∧ k < p + 8 then
            BitVec.ofNat 8 ((pteSetClass e (if pteW e = true then 0 else 2) 0 false % 2 ^ 32 + m.frame * 2 ^ 32) / 2 ^ (8 * (k - p)))
          else if k / 65536 = m.frame then readByte s.mem (pteFrame e * 65536 + k % 65536)
          else if k / 65536 = pteFrame e ∧ pteKey e ≠ 0 ∧ inHost (pteFrame e * 65536) = false then Config.cipherByte n k
          else readByte s.mem k) ∧
    (s.epochLeft = 0 → ∃ t, exec .migrationEpochEnd s = .next t ∧ t.epochLeft = 1048576 ∧ (s.quiet → t.accs = s.accs ∧ t.threads = s.threads) ∧
      (∀ x ∈ t.pages, x.2.counts = [0, 0, 0, 0] ∧ x.2.wrote = false ∧ x.2.readBy = 0) ∧
      (∀ m ∈ t.migrations, m ∈ s.migrations ∨ ∃ x ∈ s.smallPages, m.ctx = x.1 ∧ m.va = x.2.1 ∧ s.promotes x.1 x.2.1 x.2.2.2) ∧
      ∀ x, s.smallPages = [x] →
        let e := x.2.2.2
        let i := s.pageInfo (pteFrame e * 65536)
        (s.promotes x.1 x.2.1 e → (∃ f, f / 2 ^ 21 = i.busiest ∧ s.frameUsed f = false) →
          ∃ f, t.migrations = s.migrations ++ [{ ctx := x.1, va := x.2.1, frame := f }] ∧ f / 2 ^ 21 = i.busiest ∧ s.frameUsed f = false) ∧
        (s.duplicates x.1 x.2.1 e → inTier (pteFrame e * 65536) = false → ∀ n d, s.freeTag = some n → s.lowestReader e d →
          (∃ f, f / 2 ^ 21 = d ∧ s.frameUsed f = false) →
          readBytes t.mem x.2.2.1 8 = pteSetClass e (pteClass e) n true % 2 ^ 64 ∧
          ∃ fs, tget t.dupMap n = some fs ∧ fs.getD d 0xFFFFFFFF ≠ 0xFFFFFFFF ∧ ∀ d', d' < 4 → fs.getD d' 0xFFFFFFFF ≠ 0xFFFFFFFF →
            d' ∈ i.readers ∧ homeDie (pteFrame e * 65536) ≠ some d' ∧ fs.getD d' 0 / 2 ^ 21 = d' ∧
            ∀ k, k < 65536 → fs.getD d' 0 * 65536 + k < x.2.2.1 ∨ x.2.2.1 + 8 ≤ fs.getD d' 0 * 65536 + k →
              readByte t.mem (fs.getD d' 0 * 65536 + k) = readByte s.mem (pteFrame e * 65536 + k)) ∧
        (¬ s.promotes x.1 x.2.1 e → t.migrations = s.migrations) ∧
        (¬ s.duplicates x.1 x.2.1 e → t.dupMap = s.dupMap ∧ t.mem = s.mem)) ∧
    (∀ die,
      let coldness := fun x : Nat × Nat × Nat × Nat => (s.pageInfo (pteFrame x.2.2.2 * 65536)).epochs.foldl (· + ·) 0
      let mark := Config.lowMark die + 1
      let may := fun x : Nat × Nat × Nat × Nat => x ∈ s.smallPages ∧ inHbm (pteFrame x.2.2.2 * 65536) = true ∧
        homeDie (pteFrame x.2.2.2 * 65536) = some die ∧ (pteTier x.2.2.2 = 0 ∨ pteTier x.2.2.2 = 3) ∧ s.movable x.1 x.2.1 x.2.2.2 = true
      (mark ≤ 2 ^ 21 - s.hbmUsed die → exec (.demotion die) s = .next s) ∧
      (2 ^ 21 - s.hbmUsed die < mark → (∃ x, may x) → (∃ f, inTier (f * 65536) = true ∧ s.frameUsed f = false) →
        ∃ t x f, exec (.demotion die) s = .next t ∧ t.mem = s.mem ∧ t.accs = s.accs ∧ t.threads = s.threads ∧ may x ∧
          (∀ y, may y → coldness x ≤ coldness y) ∧ inTier (f * 65536) = true ∧ s.frameUsed f = false ∧
          t.migrations = s.migrations ++ [{ ctx := x.1, va := x.2.1, frame := f }])) ∧
    (∀ ctx va p e, s.leaf ctx va = some (p, e, 3) → pteV e = true → pteDup e = true → (s.ctx ctx).report (pageBase va 3) = none →
      (∀ c ∈ s.collapses, ¬ (c.ctx = ctx ∧ c.va = pageBase va 3) ∧ (c.failed = false → c.home ≠ pageHome e)) →
      ∃ t, exec (.collapse ctx va) s = .next t ∧
        t = { s with collapses := s.collapses ++
                [{ ctx := ctx, va := pageBase va 3, home := pageHome e, waiting := (s.holders e).map fun d => (d, 0, false) }] }) ∧
    (∀ ctx va die p e n b (c : Collapse), s.collapses.find? (fun x => x.ctx == ctx && x.va == pageBase va 3) = some c → c.waiting = [(die, n, b)] →
      c.failed = false → pteKey e = 0 → s.leaf ctx va = some (p, e, 3) → s.leaf c.ctx c.va = some (p, e, 3) →
      ∃ t, exec (.collapseAck ctx va die) s = .next t ∧ t.threads = s.threads ∧
        t.collapses = s.collapses.filter (fun x => !(x.ctx == c.ctx && x.va == c.va)) ∧ s.hasBytes t p 8 (some (pteSetClass e (if pteW e = true then 3 else 2) 0 false))) ∧
    (∀ ctx va die, ∃ t, exec (.collapseResend ctx va die) s = .next t ∧
      t = { s with collapses := s.collapses.map fun c =>
              if c.ctx = ctx ∧ c.va = pageBase va 3 ∧ c.failed = false then
                { c with waiting := c.waiting.map fun w => if w.1 = die ∧ 2 ^ 20 ≤ w.2.1 ∧ w.2.2 = false then (die, 0, true) else w }
              else c }) ∧
    (∀ ctx va die n (c : Collapse), s.collapses.find? (fun x => x.ctx == ctx && x.va == pageBase va 3) = some c → c.waiting = [(die, n, true)] → die < 4 →
      2 ^ 20 ≤ n → s.active ctx →
      ∃ t, exec (.collapseTimeout ctx va) s = .next t ∧ t.hasHalted ctx 0x0408 ∧
        t.collapses = s.collapses.map (fun x => if x.ctx = c.ctx ∧ x.va = c.va then { x with failed := true, waiting := [] } else x) ∧
        (s.session ≠ ctx → t.mem = s.mem ∧ t.errors = s.errors ++ [{ code := 0x0408, addr := BitVec.ofNat 64 c.va, detail := die }]))

/-! ## Scheduling (12 R303 to R318; 02 R38, R46; 06 R149, R151; 21 R463, R464) -/

/-- R311, R312, R314, R38, R149, R46, R48, R464: arbitration grants a free slot, slot 0 first, to one of the offered groups, of the highest priority
on all but each 16th arbitration, and a single offered group gets it whole, its squad's lp, last and quantum advancing; a run that has not issued for 256 cycles, and owes no REGION, loses its slot, and the quantum of its squad ends when its last bundle asked for that; a
sleep that has run out ends; a squad of a block that is being discarded, all at eligible points, leaves its slot, each of its live threads standing at
its region start with the checkpoint's values; a discard that is stuck for SWAP_IDLE is reported, and one for a swap is withdrawn. -/
def Obligations.RunResults : Prop :=
  ∀ s : State,
    (∀ core slot,
      ((s.core core).mayArbitrate slot = true → ∃ t, exec (.runArbitration core slot) s = .next t ∧ t.mem = s.mem ∧ t.accs = s.accs ∧ t.offers = [] ∧
        ∀ r, (t.core core).slot slot = some r → r.idle = 0 ∧ r.count = 0 ∧
          (r.blk, r.sq, r.lanes) ∈ s.offers ∧
          ((t.core core).n % 16 ≠ 0 → ∀ q ∈ s.slotSquads core, (∃ g ∈ s.offers, g.1 = q.blk ∧ g.2.1 = q.num) → (s.block q.blk).prio ≤ (s.block r.blk).prio)) ∧
      ((s.core core).mayArbitrate slot = false → exec (.runArbitration core slot) s = .next { s with offers := [] })) ∧
    (∀ core slot blk sq lanes, (s.core core).mayArbitrate slot = true → s.offers = [(blk, sq, lanes)] → lanes ≠ 0 →
      (tget s.squads (squadKey blk sq)).isSome = true → (s.slotSquads core).filter (fun q => q.blk == blk && q.num == sq) = [s.squad blk sq] →
      let n := ((s.core core).n + 1) % 2 ^ 32
      let q := s.squad blk sq
      ∃ t, exec (.runArbitration core slot) s = .next t ∧ (t.core core).slot slot = some { blk := blk, sq := sq, lanes := lanes } ∧
        (t.core core).n = n ∧ (t.squad blk sq).last = n ∧ (t.squad blk sq).lp = nextLane q.lp lanes ∧
        (t.squad blk sq).qt = (if n % 16 = 0 then q.qt else if q.qt = 0 then 3 else q.qt - 1) ∧
        ∀ k, t.thr k = if (List.range 32).any (fun x => lanes.getLsbD x && k == threadKey blk (32 * sq + x)) = true ∧ (tget s.threads k).isSome = true
          then { s.thr k with parked := false } else s.thr k) ∧
    (∀ core slot r, slot < 2 → (s.core core).slot slot = some r → s.owedRun r = none →
      (256 ≤ r.idle → ∃ t, exec (.stallBreak core slot) s = .next t ∧ t = { s with cores := t.cores, squads := t.squads } ∧
        (t.core core).slot slot = none ∧
        (r.yld = true → (tget s.squads (squadKey r.blk r.sq)).isSome = true → (t.squad r.blk r.sq).qt = 0) ∧ (r.yld = false → t.squads = s.squads)) ∧
      (r.idle < 256 → exec (.stallBreak core slot) s = .next s)) ∧
    (∀ k next, (tget s.threads k).isSome = true → (s.thr k).wait = .sleep 0 next →
      ∃ t, exec (.sleepExpiry k) s = .next t ∧ t = { s with threads := t.threads } ∧
        ∀ j, t.thr j = if j = k then { s.thr k with wait := .ready, pc := next } else s.thr j) ∧
    (∀ blk sq c n, (tget s.squads (squadKey blk sq)).isSome = true → (tget s.blocks blk).isSome = true → (s.block blk).status = .discarding c n →
      (s.squad blk sq).resident = true → (s.squad blk sq).replay = false → (s.quad (s.block blk).dquad).frozen = false → s.squadEligible blk sq = true →
      (s.ctx (s.block blk).ctx).status ≠ .halting → (s.hold.entering = false ∨ 5 ≤ s.holdStep) →
      ∃ t, exec (.squadDiscard blk sq) s = .next t ∧ t.mem = s.mem ∧ (t.squad blk sq).resident = false ∧
        (t.squad blk sq).s = (s.squad blk sq).s ∧ (t.squad blk sq).j = (s.squad blk sq).j ∧
        (∀ a ∈ t.accs, a.thr ∈ squadThreads (s.block blk) blk sq → a.dests = [] ∧ a.kind ≠ .load) ∧
        (∀ k ∈ squadThreads (s.block blk) blk sq, (tget s.threads k).isSome = true → (s.thr k).live = true →
          let u := s.thr k
          let v := t.thr k
          v.pc = u.slot.start ∧ v.p = u.slot.preds ∧ v.x = u.slot.x ∧ v.fpmode = u.slot.fpmode ∧ v.srctr = u.slot.srctr ∧ v.cdepth = u.slot.cdepth ∧
          v.beads = [] ∧ v.slot = u.slot ∧ v.frame = u.frame ∧ v.link = u.link ∧
          ∀ m, v.readV m = if u.slot.base ≤ m ∧ m < u.slot.base + 16 ∧ u.slot.mask.testBit (m - u.slot.base) = true
            then sget 0 u.slot.vals (m - u.slot.base) else 0) ∧
        ((∀ j, j < (s.block blk).nsq → j ≠ sq → (s.squad blk j).resident = false) → s.copiesLeft blk = false →
          (t.block blk).status = .discarded c ∧ (t.die (s.block blk).die).restart = (s.die (s.block blk).die).restart ++ [blk])) ∧
    (∀ blk c n, (tget s.blocks blk).isSome = true → (s.block blk).status = .discarding c n → (s.ctx (s.block blk).ctx).swapIdle ≤ n → n < 2 ^ 40 →
      (s.quad (s.block blk).dquad).frozen = false → (s.ctx (s.block blk).ctx).status ≠ .halting →
      ∃ t, exec (.discardStuck blk) s = .next t ∧ t.mem = s.mem ∧
        t.errors = s.errors ++ [{ code := 0x0906, addr := 0, detail := match c with | .slice => 1 | .stop => 2 | .hold => 3 | _ => 0 }] ∧
        (c = .swap → (t.block blk).status = .resident))

/-- R309, R26, R75, R316, R305, R306, R151, R303: a die places the next block of its active context on the first quad that can take it, its threads
standing at word 1 of the entry with every V, P, X and link register and bead zero, S0 of its squads holding ARGS and $fpmode the value of FLAGS (R25,
R63), or brings a discarded block back; a grid all of whose blocks are complete, without a child and with no access left, retires: its blocks and their
scratchpads go, one arrival is on its way to DONE, and a root's end is told to the owner (R32, R36); one with a child or a block left stays; an idle core takes the
victim of a swap for discard; a context whose slice has run out leaves, its blocks being discarded, and the next of the ready list becomes
active; a launch whose record is good becomes a grid one deeper than its launcher's, and returns its id. -/
def Obligations.PlacementResults : Prop :=
  ∀ s : State,
    (∀ die g n prio q rank, s.placing die = true → s.swapReady die = none → s.nextBlock die = some (.fresh g n, prio) → s.roomSaved g = true →
      s.placeAt die g = some (q, rank) → (s.grid g).rc.threads ≤ 2048 →
      let gr := s.grid g
      ∃ t, exec (.blockPlacement die) s = .next t ∧ t.mem = s.mem ∧ (s.quiet → t.accs = s.accs) ∧ (t.grid g).nextBid = gr.nextBid + 1 ∧
        (t.block s.nextId).grid = g ∧ (t.block s.nextId).bid = gr.nextBid ∧ (t.block s.nextId).ctx = gr.ctx ∧ (t.block s.nextId).dquad = q ∧
        (t.block s.nextId).rank0 = rank ∧ (t.block s.nextId).status = .resident ∧ (t.block s.nextId).nthreads = gr.rc.threads ∧
        (∀ j, 32 * j < gr.rc.threads → tget s.squads (squadKey s.nextId j) = none →
          (∀ m, sget 0 (t.squad s.nextId j).s m = if m = 0 then gr.rc.args else 0) ∧ (t.squad s.nextId j).j = []) ∧
        ∀ x, x < gr.rc.threads →
          let u := t.thr (threadKey s.nextId x)
          let fl := fun i => if gr.rc.flags.getLsbD i = true then 1 else 0
          u.fpmode = BitVec.ofNat 32 (1 + 24 * fl 4 + 96 * fl 5 + 128 * fl 6 + 256 * fl 7) ∧ u.slot.fpmode = u.fpmode ∧
          u.pc = gr.rc.entry + 4 ∧ u.v = [] ∧ u.p = 0 ∧ u.x = [] ∧ u.srctr = 0 ∧ u.beads = [] ∧ u.cdepth = 0 ∧ u.link = [] ∧ u.live = true ∧
          u.slot.start = gr.rc.entry + 4 ∧ u.slot.mask = 0 ∧ u.frame = {}) ∧
    (∀ die blk prio, s.placing die = true → s.swapReady die = none → s.nextBlock die = some (.restart blk, prio) → s.restartFits blk = true →
      (s.quad (s.block blk).dquad).frozen = false → (tget s.blocks blk).isSome = true → (s.block blk).die = die →
      ∃ t, exec (.blockPlacement die) s = .next t ∧ t.mem = s.mem ∧ t.accs = s.accs ∧ t.threads = s.threads ∧ (t.block blk).status = .resident ∧
        (t.die die).restart = (s.die die).restart.filter fun x => x != blk) ∧
    (∀ core c w v, (s.die (coreDie core)).active = some c → s.placing (coreDie core) = true → (s.quad (coreQuad core)).frozen = false →
      (s.ctx c).swapIdle ≤ (s.core core).idle → (s.waitingFor core).head? = some w → chooseVictim core (s.victims core w.1) = some v → tget s.blocks v.1 = some v.2 → v.2.prio ≤ w.2 →
      ∃ t, exec (.progressSwap core) s = .next t ∧ t.mem = s.mem ∧ t.accs = s.accs ∧ t.threads = s.threads ∧ (t.core core).idle = 0 ∧
        (t.core core).swapping = some (v.1, w.1) ∧ t.blocks = tmod s.blocks v.1 (fun b => { b with status := .discarding .swap 0 })) ∧
    (∀ n g, tget s.grids n = some g → g.complete = true → (∀ c ∈ s.grids, c.2.parent ≠ some n) → (∀ a ∈ s.accs, (s.block a.blk).grid ≠ n) →
      let t := s.retireGrids
      tget t.grids n = none ∧ (∀ e ∈ s.blocks, e.2.grid = n → tget t.blocks e.1 = none ∧ ∀ k, scratchKey e.1 0 ≤ k → k < scratchKey e.1 0 + 2 ^ 20 →
        readByte t.mem k = 0) ∧
      (g.rc.done ≠ 0 → ∃ c ∈ t.credits, c.2.handle = g.rc.done ∧ c.2.arrivals = 1 ∧ c.2.bytes = 0 ∧ c.2.ctx = g.ctx) ∧
      (g.parent = none → (s.ctx g.ctx).halted = false → s.owned = true → ∃ e ∈ (t.page s.owner).waiting, e.code = 1 ∧ e.ctx = g.ctx)) ∧
    (∀ n g, tget s.grids n = some g → ((∃ c ∈ s.grids, c.2.parent = some n) ∨ g.doneBlocks ≠ g.total) → (∀ e ∈ s.grids, e.1 = n → e.2 = g) →
      (∀ h, tget s.retireGrids.grids n = some h → h.rc = g.rc) ∧ tget s.retireGrids.grids n ≠ none) ∧
    (∀ die c, s.held = false → (s.die die).active = some c → (s.ctx c).status ≠ .halting →
      let there := s.blocksAt die c Block.onQuad
      ((s.die die).leaving = false → there ≠ [] → (s.die die).sliceLeft = 0 → (s.nextContext die (some c)).isSome = true →
        ∃ t, exec (.ctxSliceExpiry die) s = .next t ∧ t.mem = s.mem ∧ t.threads = s.threads ∧ (t.die die).leaving = true ∧ (t.die die).active = some c ∧
          ∀ b ∈ there, (s.block b).status = .resident → (t.block b).status = .discarding .slice 0) ∧
      ((s.die die).leaving = true → there = [] →
        ∃ t, exec (.ctxSliceExpiry die) s = .next t ∧ t.mem = s.mem ∧ t.threads = s.threads ∧ (t.die die).lastCtx = c ∧ (t.die die).leaving = false ∧
          ∀ d, (t.die die).active = some d → s.readyOn die d = true ∧ d ≠ c)) ∧
    (∀ (a : Access) key, s.dueNow a → a.kind = .launch → a.key = some key → a.va = a.ea.toNat % 2 ^ 56 → a.probe = none → key < 2 ^ 48 → inHost key = false →
      s.classWaits a.ctx a.va (some a.core) = false → s.keepsClass a a.core false → s.lineHeld (lineOf key) = false → s.poisoned key 64 = false →
      (s.holds (.l1 a.core) (lineOf key)).isSome = true → (homeDie key = some (coreDie a.core) ∨ s.classOf a.ctx a.va ≠ 3) →
      (∀ x ∈ s.accs, x.thr = a.thr → x.kind = .launch → x.id < a.id → x.stage = .cancelled) → (s.ctx a.ctx).halted = false →
      let r := readLaunch (s.readMem key 64)
      let b := s.block a.blk
      s.launchFault a.ctx a.ea r true = none → s.grids.length < 2 ^ 32 →
      ∃ t id, exec (.launchAccept a.id) s = .next t ∧ t.mem = s.mem ∧ s.hasReturned t a (BitVec.toNat id) ∧ (∀ g ∈ s.grids, g.2.launch ≠ id) ∧
        t.grids = tset s.grids s.nextId
          { launch := id, ctx := a.ctx, rc := r, depth := (s.grid b.grid).depth + 1, prio := min (r.flags.toNat % 4) (s.grid b.grid).prio,
            parent := some b.grid, by_ := some (a.blk, a.pc), since := (s.die (coreDie a.core)).clock })

/-! ## Delivered faults, the dump, and soft errors (18 R410 to R415; 20 R452 to R454; 21 R465) -/

/-- R410, R405, R403: a thread at an eligible point that holds a fault takes it into its handler, ADDR, INFO and the PC where it stands in the frame,
out of its run, the pending destinations of its cancelled accesses reading zero (20 R438). R411:
a halting context whose threads stand still and whose operations have ended becomes FAULTED with a dump, its threads stopped and on no die, and the
owner is told, or at the end of Hold when one is under way. R465: a queue-level reset drops the context's queued grids and restart entries and halts it with CONTEXT_RESET. -/
def Obligations.FaultEventResults : Prop :=
  ∀ s : State,
    (∀ k f pc, (tget s.threads k).isSome = true → (s.thr k).held = some (f, pc) → s.mayDeliver k = true → s.canHandle k →
      ∃ t, exec (.asyncFaultDelivery k) s = .next t ∧ t.mem = s.mem ∧ (∀ a ∈ t.accs, a.dead k = false) ∧
        (∀ slot r, slot < 2 → (t.core (s.thrCore (s.thr k))).slot slot = some r → r.blk = (s.thr k).blk → r.sq = (s.thr k).sq →
          r.lanes.getLsbD (s.thr k).lane = false) ∧
        (∀ a ∈ s.accs, a.dead k = true → ∀ n i, .v n i ∈ a.dests → (t.thr k).readV n = 0) ∧
        ((∀ a ∈ s.accs, a.dead k = false) → t = { s with threads := t.threads, cores := t.cores } ∧ ∀ j, t.thr j = if j = k then
          { s.thr k with
            held := none
            frame := { slot := (s.thr k).slot, code := f.code, fpc := if f.logged = true then pc else (s.thr k).pc, isOpen := true, addr := f.addr,
                       info := f.info (!f.logged), ord := (s.thr k).ordstate, strms := s.oldestOf k }
            pc := (s.grid (s.thrBlock (s.thr k)).grid).rc.handler + 4
            wait := .ready, owed := .atHandler, trap := none, commit := none, pass := none, entered := none, stepOver := none }
        else s.thr j)) ∧
    (∀ c, (tget s.ctxs c).isSome = true → (s.ctx c).status = .halting →
      (((s.stopAtReplays c).cancelLog c).cancelHeldOps c).haltReady c = true →
      (((s.stopAtReplays c).cancelLog c).cancelHeldOps c).firstHalting c = true →
      ∃ t, exec (.coreDumpWrite c) s = .next t ∧ (t.ctx c).status = .faulted ∧ (t.ctx c).dump.take 4 = [0x43, 0x44, 0x4D, 0x50] ∧
        (∀ k ∈ s.threadsOf c, (t.thr k).stopped = true) ∧ (∀ d, d < 4 → (t.die d).active ≠ some c) ∧
        (s.held = false → s.owned = true → ∃ e ∈ (t.page s.owner).waiting, e.code = 3 ∧ e.ctx = c) ∧
        (s.held = true → ∃ e ∈ t.hold.late, e.1 = c ∧ e.2.code = 3)) ∧
    (∀ c, (tget s.ctxs c).isSome = true →
      (s.active c → s.session ≠ c → ∃ t, exec (.queueLevelReset c) s = .next t ∧ t.hasHalted c 0x0907 ∧ (t.ctx c).noGrids = true ∧ t.queued c = [] ∧
        ∀ d, ∀ b ∈ (t.die d).restart, (s.block b).ctx ≠ c) ∧
      ((s.ctx c).status = .faulted → exec (.queueLevelReset c) s = .next s))

/-- R452 to R454, Table 20.3: a corrected error is logged and nothing else changes; an uncorrected one poisons its sector of memory or of a
scratchpad, or its bank; drops a clean line or a translation; asks the squad of a V register to be replayed, or halts the context where a REGION reads
it; halts the context of squad or unit state, and every context with a line in the set of a cache whose tags failed; and hangs the Reckoner of a sequencer. (The code of the notices of a
clean line and of a translation is the model's reading, log 62.) -/
def Obligations.SoftErrorResults : Prop :=
  ∀ s : State,
    (∀ e : SoftError, ∀ addr what,
      (match e with
        | .register _ _ true => some (0, 0x01) | .squadState _ true => some (0, 0x02) | .scratchpad _ _ _ true => some (0, 0x03)
        | .cleanLine l true => some (l * 128, 0x04) | .dirtyLine pa true => some (pa, 0x05) | .cacheTags _ _ true => some (0, 0x06)
        | .bank _ _ true => some (0, 0x07) | .unitState _ true => some (0, 0x08) | .hbm pa true => some (pa, 0x0A)
        | .tier pa true => some (pa, 0x0B) | _ => none) = some (addr, what) →
      ∃ t, exec (.scrub e) s = .next t ∧ t = { s with errors := s.errors ++ [{ code := 0x0A01, addr := BitVec.ofNat 64 addr, detail := what }] }) ∧
    (∀ e : SoftError, ∀ key,
      (match e with
        | .dirtyLine pa false => some pa | .hbm pa false => some pa | .tier pa false => some pa
        | .scratchpad b r o false => some (2 ^ 48 + (4 * b + r) * 2 ^ 18 + o) | _ => none) = some key →
      ∃ t, exec (.scrub e) s = .next t ∧ t = { s with poison := t.poison } ∧ ∀ x, x ∈ t.poison ↔ x ∈ s.poison ∨ x = key / 32) ∧
    (∀ k n, (s.thr k).live = true → (s.thrSquad (s.thr k)).resident = true →
      (s.regionReads k n = false → (tget s.squads (squadKey (s.thr k).blk (s.thr k).sq)).isSome = true →
        ∃ t, exec (.scrub (.register k n false)) s = .next t ∧ t.mem = s.mem ∧ t.threads = s.threads ∧ (t.squad (s.thr k).blk (s.thr k).sq).replay = true ∧
          ∃ e : ErrorEntry, t.errors = s.errors ++ [e] ∧ e.code = 0x0A04 ∧ e.detail = 0x01 ∧ e.tid = (s.thr k).tid ∧ e.pc = (s.thr k).pc ∧
            e.noThread = false) ∧
      (s.regionReads k n = true → s.active (s.thrBlock (s.thr k)).ctx →
        ∃ t, exec (.scrub (.register k n false)) s = .next t ∧ t.mem = s.mem ∧ t.hasHalted (s.thrBlock (s.thr k)).ctx 0x0A03)) ∧
    (∀ c, s.active c →
      (∃ t, exec (.scrub (.squadState c false)) s = .next t ∧ t.mem = s.mem ∧ t.hasHalted c 0x0A03) ∧
      (∃ t, exec (.scrub (.unitState c false)) s = .next t ∧ t.mem = s.mem ∧ t.hasHalted c 0x0A03)) ∧
    (∀ l, ∃ t, exec (.scrub (.cleanLine l false)) s = .next t ∧ t.mem = s.mem ∧ t.lines = s.lines.filter (fun x => !(x.line == l && x.dirty == 0)) ∧
      t.errors = s.errors ++ [{ code := 0x0A01, addr := BitVec.ofNat 64 (l * 128), detail := 0x04 }]) ∧
    (∀ q i, (s.bank q i).occupant.isSome = true → ∃ t, exec (.scrub (.bank q i false)) s = .next t ∧ t.mem = s.mem ∧
      t.bank q i = { s.bank q i with poisoned := true, cured := [] }) ∧
    (∀ u i, ∃ t, exec (.scrub (.tlb u i)) s = .next t ∧ t = { s with cores := t.cores, quads := t.quads, errors := t.errors } ∧
      t.errors = s.errors ++ [{ code := 0x0A01, addr := 0, detail := 0x09 }] ∧
      match u with
      | .coreTlb c => (t.core c).tlb = (s.core c).tlb.take i ++ (s.core c).tlb.drop (i + 1)
      | .quadTlb q => (t.quad q).tlb = (s.quad q).tlb.take i ++ (s.quad q).tlb.drop (i + 1)
      | .ahead q => (t.quad q).ahead = (s.quad q).ahead.take i ++ (s.quad q).ahead.drop (i + 1)
      | .predictor c => tget (t.core c).predictor i = none) ∧
    (∀ cache line, ∀ x ∈ s.lines, x.level = cache → s.setOf cache x.line = s.setOf cache line → ∀ c ∈ s.contextsOf x.line, s.active c →
      ∃ t, exec (.scrub (.cacheTags cache line false)) s = .next t ∧ t.mem = s.mem ∧ t.hasHalted c 0x0A03) ∧
    (∀ q, ∃ t, exec (.scrub (.sequencer q)) s = .next t ∧ t.mem = s.mem ∧ (t.quad q).hung = true)

/-! ## The control plane (16 R359 to R364; R477; 12 R303) -/

/-- R360, R359: a CLAIM of a control plane that nobody owns makes its master the owner, in the order of the masters, and tells every master; a
handover by the owner names a target, whose ACCEPT before 100 ms have passed makes it the owner, and lapses after 100 ms; an event goes into the next entry of its queue in
host memory when one is free; a write of a control page stores its RW fields, and its doorbell brings the command. -/
def Obligations.OwnershipResults : Prop :=
  ∀ s : State,
    (∀ m, (s.owned = false → m < 4 → (∀ x, x < m → .claim x ∉ s.agenda) →
        ∃ t, exec (.claim m) s = .next t ∧ t.mem = s.mem ∧ t.owner = m ∧ t.owned = true ∧ t.pending = false ∧
          ∀ p, p < 4 → ∃ e ∈ (t.page p).waiting, e.code = 6) ∧
      (s.owned = true → exec (.claim m) s = .next s)) ∧
    (∀ m (v : Word), (s.owned = true → s.owner = m → v.toNat / 4 = 1 →
        ∃ t, exec (.handover m v) s = .next t ∧ t = { s with pending := true, target := v.toNat % 4, handoverLeft := 100000000 }) ∧
      (s.owned = false ∨ s.owner ≠ m → exec (.handover m v) s = .next s)) ∧
    (∀ m, (s.pending = true → s.target = m → s.handoverLeft ≠ 0 →
        ∃ t, exec (.accept m) s = .next t ∧ t.mem = s.mem ∧ t.owner = m ∧ t.owned = true ∧ t.pending = false) ∧
      (s.pending = false ∨ s.target ≠ m ∨ s.handoverLeft = 0 → exec (.accept m) s = .next s)) ∧
    (s.pending = true → s.handoverLeft = 0 → ∃ t, exec .handoverLapse s = .next t ∧ t = { s with pending := false }) ∧
    (∀ p e, s.nextEvent (s.page p) = some e → (s.page p).evqFree = true →
      let q := s.page p
      let a := q.evqBase.toNat + 32 * (q.evqTail % q.evqSize)
      hostReach a 32 = true →
      ∃ t, exec (.eventQueuePost p) s = .next t ∧ t.threads = s.threads ∧ s.hasBytes t (hostKey a) 32 (some (eventEntry e (q.seq + 1))) ∧
        t.page p = { q with waiting := q.waiting.erase e, seq := q.seq + 1, evqTail := (q.evqTail + 1) % 2 ^ 32 }) ∧
    (∀ p, s.pageThere p = true → (s.page p).evqSize < 2 ^ 32 → (s.page p).evqHead < 2 ^ 32 → ∀ v, v < 2 ^ 64 →
      (∃ t, exec (.registerWrite (.page p) 0x28 8 v) s = .next t ∧ t.mem = s.mem ∧ t.page p = { s.page p with evqBase := BitVec.ofNat 64 v }) ∧
      (p < 4 → ∃ t, exec (.registerWrite (.page p) 0x08 8 v) s = .next t ∧ t = { s with agenda := s.agenda ++ [.claim p], ctl := t.ctl } ∧
        t.page p = s.page p) ∧
      (∀ off, 0x80 ≤ off → off + 8 ≤ 0xB8 → ∃ t, exec (.registerWrite (.page p) off 8 v) s = .next t ∧ t = { s with ctl := t.ctl } ∧
        ∀ i, sget 0 (t.page p).mbox i = if off ≤ 0x80 + i ∧ 0x80 + i < off + 8 then BitVec.ofNat 8 (v / 256 ^ (0x80 + i - off)) else sget 0 (s.page p).mbox i) ∧
      (let m := ((s.page p).mailWrite 0xBC 4 v).command
       ((s.page p).cmd = none → knownCode m.code = true → s.mailStatus p m = none →
         ∃ t, exec (.registerWrite (.page p) 0xBC 4 v) s = .next t ∧ t.mem = s.mem ∧ (t.page p).cmd = some m ∧ t.agenda = s.agenda ++ [commandEvent p m.code]) ∧
       (∀ c, (s.page p).cmd = some c →
         ∃ t, exec (.registerWrite (.page p) 0xBC 4 v) s = .next t ∧ t.mem = s.mem ∧ (t.page p).cmd = some c ∧
           (t.page p).cmdDone = BitVec.ofNat 64 (m.seq % 2 ^ 32 + 4 * 2 ^ 32)))) ∧
    (∀ v, v < 2 ^ 64 →
      (s.owned = true → s.owner = 0 → ∃ t, exec (.registerWrite .dbgWindow 0x10 8 v) s = .next t ∧ t = { s with dbg := { s.dbg with trBase := BitVec.ofNat 64 v } }) ∧
      (s.owned = false ∨ s.owner ≠ 0 → exec (.registerWrite .dbgWindow 0x10 8 v) s = .next s))

/-- Table 16.3, R359 to R364, R371, R477, R436: the commands of a page. CTX_START makes the context of its descriptor with an empty root table and its
root grid; CTX_STOP first asks every block to leave, and at the end removes the context; MAP of a page writes its entry and fills it with zeros;
UNMAP clears V; UNRESOLVABLE marks the page's report; HOLD_ENTER and HOLD_EXIT set and end the request for Hold; QUERY posts a QUERY_RESULT;
POWER_CAP sets the cap; a code outside the table is refused. Each that completes reports its status in CMDDONE.
(That UNRESOLVABLE of a page without a report completes is the model's reading, log 19; that an absent context reports NO_CONTEXT, log 20; that
MAP of a frame in a save region is refused, log 73.) -/
def Obligations.CommandPageResults : Prop :=
  ∀ (s : State) (p : Nat) (m : Mailbox), (s.page p).cmd = some m →
    (knownCode m.code = false → ∃ t, exec (.mboxUnknownCode p) s = .next t ∧ t = { s with ctl := t.ctl } ∧ t.reports p m.seq 3) ∧
    (m.code = 1 →
      (∀ u, s.startContext m.arg0.toNat = some u →
        let d := (readDesc (s.hostReadAt m.arg0.toNat 64)).desc.filled
        ∃ t, exec (.ctxStart p) s = .next t ∧ t.reports p m.seq 0 ∧ (t.ctx d.id).desc = d ∧ (t.ctx d.id).status = .active ∧ (t.ctx d.id).root = d.savepa ∧
          (∀ k, d.savepa ≤ k → k < d.savepa + 8192 → readByte t.mem k = 0) ∧
          ∃ g ∈ t.grids, g.2.ctx = d.id ∧ g.2.rc = readLaunch (s.hostReadAt d.launch 64) ∧ g.2.nextBid = 0 ∧ g.2.depth = 1) ∧
      (s.startContext m.arg0.toNat = none → ∃ t, exec (.ctxStart p) s = .next t ∧ t = { s with ctl := t.ctl } ∧ t.reports p m.seq 3)) ∧
    (m.code = 2 → ∀ c, tget s.ctxs m.ctx = some c →
      (c.status = .active → s.session ≠ m.ctx → ∃ t, exec (.ctxStop p) s = .next t ∧ t.mem = s.mem ∧ t.threads = s.threads ∧
        (t.ctx m.ctx).status = .stopping p m.seq ∧ (t.ctx m.ctx).reports = [] ∧
        ∀ b, (tget s.blocks b).isSome = true → (s.block b).ctx = m.ctx → (s.block b).status = .resident → (t.block b).status = .discarding .stop 0) ∧
      (c.status = .stopping p m.seq → (∀ a ∈ s.accs, a.ctx ≠ m.ctx) → (∀ b ∈ s.blocks, b.2.ctx ≠ m.ctx) →
        ∃ t, exec (.ctxStop p) s = .next t ∧ t.reports p m.seq 0 ∧ tget t.ctxs m.ctx = none ∧ (∀ g ∈ t.grids, g.2.ctx ≠ m.ctx) ∧
          ∀ d, d < 4 → (t.die d).active ≠ some m.ctx)) ∧
    (m.code = 3 → (s.page p).stage = .fresh → ∀ c tb, tget s.ctxs m.ctx = some c → c.confidential = false →
      let va := m.arg0.toNat
      let pte := m.arg1.toNat
      let e := entryPa tb va 3
      m.arg3 = 3 → m.arg2 = 0 → mapBad va pte 0 3 = false → s.inSaveRegion (pteFrame pte * 65536) 65536 = false → s.tablePath m.ctx va 3 4 0 c.root = some (s, tb) → pteV (s.readMem e 8) = false →
      pteV pte = true → inHost (pteFrame pte * 65536) = false →
      ∃ t, exec (.map p) s = .next t ∧ t.reports p m.seq 0 ∧ (∀ r ∈ (t.ctx m.ctx).reports, ∀ x, t.leaf m.ctx r.va = some x → pteV x.2.1 = false) ∧
        ∀ k, readByte t.mem k =
          if k / 65536 = pteFrame pte then 0
          else if e ≤ k ∧ k < e + 8 then BitVec.ofNat 8 (mappedPte pte 3 (pteKey pte) / 2 ^ (8 * (k - e))) else readByte s.mem k) ∧
    (m.code = 4 → (s.page p).stage = .fresh → (tget s.ctxs m.ctx).isSome = true → m.arg1 = 1 → m.arg0.toNat < 2 ^ 56 → ∀ e v,
      s.leaf m.ctx m.arg0.toNat = some (e, v, 3) → pteV v = true → pteDup v = false → (∀ a ∈ s.accs, a.ctx ≠ m.ctx) →
      ∃ t, exec (.unmap p) s = .next t ∧ t.reports p m.seq 0 ∧ s.hasBytes t e 8 (some (v - 1))) ∧
    (m.code = 5 → (tget s.ctxs m.ctx).isSome = true →
      ∃ t, exec (.unresolvable p) s = .next t ∧ t = { s with ctl := t.ctl, ctxs := t.ctxs } ∧ t.reports p m.seq 0 ∧
        (t.ctx m.ctx).reports = (s.ctx m.ctx).reports.map fun r =>
          if r.page = (s.absentPage m.ctx m.arg0.toNat).1 then { r with unresolvable := true } else r) ∧
    (m.code = 6 → s.held = false → ∃ t, exec (.holdEnter p) s = .next t ∧ t.mem = s.mem ∧ t.threads = s.threads ∧ t.reports p m.seq 0 ∧ t.hold.cmd = true ∧ t.hold.entering = true) ∧
    (m.code = 7 → s.hold.inHold = true → s.hold.pin = false → ∃ t, exec (.holdExit p) s = .next t ∧ t.mem = s.mem ∧ t.reports p m.seq 0 ∧ t.hold.cmd = false ∧ t.hold.exiting = true) ∧
    (m.code = 8 → (tget s.ctxs m.ctx).isSome = true →
      ((s.page p).stage ≠ .posting → m.arg1 = 0 →
        ∃ t, exec (.query p) s = .next t ∧ t.mem = s.mem ∧ t.ctxs = s.ctxs ∧ (t.page p).stage = .posting ∧ (t.page p).waiting = (s.page p).waiting ++ [s.queryResult m.ctx]) ∧
      ((s.page p).stage = .posting → (∀ e ∈ (s.page p).waiting, e.code ≠ 7) → ∃ t, exec (.query p) s = .next t ∧ t = { s with ctl := t.ctl } ∧ t.reports p m.seq 0)) ∧
    (m.code = 9 →
      (m.arg0 = 0 ∨ (600 ≤ m.arg0.toNat ∧ m.arg0.toNat ≤ 3000) →
        ∃ t, exec (.powerCap p) s = .next t ∧ t.mem = s.mem ∧ t.reports p m.seq 0 ∧ t.cap = m.arg0.toNat) ∧
      (m.arg0 ≠ 0 → m.arg0.toNat < 600 ∨ 3000 < m.arg0.toNat → ∃ t, exec (.powerCap p) s = .next t ∧ t = { s with ctl := t.ctl } ∧ t.reports p m.seq 3))

/-! ## Requests from outside, links and security (16 R358, R365 to R370; 21 R466, R467) -/

/-- R358, R365, Table 21.1: a host read, write or atomic of device memory that need not wait is performed; of a reserved address it reads zero and writes
nothing; where BAR2 does not reach, and in Hold, it is refused and noted; beyond the space it stops; one that must wait keeps its place. A request of another
package waits behind those that it is ordered after, and is performed in the export context, a part of 8 bytes at a time, and answered with its last
part; without an export context, and during Hold, it is refused. The stops are of addresses that no rule lays out (the model's; log 4). -/
def Obligations.HostRequestResults : Prop :=
  ∀ s : State,
    (s.barIdle → ∀ pa n, pa + n ≤ 2 ^ 41 → inWindow pa = false → s.hold.inHold = false →
      (inHbm pa = true ∨ inTier pa = true → s.barDenied pa n = false →
        (∀ u, s.barClass pa n false = .ok u →
          (∀ r, u.outsideReach pa n = (r, true) → ∃ t, exec (.hostRead pa n) s = .next t ∧
            t = { r with sentOut := (if r.poisoned pa n = true then (2, 0) else (0, r.readMem pa n)) :: r.sentOut }) ∧
          (∀ r, u.outsideReach pa n = (r, false) → ∃ t, exec (.hostRead pa n) s = .next t ∧ t = { r with bar := [.hostRead pa n] })) ∧
        (∀ v u, s.barred pa n = false → s.barClass pa n true = .ok u →
          ∃ t, exec (.hostWrite pa n v) s = .next t ∧ (u.quiet → t.threads = u.threads) ∧ u.hasBytes t pa n (some v)) ∧
        (∀ v u, s.barred pa n = false → s.barClass pa n true = .error u →
          ∃ t, exec (.hostWrite pa n v) s = .next t ∧ t = { u with bar := [.hostWrite pa n v] }) ∧
        (∀ op v c u r, n = 4 ∨ n = 8 → pa % n = 0 → s.barred pa n = false → s.barClass pa n true = .ok u → u.outsideReach pa n = (r, true) →
          r.poisoned pa n = false →
          let old := r.readMem pa n
          ∃ t, exec (.hostAtomic op pa n v c) s = .next t ∧ (r.quiet → t.threads = r.threads) ∧ t.sentOut = (0, old) :: r.sentOut ∧
            r.hasBytes t pa n (some (match op with
              | .fetchAdd => old + v
              | .swap => v
              | .cas => if old = c % 2 ^ (8 * n) then v else old)))) ∧
      (inHbm pa = false → inTier pa = false →
        (∃ t, exec (.hostRead pa n) s = .next t ∧ t = { s with sentOut := (0, 0) :: s.sentOut }) ∧ ∀ v, exec (.hostWrite pa n v) s = .next s) ∧
      (inHbm pa = true ∨ inTier pa = true → s.barDenied pa n = true →
        let errs := s.errors ++ [{ code := 0x0C02, addr := BitVec.ofNat 64 pa, detail := 0 }]
        (∃ t, exec (.hostRead pa n) s = .next t ∧ t = { s with errors := errs, sentOut := (1, 0) :: s.sentOut }) ∧
        ∀ v, ∃ t, exec (.hostWrite pa n v) s = .next t ∧ t = { s with errors := errs })) ∧
    (s.barIdle → s.hold.inHold = true → ∀ pa n, pa + n ≤ 2 ^ 41 →
      (∃ t, exec (.hostRead pa n) s = .next t ∧
        t = { s with errors := s.errors ++ [{ code := 0x0D04, addr := BitVec.ofNat 64 pa, detail := 0 }], sentOut := (1, 0) :: s.sentOut }) ∧
      ∀ v, ∃ t, exec (.hostWrite pa n v) s = .next t ∧
        t = { s with errors := s.errors ++ [{ code := 0x0D04, addr := BitVec.ofNat 64 pa, detail := 1 }] }) ∧
    (∀ pa n, 2 ^ 41 < pa + n → exec (.hostRead pa n) s = .fault .absentAddress ∧ (∀ v, exec (.hostWrite pa n v) s = .fault .absentAddress) ∧
      ∀ op v c, exec (.hostAtomic op pa n v c) s = .fault .absentAddress) ∧
    (∀ req : RemoteReq, 2 ^ 46 < req.offset + req.size → exec (.space4Request req) s = .fault .absentAddress) ∧
    (s.turn = false → ∀ req : RemoteReq, req.offset + req.size ≤ 2 ^ 46 → (∀ r ∈ s.remote, r.src ≠ req.src) → req.src ≠ s.links.packageId →
      (s.held = true → ∃ t, exec (.space4Request req) s = .next t ∧ t = { s with sentOut := (0x0D04, 0) :: s.sentOut }) ∧
      (s.held = false → s.exportCtx = none → ∃ t, exec (.space4Request req) s = .next t ∧ t = { s with sentOut := (0x0B01, 0) :: s.sentOut })) ∧
    (s.turn = false → s.held = false → ∀ req : RemoteReq, req.offset + req.size ≤ 2 ^ 46 →
      exec (.space4Request req) s = exec (.space4Request req) { s with turn := true, remote := s.remote ++ [req] }) ∧
    (s.turn = true → s.hold.inHold = false → ∀ req : RemoteReq, req.offset + req.size ≤ 2 ^ 46 → req ∈ s.remote → req.src ≠ s.links.packageId →
      ∀ c pa e l, s.exportCtx = some c → ((s.remote.takeWhile fun r => r != req).any fun r => remoteAfter (s.banked c) req r) = false →
        s.translate c req.offset noDie (remoteNeed req.kind) = .ok pa e l → inHost pa = false →
        s.duplicated c req.offset = false → s.migrating c req.offset = false → s.lineHeld (lineOf pa) = false →
        s.classWaits c req.offset none = false → s.classify c req.offset none (remoteWrites req.kind) = s → s.poisoned pa req.size = false →
        remoteLeft req ≠ [] →
        let ends := fun (u t : State) (i v : Nat) =>
          let value := req.value + v * 2 ^ (64 * i)
          (remoteLeft req = [i] → t.remote = u.remote.erase req ∧ t.sentOut = (0, value) :: u.sentOut) ∧
          (remoteLeft req ≠ [i] → t.remote = u.remote.replace req { req with got := req.got ++ [i], value := value } ∧ t.sentOut = u.sentOut)
        (req.kind = .read → ∀ u, ({ s with turn := false } : State).outsideReach pa req.size = (u, true) →
          ∃ t, ∃ i ∈ remoteLeft req, exec (.space4Request req) s = .next t ∧ t = { u with freeN := t.freeN, remote := t.remote, sentOut := t.sentOut } ∧
            ends u t i (u.readMem (pa + 8 * i) (min req.size 8))) ∧
        (∀ v, req.kind = .write v →
          ∃ t, ∃ i ∈ remoteLeft req, exec (.space4Request req) s = .next t ∧ (s.quiet → t.threads = s.threads) ∧ ends s t i 0 ∧
            ∀ k, readByte t.mem k =
              if pa + 8 * i ≤ k ∧ k < pa + 8 * i + min req.size 8 ∧ (k - pa) ∉ req.masked then BitVec.ofNat 8 (v / 2 ^ (8 * (k - pa)))
              else readByte s.mem k) ∧
        (∀ op var v c', req.kind = .atomic op var v c' → op < 9 → ∀ u, ({ s with turn := false } : State).outsideReach pa req.size = (u, true) →
          let old := u.readMem pa req.size
          ∃ t, exec (.space4Request req) s = .next t ∧ (u.quiet → t.threads = u.threads) ∧ t.remote = u.remote.erase req ∧
            t.sentOut = (0, old) :: u.sentOut ∧
            u.hasBytes t pa req.size (atomResult { code := op, var := var } req.size old (v % 2 ^ (8 * req.size)) 0)))

/-- R466, R467, R368 to R370: a link that loses lanes is noted; the host link comes up at a width and rate, and when it goes down no access stays sent
to the host; a bound TDI that leaves RUN, or whose stream fails, destroys its context's keys and halts it; SPDM messages are answered, and TDISP
moves a TDI inside a secured session; an image that verifies is staged; and a module reset boots an image that verifies, a staged one first, and leaves the reset state
(what of it outlives the reset beside the images is the model's, log 7). -/
def Obligations.LinkAndSecurityResults : Prop :=
  ∀ s : State,
    (∀ port lanes, port < 36 → lanes ≤ 4 → ∃ t, exec (.linkDegraded port lanes) s = .next t ∧
      t = { s with links := t.links, errors := s.errors ++ [{ code := 0x0B04, addr := 0, detail := port + lanes * 64 }] } ∧
      t.links = { s.links with ports := t.links.ports } ∧ ∀ q, sget 4 t.links.ports q = if q = port then lanes else sget 4 s.links.ports q) ∧
    (∀ width rate, width = 16 ∨ width = 8 ∨ width = 4 ∨ width = 1 → rate ∈ [25, 50, 80, 160, 320, 640, 1280] → ∃ t, exec (.hostLinkTrained width rate) s = .next t ∧
      t = { s with links := { s.links with hostUp := true, hostWidth := width, hostRate := rate } }) ∧
    (s.links.hostUp = true → (∀ a ∈ s.accs, ∀ b ∈ s.accs, a.id = b.id → a = b) → ∃ t, exec .hostLinkDown s = .next t ∧ t.mem = s.mem ∧ t.links = { s.links with hostUp := false } ∧
      (∀ a ∈ t.accs, a.stage = .sent → a.key = none) ∧ t.errors.getLast? = some { code := 0x0B04, addr := 0, detail := 0x3F }) ∧
    (∀ vf c, tget s.bound vf = some c → s.active c → s.session ≠ c →
      (s.tdi vf = .run → ∃ t, exec (.tdiLeaveRun vf) s = .next t ∧ t.tdi vf = .error ∧ t.hasHalted c 0x0C01 ∧ ((t.ctx c).primary.map (·.detail)) = some 0 ∧ (t.ctx c).keys = [] ∧
        (t.ctx c).keysDestroyed = true) ∧
      (s.tdi vf ≠ .error → ∃ t, exec (.ideIntegrityFailure vf) s = .next t ∧ t.tdi vf = .error ∧ t.hasHalted c 0x0C01 ∧ ((t.ctx c).primary.map (·.detail)) = some 1 ∧ (t.ctx c).keys = [] ∧
        (t.ctx c).keysDestroyed = true)) ∧
    (∀ req : SpdmReq,
      (req.secured = false ∨ req.body = .certificate ∨ (∃ n, req.body = .measurement n) →
        ∃ t a, exec (.spdmMessage req) s = .next t ∧
          t = { s with freeN := t.freeN, firmware := { s.firmware with answers := (req.doe, a) :: s.firmware.answers } } ∧
          (req.body = .measurement 4 → a.take 3 = [s.firmware.minSup, s.firmware.minMgmt, if s.firmware.debugFuse = true then 1 else 0])) ∧
      (∀ vf, req.secured = true → 1 ≤ vf → vf ≤ 15 →
        (req.body = .tdispLock vf → s.tdi vf = .unlocked → ∃ t, exec (.spdmMessage req) s = .next t ∧ t.mem = s.mem ∧ t.tdi vf = .locked) ∧
        (req.body = .tdispStart vf → s.tdi vf = .locked → ∃ t, exec (.spdmMessage req) s = .next t ∧ t.mem = s.mem ∧ t.tdi vf = .run) ∧
        (req.body = .tdispStop vf → tget s.bound vf = none → ∃ t, exec (.spdmMessage req) s = .next t ∧ t.mem = s.mem ∧ t.tdi vf = .unlocked))) ∧
    (∀ i : FirmwareImage,
      let min := if i.supervisor = true then s.firmware.minSup else s.firmware.minMgmt
      ∃ t, exec (.firmwareStage i) s = .next t ∧
        (Config.signatureOk i.bytes = true ∧ min ≤ i.svn →
          t = { s with firmware := t.firmware } ∧
          (if i.supervisor = true then t.firmware.stagedSup else t.firmware.stagedMgmt) = some { bytes := i.bytes, svn := i.svn }) ∧
        (Config.signatureOk i.bytes = false ∨ i.svn < min → t = { s with errors := t.errors } ∧
          ∃ d, t.errors = s.errors ++ [{ code := 0x0C04, addr := 0, detail := d }])) ∧
    (s.hold.pin = false → ∃ t, exec .moduleReset s = .next t ∧
      t = { State.reset with firmware := t.firmware, mem := s.mem.filter (fun e => inHost e.1), links := { s.links with marked := false, streams := 0 }, freeN := s.freeN } ∧
      t.firmware.stagedSup = none ∧ t.firmware.stagedMgmt = none ∧
      (t.firmware.supervisor = {} ∨ (Config.signatureOk t.firmware.supervisor.bytes = true ∧ s.firmware.minSup ≤ t.firmware.supervisor.svn)) ∧
      (t.firmware.management = {} ∨ (Config.signatureOk t.firmware.management.bytes = true ∧ s.firmware.minMgmt ≤ t.firmware.management.svn)) ∧
      ∀ i, s.firmware.stagedSup = some i → Config.signatureOk i.bytes = true → s.firmware.minSup ≤ i.svn →
        t.firmware.supervisor = i ∧ t.firmware.minSup = i.svn)

/-! ## Hold and debugging (16 R371 to R373; 17 R374 to R391; 21 R468 to R470) -/

/-- R371, R372, R468, R469: a request for Hold begins entry, which asks every resident block to leave; a step that runs late is noted once; dirty banks are
saved in step 4; when the steps are done, and no CTX_START or CTX_STOP is under way, the module is in Hold with no line cached and no dirty bank; the end of the request begins exit, after which the context of a die
is active again, or which a memory that stays in self-refresh stops; a draw above the cap is noted, and ACLK falls. -/
def Obligations.HoldResults : Prop :=
  ∀ s : State,
    (s.held = false → ∃ t, exec (.holdReq true) s = .next t ∧ t.mem = s.mem ∧ t.threads = s.threads ∧ t.accs = s.accs ∧ t.hold.pin = true ∧
      t.hold.entering = true ∧ t.pending = false ∧ t.links.marked = true ∧
      ∀ b, (tget s.blocks b).isSome = true → (s.block b).status = .resident → (t.block b).status = .discarding .hold 0) ∧
    (s.hold.inHold = true → s.hold.cmd = false → ∃ t, exec (.holdReq false) s = .next t ∧
      t = { s with hold := { s.hold with pin := false, exiting := true } }) ∧
    (∀ step, s.hold.entering = true → s.holdStep = step → s.holdLate step = true → step ∉ s.hold.overran → s.hold.elapsed < 4500000 →
      ∃ t, exec (.holdEntryOverrun step) s = .next t ∧
        t = { s with hold := { s.hold with overran := s.hold.overran ++ [step] }, errors := s.errors ++ [{ code := 0x0D01, addr := 0, detail := step }] }) ∧
    (s.hold.entering = true → s.holdStep = 4 → ∃ t, exec .holdEntered s = .next t ∧ t.mem = s.mem ∧ t.threads = s.threads ∧ t.accs = s.accs ∧ t.hold = s.hold ∧
      ∀ q i, (tget s.quads q).isSome = true → i < 16 → (s.bank q i).occupant.isSome = true → (t.bank q i).dirty = false) ∧
    (s.hold.entering = true → (∀ n, 1 ≤ n → n ≤ 6 → s.holdStepDone n = true) → s.startsOrStops = false →
      ∃ t, exec .holdEntered s = .next t ∧ t.threads = s.threads ∧ t.hold.inHold = true ∧ t.hold.entering = false ∧
        t.hold.exiting = !(s.hold.pin || s.hold.cmd) ∧ t.lines = [] ∧
        (∀ q i, (tget s.quads q).isSome = true → i < 16 → (s.bank q i).occupant.isSome = true → (t.bank q i).dirty = false) ∧
        (∀ c, (t.core c).tlb = [] ∧ (t.core c).slot0 = none ∧ (t.core c).slot1 = none) ∧
        (s.owned = true → ∃ e ∈ (t.page s.owner).waiting, e.code = 4)) ∧
    (s.hold.inHold = true → s.hold.exiting = true → s.hold.failed = false →
      (s.hold.pin = false → s.hold.cmd = false → ∃ t, exec (.holdExited none) s = .next t ∧ t.mem = s.mem ∧ t.threads = s.threads ∧ t.hold = {} ∧
        t.links.marked = false ∧ (s.owned = true → ∃ e ∈ (t.page s.owner).waiting, e.code = 5) ∧
        ∀ d c, s.hold.activeAt = [(d, c)] → (tget s.ctxs c).isSome = true → (t.die d).active = some c ∧ (t.die d).leaving = false) ∧
      (∀ m, ∃ t, exec (.holdExited (some m)) s = .next t ∧
        t = { s with hold := { s.hold with failed := true }, errors := s.errors ++ [{ code := 0x0D02, addr := 0, detail := if m < 8 then m else 16 }] })) ∧
    (s.cap ≠ 0 → ∃ t, exec .powerExcursion s = .next t ∧ t.mem = s.mem ∧ t.threads = s.threads ∧ 1 ≤ t.aclk ∧ (2 ≤ s.aclk → t.aclk < s.aclk) ∧
      t.errors = s.errors ++ [{ code := 0x0D03, addr := 0, detail := 0 }])

/-- R375 to R391: a DCTL value that names a context that may be debugged attaches a session, and one of a context that may not is denied; a value that
names none ends the session and its freezes; FREEZE freezes the freeze set of its quad, RESUME ends the freeze of a set, and STEP lets the group of its
squad issue one instruction and ends when none is left; a sample that falls due in a period names the lowest live thread of the core's oldest squad,
and enters the sink; and the sink writes its oldest record, or the TRUNC of a sink that has closed, into the ring. -/
def Obligations.DebugResults : Prop :=
  ∀ s : State,
    (∀ (v : Word) c, tget s.ctxs (v.toNat % 64) = some c → dctlOk v.toNat = true →
      (s.debuggable c = false → ∃ t, exec (.debugAttach v) s = .next t ∧ t = { s with dbg := { s.dbg with denied := true } }) ∧
      (s.debuggable c = true → s.session = 0 → ∃ t, exec (.debugAttach v) s = .next t ∧ t = { s with dbg := t.dbg, cores := t.cores } ∧
        t.dbg.dctl = v ∧ t.dbg.denied = false ∧ t.dbg.sink = v.getLsbD 10)) ∧
    (∀ v : Word, v.toNat % 64 = 0 → dctlOk v.toNat = true → ∃ t, exec (.debugDetach v) s = .next t ∧ t.threads = s.threads ∧ t.accs = s.accs ∧
      t.dbg.dctl = v &&& ~~~(1#64 <<< 10) ∧ t.dbg.denied = false ∧
      (s.session ≠ 0 → t.dbg.sink = false ∧ t.dbg.freezes = [] ∧ ∀ set ∈ s.dbg.freezes, ∀ q ∈ set, (t.quad q).frozen = false)) ∧
    (∀ quad, s.attachedQuad quad = true → (s.quad quad).frozen = false → ∃ t, exec (.dcmdFreeze quad) s = .next t ∧ t.mem = s.mem ∧ t.accs = s.accs ∧
      t.threads = s.threads ∧ t.dbg.freezes = s.dbg.freezes ++ [s.freezeSet quad] ∧ t.dbg.stops = s.dbg.stops ++ [(300, { type := 2, code := 0x50, time := s.time, clk := s.clk })] ∧
      ∀ q ∈ s.freezeSet quad, (t.quad q).frozen = true ∧ (t.quad q).cause = 5) ∧
    (∀ quad set, s.attachedQuad quad = true → s.dbg.freezes.find? (fun f => f.contains quad) = some set →
      ∃ t, exec (.dcmdResume quad) s = .next t ∧ t.mem = s.mem ∧ t.accs = s.accs ∧ t.dbg.freezes = s.dbg.freezes.filter (fun f => f != set) ∧
        ∀ q ∈ set, (t.quad q).frozen = false) ∧
    (∀ quad rank slot count q lanes, s.attachedQuad quad = true → (s.quad quad).frozen = true → rank < 4 → s.skidding quad = false →
      (s.dbg.stepN = 0 → s.squadAt (4 * quad + rank) slot = some q → count ≠ 0 → (s.lowestLive q).isSome = true → s.offers = [(q.blk, q.num, lanes)] →
        lanes ≠ 0 → (s.core (4 * quad + rank)).slot0 = none →
        ∃ t, exec (.dcmdStep quad rank slot count) s = .next t ∧ t.mem = s.mem ∧ t.accs = s.accs ∧ t.threads = s.threads ∧
          t.focus = [(4 * quad + rank, 0)] ∧ (t.core (4 * quad + rank)).slot0 = some { blk := q.blk, sq := q.num, lanes := lanes } ∧
          t.agenda = .dcmdStep quad rank slot (count - 1) :: s.agenda ∧ t.dbg.stepN = 1 ∧ t.dbg.stepping = true) ∧
      (s.dbg.stepN ≠ 0 → ∃ t, exec (.dcmdStep quad rank slot 0) s = .next t ∧ t.mem = s.mem ∧ t.accs = s.accs ∧ t.threads = s.threads ∧ t.dbg.stepN = 0 ∧
        t.dbg.stepping = false ∧ t.agenda = s.agenda)) ∧
    (∀ run n core q u, s.counting core = true → (s.quad (coreQuad core)).stands = false → s.dbg.dctl.getLsbD 11 = true →
      s.oldestSquad core = some q → s.lowestLive q = some u → s.samplePeriod - s.dbg.sampleClk % s.samplePeriod ≤ n →
      ∃ r, ((State.countCore run n s core).core core).sample = some r ∧ r.type = 1 ∧ r.a = u.pc ∧ r.tid = u.tid ∧
        .pcSample core ∈ (State.countCore run n s core).agenda) ∧
    (∀ core r, (s.core core).sample = some r → s.dbg.sink = true → s.dbg.overflow = false → s.dbg.backlog < 512 →
      ∃ t, exec (.pcSample core) s = .next t ∧ t.mem = s.mem ∧ t.accs = s.accs ∧ t.threads = s.threads ∧ (t.core core).sample = none ∧
        t.dbg.buffer = s.dbg.buffer ++ [{ r with time := s.time, clk := s.clk }]) ∧
    (∀ r rs, s.dbg.closing = none → s.dbg.sink = true → s.dbg.freeSlots ≠ 0 → s.dbg.trLost = 0 → s.dbg.buffer = r :: rs →
      let a := s.dbg.trBase.toNat + 64 * (s.dbg.trTail % 2 ^ s.dbg.trlog)
      hostReach a 64 = true →
      ∃ t, exec .traceRecordWrite s = .next t ∧ t.threads = s.threads ∧ s.hasBytes t (hostKey a) 64 (some (r.packed s.dbg.trTail)) ∧
        t.dbg.buffer = rs ∧ t.dbg.trTail = (s.dbg.trTail + 1) % 2 ^ 32) ∧
    (∀ log r, s.dbg.closing = some (log, r) → s.dbg.slotsIn log ≠ 0 →
      let a := s.dbg.trBase.toNat + 64 * (s.dbg.trTail % 2 ^ log)
      hostReach a 64 = true →
      ∃ t, exec .traceRecordWrite s = .next t ∧ t.threads = s.threads ∧ s.hasBytes t (hostKey a) 64 (some (r.packed s.dbg.trTail)) ∧
        t.dbg.closing = none ∧ t.dbg.trTail = (s.dbg.trTail + 1) % 2 ^ 32)

/-! ## The machine as a whole -/

/-- 03 Table 3.1, 16 R360, 17 Table 17.1: after reset no context, grid, block or thread exists, no access is in flight, nobody owns the control plane, no
Hold is requested, the debug window is clear, every barrier slot is free, and memory is in its canonical form (that its bytes read 0 is the
model's, log 4). -/
def Obligations.ResetState : Prop :=
  let s := State.reset
  s.ctxs = [] ∧ s.grids = [] ∧ s.blocks = [] ∧ s.squads = [] ∧ s.threads = [] ∧ s.accs = [] ∧ s.credits = [] ∧ s.memOk ∧
  s.owned = false ∧ s.pending = false ∧ s.held = false ∧ s.hold.pin = false ∧ s.hold.cmd = false ∧ s.cap = 0 ∧ s.clk = 0 ∧ s.time = 0 ∧
  s.dbg.dctl = 0 ∧ s.dbg.trHead = 0 ∧ s.dbg.trTail = 0 ∧ s.dbg.sink = false ∧
  (∀ p, (s.page p).cmdDone = 0 ∧ (s.page p).cmd = none ∧ (s.page p).evqSize = 0) ∧
  (∀ q, (∀ i, ((s.quad q).barrier i).allot = false ∧ (s.bank q i).occupant = none) ∧ (s.quad q).frozen = false ∧ (s.quad q).hung = false) ∧
  (∀ d, (s.die d).active = none ∧ (s.die d).restart = []) ∧ ∀ vf, s.tdi vf = .unlocked

/-- R37, R102, R104: a step with an issue slot in focus executes the instruction that decoding finds at the PC of its group, in a state whose latch names
the group, with nothing changed but that its threads have read the bundle, once: a group that has read it goes on with the words it read; any other step executes the event that comes next, or lets time
pass (log 1). -/
def Obligations.StepRunsDecoded : Prop :=
  ∀ s : State,
    (∀ core slot rest r k ks ws i len, s.focus = (core, slot) :: rest → (s.core core).slot slot = some r → s.runGroup r = k :: ks →
      let pc := (s.thr k).pc
      let ctx := (s.block r.blk).ctx
      let w := pc.toNat / 4 % 16
      let reads := (∀ x ∈ k :: ks, (s.thr x).hasBundle (bundleOf pc) = false) ∧
        s.fetchBundle ctx (bundleOf pc).toNat (coreDie core) = .words ws ∧ bcwViolation ws w = none
      let hasRead := ∀ x ∈ k :: ks, (s.thr x).entered = some (bundleOf pc, ws)
      (s.session ≠ ctx ∨ s.dbg.dctl.getLsbD 6 = false) → reads ∨ hasRead → decodeWords (ws.drop w) = .ok (i, len) →
      (∀ x ∈ k :: ks, (s.thr x).owed ≠ .atHandler) →
      ∃ u, step s = exec i u ∧
        u.latch = some { core := core, slot := slot, blk := r.blk, sq := r.sq, lanes := lanesMask r.sq r.blk (k :: ks), pc := pc, len := len,
                         eor := (ws.headD 0).testBit (w + len - 2), yld := (ws.headD 0).testBit 15, code := (ws.drop w).take len,
                         follow := ws[w + len]? } ∧
        u = { s with focus := rest, latch := u.latch, threads := u.threads, cores := u.cores, quads := u.quads, walks := u.walks,
                     packets := u.packets, nextId := u.nextId } ∧
        (hasRead → u.quads = s.quads ∧ u.walks = s.walks ∧ u.packets = s.packets ∧ u.nextId = s.nextId) ∧
        ∀ x, u.thr x = if x ∈ k :: ks ∧ (tget s.threads x).isSome = true
          then { s.thr x with entered := some (bundleOf pc, ws), wait := .ready } else s.thr x) ∧
    (∀ e rest, s.focus = [] → s.agenda = e :: rest → step s = exec e (s.beginEvent runInstr e rest)) ∧
    (s.focus = [] → s.agenda = [] → step s = .next (s.tick runInstr))

/-- Words written from the tables of 05: the zero word, an A32, a B32, and 64-bit and 96-bit words of each class, decode to their instructions. -/
def Obligations.DecodeWords : Prop :=
  decodeWords [0] = .ok (.nop, 1) ∧
  decodeWords [3 * 2 ^ 2 + 5 * 2 ^ 9 + 6 * 2 ^ 17 + 7 * 2 ^ 25] = .ok (.iaddI32A32 { d := 5, a := 6, b := 7 }, 1) ∧
  decodeWords [1 + 0 * 2 ^ 2 + 7 * 2 ^ 7 + (2 ^ 21 - 1) * 2 ^ 11] = .ok (.bra { g := 7, n := false, ofs := -1 }, 1) ∧
  decodeWords [2 + 0x20 * 2 ^ 2 + 3 * 2 ^ 10 + 2 ^ 13 + 9 * 2 ^ 14 + 10 * 2 ^ 23, 11 + 4 * 2 ^ 18] =
    .ok (.iadd { g := 3, n := true, d := 9, a := 10, b := 11, c := 0, ty := 4, rnd := 0, sat := false, sq := false, ind := false, xs := 0,
                 rsv := false, lit := none }, 2) ∧
  decodeWords [3 + 0x50 * 2 ^ 2 + 7 * 2 ^ 10 + 9 * 2 ^ 14 + 10 * 2 ^ 23, 10 * 2 ^ 18 + 2 * 2 ^ 22 + 2 ^ 30, 0x3F800000] =
    .ok (.fadd { g := 7, n := false, d := 9, a := 10, b := 0, c := 0, ty := 10, rnd := 2, sat := false, sq := false, ind := false, xs := 0,
                 rsv := false, lit := some 0x3F800000 }, 3) ∧
  decodeWords [2 + 0x90 * 2 ^ 2 + 7 * 2 ^ 10 + 9 * 2 ^ 14, 10 + 3 * 2 ^ 9 + 4 * 2 ^ 12 + 2 * 2 ^ 16 + 5 * 2 ^ 19] =
    .ok (.ld { g := 7, n := false, d := 9, a := 0, base := 10, size := 3, scope := 4, ro := false, strm := 2, pred := 5, sq := false, ind := false,
               xs := 0, lit := none }, 2) ∧
  decodeWords [2 + 0xD2 * 2 ^ 2 + 7 * 2 ^ 10 + 8 * 2 ^ 23, 1 * 2 ^ 18 + 3 * 2 ^ 21] =
    .ok (.mma { g := 7, n := false, d := 0, a := 8, b := 0, c := 0, strm := 1, pred := 3, md := 0 }, 2)

/-- R102 to R113: the words of every well-formed instruction, whatever follows them, decode to it, and words that decode are those of the
instruction, which is well formed. -/
def Obligations.DecodeEncode : Prop :=
  (∀ (i : Instr) (rest : List Nat), i.WellFormed → decodeWords (encode i ++ rest) = .ok (i, i.wordCount)) ∧
  (∀ (ws : List Nat) (i : Instr) (n : Nat), (∀ w ∈ ws, w < 2 ^ 32) → decodeWords ws = .ok (i, n) →
    encode i = ws.take n ∧ n = i.wordCount ∧ i.WellFormed)

/-- Every step keeps memory in its canonical form: keys rise strictly, and no entry holds what an unlisted byte reads as
(the form, and that such a byte reads 0, are the model's, log 4). -/
def Obligations.MemoryInvariant : Prop :=
  ∀ s t : State, s.memOk → step s = .next t → t.memOk
end

