-- ==== Sys2Proof/Laws/State.lean ====
section
/-! SUPPORT. What each named update of the state does to each field: the field it changes, and every other field kept. -/

namespace Sys2Proof.Machine

/-! ## setThr -/
@[simp] theorem State.setThr_agenda (s : State) (k : Nat) (t : Thread) : (s.setThr k t).agenda = s.agenda := rfl
@[simp] theorem State.setThr_focus (s : State) (k : Nat) (t : Thread) : (s.setThr k t).focus = s.focus := rfl
@[simp] theorem State.setThr_unsettled (s : State) (k : Nat) (t : Thread) : (s.setThr k t).unsettled = s.unsettled := rfl
@[simp] theorem State.setThr_latch (s : State) (k : Nat) (t : Thread) : (s.setThr k t).latch = s.latch := rfl
@[simp] theorem State.setThr_offers (s : State) (k : Nat) (t : Thread) : (s.setThr k t).offers = s.offers := rfl
@[simp] theorem State.setThr_freeN (s : State) (k : Nat) (t : Thread) : (s.setThr k t).freeN = s.freeN := rfl
@[simp] theorem State.setThr_nextId (s : State) (k : Nat) (t : Thread) : (s.setThr k t).nextId = s.nextId := rfl
@[simp] theorem State.setThr_clk (s : State) (k : Nat) (t : Thread) : (s.setThr k t).clk = s.clk := rfl
@[simp] theorem State.setThr_time (s : State) (k : Nat) (t : Thread) : (s.setThr k t).time = s.time := rfl
@[simp] theorem State.setThr_phase (s : State) (k : Nat) (t : Thread) : (s.setThr k t).phase = s.phase := rfl
@[simp] theorem State.setThr_mem (s : State) (k : Nat) (t : Thread) : (s.setThr k t).mem = s.mem := rfl
@[simp] theorem State.setThr_poison (s : State) (k : Nat) (t : Thread) : (s.setThr k t).poison = s.poison := rfl
@[simp] theorem State.setThr_ctxs (s : State) (k : Nat) (t : Thread) : (s.setThr k t).ctxs = s.ctxs := rfl
@[simp] theorem State.setThr_grids (s : State) (k : Nat) (t : Thread) : (s.setThr k t).grids = s.grids := rfl
@[simp] theorem State.setThr_blocks (s : State) (k : Nat) (t : Thread) : (s.setThr k t).blocks = s.blocks := rfl
@[simp] theorem State.setThr_squads (s : State) (k : Nat) (t : Thread) : (s.setThr k t).squads = s.squads := rfl
@[simp] theorem State.setThr_threads (s : State) (k : Nat) (t : Thread) : (s.setThr k t).threads = tset s.threads k t := rfl
@[simp] theorem State.setThr_accs (s : State) (k : Nat) (t : Thread) : (s.setThr k t).accs = s.accs := rfl
@[simp] theorem State.setThr_credits (s : State) (k : Nat) (t : Thread) : (s.setThr k t).credits = s.credits := rfl
@[simp] theorem State.setThr_bankSave (s : State) (k : Nat) (t : Thread) : (s.setThr k t).bankSave = s.bankSave := rfl
@[simp] theorem State.setThr_cores (s : State) (k : Nat) (t : Thread) : (s.setThr k t).cores = s.cores := rfl
@[simp] theorem State.setThr_quads (s : State) (k : Nat) (t : Thread) : (s.setThr k t).quads = s.quads := rfl
@[simp] theorem State.setThr_dies (s : State) (k : Nat) (t : Thread) : (s.setThr k t).dies = s.dies := rfl
@[simp] theorem State.setThr_lines (s : State) (k : Nat) (t : Thread) : (s.setThr k t).lines = s.lines := rfl
@[simp] theorem State.setThr_sharers (s : State) (k : Nat) (t : Thread) : (s.setThr k t).sharers = s.sharers := rfl
@[simp] theorem State.setThr_notices (s : State) (k : Nat) (t : Thread) : (s.setThr k t).notices = s.notices := rfl
@[simp] theorem State.setThr_acks (s : State) (k : Nat) (t : Thread) : (s.setThr k t).acks = s.acks := rfl
@[simp] theorem State.setThr_packets (s : State) (k : Nat) (t : Thread) : (s.setThr k t).packets = s.packets := rfl
@[simp] theorem State.setThr_evicted (s : State) (k : Nat) (t : Thread) : (s.setThr k t).evicted = s.evicted := rfl
@[simp] theorem State.setThr_walks (s : State) (k : Nat) (t : Thread) : (s.setThr k t).walks = s.walks := rfl
@[simp] theorem State.setThr_pages (s : State) (k : Nat) (t : Thread) : (s.setThr k t).pages = s.pages := rfl
@[simp] theorem State.setThr_dupMap (s : State) (k : Nat) (t : Thread) : (s.setThr k t).dupMap = s.dupMap := rfl
@[simp] theorem State.setThr_migrations (s : State) (k : Nat) (t : Thread) : (s.setThr k t).migrations = s.migrations := rfl
@[simp] theorem State.setThr_collapses (s : State) (k : Nat) (t : Thread) : (s.setThr k t).collapses = s.collapses := rfl
@[simp] theorem State.setThr_epochLeft (s : State) (k : Nat) (t : Thread) : (s.setThr k t).epochLeft = s.epochLeft := rfl
@[simp] theorem State.setThr_owner (s : State) (k : Nat) (t : Thread) : (s.setThr k t).owner = s.owner := rfl
@[simp] theorem State.setThr_owned (s : State) (k : Nat) (t : Thread) : (s.setThr k t).owned = s.owned := rfl
@[simp] theorem State.setThr_target (s : State) (k : Nat) (t : Thread) : (s.setThr k t).target = s.target := rfl
@[simp] theorem State.setThr_pending (s : State) (k : Nat) (t : Thread) : (s.setThr k t).pending = s.pending := rfl
@[simp] theorem State.setThr_handoverLeft (s : State) (k : Nat) (t : Thread) : (s.setThr k t).handoverLeft = s.handoverLeft := rfl
@[simp] theorem State.setThr_ctl (s : State) (k : Nat) (t : Thread) : (s.setThr k t).ctl = s.ctl := rfl
@[simp] theorem State.setThr_ownerEvents (s : State) (k : Nat) (t : Thread) : (s.setThr k t).ownerEvents = s.ownerEvents := rfl
@[simp] theorem State.setThr_hold (s : State) (k : Nat) (t : Thread) : (s.setThr k t).hold = s.hold := rfl
@[simp] theorem State.setThr_cap (s : State) (k : Nat) (t : Thread) : (s.setThr k t).cap = s.cap := rfl
@[simp] theorem State.setThr_aclk (s : State) (k : Nat) (t : Thread) : (s.setThr k t).aclk = s.aclk := rfl
@[simp] theorem State.setThr_tdis (s : State) (k : Nat) (t : Thread) : (s.setThr k t).tdis = s.tdis := rfl
@[simp] theorem State.setThr_bound (s : State) (k : Nat) (t : Thread) : (s.setThr k t).bound = s.bound := rfl
@[simp] theorem State.setThr_links (s : State) (k : Nat) (t : Thread) : (s.setThr k t).links = s.links := rfl
@[simp] theorem State.setThr_firmware (s : State) (k : Nat) (t : Thread) : (s.setThr k t).firmware = s.firmware := rfl
@[simp] theorem State.setThr_dbg (s : State) (k : Nat) (t : Thread) : (s.setThr k t).dbg = s.dbg := rfl
@[simp] theorem State.setThr_errors (s : State) (k : Nat) (t : Thread) : (s.setThr k t).errors = s.errors := rfl
@[simp] theorem State.setThr_remote (s : State) (k : Nat) (t : Thread) : (s.setThr k t).remote = s.remote := rfl
@[simp] theorem State.setThr_bar (s : State) (k : Nat) (t : Thread) : (s.setThr k t).bar = s.bar := rfl
@[simp] theorem State.setThr_turn (s : State) (k : Nat) (t : Thread) : (s.setThr k t).turn = s.turn := rfl
@[simp] theorem State.setThr_sentOut (s : State) (k : Nat) (t : Thread) : (s.setThr k t).sentOut = s.sentOut := rfl

/-! ## modThr -/
@[simp] theorem State.modThr_agenda (s : State) (k : Nat) (f : Thread → Thread) : (s.modThr k f).agenda = s.agenda := rfl
@[simp] theorem State.modThr_focus (s : State) (k : Nat) (f : Thread → Thread) : (s.modThr k f).focus = s.focus := rfl
@[simp] theorem State.modThr_unsettled (s : State) (k : Nat) (f : Thread → Thread) : (s.modThr k f).unsettled = s.unsettled := rfl
@[simp] theorem State.modThr_latch (s : State) (k : Nat) (f : Thread → Thread) : (s.modThr k f).latch = s.latch := rfl
@[simp] theorem State.modThr_offers (s : State) (k : Nat) (f : Thread → Thread) : (s.modThr k f).offers = s.offers := rfl
@[simp] theorem State.modThr_freeN (s : State) (k : Nat) (f : Thread → Thread) : (s.modThr k f).freeN = s.freeN := rfl
@[simp] theorem State.modThr_nextId (s : State) (k : Nat) (f : Thread → Thread) : (s.modThr k f).nextId = s.nextId := rfl
@[simp] theorem State.modThr_clk (s : State) (k : Nat) (f : Thread → Thread) : (s.modThr k f).clk = s.clk := rfl
@[simp] theorem State.modThr_time (s : State) (k : Nat) (f : Thread → Thread) : (s.modThr k f).time = s.time := rfl
@[simp] theorem State.modThr_phase (s : State) (k : Nat) (f : Thread → Thread) : (s.modThr k f).phase = s.phase := rfl
@[simp] theorem State.modThr_mem (s : State) (k : Nat) (f : Thread → Thread) : (s.modThr k f).mem = s.mem := rfl
@[simp] theorem State.modThr_poison (s : State) (k : Nat) (f : Thread → Thread) : (s.modThr k f).poison = s.poison := rfl
@[simp] theorem State.modThr_ctxs (s : State) (k : Nat) (f : Thread → Thread) : (s.modThr k f).ctxs = s.ctxs := rfl
@[simp] theorem State.modThr_grids (s : State) (k : Nat) (f : Thread → Thread) : (s.modThr k f).grids = s.grids := rfl
@[simp] theorem State.modThr_blocks (s : State) (k : Nat) (f : Thread → Thread) : (s.modThr k f).blocks = s.blocks := rfl
@[simp] theorem State.modThr_squads (s : State) (k : Nat) (f : Thread → Thread) : (s.modThr k f).squads = s.squads := rfl
@[simp] theorem State.modThr_threads (s : State) (k : Nat) (f : Thread → Thread) : (s.modThr k f).threads = tmod s.threads k f := rfl
@[simp] theorem State.modThr_accs (s : State) (k : Nat) (f : Thread → Thread) : (s.modThr k f).accs = s.accs := rfl
@[simp] theorem State.modThr_credits (s : State) (k : Nat) (f : Thread → Thread) : (s.modThr k f).credits = s.credits := rfl
@[simp] theorem State.modThr_bankSave (s : State) (k : Nat) (f : Thread → Thread) : (s.modThr k f).bankSave = s.bankSave := rfl
@[simp] theorem State.modThr_cores (s : State) (k : Nat) (f : Thread → Thread) : (s.modThr k f).cores = s.cores := rfl
@[simp] theorem State.modThr_quads (s : State) (k : Nat) (f : Thread → Thread) : (s.modThr k f).quads = s.quads := rfl
@[simp] theorem State.modThr_dies (s : State) (k : Nat) (f : Thread → Thread) : (s.modThr k f).dies = s.dies := rfl
@[simp] theorem State.modThr_lines (s : State) (k : Nat) (f : Thread → Thread) : (s.modThr k f).lines = s.lines := rfl
@[simp] theorem State.modThr_sharers (s : State) (k : Nat) (f : Thread → Thread) : (s.modThr k f).sharers = s.sharers := rfl
@[simp] theorem State.modThr_notices (s : State) (k : Nat) (f : Thread → Thread) : (s.modThr k f).notices = s.notices := rfl
@[simp] theorem State.modThr_acks (s : State) (k : Nat) (f : Thread → Thread) : (s.modThr k f).acks = s.acks := rfl
@[simp] theorem State.modThr_packets (s : State) (k : Nat) (f : Thread → Thread) : (s.modThr k f).packets = s.packets := rfl
@[simp] theorem State.modThr_evicted (s : State) (k : Nat) (f : Thread → Thread) : (s.modThr k f).evicted = s.evicted := rfl
@[simp] theorem State.modThr_walks (s : State) (k : Nat) (f : Thread → Thread) : (s.modThr k f).walks = s.walks := rfl
@[simp] theorem State.modThr_pages (s : State) (k : Nat) (f : Thread → Thread) : (s.modThr k f).pages = s.pages := rfl
@[simp] theorem State.modThr_dupMap (s : State) (k : Nat) (f : Thread → Thread) : (s.modThr k f).dupMap = s.dupMap := rfl
@[simp] theorem State.modThr_migrations (s : State) (k : Nat) (f : Thread → Thread) : (s.modThr k f).migrations = s.migrations := rfl
@[simp] theorem State.modThr_collapses (s : State) (k : Nat) (f : Thread → Thread) : (s.modThr k f).collapses = s.collapses := rfl
@[simp] theorem State.modThr_epochLeft (s : State) (k : Nat) (f : Thread → Thread) : (s.modThr k f).epochLeft = s.epochLeft := rfl
@[simp] theorem State.modThr_owner (s : State) (k : Nat) (f : Thread → Thread) : (s.modThr k f).owner = s.owner := rfl
@[simp] theorem State.modThr_owned (s : State) (k : Nat) (f : Thread → Thread) : (s.modThr k f).owned = s.owned := rfl
@[simp] theorem State.modThr_target (s : State) (k : Nat) (f : Thread → Thread) : (s.modThr k f).target = s.target := rfl
@[simp] theorem State.modThr_pending (s : State) (k : Nat) (f : Thread → Thread) : (s.modThr k f).pending = s.pending := rfl
@[simp] theorem State.modThr_handoverLeft (s : State) (k : Nat) (f : Thread → Thread) : (s.modThr k f).handoverLeft = s.handoverLeft := rfl
@[simp] theorem State.modThr_ctl (s : State) (k : Nat) (f : Thread → Thread) : (s.modThr k f).ctl = s.ctl := rfl
@[simp] theorem State.modThr_ownerEvents (s : State) (k : Nat) (f : Thread → Thread) : (s.modThr k f).ownerEvents = s.ownerEvents := rfl
@[simp] theorem State.modThr_hold (s : State) (k : Nat) (f : Thread → Thread) : (s.modThr k f).hold = s.hold := rfl
@[simp] theorem State.modThr_cap (s : State) (k : Nat) (f : Thread → Thread) : (s.modThr k f).cap = s.cap := rfl
@[simp] theorem State.modThr_aclk (s : State) (k : Nat) (f : Thread → Thread) : (s.modThr k f).aclk = s.aclk := rfl
@[simp] theorem State.modThr_tdis (s : State) (k : Nat) (f : Thread → Thread) : (s.modThr k f).tdis = s.tdis := rfl
@[simp] theorem State.modThr_bound (s : State) (k : Nat) (f : Thread → Thread) : (s.modThr k f).bound = s.bound := rfl
@[simp] theorem State.modThr_links (s : State) (k : Nat) (f : Thread → Thread) : (s.modThr k f).links = s.links := rfl
@[simp] theorem State.modThr_firmware (s : State) (k : Nat) (f : Thread → Thread) : (s.modThr k f).firmware = s.firmware := rfl
@[simp] theorem State.modThr_dbg (s : State) (k : Nat) (f : Thread → Thread) : (s.modThr k f).dbg = s.dbg := rfl
@[simp] theorem State.modThr_errors (s : State) (k : Nat) (f : Thread → Thread) : (s.modThr k f).errors = s.errors := rfl
@[simp] theorem State.modThr_remote (s : State) (k : Nat) (f : Thread → Thread) : (s.modThr k f).remote = s.remote := rfl
@[simp] theorem State.modThr_bar (s : State) (k : Nat) (f : Thread → Thread) : (s.modThr k f).bar = s.bar := rfl
@[simp] theorem State.modThr_turn (s : State) (k : Nat) (f : Thread → Thread) : (s.modThr k f).turn = s.turn := rfl
@[simp] theorem State.modThr_sentOut (s : State) (k : Nat) (f : Thread → Thread) : (s.modThr k f).sentOut = s.sentOut := rfl

/-! ## modSquad -/
@[simp] theorem State.modSquad_agenda (s : State) (b n : Nat) (f : Squad → Squad) : (s.modSquad b n f).agenda = s.agenda := rfl
@[simp] theorem State.modSquad_focus (s : State) (b n : Nat) (f : Squad → Squad) : (s.modSquad b n f).focus = s.focus := rfl
@[simp] theorem State.modSquad_unsettled (s : State) (b n : Nat) (f : Squad → Squad) : (s.modSquad b n f).unsettled = s.unsettled := rfl
@[simp] theorem State.modSquad_latch (s : State) (b n : Nat) (f : Squad → Squad) : (s.modSquad b n f).latch = s.latch := rfl
@[simp] theorem State.modSquad_offers (s : State) (b n : Nat) (f : Squad → Squad) : (s.modSquad b n f).offers = s.offers := rfl
@[simp] theorem State.modSquad_freeN (s : State) (b n : Nat) (f : Squad → Squad) : (s.modSquad b n f).freeN = s.freeN := rfl
@[simp] theorem State.modSquad_nextId (s : State) (b n : Nat) (f : Squad → Squad) : (s.modSquad b n f).nextId = s.nextId := rfl
@[simp] theorem State.modSquad_clk (s : State) (b n : Nat) (f : Squad → Squad) : (s.modSquad b n f).clk = s.clk := rfl
@[simp] theorem State.modSquad_time (s : State) (b n : Nat) (f : Squad → Squad) : (s.modSquad b n f).time = s.time := rfl
@[simp] theorem State.modSquad_phase (s : State) (b n : Nat) (f : Squad → Squad) : (s.modSquad b n f).phase = s.phase := rfl
@[simp] theorem State.modSquad_mem (s : State) (b n : Nat) (f : Squad → Squad) : (s.modSquad b n f).mem = s.mem := rfl
@[simp] theorem State.modSquad_poison (s : State) (b n : Nat) (f : Squad → Squad) : (s.modSquad b n f).poison = s.poison := rfl
@[simp] theorem State.modSquad_ctxs (s : State) (b n : Nat) (f : Squad → Squad) : (s.modSquad b n f).ctxs = s.ctxs := rfl
@[simp] theorem State.modSquad_grids (s : State) (b n : Nat) (f : Squad → Squad) : (s.modSquad b n f).grids = s.grids := rfl
@[simp] theorem State.modSquad_blocks (s : State) (b n : Nat) (f : Squad → Squad) : (s.modSquad b n f).blocks = s.blocks := rfl
@[simp] theorem State.modSquad_squads (s : State) (b n : Nat) (f : Squad → Squad) : (s.modSquad b n f).squads = tmod s.squads (squadKey b n) f := rfl
@[simp] theorem State.modSquad_threads (s : State) (b n : Nat) (f : Squad → Squad) : (s.modSquad b n f).threads = s.threads := rfl
@[simp] theorem State.modSquad_accs (s : State) (b n : Nat) (f : Squad → Squad) : (s.modSquad b n f).accs = s.accs := rfl
@[simp] theorem State.modSquad_credits (s : State) (b n : Nat) (f : Squad → Squad) : (s.modSquad b n f).credits = s.credits := rfl
@[simp] theorem State.modSquad_bankSave (s : State) (b n : Nat) (f : Squad → Squad) : (s.modSquad b n f).bankSave = s.bankSave := rfl
@[simp] theorem State.modSquad_cores (s : State) (b n : Nat) (f : Squad → Squad) : (s.modSquad b n f).cores = s.cores := rfl
@[simp] theorem State.modSquad_quads (s : State) (b n : Nat) (f : Squad → Squad) : (s.modSquad b n f).quads = s.quads := rfl
@[simp] theorem State.modSquad_dies (s : State) (b n : Nat) (f : Squad → Squad) : (s.modSquad b n f).dies = s.dies := rfl
@[simp] theorem State.modSquad_lines (s : State) (b n : Nat) (f : Squad → Squad) : (s.modSquad b n f).lines = s.lines := rfl
@[simp] theorem State.modSquad_sharers (s : State) (b n : Nat) (f : Squad → Squad) : (s.modSquad b n f).sharers = s.sharers := rfl
@[simp] theorem State.modSquad_notices (s : State) (b n : Nat) (f : Squad → Squad) : (s.modSquad b n f).notices = s.notices := rfl
@[simp] theorem State.modSquad_acks (s : State) (b n : Nat) (f : Squad → Squad) : (s.modSquad b n f).acks = s.acks := rfl
@[simp] theorem State.modSquad_packets (s : State) (b n : Nat) (f : Squad → Squad) : (s.modSquad b n f).packets = s.packets := rfl
@[simp] theorem State.modSquad_evicted (s : State) (b n : Nat) (f : Squad → Squad) : (s.modSquad b n f).evicted = s.evicted := rfl
@[simp] theorem State.modSquad_walks (s : State) (b n : Nat) (f : Squad → Squad) : (s.modSquad b n f).walks = s.walks := rfl
@[simp] theorem State.modSquad_pages (s : State) (b n : Nat) (f : Squad → Squad) : (s.modSquad b n f).pages = s.pages := rfl
@[simp] theorem State.modSquad_dupMap (s : State) (b n : Nat) (f : Squad → Squad) : (s.modSquad b n f).dupMap = s.dupMap := rfl
@[simp] theorem State.modSquad_migrations (s : State) (b n : Nat) (f : Squad → Squad) : (s.modSquad b n f).migrations = s.migrations := rfl
@[simp] theorem State.modSquad_collapses (s : State) (b n : Nat) (f : Squad → Squad) : (s.modSquad b n f).collapses = s.collapses := rfl
@[simp] theorem State.modSquad_epochLeft (s : State) (b n : Nat) (f : Squad → Squad) : (s.modSquad b n f).epochLeft = s.epochLeft := rfl
@[simp] theorem State.modSquad_owner (s : State) (b n : Nat) (f : Squad → Squad) : (s.modSquad b n f).owner = s.owner := rfl
@[simp] theorem State.modSquad_owned (s : State) (b n : Nat) (f : Squad → Squad) : (s.modSquad b n f).owned = s.owned := rfl
@[simp] theorem State.modSquad_target (s : State) (b n : Nat) (f : Squad → Squad) : (s.modSquad b n f).target = s.target := rfl
@[simp] theorem State.modSquad_pending (s : State) (b n : Nat) (f : Squad → Squad) : (s.modSquad b n f).pending = s.pending := rfl
@[simp] theorem State.modSquad_handoverLeft (s : State) (b n : Nat) (f : Squad → Squad) : (s.modSquad b n f).handoverLeft = s.handoverLeft := rfl
@[simp] theorem State.modSquad_ctl (s : State) (b n : Nat) (f : Squad → Squad) : (s.modSquad b n f).ctl = s.ctl := rfl
@[simp] theorem State.modSquad_ownerEvents (s : State) (b n : Nat) (f : Squad → Squad) : (s.modSquad b n f).ownerEvents = s.ownerEvents := rfl
@[simp] theorem State.modSquad_hold (s : State) (b n : Nat) (f : Squad → Squad) : (s.modSquad b n f).hold = s.hold := rfl
@[simp] theorem State.modSquad_cap (s : State) (b n : Nat) (f : Squad → Squad) : (s.modSquad b n f).cap = s.cap := rfl
@[simp] theorem State.modSquad_aclk (s : State) (b n : Nat) (f : Squad → Squad) : (s.modSquad b n f).aclk = s.aclk := rfl
@[simp] theorem State.modSquad_tdis (s : State) (b n : Nat) (f : Squad → Squad) : (s.modSquad b n f).tdis = s.tdis := rfl
@[simp] theorem State.modSquad_bound (s : State) (b n : Nat) (f : Squad → Squad) : (s.modSquad b n f).bound = s.bound := rfl
@[simp] theorem State.modSquad_links (s : State) (b n : Nat) (f : Squad → Squad) : (s.modSquad b n f).links = s.links := rfl
@[simp] theorem State.modSquad_firmware (s : State) (b n : Nat) (f : Squad → Squad) : (s.modSquad b n f).firmware = s.firmware := rfl
@[simp] theorem State.modSquad_dbg (s : State) (b n : Nat) (f : Squad → Squad) : (s.modSquad b n f).dbg = s.dbg := rfl
@[simp] theorem State.modSquad_errors (s : State) (b n : Nat) (f : Squad → Squad) : (s.modSquad b n f).errors = s.errors := rfl
@[simp] theorem State.modSquad_remote (s : State) (b n : Nat) (f : Squad → Squad) : (s.modSquad b n f).remote = s.remote := rfl
@[simp] theorem State.modSquad_bar (s : State) (b n : Nat) (f : Squad → Squad) : (s.modSquad b n f).bar = s.bar := rfl
@[simp] theorem State.modSquad_turn (s : State) (b n : Nat) (f : Squad → Squad) : (s.modSquad b n f).turn = s.turn := rfl
@[simp] theorem State.modSquad_sentOut (s : State) (b n : Nat) (f : Squad → Squad) : (s.modSquad b n f).sentOut = s.sentOut := rfl

/-! ## modBlock -/
@[simp] theorem State.modBlock_agenda (s : State) (b : Nat) (f : Block → Block) : (s.modBlock b f).agenda = s.agenda := rfl
@[simp] theorem State.modBlock_focus (s : State) (b : Nat) (f : Block → Block) : (s.modBlock b f).focus = s.focus := rfl
@[simp] theorem State.modBlock_unsettled (s : State) (b : Nat) (f : Block → Block) : (s.modBlock b f).unsettled = s.unsettled := rfl
@[simp] theorem State.modBlock_latch (s : State) (b : Nat) (f : Block → Block) : (s.modBlock b f).latch = s.latch := rfl
@[simp] theorem State.modBlock_offers (s : State) (b : Nat) (f : Block → Block) : (s.modBlock b f).offers = s.offers := rfl
@[simp] theorem State.modBlock_freeN (s : State) (b : Nat) (f : Block → Block) : (s.modBlock b f).freeN = s.freeN := rfl
@[simp] theorem State.modBlock_nextId (s : State) (b : Nat) (f : Block → Block) : (s.modBlock b f).nextId = s.nextId := rfl
@[simp] theorem State.modBlock_clk (s : State) (b : Nat) (f : Block → Block) : (s.modBlock b f).clk = s.clk := rfl
@[simp] theorem State.modBlock_time (s : State) (b : Nat) (f : Block → Block) : (s.modBlock b f).time = s.time := rfl
@[simp] theorem State.modBlock_phase (s : State) (b : Nat) (f : Block → Block) : (s.modBlock b f).phase = s.phase := rfl
@[simp] theorem State.modBlock_mem (s : State) (b : Nat) (f : Block → Block) : (s.modBlock b f).mem = s.mem := rfl
@[simp] theorem State.modBlock_poison (s : State) (b : Nat) (f : Block → Block) : (s.modBlock b f).poison = s.poison := rfl
@[simp] theorem State.modBlock_ctxs (s : State) (b : Nat) (f : Block → Block) : (s.modBlock b f).ctxs = s.ctxs := rfl
@[simp] theorem State.modBlock_grids (s : State) (b : Nat) (f : Block → Block) : (s.modBlock b f).grids = s.grids := rfl
@[simp] theorem State.modBlock_blocks (s : State) (b : Nat) (f : Block → Block) : (s.modBlock b f).blocks = tmod s.blocks b f := rfl
@[simp] theorem State.modBlock_squads (s : State) (b : Nat) (f : Block → Block) : (s.modBlock b f).squads = s.squads := rfl
@[simp] theorem State.modBlock_threads (s : State) (b : Nat) (f : Block → Block) : (s.modBlock b f).threads = s.threads := rfl
@[simp] theorem State.modBlock_accs (s : State) (b : Nat) (f : Block → Block) : (s.modBlock b f).accs = s.accs := rfl
@[simp] theorem State.modBlock_credits (s : State) (b : Nat) (f : Block → Block) : (s.modBlock b f).credits = s.credits := rfl
@[simp] theorem State.modBlock_bankSave (s : State) (b : Nat) (f : Block → Block) : (s.modBlock b f).bankSave = s.bankSave := rfl
@[simp] theorem State.modBlock_cores (s : State) (b : Nat) (f : Block → Block) : (s.modBlock b f).cores = s.cores := rfl
@[simp] theorem State.modBlock_quads (s : State) (b : Nat) (f : Block → Block) : (s.modBlock b f).quads = s.quads := rfl
@[simp] theorem State.modBlock_dies (s : State) (b : Nat) (f : Block → Block) : (s.modBlock b f).dies = s.dies := rfl
@[simp] theorem State.modBlock_lines (s : State) (b : Nat) (f : Block → Block) : (s.modBlock b f).lines = s.lines := rfl
@[simp] theorem State.modBlock_sharers (s : State) (b : Nat) (f : Block → Block) : (s.modBlock b f).sharers = s.sharers := rfl
@[simp] theorem State.modBlock_notices (s : State) (b : Nat) (f : Block → Block) : (s.modBlock b f).notices = s.notices := rfl
@[simp] theorem State.modBlock_acks (s : State) (b : Nat) (f : Block → Block) : (s.modBlock b f).acks = s.acks := rfl
@[simp] theorem State.modBlock_packets (s : State) (b : Nat) (f : Block → Block) : (s.modBlock b f).packets = s.packets := rfl
@[simp] theorem State.modBlock_evicted (s : State) (b : Nat) (f : Block → Block) : (s.modBlock b f).evicted = s.evicted := rfl
@[simp] theorem State.modBlock_walks (s : State) (b : Nat) (f : Block → Block) : (s.modBlock b f).walks = s.walks := rfl
@[simp] theorem State.modBlock_pages (s : State) (b : Nat) (f : Block → Block) : (s.modBlock b f).pages = s.pages := rfl
@[simp] theorem State.modBlock_dupMap (s : State) (b : Nat) (f : Block → Block) : (s.modBlock b f).dupMap = s.dupMap := rfl
@[simp] theorem State.modBlock_migrations (s : State) (b : Nat) (f : Block → Block) : (s.modBlock b f).migrations = s.migrations := rfl
@[simp] theorem State.modBlock_collapses (s : State) (b : Nat) (f : Block → Block) : (s.modBlock b f).collapses = s.collapses := rfl
@[simp] theorem State.modBlock_epochLeft (s : State) (b : Nat) (f : Block → Block) : (s.modBlock b f).epochLeft = s.epochLeft := rfl
@[simp] theorem State.modBlock_owner (s : State) (b : Nat) (f : Block → Block) : (s.modBlock b f).owner = s.owner := rfl
@[simp] theorem State.modBlock_owned (s : State) (b : Nat) (f : Block → Block) : (s.modBlock b f).owned = s.owned := rfl
@[simp] theorem State.modBlock_target (s : State) (b : Nat) (f : Block → Block) : (s.modBlock b f).target = s.target := rfl
@[simp] theorem State.modBlock_pending (s : State) (b : Nat) (f : Block → Block) : (s.modBlock b f).pending = s.pending := rfl
@[simp] theorem State.modBlock_handoverLeft (s : State) (b : Nat) (f : Block → Block) : (s.modBlock b f).handoverLeft = s.handoverLeft := rfl
@[simp] theorem State.modBlock_ctl (s : State) (b : Nat) (f : Block → Block) : (s.modBlock b f).ctl = s.ctl := rfl
@[simp] theorem State.modBlock_ownerEvents (s : State) (b : Nat) (f : Block → Block) : (s.modBlock b f).ownerEvents = s.ownerEvents := rfl
@[simp] theorem State.modBlock_hold (s : State) (b : Nat) (f : Block → Block) : (s.modBlock b f).hold = s.hold := rfl
@[simp] theorem State.modBlock_cap (s : State) (b : Nat) (f : Block → Block) : (s.modBlock b f).cap = s.cap := rfl
@[simp] theorem State.modBlock_aclk (s : State) (b : Nat) (f : Block → Block) : (s.modBlock b f).aclk = s.aclk := rfl
@[simp] theorem State.modBlock_tdis (s : State) (b : Nat) (f : Block → Block) : (s.modBlock b f).tdis = s.tdis := rfl
@[simp] theorem State.modBlock_bound (s : State) (b : Nat) (f : Block → Block) : (s.modBlock b f).bound = s.bound := rfl
@[simp] theorem State.modBlock_links (s : State) (b : Nat) (f : Block → Block) : (s.modBlock b f).links = s.links := rfl
@[simp] theorem State.modBlock_firmware (s : State) (b : Nat) (f : Block → Block) : (s.modBlock b f).firmware = s.firmware := rfl
@[simp] theorem State.modBlock_dbg (s : State) (b : Nat) (f : Block → Block) : (s.modBlock b f).dbg = s.dbg := rfl
@[simp] theorem State.modBlock_errors (s : State) (b : Nat) (f : Block → Block) : (s.modBlock b f).errors = s.errors := rfl
@[simp] theorem State.modBlock_remote (s : State) (b : Nat) (f : Block → Block) : (s.modBlock b f).remote = s.remote := rfl
@[simp] theorem State.modBlock_bar (s : State) (b : Nat) (f : Block → Block) : (s.modBlock b f).bar = s.bar := rfl
@[simp] theorem State.modBlock_turn (s : State) (b : Nat) (f : Block → Block) : (s.modBlock b f).turn = s.turn := rfl
@[simp] theorem State.modBlock_sentOut (s : State) (b : Nat) (f : Block → Block) : (s.modBlock b f).sentOut = s.sentOut := rfl

/-! ## modGrid -/
@[simp] theorem State.modGrid_agenda (s : State) (g : Nat) (f : Grid → Grid) : (s.modGrid g f).agenda = s.agenda := rfl
@[simp] theorem State.modGrid_focus (s : State) (g : Nat) (f : Grid → Grid) : (s.modGrid g f).focus = s.focus := rfl
@[simp] theorem State.modGrid_unsettled (s : State) (g : Nat) (f : Grid → Grid) : (s.modGrid g f).unsettled = s.unsettled := rfl
@[simp] theorem State.modGrid_latch (s : State) (g : Nat) (f : Grid → Grid) : (s.modGrid g f).latch = s.latch := rfl
@[simp] theorem State.modGrid_offers (s : State) (g : Nat) (f : Grid → Grid) : (s.modGrid g f).offers = s.offers := rfl
@[simp] theorem State.modGrid_freeN (s : State) (g : Nat) (f : Grid → Grid) : (s.modGrid g f).freeN = s.freeN := rfl
@[simp] theorem State.modGrid_nextId (s : State) (g : Nat) (f : Grid → Grid) : (s.modGrid g f).nextId = s.nextId := rfl
@[simp] theorem State.modGrid_clk (s : State) (g : Nat) (f : Grid → Grid) : (s.modGrid g f).clk = s.clk := rfl
@[simp] theorem State.modGrid_time (s : State) (g : Nat) (f : Grid → Grid) : (s.modGrid g f).time = s.time := rfl
@[simp] theorem State.modGrid_phase (s : State) (g : Nat) (f : Grid → Grid) : (s.modGrid g f).phase = s.phase := rfl
@[simp] theorem State.modGrid_mem (s : State) (g : Nat) (f : Grid → Grid) : (s.modGrid g f).mem = s.mem := rfl
@[simp] theorem State.modGrid_poison (s : State) (g : Nat) (f : Grid → Grid) : (s.modGrid g f).poison = s.poison := rfl
@[simp] theorem State.modGrid_ctxs (s : State) (g : Nat) (f : Grid → Grid) : (s.modGrid g f).ctxs = s.ctxs := rfl
@[simp] theorem State.modGrid_grids (s : State) (g : Nat) (f : Grid → Grid) : (s.modGrid g f).grids = tmod s.grids g f := rfl
@[simp] theorem State.modGrid_blocks (s : State) (g : Nat) (f : Grid → Grid) : (s.modGrid g f).blocks = s.blocks := rfl
@[simp] theorem State.modGrid_squads (s : State) (g : Nat) (f : Grid → Grid) : (s.modGrid g f).squads = s.squads := rfl
@[simp] theorem State.modGrid_threads (s : State) (g : Nat) (f : Grid → Grid) : (s.modGrid g f).threads = s.threads := rfl
@[simp] theorem State.modGrid_accs (s : State) (g : Nat) (f : Grid → Grid) : (s.modGrid g f).accs = s.accs := rfl
@[simp] theorem State.modGrid_credits (s : State) (g : Nat) (f : Grid → Grid) : (s.modGrid g f).credits = s.credits := rfl
@[simp] theorem State.modGrid_bankSave (s : State) (g : Nat) (f : Grid → Grid) : (s.modGrid g f).bankSave = s.bankSave := rfl
@[simp] theorem State.modGrid_cores (s : State) (g : Nat) (f : Grid → Grid) : (s.modGrid g f).cores = s.cores := rfl
@[simp] theorem State.modGrid_quads (s : State) (g : Nat) (f : Grid → Grid) : (s.modGrid g f).quads = s.quads := rfl
@[simp] theorem State.modGrid_dies (s : State) (g : Nat) (f : Grid → Grid) : (s.modGrid g f).dies = s.dies := rfl
@[simp] theorem State.modGrid_lines (s : State) (g : Nat) (f : Grid → Grid) : (s.modGrid g f).lines = s.lines := rfl
@[simp] theorem State.modGrid_sharers (s : State) (g : Nat) (f : Grid → Grid) : (s.modGrid g f).sharers = s.sharers := rfl
@[simp] theorem State.modGrid_notices (s : State) (g : Nat) (f : Grid → Grid) : (s.modGrid g f).notices = s.notices := rfl
@[simp] theorem State.modGrid_acks (s : State) (g : Nat) (f : Grid → Grid) : (s.modGrid g f).acks = s.acks := rfl
@[simp] theorem State.modGrid_packets (s : State) (g : Nat) (f : Grid → Grid) : (s.modGrid g f).packets = s.packets := rfl
@[simp] theorem State.modGrid_evicted (s : State) (g : Nat) (f : Grid → Grid) : (s.modGrid g f).evicted = s.evicted := rfl
@[simp] theorem State.modGrid_walks (s : State) (g : Nat) (f : Grid → Grid) : (s.modGrid g f).walks = s.walks := rfl
@[simp] theorem State.modGrid_pages (s : State) (g : Nat) (f : Grid → Grid) : (s.modGrid g f).pages = s.pages := rfl
@[simp] theorem State.modGrid_dupMap (s : State) (g : Nat) (f : Grid → Grid) : (s.modGrid g f).dupMap = s.dupMap := rfl
@[simp] theorem State.modGrid_migrations (s : State) (g : Nat) (f : Grid → Grid) : (s.modGrid g f).migrations = s.migrations := rfl
@[simp] theorem State.modGrid_collapses (s : State) (g : Nat) (f : Grid → Grid) : (s.modGrid g f).collapses = s.collapses := rfl
@[simp] theorem State.modGrid_epochLeft (s : State) (g : Nat) (f : Grid → Grid) : (s.modGrid g f).epochLeft = s.epochLeft := rfl
@[simp] theorem State.modGrid_owner (s : State) (g : Nat) (f : Grid → Grid) : (s.modGrid g f).owner = s.owner := rfl
@[simp] theorem State.modGrid_owned (s : State) (g : Nat) (f : Grid → Grid) : (s.modGrid g f).owned = s.owned := rfl
@[simp] theorem State.modGrid_target (s : State) (g : Nat) (f : Grid → Grid) : (s.modGrid g f).target = s.target := rfl
@[simp] theorem State.modGrid_pending (s : State) (g : Nat) (f : Grid → Grid) : (s.modGrid g f).pending = s.pending := rfl
@[simp] theorem State.modGrid_handoverLeft (s : State) (g : Nat) (f : Grid → Grid) : (s.modGrid g f).handoverLeft = s.handoverLeft := rfl
@[simp] theorem State.modGrid_ctl (s : State) (g : Nat) (f : Grid → Grid) : (s.modGrid g f).ctl = s.ctl := rfl
@[simp] theorem State.modGrid_ownerEvents (s : State) (g : Nat) (f : Grid → Grid) : (s.modGrid g f).ownerEvents = s.ownerEvents := rfl
@[simp] theorem State.modGrid_hold (s : State) (g : Nat) (f : Grid → Grid) : (s.modGrid g f).hold = s.hold := rfl
@[simp] theorem State.modGrid_cap (s : State) (g : Nat) (f : Grid → Grid) : (s.modGrid g f).cap = s.cap := rfl
@[simp] theorem State.modGrid_aclk (s : State) (g : Nat) (f : Grid → Grid) : (s.modGrid g f).aclk = s.aclk := rfl
@[simp] theorem State.modGrid_tdis (s : State) (g : Nat) (f : Grid → Grid) : (s.modGrid g f).tdis = s.tdis := rfl
@[simp] theorem State.modGrid_bound (s : State) (g : Nat) (f : Grid → Grid) : (s.modGrid g f).bound = s.bound := rfl
@[simp] theorem State.modGrid_links (s : State) (g : Nat) (f : Grid → Grid) : (s.modGrid g f).links = s.links := rfl
@[simp] theorem State.modGrid_firmware (s : State) (g : Nat) (f : Grid → Grid) : (s.modGrid g f).firmware = s.firmware := rfl
@[simp] theorem State.modGrid_dbg (s : State) (g : Nat) (f : Grid → Grid) : (s.modGrid g f).dbg = s.dbg := rfl
@[simp] theorem State.modGrid_errors (s : State) (g : Nat) (f : Grid → Grid) : (s.modGrid g f).errors = s.errors := rfl
@[simp] theorem State.modGrid_remote (s : State) (g : Nat) (f : Grid → Grid) : (s.modGrid g f).remote = s.remote := rfl
@[simp] theorem State.modGrid_bar (s : State) (g : Nat) (f : Grid → Grid) : (s.modGrid g f).bar = s.bar := rfl
@[simp] theorem State.modGrid_turn (s : State) (g : Nat) (f : Grid → Grid) : (s.modGrid g f).turn = s.turn := rfl
@[simp] theorem State.modGrid_sentOut (s : State) (g : Nat) (f : Grid → Grid) : (s.modGrid g f).sentOut = s.sentOut := rfl

/-! ## modCtx -/
@[simp] theorem State.modCtx_agenda (s : State) (c : Nat) (f : Context → Context) : (s.modCtx c f).agenda = s.agenda := rfl
@[simp] theorem State.modCtx_focus (s : State) (c : Nat) (f : Context → Context) : (s.modCtx c f).focus = s.focus := rfl
@[simp] theorem State.modCtx_unsettled (s : State) (c : Nat) (f : Context → Context) : (s.modCtx c f).unsettled = s.unsettled := rfl
@[simp] theorem State.modCtx_latch (s : State) (c : Nat) (f : Context → Context) : (s.modCtx c f).latch = s.latch := rfl
@[simp] theorem State.modCtx_offers (s : State) (c : Nat) (f : Context → Context) : (s.modCtx c f).offers = s.offers := rfl
@[simp] theorem State.modCtx_freeN (s : State) (c : Nat) (f : Context → Context) : (s.modCtx c f).freeN = s.freeN := rfl
@[simp] theorem State.modCtx_nextId (s : State) (c : Nat) (f : Context → Context) : (s.modCtx c f).nextId = s.nextId := rfl
@[simp] theorem State.modCtx_clk (s : State) (c : Nat) (f : Context → Context) : (s.modCtx c f).clk = s.clk := rfl
@[simp] theorem State.modCtx_time (s : State) (c : Nat) (f : Context → Context) : (s.modCtx c f).time = s.time := rfl
@[simp] theorem State.modCtx_phase (s : State) (c : Nat) (f : Context → Context) : (s.modCtx c f).phase = s.phase := rfl
@[simp] theorem State.modCtx_mem (s : State) (c : Nat) (f : Context → Context) : (s.modCtx c f).mem = s.mem := rfl
@[simp] theorem State.modCtx_poison (s : State) (c : Nat) (f : Context → Context) : (s.modCtx c f).poison = s.poison := rfl
@[simp] theorem State.modCtx_ctxs (s : State) (c : Nat) (f : Context → Context) : (s.modCtx c f).ctxs = tmod s.ctxs c f := rfl
@[simp] theorem State.modCtx_grids (s : State) (c : Nat) (f : Context → Context) : (s.modCtx c f).grids = s.grids := rfl
@[simp] theorem State.modCtx_blocks (s : State) (c : Nat) (f : Context → Context) : (s.modCtx c f).blocks = s.blocks := rfl
@[simp] theorem State.modCtx_squads (s : State) (c : Nat) (f : Context → Context) : (s.modCtx c f).squads = s.squads := rfl
@[simp] theorem State.modCtx_threads (s : State) (c : Nat) (f : Context → Context) : (s.modCtx c f).threads = s.threads := rfl
@[simp] theorem State.modCtx_accs (s : State) (c : Nat) (f : Context → Context) : (s.modCtx c f).accs = s.accs := rfl
@[simp] theorem State.modCtx_credits (s : State) (c : Nat) (f : Context → Context) : (s.modCtx c f).credits = s.credits := rfl
@[simp] theorem State.modCtx_bankSave (s : State) (c : Nat) (f : Context → Context) : (s.modCtx c f).bankSave = s.bankSave := rfl
@[simp] theorem State.modCtx_cores (s : State) (c : Nat) (f : Context → Context) : (s.modCtx c f).cores = s.cores := rfl
@[simp] theorem State.modCtx_quads (s : State) (c : Nat) (f : Context → Context) : (s.modCtx c f).quads = s.quads := rfl
@[simp] theorem State.modCtx_dies (s : State) (c : Nat) (f : Context → Context) : (s.modCtx c f).dies = s.dies := rfl
@[simp] theorem State.modCtx_lines (s : State) (c : Nat) (f : Context → Context) : (s.modCtx c f).lines = s.lines := rfl
@[simp] theorem State.modCtx_sharers (s : State) (c : Nat) (f : Context → Context) : (s.modCtx c f).sharers = s.sharers := rfl
@[simp] theorem State.modCtx_notices (s : State) (c : Nat) (f : Context → Context) : (s.modCtx c f).notices = s.notices := rfl
@[simp] theorem State.modCtx_acks (s : State) (c : Nat) (f : Context → Context) : (s.modCtx c f).acks = s.acks := rfl
@[simp] theorem State.modCtx_packets (s : State) (c : Nat) (f : Context → Context) : (s.modCtx c f).packets = s.packets := rfl
@[simp] theorem State.modCtx_evicted (s : State) (c : Nat) (f : Context → Context) : (s.modCtx c f).evicted = s.evicted := rfl
@[simp] theorem State.modCtx_walks (s : State) (c : Nat) (f : Context → Context) : (s.modCtx c f).walks = s.walks := rfl
@[simp] theorem State.modCtx_pages (s : State) (c : Nat) (f : Context → Context) : (s.modCtx c f).pages = s.pages := rfl
@[simp] theorem State.modCtx_dupMap (s : State) (c : Nat) (f : Context → Context) : (s.modCtx c f).dupMap = s.dupMap := rfl
@[simp] theorem State.modCtx_migrations (s : State) (c : Nat) (f : Context → Context) : (s.modCtx c f).migrations = s.migrations := rfl
@[simp] theorem State.modCtx_collapses (s : State) (c : Nat) (f : Context → Context) : (s.modCtx c f).collapses = s.collapses := rfl
@[simp] theorem State.modCtx_epochLeft (s : State) (c : Nat) (f : Context → Context) : (s.modCtx c f).epochLeft = s.epochLeft := rfl
@[simp] theorem State.modCtx_owner (s : State) (c : Nat) (f : Context → Context) : (s.modCtx c f).owner = s.owner := rfl
@[simp] theorem State.modCtx_owned (s : State) (c : Nat) (f : Context → Context) : (s.modCtx c f).owned = s.owned := rfl
@[simp] theorem State.modCtx_target (s : State) (c : Nat) (f : Context → Context) : (s.modCtx c f).target = s.target := rfl
@[simp] theorem State.modCtx_pending (s : State) (c : Nat) (f : Context → Context) : (s.modCtx c f).pending = s.pending := rfl
@[simp] theorem State.modCtx_handoverLeft (s : State) (c : Nat) (f : Context → Context) : (s.modCtx c f).handoverLeft = s.handoverLeft := rfl
@[simp] theorem State.modCtx_ctl (s : State) (c : Nat) (f : Context → Context) : (s.modCtx c f).ctl = s.ctl := rfl
@[simp] theorem State.modCtx_ownerEvents (s : State) (c : Nat) (f : Context → Context) : (s.modCtx c f).ownerEvents = s.ownerEvents := rfl
@[simp] theorem State.modCtx_hold (s : State) (c : Nat) (f : Context → Context) : (s.modCtx c f).hold = s.hold := rfl
@[simp] theorem State.modCtx_cap (s : State) (c : Nat) (f : Context → Context) : (s.modCtx c f).cap = s.cap := rfl
@[simp] theorem State.modCtx_aclk (s : State) (c : Nat) (f : Context → Context) : (s.modCtx c f).aclk = s.aclk := rfl
@[simp] theorem State.modCtx_tdis (s : State) (c : Nat) (f : Context → Context) : (s.modCtx c f).tdis = s.tdis := rfl
@[simp] theorem State.modCtx_bound (s : State) (c : Nat) (f : Context → Context) : (s.modCtx c f).bound = s.bound := rfl
@[simp] theorem State.modCtx_links (s : State) (c : Nat) (f : Context → Context) : (s.modCtx c f).links = s.links := rfl
@[simp] theorem State.modCtx_firmware (s : State) (c : Nat) (f : Context → Context) : (s.modCtx c f).firmware = s.firmware := rfl
@[simp] theorem State.modCtx_dbg (s : State) (c : Nat) (f : Context → Context) : (s.modCtx c f).dbg = s.dbg := rfl
@[simp] theorem State.modCtx_errors (s : State) (c : Nat) (f : Context → Context) : (s.modCtx c f).errors = s.errors := rfl
@[simp] theorem State.modCtx_remote (s : State) (c : Nat) (f : Context → Context) : (s.modCtx c f).remote = s.remote := rfl
@[simp] theorem State.modCtx_bar (s : State) (c : Nat) (f : Context → Context) : (s.modCtx c f).bar = s.bar := rfl
@[simp] theorem State.modCtx_turn (s : State) (c : Nat) (f : Context → Context) : (s.modCtx c f).turn = s.turn := rfl
@[simp] theorem State.modCtx_sentOut (s : State) (c : Nat) (f : Context → Context) : (s.modCtx c f).sentOut = s.sentOut := rfl

/-! ## modCore -/
@[simp] theorem State.modCore_agenda (s : State) (c : Nat) (f : Core → Core) : (s.modCore c f).agenda = s.agenda := rfl
@[simp] theorem State.modCore_focus (s : State) (c : Nat) (f : Core → Core) : (s.modCore c f).focus = s.focus := rfl
@[simp] theorem State.modCore_unsettled (s : State) (c : Nat) (f : Core → Core) : (s.modCore c f).unsettled = s.unsettled := rfl
@[simp] theorem State.modCore_latch (s : State) (c : Nat) (f : Core → Core) : (s.modCore c f).latch = s.latch := rfl
@[simp] theorem State.modCore_offers (s : State) (c : Nat) (f : Core → Core) : (s.modCore c f).offers = s.offers := rfl
@[simp] theorem State.modCore_freeN (s : State) (c : Nat) (f : Core → Core) : (s.modCore c f).freeN = s.freeN := rfl
@[simp] theorem State.modCore_nextId (s : State) (c : Nat) (f : Core → Core) : (s.modCore c f).nextId = s.nextId := rfl
@[simp] theorem State.modCore_clk (s : State) (c : Nat) (f : Core → Core) : (s.modCore c f).clk = s.clk := rfl
@[simp] theorem State.modCore_time (s : State) (c : Nat) (f : Core → Core) : (s.modCore c f).time = s.time := rfl
@[simp] theorem State.modCore_phase (s : State) (c : Nat) (f : Core → Core) : (s.modCore c f).phase = s.phase := rfl
@[simp] theorem State.modCore_mem (s : State) (c : Nat) (f : Core → Core) : (s.modCore c f).mem = s.mem := rfl
@[simp] theorem State.modCore_poison (s : State) (c : Nat) (f : Core → Core) : (s.modCore c f).poison = s.poison := rfl
@[simp] theorem State.modCore_ctxs (s : State) (c : Nat) (f : Core → Core) : (s.modCore c f).ctxs = s.ctxs := rfl
@[simp] theorem State.modCore_grids (s : State) (c : Nat) (f : Core → Core) : (s.modCore c f).grids = s.grids := rfl
@[simp] theorem State.modCore_blocks (s : State) (c : Nat) (f : Core → Core) : (s.modCore c f).blocks = s.blocks := rfl
@[simp] theorem State.modCore_squads (s : State) (c : Nat) (f : Core → Core) : (s.modCore c f).squads = s.squads := rfl
@[simp] theorem State.modCore_threads (s : State) (c : Nat) (f : Core → Core) : (s.modCore c f).threads = s.threads := rfl
@[simp] theorem State.modCore_accs (s : State) (c : Nat) (f : Core → Core) : (s.modCore c f).accs = s.accs := rfl
@[simp] theorem State.modCore_credits (s : State) (c : Nat) (f : Core → Core) : (s.modCore c f).credits = s.credits := rfl
@[simp] theorem State.modCore_bankSave (s : State) (c : Nat) (f : Core → Core) : (s.modCore c f).bankSave = s.bankSave := rfl
@[simp] theorem State.modCore_cores (s : State) (c : Nat) (f : Core → Core) : (s.modCore c f).cores = tset s.cores c (f (s.core c)) := rfl
@[simp] theorem State.modCore_quads (s : State) (c : Nat) (f : Core → Core) : (s.modCore c f).quads = s.quads := rfl
@[simp] theorem State.modCore_dies (s : State) (c : Nat) (f : Core → Core) : (s.modCore c f).dies = s.dies := rfl
@[simp] theorem State.modCore_lines (s : State) (c : Nat) (f : Core → Core) : (s.modCore c f).lines = s.lines := rfl
@[simp] theorem State.modCore_sharers (s : State) (c : Nat) (f : Core → Core) : (s.modCore c f).sharers = s.sharers := rfl
@[simp] theorem State.modCore_notices (s : State) (c : Nat) (f : Core → Core) : (s.modCore c f).notices = s.notices := rfl
@[simp] theorem State.modCore_acks (s : State) (c : Nat) (f : Core → Core) : (s.modCore c f).acks = s.acks := rfl
@[simp] theorem State.modCore_packets (s : State) (c : Nat) (f : Core → Core) : (s.modCore c f).packets = s.packets := rfl
@[simp] theorem State.modCore_evicted (s : State) (c : Nat) (f : Core → Core) : (s.modCore c f).evicted = s.evicted := rfl
@[simp] theorem State.modCore_walks (s : State) (c : Nat) (f : Core → Core) : (s.modCore c f).walks = s.walks := rfl
@[simp] theorem State.modCore_pages (s : State) (c : Nat) (f : Core → Core) : (s.modCore c f).pages = s.pages := rfl
@[simp] theorem State.modCore_dupMap (s : State) (c : Nat) (f : Core → Core) : (s.modCore c f).dupMap = s.dupMap := rfl
@[simp] theorem State.modCore_migrations (s : State) (c : Nat) (f : Core → Core) : (s.modCore c f).migrations = s.migrations := rfl
@[simp] theorem State.modCore_collapses (s : State) (c : Nat) (f : Core → Core) : (s.modCore c f).collapses = s.collapses := rfl
@[simp] theorem State.modCore_epochLeft (s : State) (c : Nat) (f : Core → Core) : (s.modCore c f).epochLeft = s.epochLeft := rfl
@[simp] theorem State.modCore_owner (s : State) (c : Nat) (f : Core → Core) : (s.modCore c f).owner = s.owner := rfl
@[simp] theorem State.modCore_owned (s : State) (c : Nat) (f : Core → Core) : (s.modCore c f).owned = s.owned := rfl
@[simp] theorem State.modCore_target (s : State) (c : Nat) (f : Core → Core) : (s.modCore c f).target = s.target := rfl
@[simp] theorem State.modCore_pending (s : State) (c : Nat) (f : Core → Core) : (s.modCore c f).pending = s.pending := rfl
@[simp] theorem State.modCore_handoverLeft (s : State) (c : Nat) (f : Core → Core) : (s.modCore c f).handoverLeft = s.handoverLeft := rfl
@[simp] theorem State.modCore_ctl (s : State) (c : Nat) (f : Core → Core) : (s.modCore c f).ctl = s.ctl := rfl
@[simp] theorem State.modCore_ownerEvents (s : State) (c : Nat) (f : Core → Core) : (s.modCore c f).ownerEvents = s.ownerEvents := rfl
@[simp] theorem State.modCore_hold (s : State) (c : Nat) (f : Core → Core) : (s.modCore c f).hold = s.hold := rfl
@[simp] theorem State.modCore_cap (s : State) (c : Nat) (f : Core → Core) : (s.modCore c f).cap = s.cap := rfl
@[simp] theorem State.modCore_aclk (s : State) (c : Nat) (f : Core → Core) : (s.modCore c f).aclk = s.aclk := rfl
@[simp] theorem State.modCore_tdis (s : State) (c : Nat) (f : Core → Core) : (s.modCore c f).tdis = s.tdis := rfl
@[simp] theorem State.modCore_bound (s : State) (c : Nat) (f : Core → Core) : (s.modCore c f).bound = s.bound := rfl
@[simp] theorem State.modCore_links (s : State) (c : Nat) (f : Core → Core) : (s.modCore c f).links = s.links := rfl
@[simp] theorem State.modCore_firmware (s : State) (c : Nat) (f : Core → Core) : (s.modCore c f).firmware = s.firmware := rfl
@[simp] theorem State.modCore_dbg (s : State) (c : Nat) (f : Core → Core) : (s.modCore c f).dbg = s.dbg := rfl
@[simp] theorem State.modCore_errors (s : State) (c : Nat) (f : Core → Core) : (s.modCore c f).errors = s.errors := rfl
@[simp] theorem State.modCore_remote (s : State) (c : Nat) (f : Core → Core) : (s.modCore c f).remote = s.remote := rfl
@[simp] theorem State.modCore_bar (s : State) (c : Nat) (f : Core → Core) : (s.modCore c f).bar = s.bar := rfl
@[simp] theorem State.modCore_turn (s : State) (c : Nat) (f : Core → Core) : (s.modCore c f).turn = s.turn := rfl
@[simp] theorem State.modCore_sentOut (s : State) (c : Nat) (f : Core → Core) : (s.modCore c f).sentOut = s.sentOut := rfl

/-! ## modQuad -/
@[simp] theorem State.modQuad_agenda (s : State) (q : Nat) (f : Quad → Quad) : (s.modQuad q f).agenda = s.agenda := rfl
@[simp] theorem State.modQuad_focus (s : State) (q : Nat) (f : Quad → Quad) : (s.modQuad q f).focus = s.focus := rfl
@[simp] theorem State.modQuad_unsettled (s : State) (q : Nat) (f : Quad → Quad) : (s.modQuad q f).unsettled = s.unsettled := rfl
@[simp] theorem State.modQuad_latch (s : State) (q : Nat) (f : Quad → Quad) : (s.modQuad q f).latch = s.latch := rfl
@[simp] theorem State.modQuad_offers (s : State) (q : Nat) (f : Quad → Quad) : (s.modQuad q f).offers = s.offers := rfl
@[simp] theorem State.modQuad_freeN (s : State) (q : Nat) (f : Quad → Quad) : (s.modQuad q f).freeN = s.freeN := rfl
@[simp] theorem State.modQuad_nextId (s : State) (q : Nat) (f : Quad → Quad) : (s.modQuad q f).nextId = s.nextId := rfl
@[simp] theorem State.modQuad_clk (s : State) (q : Nat) (f : Quad → Quad) : (s.modQuad q f).clk = s.clk := rfl
@[simp] theorem State.modQuad_time (s : State) (q : Nat) (f : Quad → Quad) : (s.modQuad q f).time = s.time := rfl
@[simp] theorem State.modQuad_phase (s : State) (q : Nat) (f : Quad → Quad) : (s.modQuad q f).phase = s.phase := rfl
@[simp] theorem State.modQuad_mem (s : State) (q : Nat) (f : Quad → Quad) : (s.modQuad q f).mem = s.mem := rfl
@[simp] theorem State.modQuad_poison (s : State) (q : Nat) (f : Quad → Quad) : (s.modQuad q f).poison = s.poison := rfl
@[simp] theorem State.modQuad_ctxs (s : State) (q : Nat) (f : Quad → Quad) : (s.modQuad q f).ctxs = s.ctxs := rfl
@[simp] theorem State.modQuad_grids (s : State) (q : Nat) (f : Quad → Quad) : (s.modQuad q f).grids = s.grids := rfl
@[simp] theorem State.modQuad_blocks (s : State) (q : Nat) (f : Quad → Quad) : (s.modQuad q f).blocks = s.blocks := rfl
@[simp] theorem State.modQuad_squads (s : State) (q : Nat) (f : Quad → Quad) : (s.modQuad q f).squads = s.squads := rfl
@[simp] theorem State.modQuad_threads (s : State) (q : Nat) (f : Quad → Quad) : (s.modQuad q f).threads = s.threads := rfl
@[simp] theorem State.modQuad_accs (s : State) (q : Nat) (f : Quad → Quad) : (s.modQuad q f).accs = s.accs := rfl
@[simp] theorem State.modQuad_credits (s : State) (q : Nat) (f : Quad → Quad) : (s.modQuad q f).credits = s.credits := rfl
@[simp] theorem State.modQuad_bankSave (s : State) (q : Nat) (f : Quad → Quad) : (s.modQuad q f).bankSave = s.bankSave := rfl
@[simp] theorem State.modQuad_cores (s : State) (q : Nat) (f : Quad → Quad) : (s.modQuad q f).cores = s.cores := rfl
@[simp] theorem State.modQuad_quads (s : State) (q : Nat) (f : Quad → Quad) : (s.modQuad q f).quads = tset s.quads q (f (s.quad q)) := rfl
@[simp] theorem State.modQuad_dies (s : State) (q : Nat) (f : Quad → Quad) : (s.modQuad q f).dies = s.dies := rfl
@[simp] theorem State.modQuad_lines (s : State) (q : Nat) (f : Quad → Quad) : (s.modQuad q f).lines = s.lines := rfl
@[simp] theorem State.modQuad_sharers (s : State) (q : Nat) (f : Quad → Quad) : (s.modQuad q f).sharers = s.sharers := rfl
@[simp] theorem State.modQuad_notices (s : State) (q : Nat) (f : Quad → Quad) : (s.modQuad q f).notices = s.notices := rfl
@[simp] theorem State.modQuad_acks (s : State) (q : Nat) (f : Quad → Quad) : (s.modQuad q f).acks = s.acks := rfl
@[simp] theorem State.modQuad_packets (s : State) (q : Nat) (f : Quad → Quad) : (s.modQuad q f).packets = s.packets := rfl
@[simp] theorem State.modQuad_evicted (s : State) (q : Nat) (f : Quad → Quad) : (s.modQuad q f).evicted = s.evicted := rfl
@[simp] theorem State.modQuad_walks (s : State) (q : Nat) (f : Quad → Quad) : (s.modQuad q f).walks = s.walks := rfl
@[simp] theorem State.modQuad_pages (s : State) (q : Nat) (f : Quad → Quad) : (s.modQuad q f).pages = s.pages := rfl
@[simp] theorem State.modQuad_dupMap (s : State) (q : Nat) (f : Quad → Quad) : (s.modQuad q f).dupMap = s.dupMap := rfl
@[simp] theorem State.modQuad_migrations (s : State) (q : Nat) (f : Quad → Quad) : (s.modQuad q f).migrations = s.migrations := rfl
@[simp] theorem State.modQuad_collapses (s : State) (q : Nat) (f : Quad → Quad) : (s.modQuad q f).collapses = s.collapses := rfl
@[simp] theorem State.modQuad_epochLeft (s : State) (q : Nat) (f : Quad → Quad) : (s.modQuad q f).epochLeft = s.epochLeft := rfl
@[simp] theorem State.modQuad_owner (s : State) (q : Nat) (f : Quad → Quad) : (s.modQuad q f).owner = s.owner := rfl
@[simp] theorem State.modQuad_owned (s : State) (q : Nat) (f : Quad → Quad) : (s.modQuad q f).owned = s.owned := rfl
@[simp] theorem State.modQuad_target (s : State) (q : Nat) (f : Quad → Quad) : (s.modQuad q f).target = s.target := rfl
@[simp] theorem State.modQuad_pending (s : State) (q : Nat) (f : Quad → Quad) : (s.modQuad q f).pending = s.pending := rfl
@[simp] theorem State.modQuad_handoverLeft (s : State) (q : Nat) (f : Quad → Quad) : (s.modQuad q f).handoverLeft = s.handoverLeft := rfl
@[simp] theorem State.modQuad_ctl (s : State) (q : Nat) (f : Quad → Quad) : (s.modQuad q f).ctl = s.ctl := rfl
@[simp] theorem State.modQuad_ownerEvents (s : State) (q : Nat) (f : Quad → Quad) : (s.modQuad q f).ownerEvents = s.ownerEvents := rfl
@[simp] theorem State.modQuad_hold (s : State) (q : Nat) (f : Quad → Quad) : (s.modQuad q f).hold = s.hold := rfl
@[simp] theorem State.modQuad_cap (s : State) (q : Nat) (f : Quad → Quad) : (s.modQuad q f).cap = s.cap := rfl
@[simp] theorem State.modQuad_aclk (s : State) (q : Nat) (f : Quad → Quad) : (s.modQuad q f).aclk = s.aclk := rfl
@[simp] theorem State.modQuad_tdis (s : State) (q : Nat) (f : Quad → Quad) : (s.modQuad q f).tdis = s.tdis := rfl
@[simp] theorem State.modQuad_bound (s : State) (q : Nat) (f : Quad → Quad) : (s.modQuad q f).bound = s.bound := rfl
@[simp] theorem State.modQuad_links (s : State) (q : Nat) (f : Quad → Quad) : (s.modQuad q f).links = s.links := rfl
@[simp] theorem State.modQuad_firmware (s : State) (q : Nat) (f : Quad → Quad) : (s.modQuad q f).firmware = s.firmware := rfl
@[simp] theorem State.modQuad_dbg (s : State) (q : Nat) (f : Quad → Quad) : (s.modQuad q f).dbg = s.dbg := rfl
@[simp] theorem State.modQuad_errors (s : State) (q : Nat) (f : Quad → Quad) : (s.modQuad q f).errors = s.errors := rfl
@[simp] theorem State.modQuad_remote (s : State) (q : Nat) (f : Quad → Quad) : (s.modQuad q f).remote = s.remote := rfl
@[simp] theorem State.modQuad_bar (s : State) (q : Nat) (f : Quad → Quad) : (s.modQuad q f).bar = s.bar := rfl
@[simp] theorem State.modQuad_turn (s : State) (q : Nat) (f : Quad → Quad) : (s.modQuad q f).turn = s.turn := rfl
@[simp] theorem State.modQuad_sentOut (s : State) (q : Nat) (f : Quad → Quad) : (s.modQuad q f).sentOut = s.sentOut := rfl

/-! ## modDie -/
@[simp] theorem State.modDie_agenda (s : State) (d : Nat) (f : Die → Die) : (s.modDie d f).agenda = s.agenda := rfl
@[simp] theorem State.modDie_focus (s : State) (d : Nat) (f : Die → Die) : (s.modDie d f).focus = s.focus := rfl
@[simp] theorem State.modDie_unsettled (s : State) (d : Nat) (f : Die → Die) : (s.modDie d f).unsettled = s.unsettled := rfl
@[simp] theorem State.modDie_latch (s : State) (d : Nat) (f : Die → Die) : (s.modDie d f).latch = s.latch := rfl
@[simp] theorem State.modDie_offers (s : State) (d : Nat) (f : Die → Die) : (s.modDie d f).offers = s.offers := rfl
@[simp] theorem State.modDie_freeN (s : State) (d : Nat) (f : Die → Die) : (s.modDie d f).freeN = s.freeN := rfl
@[simp] theorem State.modDie_nextId (s : State) (d : Nat) (f : Die → Die) : (s.modDie d f).nextId = s.nextId := rfl
@[simp] theorem State.modDie_clk (s : State) (d : Nat) (f : Die → Die) : (s.modDie d f).clk = s.clk := rfl
@[simp] theorem State.modDie_time (s : State) (d : Nat) (f : Die → Die) : (s.modDie d f).time = s.time := rfl
@[simp] theorem State.modDie_phase (s : State) (d : Nat) (f : Die → Die) : (s.modDie d f).phase = s.phase := rfl
@[simp] theorem State.modDie_mem (s : State) (d : Nat) (f : Die → Die) : (s.modDie d f).mem = s.mem := rfl
@[simp] theorem State.modDie_poison (s : State) (d : Nat) (f : Die → Die) : (s.modDie d f).poison = s.poison := rfl
@[simp] theorem State.modDie_ctxs (s : State) (d : Nat) (f : Die → Die) : (s.modDie d f).ctxs = s.ctxs := rfl
@[simp] theorem State.modDie_grids (s : State) (d : Nat) (f : Die → Die) : (s.modDie d f).grids = s.grids := rfl
@[simp] theorem State.modDie_blocks (s : State) (d : Nat) (f : Die → Die) : (s.modDie d f).blocks = s.blocks := rfl
@[simp] theorem State.modDie_squads (s : State) (d : Nat) (f : Die → Die) : (s.modDie d f).squads = s.squads := rfl
@[simp] theorem State.modDie_threads (s : State) (d : Nat) (f : Die → Die) : (s.modDie d f).threads = s.threads := rfl
@[simp] theorem State.modDie_accs (s : State) (d : Nat) (f : Die → Die) : (s.modDie d f).accs = s.accs := rfl
@[simp] theorem State.modDie_credits (s : State) (d : Nat) (f : Die → Die) : (s.modDie d f).credits = s.credits := rfl
@[simp] theorem State.modDie_bankSave (s : State) (d : Nat) (f : Die → Die) : (s.modDie d f).bankSave = s.bankSave := rfl
@[simp] theorem State.modDie_cores (s : State) (d : Nat) (f : Die → Die) : (s.modDie d f).cores = s.cores := rfl
@[simp] theorem State.modDie_quads (s : State) (d : Nat) (f : Die → Die) : (s.modDie d f).quads = s.quads := rfl
@[simp] theorem State.modDie_dies (s : State) (d : Nat) (f : Die → Die) : (s.modDie d f).dies = tset s.dies d (f (s.die d)) := rfl
@[simp] theorem State.modDie_lines (s : State) (d : Nat) (f : Die → Die) : (s.modDie d f).lines = s.lines := rfl
@[simp] theorem State.modDie_sharers (s : State) (d : Nat) (f : Die → Die) : (s.modDie d f).sharers = s.sharers := rfl
@[simp] theorem State.modDie_notices (s : State) (d : Nat) (f : Die → Die) : (s.modDie d f).notices = s.notices := rfl
@[simp] theorem State.modDie_acks (s : State) (d : Nat) (f : Die → Die) : (s.modDie d f).acks = s.acks := rfl
@[simp] theorem State.modDie_packets (s : State) (d : Nat) (f : Die → Die) : (s.modDie d f).packets = s.packets := rfl
@[simp] theorem State.modDie_evicted (s : State) (d : Nat) (f : Die → Die) : (s.modDie d f).evicted = s.evicted := rfl
@[simp] theorem State.modDie_walks (s : State) (d : Nat) (f : Die → Die) : (s.modDie d f).walks = s.walks := rfl
@[simp] theorem State.modDie_pages (s : State) (d : Nat) (f : Die → Die) : (s.modDie d f).pages = s.pages := rfl
@[simp] theorem State.modDie_dupMap (s : State) (d : Nat) (f : Die → Die) : (s.modDie d f).dupMap = s.dupMap := rfl
@[simp] theorem State.modDie_migrations (s : State) (d : Nat) (f : Die → Die) : (s.modDie d f).migrations = s.migrations := rfl
@[simp] theorem State.modDie_collapses (s : State) (d : Nat) (f : Die → Die) : (s.modDie d f).collapses = s.collapses := rfl
@[simp] theorem State.modDie_epochLeft (s : State) (d : Nat) (f : Die → Die) : (s.modDie d f).epochLeft = s.epochLeft := rfl
@[simp] theorem State.modDie_owner (s : State) (d : Nat) (f : Die → Die) : (s.modDie d f).owner = s.owner := rfl
@[simp] theorem State.modDie_owned (s : State) (d : Nat) (f : Die → Die) : (s.modDie d f).owned = s.owned := rfl
@[simp] theorem State.modDie_target (s : State) (d : Nat) (f : Die → Die) : (s.modDie d f).target = s.target := rfl
@[simp] theorem State.modDie_pending (s : State) (d : Nat) (f : Die → Die) : (s.modDie d f).pending = s.pending := rfl
@[simp] theorem State.modDie_handoverLeft (s : State) (d : Nat) (f : Die → Die) : (s.modDie d f).handoverLeft = s.handoverLeft := rfl
@[simp] theorem State.modDie_ctl (s : State) (d : Nat) (f : Die → Die) : (s.modDie d f).ctl = s.ctl := rfl
@[simp] theorem State.modDie_ownerEvents (s : State) (d : Nat) (f : Die → Die) : (s.modDie d f).ownerEvents = s.ownerEvents := rfl
@[simp] theorem State.modDie_hold (s : State) (d : Nat) (f : Die → Die) : (s.modDie d f).hold = s.hold := rfl
@[simp] theorem State.modDie_cap (s : State) (d : Nat) (f : Die → Die) : (s.modDie d f).cap = s.cap := rfl
@[simp] theorem State.modDie_aclk (s : State) (d : Nat) (f : Die → Die) : (s.modDie d f).aclk = s.aclk := rfl
@[simp] theorem State.modDie_tdis (s : State) (d : Nat) (f : Die → Die) : (s.modDie d f).tdis = s.tdis := rfl
@[simp] theorem State.modDie_bound (s : State) (d : Nat) (f : Die → Die) : (s.modDie d f).bound = s.bound := rfl
@[simp] theorem State.modDie_links (s : State) (d : Nat) (f : Die → Die) : (s.modDie d f).links = s.links := rfl
@[simp] theorem State.modDie_firmware (s : State) (d : Nat) (f : Die → Die) : (s.modDie d f).firmware = s.firmware := rfl
@[simp] theorem State.modDie_dbg (s : State) (d : Nat) (f : Die → Die) : (s.modDie d f).dbg = s.dbg := rfl
@[simp] theorem State.modDie_errors (s : State) (d : Nat) (f : Die → Die) : (s.modDie d f).errors = s.errors := rfl
@[simp] theorem State.modDie_remote (s : State) (d : Nat) (f : Die → Die) : (s.modDie d f).remote = s.remote := rfl
@[simp] theorem State.modDie_bar (s : State) (d : Nat) (f : Die → Die) : (s.modDie d f).bar = s.bar := rfl
@[simp] theorem State.modDie_turn (s : State) (d : Nat) (f : Die → Die) : (s.modDie d f).turn = s.turn := rfl
@[simp] theorem State.modDie_sentOut (s : State) (d : Nat) (f : Die → Die) : (s.modDie d f).sentOut = s.sentOut := rfl

/-! ## modPage -/
@[simp] theorem State.modPage_agenda (s : State) (p : Nat) (f : Page → Page) : (s.modPage p f).agenda = s.agenda := rfl
@[simp] theorem State.modPage_focus (s : State) (p : Nat) (f : Page → Page) : (s.modPage p f).focus = s.focus := rfl
@[simp] theorem State.modPage_unsettled (s : State) (p : Nat) (f : Page → Page) : (s.modPage p f).unsettled = s.unsettled := rfl
@[simp] theorem State.modPage_latch (s : State) (p : Nat) (f : Page → Page) : (s.modPage p f).latch = s.latch := rfl
@[simp] theorem State.modPage_offers (s : State) (p : Nat) (f : Page → Page) : (s.modPage p f).offers = s.offers := rfl
@[simp] theorem State.modPage_freeN (s : State) (p : Nat) (f : Page → Page) : (s.modPage p f).freeN = s.freeN := rfl
@[simp] theorem State.modPage_nextId (s : State) (p : Nat) (f : Page → Page) : (s.modPage p f).nextId = s.nextId := rfl
@[simp] theorem State.modPage_clk (s : State) (p : Nat) (f : Page → Page) : (s.modPage p f).clk = s.clk := rfl
@[simp] theorem State.modPage_time (s : State) (p : Nat) (f : Page → Page) : (s.modPage p f).time = s.time := rfl
@[simp] theorem State.modPage_phase (s : State) (p : Nat) (f : Page → Page) : (s.modPage p f).phase = s.phase := rfl
@[simp] theorem State.modPage_mem (s : State) (p : Nat) (f : Page → Page) : (s.modPage p f).mem = s.mem := rfl
@[simp] theorem State.modPage_poison (s : State) (p : Nat) (f : Page → Page) : (s.modPage p f).poison = s.poison := rfl
@[simp] theorem State.modPage_ctxs (s : State) (p : Nat) (f : Page → Page) : (s.modPage p f).ctxs = s.ctxs := rfl
@[simp] theorem State.modPage_grids (s : State) (p : Nat) (f : Page → Page) : (s.modPage p f).grids = s.grids := rfl
@[simp] theorem State.modPage_blocks (s : State) (p : Nat) (f : Page → Page) : (s.modPage p f).blocks = s.blocks := rfl
@[simp] theorem State.modPage_squads (s : State) (p : Nat) (f : Page → Page) : (s.modPage p f).squads = s.squads := rfl
@[simp] theorem State.modPage_threads (s : State) (p : Nat) (f : Page → Page) : (s.modPage p f).threads = s.threads := rfl
@[simp] theorem State.modPage_accs (s : State) (p : Nat) (f : Page → Page) : (s.modPage p f).accs = s.accs := rfl
@[simp] theorem State.modPage_credits (s : State) (p : Nat) (f : Page → Page) : (s.modPage p f).credits = s.credits := rfl
@[simp] theorem State.modPage_bankSave (s : State) (p : Nat) (f : Page → Page) : (s.modPage p f).bankSave = s.bankSave := rfl
@[simp] theorem State.modPage_cores (s : State) (p : Nat) (f : Page → Page) : (s.modPage p f).cores = s.cores := rfl
@[simp] theorem State.modPage_quads (s : State) (p : Nat) (f : Page → Page) : (s.modPage p f).quads = s.quads := rfl
@[simp] theorem State.modPage_dies (s : State) (p : Nat) (f : Page → Page) : (s.modPage p f).dies = s.dies := rfl
@[simp] theorem State.modPage_lines (s : State) (p : Nat) (f : Page → Page) : (s.modPage p f).lines = s.lines := rfl
@[simp] theorem State.modPage_sharers (s : State) (p : Nat) (f : Page → Page) : (s.modPage p f).sharers = s.sharers := rfl
@[simp] theorem State.modPage_notices (s : State) (p : Nat) (f : Page → Page) : (s.modPage p f).notices = s.notices := rfl
@[simp] theorem State.modPage_acks (s : State) (p : Nat) (f : Page → Page) : (s.modPage p f).acks = s.acks := rfl
@[simp] theorem State.modPage_packets (s : State) (p : Nat) (f : Page → Page) : (s.modPage p f).packets = s.packets := rfl
@[simp] theorem State.modPage_evicted (s : State) (p : Nat) (f : Page → Page) : (s.modPage p f).evicted = s.evicted := rfl
@[simp] theorem State.modPage_walks (s : State) (p : Nat) (f : Page → Page) : (s.modPage p f).walks = s.walks := rfl
@[simp] theorem State.modPage_pages (s : State) (p : Nat) (f : Page → Page) : (s.modPage p f).pages = s.pages := rfl
@[simp] theorem State.modPage_dupMap (s : State) (p : Nat) (f : Page → Page) : (s.modPage p f).dupMap = s.dupMap := rfl
@[simp] theorem State.modPage_migrations (s : State) (p : Nat) (f : Page → Page) : (s.modPage p f).migrations = s.migrations := rfl
@[simp] theorem State.modPage_collapses (s : State) (p : Nat) (f : Page → Page) : (s.modPage p f).collapses = s.collapses := rfl
@[simp] theorem State.modPage_epochLeft (s : State) (p : Nat) (f : Page → Page) : (s.modPage p f).epochLeft = s.epochLeft := rfl
@[simp] theorem State.modPage_owner (s : State) (p : Nat) (f : Page → Page) : (s.modPage p f).owner = s.owner := rfl
@[simp] theorem State.modPage_owned (s : State) (p : Nat) (f : Page → Page) : (s.modPage p f).owned = s.owned := rfl
@[simp] theorem State.modPage_target (s : State) (p : Nat) (f : Page → Page) : (s.modPage p f).target = s.target := rfl
@[simp] theorem State.modPage_pending (s : State) (p : Nat) (f : Page → Page) : (s.modPage p f).pending = s.pending := rfl
@[simp] theorem State.modPage_handoverLeft (s : State) (p : Nat) (f : Page → Page) : (s.modPage p f).handoverLeft = s.handoverLeft := rfl
@[simp] theorem State.modPage_ctl (s : State) (p : Nat) (f : Page → Page) : (s.modPage p f).ctl = tset s.ctl p (f (s.page p)) := rfl
@[simp] theorem State.modPage_ownerEvents (s : State) (p : Nat) (f : Page → Page) : (s.modPage p f).ownerEvents = s.ownerEvents := rfl
@[simp] theorem State.modPage_hold (s : State) (p : Nat) (f : Page → Page) : (s.modPage p f).hold = s.hold := rfl
@[simp] theorem State.modPage_cap (s : State) (p : Nat) (f : Page → Page) : (s.modPage p f).cap = s.cap := rfl
@[simp] theorem State.modPage_aclk (s : State) (p : Nat) (f : Page → Page) : (s.modPage p f).aclk = s.aclk := rfl
@[simp] theorem State.modPage_tdis (s : State) (p : Nat) (f : Page → Page) : (s.modPage p f).tdis = s.tdis := rfl
@[simp] theorem State.modPage_bound (s : State) (p : Nat) (f : Page → Page) : (s.modPage p f).bound = s.bound := rfl
@[simp] theorem State.modPage_links (s : State) (p : Nat) (f : Page → Page) : (s.modPage p f).links = s.links := rfl
@[simp] theorem State.modPage_firmware (s : State) (p : Nat) (f : Page → Page) : (s.modPage p f).firmware = s.firmware := rfl
@[simp] theorem State.modPage_dbg (s : State) (p : Nat) (f : Page → Page) : (s.modPage p f).dbg = s.dbg := rfl
@[simp] theorem State.modPage_errors (s : State) (p : Nat) (f : Page → Page) : (s.modPage p f).errors = s.errors := rfl
@[simp] theorem State.modPage_remote (s : State) (p : Nat) (f : Page → Page) : (s.modPage p f).remote = s.remote := rfl
@[simp] theorem State.modPage_bar (s : State) (p : Nat) (f : Page → Page) : (s.modPage p f).bar = s.bar := rfl
@[simp] theorem State.modPage_turn (s : State) (p : Nat) (f : Page → Page) : (s.modPage p f).turn = s.turn := rfl
@[simp] theorem State.modPage_sentOut (s : State) (p : Nat) (f : Page → Page) : (s.modPage p f).sentOut = s.sentOut := rfl

/-! ## modAcc -/
@[simp] theorem State.modAcc_agenda (s : State) (a : Nat) (f : Access → Access) : (s.modAcc a f).agenda = s.agenda := rfl
@[simp] theorem State.modAcc_focus (s : State) (a : Nat) (f : Access → Access) : (s.modAcc a f).focus = s.focus := rfl
@[simp] theorem State.modAcc_unsettled (s : State) (a : Nat) (f : Access → Access) : (s.modAcc a f).unsettled = s.unsettled := rfl
@[simp] theorem State.modAcc_latch (s : State) (a : Nat) (f : Access → Access) : (s.modAcc a f).latch = s.latch := rfl
@[simp] theorem State.modAcc_offers (s : State) (a : Nat) (f : Access → Access) : (s.modAcc a f).offers = s.offers := rfl
@[simp] theorem State.modAcc_freeN (s : State) (a : Nat) (f : Access → Access) : (s.modAcc a f).freeN = s.freeN := rfl
@[simp] theorem State.modAcc_nextId (s : State) (a : Nat) (f : Access → Access) : (s.modAcc a f).nextId = s.nextId := rfl
@[simp] theorem State.modAcc_clk (s : State) (a : Nat) (f : Access → Access) : (s.modAcc a f).clk = s.clk := rfl
@[simp] theorem State.modAcc_time (s : State) (a : Nat) (f : Access → Access) : (s.modAcc a f).time = s.time := rfl
@[simp] theorem State.modAcc_phase (s : State) (a : Nat) (f : Access → Access) : (s.modAcc a f).phase = s.phase := rfl
@[simp] theorem State.modAcc_mem (s : State) (a : Nat) (f : Access → Access) : (s.modAcc a f).mem = s.mem := rfl
@[simp] theorem State.modAcc_poison (s : State) (a : Nat) (f : Access → Access) : (s.modAcc a f).poison = s.poison := rfl
@[simp] theorem State.modAcc_ctxs (s : State) (a : Nat) (f : Access → Access) : (s.modAcc a f).ctxs = s.ctxs := rfl
@[simp] theorem State.modAcc_grids (s : State) (a : Nat) (f : Access → Access) : (s.modAcc a f).grids = s.grids := rfl
@[simp] theorem State.modAcc_blocks (s : State) (a : Nat) (f : Access → Access) : (s.modAcc a f).blocks = s.blocks := rfl
@[simp] theorem State.modAcc_squads (s : State) (a : Nat) (f : Access → Access) : (s.modAcc a f).squads = s.squads := rfl
@[simp] theorem State.modAcc_threads (s : State) (a : Nat) (f : Access → Access) : (s.modAcc a f).threads = s.threads := rfl
@[simp] theorem State.modAcc_accs (s : State) (a : Nat) (f : Access → Access) : (s.modAcc a f).accs = s.accs.map fun x => if x.id = a then f x else x := rfl
@[simp] theorem State.modAcc_credits (s : State) (a : Nat) (f : Access → Access) : (s.modAcc a f).credits = s.credits := rfl
@[simp] theorem State.modAcc_bankSave (s : State) (a : Nat) (f : Access → Access) : (s.modAcc a f).bankSave = s.bankSave := rfl
@[simp] theorem State.modAcc_cores (s : State) (a : Nat) (f : Access → Access) : (s.modAcc a f).cores = s.cores := rfl
@[simp] theorem State.modAcc_quads (s : State) (a : Nat) (f : Access → Access) : (s.modAcc a f).quads = s.quads := rfl
@[simp] theorem State.modAcc_dies (s : State) (a : Nat) (f : Access → Access) : (s.modAcc a f).dies = s.dies := rfl
@[simp] theorem State.modAcc_lines (s : State) (a : Nat) (f : Access → Access) : (s.modAcc a f).lines = s.lines := rfl
@[simp] theorem State.modAcc_sharers (s : State) (a : Nat) (f : Access → Access) : (s.modAcc a f).sharers = s.sharers := rfl
@[simp] theorem State.modAcc_notices (s : State) (a : Nat) (f : Access → Access) : (s.modAcc a f).notices = s.notices := rfl
@[simp] theorem State.modAcc_acks (s : State) (a : Nat) (f : Access → Access) : (s.modAcc a f).acks = s.acks := rfl
@[simp] theorem State.modAcc_packets (s : State) (a : Nat) (f : Access → Access) : (s.modAcc a f).packets = s.packets := rfl
@[simp] theorem State.modAcc_evicted (s : State) (a : Nat) (f : Access → Access) : (s.modAcc a f).evicted = s.evicted := rfl
@[simp] theorem State.modAcc_walks (s : State) (a : Nat) (f : Access → Access) : (s.modAcc a f).walks = s.walks := rfl
@[simp] theorem State.modAcc_pages (s : State) (a : Nat) (f : Access → Access) : (s.modAcc a f).pages = s.pages := rfl
@[simp] theorem State.modAcc_dupMap (s : State) (a : Nat) (f : Access → Access) : (s.modAcc a f).dupMap = s.dupMap := rfl
@[simp] theorem State.modAcc_migrations (s : State) (a : Nat) (f : Access → Access) : (s.modAcc a f).migrations = s.migrations := rfl
@[simp] theorem State.modAcc_collapses (s : State) (a : Nat) (f : Access → Access) : (s.modAcc a f).collapses = s.collapses := rfl
@[simp] theorem State.modAcc_epochLeft (s : State) (a : Nat) (f : Access → Access) : (s.modAcc a f).epochLeft = s.epochLeft := rfl
@[simp] theorem State.modAcc_owner (s : State) (a : Nat) (f : Access → Access) : (s.modAcc a f).owner = s.owner := rfl
@[simp] theorem State.modAcc_owned (s : State) (a : Nat) (f : Access → Access) : (s.modAcc a f).owned = s.owned := rfl
@[simp] theorem State.modAcc_target (s : State) (a : Nat) (f : Access → Access) : (s.modAcc a f).target = s.target := rfl
@[simp] theorem State.modAcc_pending (s : State) (a : Nat) (f : Access → Access) : (s.modAcc a f).pending = s.pending := rfl
@[simp] theorem State.modAcc_handoverLeft (s : State) (a : Nat) (f : Access → Access) : (s.modAcc a f).handoverLeft = s.handoverLeft := rfl
@[simp] theorem State.modAcc_ctl (s : State) (a : Nat) (f : Access → Access) : (s.modAcc a f).ctl = s.ctl := rfl
@[simp] theorem State.modAcc_ownerEvents (s : State) (a : Nat) (f : Access → Access) : (s.modAcc a f).ownerEvents = s.ownerEvents := rfl
@[simp] theorem State.modAcc_hold (s : State) (a : Nat) (f : Access → Access) : (s.modAcc a f).hold = s.hold := rfl
@[simp] theorem State.modAcc_cap (s : State) (a : Nat) (f : Access → Access) : (s.modAcc a f).cap = s.cap := rfl
@[simp] theorem State.modAcc_aclk (s : State) (a : Nat) (f : Access → Access) : (s.modAcc a f).aclk = s.aclk := rfl
@[simp] theorem State.modAcc_tdis (s : State) (a : Nat) (f : Access → Access) : (s.modAcc a f).tdis = s.tdis := rfl
@[simp] theorem State.modAcc_bound (s : State) (a : Nat) (f : Access → Access) : (s.modAcc a f).bound = s.bound := rfl
@[simp] theorem State.modAcc_links (s : State) (a : Nat) (f : Access → Access) : (s.modAcc a f).links = s.links := rfl
@[simp] theorem State.modAcc_firmware (s : State) (a : Nat) (f : Access → Access) : (s.modAcc a f).firmware = s.firmware := rfl
@[simp] theorem State.modAcc_dbg (s : State) (a : Nat) (f : Access → Access) : (s.modAcc a f).dbg = s.dbg := rfl
@[simp] theorem State.modAcc_errors (s : State) (a : Nat) (f : Access → Access) : (s.modAcc a f).errors = s.errors := rfl
@[simp] theorem State.modAcc_remote (s : State) (a : Nat) (f : Access → Access) : (s.modAcc a f).remote = s.remote := rfl
@[simp] theorem State.modAcc_bar (s : State) (a : Nat) (f : Access → Access) : (s.modAcc a f).bar = s.bar := rfl
@[simp] theorem State.modAcc_turn (s : State) (a : Nat) (f : Access → Access) : (s.modAcc a f).turn = s.turn := rfl
@[simp] theorem State.modAcc_sentOut (s : State) (a : Nat) (f : Access → Access) : (s.modAcc a f).sentOut = s.sentOut := rfl

/-! ## writeMem -/
@[simp] theorem State.writeMem_agenda (s : State) (k n v : Nat) : (s.writeMem k n v).agenda = s.agenda := rfl
@[simp] theorem State.writeMem_focus (s : State) (k n v : Nat) : (s.writeMem k n v).focus = s.focus := rfl
@[simp] theorem State.writeMem_unsettled (s : State) (k n v : Nat) : (s.writeMem k n v).unsettled = s.unsettled := rfl
@[simp] theorem State.writeMem_latch (s : State) (k n v : Nat) : (s.writeMem k n v).latch = s.latch := rfl
@[simp] theorem State.writeMem_offers (s : State) (k n v : Nat) : (s.writeMem k n v).offers = s.offers := rfl
@[simp] theorem State.writeMem_freeN (s : State) (k n v : Nat) : (s.writeMem k n v).freeN = s.freeN := rfl
@[simp] theorem State.writeMem_nextId (s : State) (k n v : Nat) : (s.writeMem k n v).nextId = s.nextId := rfl
@[simp] theorem State.writeMem_clk (s : State) (k n v : Nat) : (s.writeMem k n v).clk = s.clk := rfl
@[simp] theorem State.writeMem_time (s : State) (k n v : Nat) : (s.writeMem k n v).time = s.time := rfl
@[simp] theorem State.writeMem_phase (s : State) (k n v : Nat) : (s.writeMem k n v).phase = s.phase := rfl
@[simp] theorem State.writeMem_mem (s : State) (k n v : Nat) : (s.writeMem k n v).mem = writeBytes s.mem k n v := rfl
@[simp] theorem State.writeMem_poison (s : State) (k n v : Nat) : (s.writeMem k n v).poison = s.poison := rfl
@[simp] theorem State.writeMem_ctxs (s : State) (k n v : Nat) : (s.writeMem k n v).ctxs = s.ctxs := rfl
@[simp] theorem State.writeMem_grids (s : State) (k n v : Nat) : (s.writeMem k n v).grids = s.grids := rfl
@[simp] theorem State.writeMem_blocks (s : State) (k n v : Nat) : (s.writeMem k n v).blocks = s.blocks := rfl
@[simp] theorem State.writeMem_squads (s : State) (k n v : Nat) : (s.writeMem k n v).squads = s.squads := rfl
@[simp] theorem State.writeMem_threads (s : State) (k n v : Nat) : (s.writeMem k n v).threads = s.threads := rfl
@[simp] theorem State.writeMem_accs (s : State) (k n v : Nat) : (s.writeMem k n v).accs = s.accs := rfl
@[simp] theorem State.writeMem_credits (s : State) (k n v : Nat) : (s.writeMem k n v).credits = s.credits := rfl
@[simp] theorem State.writeMem_bankSave (s : State) (k n v : Nat) : (s.writeMem k n v).bankSave = s.bankSave := rfl
@[simp] theorem State.writeMem_cores (s : State) (k n v : Nat) : (s.writeMem k n v).cores = s.cores := rfl
@[simp] theorem State.writeMem_quads (s : State) (k n v : Nat) : (s.writeMem k n v).quads = s.quads := rfl
@[simp] theorem State.writeMem_dies (s : State) (k n v : Nat) : (s.writeMem k n v).dies = s.dies := rfl
@[simp] theorem State.writeMem_lines (s : State) (k n v : Nat) : (s.writeMem k n v).lines = s.lines := rfl
@[simp] theorem State.writeMem_sharers (s : State) (k n v : Nat) : (s.writeMem k n v).sharers = s.sharers := rfl
@[simp] theorem State.writeMem_notices (s : State) (k n v : Nat) : (s.writeMem k n v).notices = s.notices := rfl
@[simp] theorem State.writeMem_acks (s : State) (k n v : Nat) : (s.writeMem k n v).acks = s.acks := rfl
@[simp] theorem State.writeMem_packets (s : State) (k n v : Nat) : (s.writeMem k n v).packets = s.packets := rfl
@[simp] theorem State.writeMem_evicted (s : State) (k n v : Nat) : (s.writeMem k n v).evicted = s.evicted := rfl
@[simp] theorem State.writeMem_walks (s : State) (k n v : Nat) : (s.writeMem k n v).walks = s.walks := rfl
@[simp] theorem State.writeMem_pages (s : State) (k n v : Nat) : (s.writeMem k n v).pages = s.pages := rfl
@[simp] theorem State.writeMem_dupMap (s : State) (k n v : Nat) : (s.writeMem k n v).dupMap = s.dupMap := rfl
@[simp] theorem State.writeMem_migrations (s : State) (k n v : Nat) : (s.writeMem k n v).migrations = s.migrations := rfl
@[simp] theorem State.writeMem_collapses (s : State) (k n v : Nat) : (s.writeMem k n v).collapses = s.collapses := rfl
@[simp] theorem State.writeMem_epochLeft (s : State) (k n v : Nat) : (s.writeMem k n v).epochLeft = s.epochLeft := rfl
@[simp] theorem State.writeMem_owner (s : State) (k n v : Nat) : (s.writeMem k n v).owner = s.owner := rfl
@[simp] theorem State.writeMem_owned (s : State) (k n v : Nat) : (s.writeMem k n v).owned = s.owned := rfl
@[simp] theorem State.writeMem_target (s : State) (k n v : Nat) : (s.writeMem k n v).target = s.target := rfl
@[simp] theorem State.writeMem_pending (s : State) (k n v : Nat) : (s.writeMem k n v).pending = s.pending := rfl
@[simp] theorem State.writeMem_handoverLeft (s : State) (k n v : Nat) : (s.writeMem k n v).handoverLeft = s.handoverLeft := rfl
@[simp] theorem State.writeMem_ctl (s : State) (k n v : Nat) : (s.writeMem k n v).ctl = s.ctl := rfl
@[simp] theorem State.writeMem_ownerEvents (s : State) (k n v : Nat) : (s.writeMem k n v).ownerEvents = s.ownerEvents := rfl
@[simp] theorem State.writeMem_hold (s : State) (k n v : Nat) : (s.writeMem k n v).hold = s.hold := rfl
@[simp] theorem State.writeMem_cap (s : State) (k n v : Nat) : (s.writeMem k n v).cap = s.cap := rfl
@[simp] theorem State.writeMem_aclk (s : State) (k n v : Nat) : (s.writeMem k n v).aclk = s.aclk := rfl
@[simp] theorem State.writeMem_tdis (s : State) (k n v : Nat) : (s.writeMem k n v).tdis = s.tdis := rfl
@[simp] theorem State.writeMem_bound (s : State) (k n v : Nat) : (s.writeMem k n v).bound = s.bound := rfl
@[simp] theorem State.writeMem_links (s : State) (k n v : Nat) : (s.writeMem k n v).links = s.links := rfl
@[simp] theorem State.writeMem_firmware (s : State) (k n v : Nat) : (s.writeMem k n v).firmware = s.firmware := rfl
@[simp] theorem State.writeMem_dbg (s : State) (k n v : Nat) : (s.writeMem k n v).dbg = s.dbg := rfl
@[simp] theorem State.writeMem_errors (s : State) (k n v : Nat) : (s.writeMem k n v).errors = s.errors := rfl
@[simp] theorem State.writeMem_remote (s : State) (k n v : Nat) : (s.writeMem k n v).remote = s.remote := rfl
@[simp] theorem State.writeMem_bar (s : State) (k n v : Nat) : (s.writeMem k n v).bar = s.bar := rfl
@[simp] theorem State.writeMem_turn (s : State) (k n v : Nat) : (s.writeMem k n v).turn = s.turn := rfl
@[simp] theorem State.writeMem_sentOut (s : State) (k n v : Nat) : (s.writeMem k n v).sentOut = s.sentOut := rfl

/-! ## notice -/
@[simp] theorem State.notice_agenda (s : State) (code : Nat) (addr : Word) (detail : Nat) : (s.notice code addr detail).agenda = s.agenda := rfl
@[simp] theorem State.notice_focus (s : State) (code : Nat) (addr : Word) (detail : Nat) : (s.notice code addr detail).focus = s.focus := rfl
@[simp] theorem State.notice_unsettled (s : State) (code : Nat) (addr : Word) (detail : Nat) : (s.notice code addr detail).unsettled = s.unsettled := rfl
@[simp] theorem State.notice_latch (s : State) (code : Nat) (addr : Word) (detail : Nat) : (s.notice code addr detail).latch = s.latch := rfl
@[simp] theorem State.notice_offers (s : State) (code : Nat) (addr : Word) (detail : Nat) : (s.notice code addr detail).offers = s.offers := rfl
@[simp] theorem State.notice_freeN (s : State) (code : Nat) (addr : Word) (detail : Nat) : (s.notice code addr detail).freeN = s.freeN := rfl
@[simp] theorem State.notice_nextId (s : State) (code : Nat) (addr : Word) (detail : Nat) : (s.notice code addr detail).nextId = s.nextId := rfl
@[simp] theorem State.notice_clk (s : State) (code : Nat) (addr : Word) (detail : Nat) : (s.notice code addr detail).clk = s.clk := rfl
@[simp] theorem State.notice_time (s : State) (code : Nat) (addr : Word) (detail : Nat) : (s.notice code addr detail).time = s.time := rfl
@[simp] theorem State.notice_phase (s : State) (code : Nat) (addr : Word) (detail : Nat) : (s.notice code addr detail).phase = s.phase := rfl
@[simp] theorem State.notice_mem (s : State) (code : Nat) (addr : Word) (detail : Nat) : (s.notice code addr detail).mem = s.mem := rfl
@[simp] theorem State.notice_poison (s : State) (code : Nat) (addr : Word) (detail : Nat) : (s.notice code addr detail).poison = s.poison := rfl
@[simp] theorem State.notice_ctxs (s : State) (code : Nat) (addr : Word) (detail : Nat) : (s.notice code addr detail).ctxs = s.ctxs := rfl
@[simp] theorem State.notice_grids (s : State) (code : Nat) (addr : Word) (detail : Nat) : (s.notice code addr detail).grids = s.grids := rfl
@[simp] theorem State.notice_blocks (s : State) (code : Nat) (addr : Word) (detail : Nat) : (s.notice code addr detail).blocks = s.blocks := rfl
@[simp] theorem State.notice_squads (s : State) (code : Nat) (addr : Word) (detail : Nat) : (s.notice code addr detail).squads = s.squads := rfl
@[simp] theorem State.notice_threads (s : State) (code : Nat) (addr : Word) (detail : Nat) : (s.notice code addr detail).threads = s.threads := rfl
@[simp] theorem State.notice_accs (s : State) (code : Nat) (addr : Word) (detail : Nat) : (s.notice code addr detail).accs = s.accs := rfl
@[simp] theorem State.notice_credits (s : State) (code : Nat) (addr : Word) (detail : Nat) : (s.notice code addr detail).credits = s.credits := rfl
@[simp] theorem State.notice_bankSave (s : State) (code : Nat) (addr : Word) (detail : Nat) : (s.notice code addr detail).bankSave = s.bankSave := rfl
@[simp] theorem State.notice_cores (s : State) (code : Nat) (addr : Word) (detail : Nat) : (s.notice code addr detail).cores = s.cores := rfl
@[simp] theorem State.notice_quads (s : State) (code : Nat) (addr : Word) (detail : Nat) : (s.notice code addr detail).quads = s.quads := rfl
@[simp] theorem State.notice_dies (s : State) (code : Nat) (addr : Word) (detail : Nat) : (s.notice code addr detail).dies = s.dies := rfl
@[simp] theorem State.notice_lines (s : State) (code : Nat) (addr : Word) (detail : Nat) : (s.notice code addr detail).lines = s.lines := rfl
@[simp] theorem State.notice_sharers (s : State) (code : Nat) (addr : Word) (detail : Nat) : (s.notice code addr detail).sharers = s.sharers := rfl
@[simp] theorem State.notice_notices (s : State) (code : Nat) (addr : Word) (detail : Nat) : (s.notice code addr detail).notices = s.notices := rfl
@[simp] theorem State.notice_acks (s : State) (code : Nat) (addr : Word) (detail : Nat) : (s.notice code addr detail).acks = s.acks := rfl
@[simp] theorem State.notice_packets (s : State) (code : Nat) (addr : Word) (detail : Nat) : (s.notice code addr detail).packets = s.packets := rfl
@[simp] theorem State.notice_evicted (s : State) (code : Nat) (addr : Word) (detail : Nat) : (s.notice code addr detail).evicted = s.evicted := rfl
@[simp] theorem State.notice_walks (s : State) (code : Nat) (addr : Word) (detail : Nat) : (s.notice code addr detail).walks = s.walks := rfl
@[simp] theorem State.notice_pages (s : State) (code : Nat) (addr : Word) (detail : Nat) : (s.notice code addr detail).pages = s.pages := rfl
@[simp] theorem State.notice_dupMap (s : State) (code : Nat) (addr : Word) (detail : Nat) : (s.notice code addr detail).dupMap = s.dupMap := rfl
@[simp] theorem State.notice_migrations (s : State) (code : Nat) (addr : Word) (detail : Nat) : (s.notice code addr detail).migrations = s.migrations := rfl
@[simp] theorem State.notice_collapses (s : State) (code : Nat) (addr : Word) (detail : Nat) : (s.notice code addr detail).collapses = s.collapses := rfl
@[simp] theorem State.notice_epochLeft (s : State) (code : Nat) (addr : Word) (detail : Nat) : (s.notice code addr detail).epochLeft = s.epochLeft := rfl
@[simp] theorem State.notice_owner (s : State) (code : Nat) (addr : Word) (detail : Nat) : (s.notice code addr detail).owner = s.owner := rfl
@[simp] theorem State.notice_owned (s : State) (code : Nat) (addr : Word) (detail : Nat) : (s.notice code addr detail).owned = s.owned := rfl
@[simp] theorem State.notice_target (s : State) (code : Nat) (addr : Word) (detail : Nat) : (s.notice code addr detail).target = s.target := rfl
@[simp] theorem State.notice_pending (s : State) (code : Nat) (addr : Word) (detail : Nat) : (s.notice code addr detail).pending = s.pending := rfl
@[simp] theorem State.notice_handoverLeft (s : State) (code : Nat) (addr : Word) (detail : Nat) : (s.notice code addr detail).handoverLeft = s.handoverLeft := rfl
@[simp] theorem State.notice_ctl (s : State) (code : Nat) (addr : Word) (detail : Nat) : (s.notice code addr detail).ctl = s.ctl := rfl
@[simp] theorem State.notice_ownerEvents (s : State) (code : Nat) (addr : Word) (detail : Nat) : (s.notice code addr detail).ownerEvents = s.ownerEvents := rfl
@[simp] theorem State.notice_hold (s : State) (code : Nat) (addr : Word) (detail : Nat) : (s.notice code addr detail).hold = s.hold := rfl
@[simp] theorem State.notice_cap (s : State) (code : Nat) (addr : Word) (detail : Nat) : (s.notice code addr detail).cap = s.cap := rfl
@[simp] theorem State.notice_aclk (s : State) (code : Nat) (addr : Word) (detail : Nat) : (s.notice code addr detail).aclk = s.aclk := rfl
@[simp] theorem State.notice_tdis (s : State) (code : Nat) (addr : Word) (detail : Nat) : (s.notice code addr detail).tdis = s.tdis := rfl
@[simp] theorem State.notice_bound (s : State) (code : Nat) (addr : Word) (detail : Nat) : (s.notice code addr detail).bound = s.bound := rfl
@[simp] theorem State.notice_links (s : State) (code : Nat) (addr : Word) (detail : Nat) : (s.notice code addr detail).links = s.links := rfl
@[simp] theorem State.notice_firmware (s : State) (code : Nat) (addr : Word) (detail : Nat) : (s.notice code addr detail).firmware = s.firmware := rfl
@[simp] theorem State.notice_dbg (s : State) (code : Nat) (addr : Word) (detail : Nat) : (s.notice code addr detail).dbg = s.dbg := rfl
@[simp] theorem State.notice_errors (s : State) (code : Nat) (addr : Word) (detail : Nat) : (s.notice code addr detail).errors = s.errors ++ [{ code := code, addr := addr, detail := detail }] := rfl
@[simp] theorem State.notice_remote (s : State) (code : Nat) (addr : Word) (detail : Nat) : (s.notice code addr detail).remote = s.remote := rfl
@[simp] theorem State.notice_bar (s : State) (code : Nat) (addr : Word) (detail : Nat) : (s.notice code addr detail).bar = s.bar := rfl
@[simp] theorem State.notice_turn (s : State) (code : Nat) (addr : Word) (detail : Nat) : (s.notice code addr detail).turn = s.turn := rfl
@[simp] theorem State.notice_sentOut (s : State) (code : Nat) (addr : Word) (detail : Nat) : (s.notice code addr detail).sentOut = s.sentOut := rfl

/-! ## draw -/
@[simp] theorem State.draw_agenda (s : State) : (s.draw).agenda = s.agenda := rfl
@[simp] theorem State.draw_focus (s : State) : (s.draw).focus = s.focus := rfl
@[simp] theorem State.draw_unsettled (s : State) : (s.draw).unsettled = s.unsettled := rfl
@[simp] theorem State.draw_latch (s : State) : (s.draw).latch = s.latch := rfl
@[simp] theorem State.draw_offers (s : State) : (s.draw).offers = s.offers := rfl
@[simp] theorem State.draw_freeN (s : State) : (s.draw).freeN = s.freeN + 1 := rfl
@[simp] theorem State.draw_nextId (s : State) : (s.draw).nextId = s.nextId := rfl
@[simp] theorem State.draw_clk (s : State) : (s.draw).clk = s.clk := rfl
@[simp] theorem State.draw_time (s : State) : (s.draw).time = s.time := rfl
@[simp] theorem State.draw_phase (s : State) : (s.draw).phase = s.phase := rfl
@[simp] theorem State.draw_mem (s : State) : (s.draw).mem = s.mem := rfl
@[simp] theorem State.draw_poison (s : State) : (s.draw).poison = s.poison := rfl
@[simp] theorem State.draw_ctxs (s : State) : (s.draw).ctxs = s.ctxs := rfl
@[simp] theorem State.draw_grids (s : State) : (s.draw).grids = s.grids := rfl
@[simp] theorem State.draw_blocks (s : State) : (s.draw).blocks = s.blocks := rfl
@[simp] theorem State.draw_squads (s : State) : (s.draw).squads = s.squads := rfl
@[simp] theorem State.draw_threads (s : State) : (s.draw).threads = s.threads := rfl
@[simp] theorem State.draw_accs (s : State) : (s.draw).accs = s.accs := rfl
@[simp] theorem State.draw_credits (s : State) : (s.draw).credits = s.credits := rfl
@[simp] theorem State.draw_bankSave (s : State) : (s.draw).bankSave = s.bankSave := rfl
@[simp] theorem State.draw_cores (s : State) : (s.draw).cores = s.cores := rfl
@[simp] theorem State.draw_quads (s : State) : (s.draw).quads = s.quads := rfl
@[simp] theorem State.draw_dies (s : State) : (s.draw).dies = s.dies := rfl
@[simp] theorem State.draw_lines (s : State) : (s.draw).lines = s.lines := rfl
@[simp] theorem State.draw_sharers (s : State) : (s.draw).sharers = s.sharers := rfl
@[simp] theorem State.draw_notices (s : State) : (s.draw).notices = s.notices := rfl
@[simp] theorem State.draw_acks (s : State) : (s.draw).acks = s.acks := rfl
@[simp] theorem State.draw_packets (s : State) : (s.draw).packets = s.packets := rfl
@[simp] theorem State.draw_evicted (s : State) : (s.draw).evicted = s.evicted := rfl
@[simp] theorem State.draw_walks (s : State) : (s.draw).walks = s.walks := rfl
@[simp] theorem State.draw_pages (s : State) : (s.draw).pages = s.pages := rfl
@[simp] theorem State.draw_dupMap (s : State) : (s.draw).dupMap = s.dupMap := rfl
@[simp] theorem State.draw_migrations (s : State) : (s.draw).migrations = s.migrations := rfl
@[simp] theorem State.draw_collapses (s : State) : (s.draw).collapses = s.collapses := rfl
@[simp] theorem State.draw_epochLeft (s : State) : (s.draw).epochLeft = s.epochLeft := rfl
@[simp] theorem State.draw_owner (s : State) : (s.draw).owner = s.owner := rfl
@[simp] theorem State.draw_owned (s : State) : (s.draw).owned = s.owned := rfl
@[simp] theorem State.draw_target (s : State) : (s.draw).target = s.target := rfl
@[simp] theorem State.draw_pending (s : State) : (s.draw).pending = s.pending := rfl
@[simp] theorem State.draw_handoverLeft (s : State) : (s.draw).handoverLeft = s.handoverLeft := rfl
@[simp] theorem State.draw_ctl (s : State) : (s.draw).ctl = s.ctl := rfl
@[simp] theorem State.draw_ownerEvents (s : State) : (s.draw).ownerEvents = s.ownerEvents := rfl
@[simp] theorem State.draw_hold (s : State) : (s.draw).hold = s.hold := rfl
@[simp] theorem State.draw_cap (s : State) : (s.draw).cap = s.cap := rfl
@[simp] theorem State.draw_aclk (s : State) : (s.draw).aclk = s.aclk := rfl
@[simp] theorem State.draw_tdis (s : State) : (s.draw).tdis = s.tdis := rfl
@[simp] theorem State.draw_bound (s : State) : (s.draw).bound = s.bound := rfl
@[simp] theorem State.draw_links (s : State) : (s.draw).links = s.links := rfl
@[simp] theorem State.draw_firmware (s : State) : (s.draw).firmware = s.firmware := rfl
@[simp] theorem State.draw_dbg (s : State) : (s.draw).dbg = s.dbg := rfl
@[simp] theorem State.draw_errors (s : State) : (s.draw).errors = s.errors := rfl
@[simp] theorem State.draw_remote (s : State) : (s.draw).remote = s.remote := rfl
@[simp] theorem State.draw_bar (s : State) : (s.draw).bar = s.bar := rfl
@[simp] theorem State.draw_turn (s : State) : (s.draw).turn = s.turn := rfl
@[simp] theorem State.draw_sentOut (s : State) : (s.draw).sentOut = s.sentOut := rfl

/-! ## name -/
@[simp] theorem State.name_agenda (s : State) : (s.name).agenda = s.agenda := rfl
@[simp] theorem State.name_focus (s : State) : (s.name).focus = s.focus := rfl
@[simp] theorem State.name_unsettled (s : State) : (s.name).unsettled = s.unsettled := rfl
@[simp] theorem State.name_latch (s : State) : (s.name).latch = s.latch := rfl
@[simp] theorem State.name_offers (s : State) : (s.name).offers = s.offers := rfl
@[simp] theorem State.name_freeN (s : State) : (s.name).freeN = s.freeN := rfl
@[simp] theorem State.name_nextId (s : State) : (s.name).nextId = s.nextId + 1 := rfl
@[simp] theorem State.name_clk (s : State) : (s.name).clk = s.clk := rfl
@[simp] theorem State.name_time (s : State) : (s.name).time = s.time := rfl
@[simp] theorem State.name_phase (s : State) : (s.name).phase = s.phase := rfl
@[simp] theorem State.name_mem (s : State) : (s.name).mem = s.mem := rfl
@[simp] theorem State.name_poison (s : State) : (s.name).poison = s.poison := rfl
@[simp] theorem State.name_ctxs (s : State) : (s.name).ctxs = s.ctxs := rfl
@[simp] theorem State.name_grids (s : State) : (s.name).grids = s.grids := rfl
@[simp] theorem State.name_blocks (s : State) : (s.name).blocks = s.blocks := rfl
@[simp] theorem State.name_squads (s : State) : (s.name).squads = s.squads := rfl
@[simp] theorem State.name_threads (s : State) : (s.name).threads = s.threads := rfl
@[simp] theorem State.name_accs (s : State) : (s.name).accs = s.accs := rfl
@[simp] theorem State.name_credits (s : State) : (s.name).credits = s.credits := rfl
@[simp] theorem State.name_bankSave (s : State) : (s.name).bankSave = s.bankSave := rfl
@[simp] theorem State.name_cores (s : State) : (s.name).cores = s.cores := rfl
@[simp] theorem State.name_quads (s : State) : (s.name).quads = s.quads := rfl
@[simp] theorem State.name_dies (s : State) : (s.name).dies = s.dies := rfl
@[simp] theorem State.name_lines (s : State) : (s.name).lines = s.lines := rfl
@[simp] theorem State.name_sharers (s : State) : (s.name).sharers = s.sharers := rfl
@[simp] theorem State.name_notices (s : State) : (s.name).notices = s.notices := rfl
@[simp] theorem State.name_acks (s : State) : (s.name).acks = s.acks := rfl
@[simp] theorem State.name_packets (s : State) : (s.name).packets = s.packets := rfl
@[simp] theorem State.name_evicted (s : State) : (s.name).evicted = s.evicted := rfl
@[simp] theorem State.name_walks (s : State) : (s.name).walks = s.walks := rfl
@[simp] theorem State.name_pages (s : State) : (s.name).pages = s.pages := rfl
@[simp] theorem State.name_dupMap (s : State) : (s.name).dupMap = s.dupMap := rfl
@[simp] theorem State.name_migrations (s : State) : (s.name).migrations = s.migrations := rfl
@[simp] theorem State.name_collapses (s : State) : (s.name).collapses = s.collapses := rfl
@[simp] theorem State.name_epochLeft (s : State) : (s.name).epochLeft = s.epochLeft := rfl
@[simp] theorem State.name_owner (s : State) : (s.name).owner = s.owner := rfl
@[simp] theorem State.name_owned (s : State) : (s.name).owned = s.owned := rfl
@[simp] theorem State.name_target (s : State) : (s.name).target = s.target := rfl
@[simp] theorem State.name_pending (s : State) : (s.name).pending = s.pending := rfl
@[simp] theorem State.name_handoverLeft (s : State) : (s.name).handoverLeft = s.handoverLeft := rfl
@[simp] theorem State.name_ctl (s : State) : (s.name).ctl = s.ctl := rfl
@[simp] theorem State.name_ownerEvents (s : State) : (s.name).ownerEvents = s.ownerEvents := rfl
@[simp] theorem State.name_hold (s : State) : (s.name).hold = s.hold := rfl
@[simp] theorem State.name_cap (s : State) : (s.name).cap = s.cap := rfl
@[simp] theorem State.name_aclk (s : State) : (s.name).aclk = s.aclk := rfl
@[simp] theorem State.name_tdis (s : State) : (s.name).tdis = s.tdis := rfl
@[simp] theorem State.name_bound (s : State) : (s.name).bound = s.bound := rfl
@[simp] theorem State.name_links (s : State) : (s.name).links = s.links := rfl
@[simp] theorem State.name_firmware (s : State) : (s.name).firmware = s.firmware := rfl
@[simp] theorem State.name_dbg (s : State) : (s.name).dbg = s.dbg := rfl
@[simp] theorem State.name_errors (s : State) : (s.name).errors = s.errors := rfl
@[simp] theorem State.name_remote (s : State) : (s.name).remote = s.remote := rfl
@[simp] theorem State.name_bar (s : State) : (s.name).bar = s.bar := rfl
@[simp] theorem State.name_turn (s : State) : (s.name).turn = s.turn := rfl
@[simp] theorem State.name_sentOut (s : State) : (s.name).sentOut = s.sentOut := rfl

/-! ## plan -/
@[simp] theorem State.plan_agenda (s : State) (es : List Instr) : (s.plan es).agenda = s.agenda ++ es := rfl
@[simp] theorem State.plan_focus (s : State) (es : List Instr) : (s.plan es).focus = s.focus := rfl
@[simp] theorem State.plan_unsettled (s : State) (es : List Instr) : (s.plan es).unsettled = s.unsettled := rfl
@[simp] theorem State.plan_latch (s : State) (es : List Instr) : (s.plan es).latch = s.latch := rfl
@[simp] theorem State.plan_offers (s : State) (es : List Instr) : (s.plan es).offers = s.offers := rfl
@[simp] theorem State.plan_freeN (s : State) (es : List Instr) : (s.plan es).freeN = s.freeN := rfl
@[simp] theorem State.plan_nextId (s : State) (es : List Instr) : (s.plan es).nextId = s.nextId := rfl
@[simp] theorem State.plan_clk (s : State) (es : List Instr) : (s.plan es).clk = s.clk := rfl
@[simp] theorem State.plan_time (s : State) (es : List Instr) : (s.plan es).time = s.time := rfl
@[simp] theorem State.plan_phase (s : State) (es : List Instr) : (s.plan es).phase = s.phase := rfl
@[simp] theorem State.plan_mem (s : State) (es : List Instr) : (s.plan es).mem = s.mem := rfl
@[simp] theorem State.plan_poison (s : State) (es : List Instr) : (s.plan es).poison = s.poison := rfl
@[simp] theorem State.plan_ctxs (s : State) (es : List Instr) : (s.plan es).ctxs = s.ctxs := rfl
@[simp] theorem State.plan_grids (s : State) (es : List Instr) : (s.plan es).grids = s.grids := rfl
@[simp] theorem State.plan_blocks (s : State) (es : List Instr) : (s.plan es).blocks = s.blocks := rfl
@[simp] theorem State.plan_squads (s : State) (es : List Instr) : (s.plan es).squads = s.squads := rfl
@[simp] theorem State.plan_threads (s : State) (es : List Instr) : (s.plan es).threads = s.threads := rfl
@[simp] theorem State.plan_accs (s : State) (es : List Instr) : (s.plan es).accs = s.accs := rfl
@[simp] theorem State.plan_credits (s : State) (es : List Instr) : (s.plan es).credits = s.credits := rfl
@[simp] theorem State.plan_bankSave (s : State) (es : List Instr) : (s.plan es).bankSave = s.bankSave := rfl
@[simp] theorem State.plan_cores (s : State) (es : List Instr) : (s.plan es).cores = s.cores := rfl
@[simp] theorem State.plan_quads (s : State) (es : List Instr) : (s.plan es).quads = s.quads := rfl
@[simp] theorem State.plan_dies (s : State) (es : List Instr) : (s.plan es).dies = s.dies := rfl
@[simp] theorem State.plan_lines (s : State) (es : List Instr) : (s.plan es).lines = s.lines := rfl
@[simp] theorem State.plan_sharers (s : State) (es : List Instr) : (s.plan es).sharers = s.sharers := rfl
@[simp] theorem State.plan_notices (s : State) (es : List Instr) : (s.plan es).notices = s.notices := rfl
@[simp] theorem State.plan_acks (s : State) (es : List Instr) : (s.plan es).acks = s.acks := rfl
@[simp] theorem State.plan_packets (s : State) (es : List Instr) : (s.plan es).packets = s.packets := rfl
@[simp] theorem State.plan_evicted (s : State) (es : List Instr) : (s.plan es).evicted = s.evicted := rfl
@[simp] theorem State.plan_walks (s : State) (es : List Instr) : (s.plan es).walks = s.walks := rfl
@[simp] theorem State.plan_pages (s : State) (es : List Instr) : (s.plan es).pages = s.pages := rfl
@[simp] theorem State.plan_dupMap (s : State) (es : List Instr) : (s.plan es).dupMap = s.dupMap := rfl
@[simp] theorem State.plan_migrations (s : State) (es : List Instr) : (s.plan es).migrations = s.migrations := rfl
@[simp] theorem State.plan_collapses (s : State) (es : List Instr) : (s.plan es).collapses = s.collapses := rfl
@[simp] theorem State.plan_epochLeft (s : State) (es : List Instr) : (s.plan es).epochLeft = s.epochLeft := rfl
@[simp] theorem State.plan_owner (s : State) (es : List Instr) : (s.plan es).owner = s.owner := rfl
@[simp] theorem State.plan_owned (s : State) (es : List Instr) : (s.plan es).owned = s.owned := rfl
@[simp] theorem State.plan_target (s : State) (es : List Instr) : (s.plan es).target = s.target := rfl
@[simp] theorem State.plan_pending (s : State) (es : List Instr) : (s.plan es).pending = s.pending := rfl
@[simp] theorem State.plan_handoverLeft (s : State) (es : List Instr) : (s.plan es).handoverLeft = s.handoverLeft := rfl
@[simp] theorem State.plan_ctl (s : State) (es : List Instr) : (s.plan es).ctl = s.ctl := rfl
@[simp] theorem State.plan_ownerEvents (s : State) (es : List Instr) : (s.plan es).ownerEvents = s.ownerEvents := rfl
@[simp] theorem State.plan_hold (s : State) (es : List Instr) : (s.plan es).hold = s.hold := rfl
@[simp] theorem State.plan_cap (s : State) (es : List Instr) : (s.plan es).cap = s.cap := rfl
@[simp] theorem State.plan_aclk (s : State) (es : List Instr) : (s.plan es).aclk = s.aclk := rfl
@[simp] theorem State.plan_tdis (s : State) (es : List Instr) : (s.plan es).tdis = s.tdis := rfl
@[simp] theorem State.plan_bound (s : State) (es : List Instr) : (s.plan es).bound = s.bound := rfl
@[simp] theorem State.plan_links (s : State) (es : List Instr) : (s.plan es).links = s.links := rfl
@[simp] theorem State.plan_firmware (s : State) (es : List Instr) : (s.plan es).firmware = s.firmware := rfl
@[simp] theorem State.plan_dbg (s : State) (es : List Instr) : (s.plan es).dbg = s.dbg := rfl
@[simp] theorem State.plan_errors (s : State) (es : List Instr) : (s.plan es).errors = s.errors := rfl
@[simp] theorem State.plan_remote (s : State) (es : List Instr) : (s.plan es).remote = s.remote := rfl
@[simp] theorem State.plan_bar (s : State) (es : List Instr) : (s.plan es).bar = s.bar := rfl
@[simp] theorem State.plan_turn (s : State) (es : List Instr) : (s.plan es).turn = s.turn := rfl
@[simp] theorem State.plan_sentOut (s : State) (es : List Instr) : (s.plan es).sentOut = s.sentOut := rfl

end Sys2Proof.Machine
end

