-- ==== Sys2Proof/Laws/Table.lean ====
section
/-! SUPPORT. Reading after writing a table, and the canonical form of a sparse table kept by every write. -/

namespace Sys2Proof.Machine

variable {α : Type}

/-! ## Reading after writing -/

theorem tget_tset_same (t : Table α) (k : Nat) (v : α) : tget (tset t k v) k = some v := by
  induction t with
  | nil => simp [tset, tget]
  | cons e t ih =>
    obtain ⟨k', v'⟩ := e
    simp only [tset]
    split
    · simp [tget]
    · split
      · simp [tget]
      · rename_i h1 h2
        simp only [tget]
        rw [if_neg (by omega), ih]

theorem tget_tset_ne (t : Table α) (k j : Nat) (v : α) (h : j ≠ k) : tget (tset t k v) j = tget t j := by
  induction t with
  | nil => simp [tset, tget, Ne.symm h]
  | cons e t ih =>
    obtain ⟨k', v'⟩ := e
    simp only [tset]
    split
    · simp only [tget]; rw [if_neg (Ne.symm h)]
    · split
      · rename_i h1 h2; subst h2; simp only [tget]; rw [if_neg (Ne.symm h), if_neg (Ne.symm h)]
      · simp only [tget]; split
        · rfl
        · exact ih

theorem tget_tdel_same (t : Table α) (k : Nat) : tget (tdel t k) k = none := by
  induction t with
  | nil => rfl
  | cons e t ih =>
    obtain ⟨k', v'⟩ := e
    simp only [tdel]
    split
    · exact ih
    · rename_i h; simp only [tget]; rw [if_neg h, ih]

theorem tget_tdel_ne (t : Table α) (k j : Nat) (h : j ≠ k) : tget (tdel t k) j = tget t j := by
  induction t with
  | nil => rfl
  | cons e t ih =>
    obtain ⟨k', v'⟩ := e
    simp only [tdel]
    split
    · rename_i hk; subst hk; simp only [tget]; rw [if_neg (Ne.symm h), ih]
    · simp only [tget]; split
      · rfl
      · exact ih

theorem tget_tmod_ne (t : Table α) (k j : Nat) (f : α → α) (h : j ≠ k) : tget (tmod t k f) j = tget t j := by
  unfold tmod
  split
  · exact tget_tset_ne _ _ _ _ h
  · rfl

theorem tget_tmod_same (t : Table α) (k : Nat) (f : α → α) : tget (tmod t k f) k = (tget t k).map f := by
  unfold tmod
  split
  · rename_i v h; rw [tget_tset_same, h]; rfl
  · rename_i h; rw [h]; rfl

theorem tgetD_tset_same (t : Table α) (k : Nat) (v d : α) : tgetD (tset t k v) k d = v := by simp [tgetD, tget_tset_same]

theorem tgetD_tset_ne (t : Table α) (k j : Nat) (v d : α) (h : j ≠ k) : tgetD (tset t k v) j d = tgetD t j d := by
  simp [tgetD, tget_tset_ne _ _ _ _ h]

theorem tgetD_tmod_ne (t : Table α) (k j : Nat) (f : α → α) (d : α) (h : j ≠ k) : tgetD (tmod t k f) j d = tgetD t j d := by
  simp [tgetD, tget_tmod_ne _ _ _ _ h]

theorem tgetD_tmod_same (t : Table α) (k : Nat) (f : α → α) (d : α) (h : (tget t k).isSome = true) :
    tgetD (tmod t k f) k d = f (tgetD t k d) := by
  obtain ⟨v, hv⟩ := Option.isSome_iff_exists.mp h
  simp [tgetD, tget_tmod_same, hv]

theorem tget_tmod_isSome (t : Table α) (k j : Nat) (f : α → α) : (tget (tmod t k f) j).isSome = (tget t j).isSome := by
  by_cases h : j = k
  · subst h; rw [tget_tmod_same]; cases tget t j <;> rfl
  · rw [tget_tmod_ne _ _ _ _ h]

theorem tset_tset (t : Table α) (k : Nat) (v w : α) : tset (tset t k v) k w = tset t k w := by
  induction t with
  | nil => simp [tset]
  | cons e t ih =>
    obtain ⟨k', v'⟩ := e
    by_cases h1 : k < k'
    · simp [tset, h1]
    · by_cases h2 : k = k'
      · subst h2; simp [tset]
      · simp [tset, h1, h2, ih]

/-- Two changes of one entry are one. -/
theorem tmod_tmod (t : Table α) (k : Nat) (f g : α → α) : tmod (tmod t k f) k g = tmod t k fun x => g (f x) := by
  unfold tmod
  cases h : tget t k with
  | none => simp [h]
  | some v => simp [tget_tset_same, tset_tset]

theorem sget_sset_same [DecidableEq α] (d : α) (t : Table α) (k : Nat) (v : α) : sget d (sset d t k v) k = v := by
  unfold sset
  split
  · rename_i h; simp [sget, tgetD, tget_tdel_same, h]
  · simp [sget, tgetD, tget_tset_same]

theorem sget_sset_ne [DecidableEq α] (d : α) (t : Table α) (k j : Nat) (v : α) (h : j ≠ k) : sget d (sset d t k v) j = sget d t j := by
  unfold sset
  split
  · simp [sget, tgetD, tget_tdel_ne _ _ _ h]
  · simp [sget, tgetD, tget_tset_ne _ _ _ _ h]

/-! ## The canonical form -/

theorem sortedFrom_mono {lo lo' : Nat} {t : Table α} (h : lo' ≤ lo) (ht : sortedFrom lo t = true) : sortedFrom lo' t = true := by
  cases t with
  | nil => rfl
  | cons e t => obtain ⟨k, v⟩ := e; simp [sortedFrom] at *; exact ⟨by omega, ht.2⟩

theorem sortedFrom_tset {t : Table α} {lo k : Nat} {v : α} (h : lo ≤ k) (ht : sortedFrom lo t = true) :
    sortedFrom lo (tset t k v) = true := by
  induction t generalizing lo with
  | nil => simp [tset, sortedFrom, h]
  | cons e t ih =>
    obtain ⟨k', v'⟩ := e
    simp only [sortedFrom, Bool.and_eq_true, decide_eq_true_eq] at ht
    simp only [tset]
    split
    · simp only [sortedFrom, Bool.and_eq_true, decide_eq_true_eq]; exact ⟨h, by omega, ht.2⟩
    · split
      · rename_i h2; subst h2; simp only [sortedFrom, Bool.and_eq_true, decide_eq_true_eq]; exact ⟨h, ht.2⟩
      · simp only [sortedFrom, Bool.and_eq_true, decide_eq_true_eq]; exact ⟨ht.1, ih (by omega) ht.2⟩

theorem sortedFrom_tdel {t : Table α} {lo k : Nat} (ht : sortedFrom lo t = true) : sortedFrom lo (tdel t k) = true := by
  induction t generalizing lo with
  | nil => rfl
  | cons e t ih =>
    obtain ⟨k', v'⟩ := e
    simp only [sortedFrom, Bool.and_eq_true, decide_eq_true_eq] at ht
    simp only [tdel]
    split
    · exact sortedFrom_mono (by omega) (ih ht.2)
    · simp only [sortedFrom, Bool.and_eq_true, decide_eq_true_eq]; exact ⟨ht.1, ih ht.2⟩

theorem sortedFrom_filter {t : Table α} {lo : Nat} (p : Nat × α → Bool) (ht : sortedFrom lo t = true) :
    sortedFrom lo (t.filter p) = true := by
  induction t generalizing lo with
  | nil => rfl
  | cons e t ih =>
    obtain ⟨k', v'⟩ := e
    simp only [sortedFrom, Bool.and_eq_true, decide_eq_true_eq] at ht
    simp only [List.filter]
    split
    · simp only [sortedFrom, Bool.and_eq_true, decide_eq_true_eq]; exact ⟨ht.1, ih ht.2⟩
    · exact sortedFrom_mono (by omega) (ih ht.2)

theorem mem_tset {t : Table α} {k : Nat} {v : α} {e : Nat × α} (h : e ∈ tset t k v) : e = (k, v) ∨ e ∈ t := by
  induction t with
  | nil => simpa [tset] using h
  | cons x t ih =>
    obtain ⟨k', v'⟩ := x
    simp only [tset] at h
    split at h
    · simpa using h
    · split at h
      · rcases List.mem_cons.mp h with h | h
        · exact .inl h
        · exact .inr (List.mem_cons_of_mem _ h)
      · rcases List.mem_cons.mp h with h | h
        · exact .inr (h ▸ List.mem_cons_self ..)
        · rcases ih h with h | h
          · exact .inl h
          · exact .inr (List.mem_cons_of_mem _ h)

theorem mem_tdel {t : Table α} {k : Nat} {e : Nat × α} (h : e ∈ tdel t k) : e ∈ t := by
  induction t with
  | nil => exact h
  | cons x t ih =>
    obtain ⟨k', v'⟩ := x
    simp only [tdel] at h
    split at h
    · exact List.mem_cons_of_mem _ (ih h)
    · rcases List.mem_cons.mp h with h | h
      · exact h ▸ List.mem_cons_self ..
      · exact List.mem_cons_of_mem _ (ih h)

/-- A canonical table lists no entry below its first key. -/
theorem tget_below {lo : Nat} {t : Table α} (ht : sortedFrom lo t = true) {k : Nat} (h : k < lo) : tget t k = none := by
  induction t generalizing lo with
  | nil => rfl
  | cons e t ih =>
    obtain ⟨k', v'⟩ := e
    simp only [sortedFrom, Bool.and_eq_true, decide_eq_true_eq] at ht
    simp only [tget]
    rw [if_neg (by omega)]
    exact ih ht.2 (by omega)

variable [DecidableEq α]

/-- Writing a sparse table keeps its canonical form. -/
theorem sparseWf_sset {d : α} {t : Table α} (k : Nat) (v : α) (h : sparseWf d t = true) : sparseWf d (sset d t k v) = true := by
  simp only [sparseWf, Bool.and_eq_true, List.all_eq_true, decide_eq_true_eq] at *
  unfold sset
  split
  · exact ⟨sortedFrom_tdel h.1, fun e he => h.2 e (mem_tdel he)⟩
  · refine ⟨sortedFrom_tset (Nat.zero_le _) h.1, fun e he => ?_⟩
    rcases mem_tset he with rfl | he
    · assumption
    · exact h.2 e he

/-- Dropping entries of a sparse table keeps its canonical form. -/
theorem sparseWf_filter {d : α} {t : Table α} (p : Nat × α → Bool) (h : sparseWf d t = true) : sparseWf d (t.filter p) = true := by
  simp only [sparseWf, Bool.and_eq_true, List.all_eq_true, decide_eq_true_eq] at *
  exact ⟨sortedFrom_filter p h.1, fun e he => h.2 e (List.mem_filter.mp he).1⟩

end Sys2Proof.Machine
end

