-- ==== Sys2Proof/Laws/Group.lean ====
section
/-! SUPPORT. What an instruction of an issue group does, said once: when the effect of each lane stays in its own thread, each thread of the
group has its own effect, every other thread is kept, and nothing else changes but what the end of an issue changes. -/

namespace Sys2Proof.Machine

theorem Latch.key_inj {l : Latch} {x y : Nat} (h : l.key x = l.key y) : x = y := by
  simp only [Latch.key, threadKey] at h; omega

/-! ## Effects of one lane -/

@[simp] theorem Thread.goTo_next (t : Thread) (n : Word) : t.goTo n n = { t with pc := n, stepOver := none } := by simp [Thread.goTo]
@[simp] theorem Thread.goTo_pc (t : Thread) (n p : Word) : (t.goTo n p).pc = p := rfl

/-- The effect of one lane: it changes the thread of key `k` by `g`, takes destinations from accesses, and keeps everything else. -/
structure LocalFx (k : Nat) (f : State → State) (g : Thread → Thread) : Prop where
  threads : ∀ u j, tget (f u).threads j = if j = k then (tget u.threads j).map g else tget u.threads j
  rest : ∀ u, f u = { u with threads := (f u).threads, accs := (f u).accs }
  accs : ∀ u, (f u).accs.map Access.noDests = u.accs.map Access.noDests

theorem LocalFx.id (k : Nat) : LocalFx k (fun s => s) (fun t => t) where
  threads u j := by split <;> simp
  rest _ := rfl
  accs _ := rfl

theorem LocalFx.modThr (k : Nat) (g : Thread → Thread) : LocalFx k (fun s => s.modThr k g) g where
  threads u j := by
    simp only [State.modThr_threads]
    split
    · rename_i h; subst h; exact tget_tmod_same ..
    · rename_i h; exact tget_tmod_ne _ _ _ _ h
  rest _ := rfl
  accs _ := rfl

theorem LocalFx.comp {k : Nat} {f f' : State → State} {g g' : Thread → Thread} (h : LocalFx k f g) (h' : LocalFx k f' g') :
    LocalFx k (fun s => f' (f s)) (fun t => g' (g t)) where
  threads u j := by
    rw [h'.threads, h.threads]
    split
    · cases tget u.threads j <;> rfl
    · rfl
  rest u := by rw [h'.rest (f u), h.rest u]
  accs u := by rw [h'.accs, h.accs]

theorem LocalFx.supersede (k j : Nat) (r : RegName) : LocalFx k (fun s => s.supersede j r) (fun t => t) where
  threads u j := by simp [State.supersede]
  rest _ := rfl
  accs u := by
    simp only [State.supersede, List.map_map]
    apply List.map_congr_left
    intro a _
    simp only [Function.comp]
    split
    · rfl
    · split <;> rfl

theorem LocalFx.supersedePred (k j n : Nat) : LocalFx k (fun s => s.supersedePred j n) (fun t => t) where
  threads u j := by simp [State.supersedePred]
  rest _ := rfl
  accs u := by
    simp only [State.supersedePred, List.map_map]
    apply List.map_congr_left
    intro a _
    simp only [Function.comp]
    split <;> rfl

theorem LocalFx.writeV (k n : Nat) (x : Word) : LocalFx k (fun s => s.writeReg k (.v n) x) (fun t => t.writeV n x) :=
  (LocalFx.supersede k k (.v n)).comp (LocalFx.modThr k fun t => t.writeV n x)

theorem LocalFx.writePred (k n : Nat) (b : Bool) : LocalFx k (fun s => s.writePred k n b) (fun t => t.writeP n b) :=
  (LocalFx.supersedePred k k n).comp (LocalFx.modThr k fun t => t.writeP n b)

/-- Effects of distinct lanes put together. -/
structure LocalAll (ks : List Nat) (f : State → State) (g : Nat → Thread → Thread) : Prop where
  inside : ∀ u j, j ∈ ks → tget (f u).threads j = (tget u.threads j).map (g j)
  outside : ∀ u j, j ∉ ks → tget (f u).threads j = tget u.threads j
  rest : ∀ u, f u = { u with threads := (f u).threads, accs := (f u).accs }
  accs : ∀ u, (f u).accs.map Access.noDests = u.accs.map Access.noDests

theorem LocalAll.fold {β : Type} (key : β → Nat) (fx : β → State → State) (g : Nat → Thread → Thread) (bs : List β)
    (hk : (bs.map key).Nodup) (h : ∀ b ∈ bs, LocalFx (key b) (fx b) (g (key b))) :
    LocalAll (bs.map key) (fun s => bs.foldl (fun s b => fx b s) s) g := by
  induction bs with
  | nil => exact ⟨by simp, by simp, fun _ => rfl, fun _ => rfl⟩
  | cons b bs ih =>
    have hb := h b (List.mem_cons_self ..)
    have hn : key b ∉ bs.map key ∧ (bs.map key).Nodup := List.nodup_cons.mp (by simpa only [List.map_cons] using hk)
    have ih := ih hn.2 fun c hc => h c (List.mem_cons_of_mem _ hc)
    refine ⟨fun u j hj => ?_, fun u j hj => ?_, fun u => ?_, fun u => ?_⟩
    · simp only [List.foldl_cons]
      by_cases hjb : j = key b
      · subst hjb
        rw [ih.outside _ _ hn.1, hb.threads, if_pos rfl]
      · have : j ∈ bs.map key := by
          simp only [List.map_cons, List.mem_cons] at hj
          exact hj.resolve_left hjb
        rw [ih.inside _ _ this, hb.threads, if_neg hjb]
    · simp only [List.map_cons, List.mem_cons, not_or] at hj
      simp only [List.foldl_cons]
      rw [ih.outside _ _ hj.2, hb.threads, if_neg hj.1]
    · simp only [List.foldl_cons]
      rw [ih.rest, hb.rest]
    · simp only [List.foldl_cons]
      rw [ih.accs, hb.accs]

/-! ## The end of an issue -/

theorem State.endIssue_threads (s : State) (l : Latch) (w : List (Nat × Nat)) (pc : Word) : (s.endIssue l w pc).threads = s.threads := by
  simp only [State.endIssue]
  split
  · simp
  · split <;> simp [State.endQuantum]

theorem State.endIssue_accs (s : State) (l : Latch) (w : List (Nat × Nat)) (pc : Word) : (s.endIssue l w pc).accs = s.accs := by
  simp only [State.endIssue]
  split
  · simp
  · split <;> simp [State.endQuantum]

theorem State.endIssue_blocks (s : State) (l : Latch) (w : List (Nat × Nat)) (pc : Word) :
    (s.endIssue l w pc).blocks = tmod s.blocks l.blk (fun b => { b with bySwap := false }) := by
  simp only [State.endIssue]
  split
  · simp
  · split <;> simp [State.endQuantum]

theorem State.endIssue_onlyGroup (s : State) (l : Latch) (w : List (Nat × Nat)) (pc : Word) : s.onlyGroup (s.endIssue l w pc) := by
  simp only [State.endIssue, State.onlyGroup]
  split
  · rfl
  · split <;> rfl

theorem State.endIssue_core (s : State) (l : Latch) (w : List (Nat × Nat)) (pc : Word) (c : Nat) (h : c ≠ l.core) :
    (s.endIssue l w pc).core c = s.core c := by
  simp only [State.endIssue]
  split
  · simp [State.core, State.modCore, State.modBlock, tgetD_tset_ne _ _ _ _ _ h]
  · split <;> simp [State.core, State.modCore, State.modBlock, State.endQuantum, State.modSquad, tgetD_tset_ne _ _ _ _ _ h]

theorem modSquad_squad (s : State) (b n b' n' : Nat) (f : Squad → Squad) :
    (s.modSquad b n f).squad b' n' = if squadKey b' n' = squadKey b n ∧ (tget s.squads (squadKey b n)).isSome = true then f (s.squad b' n')
      else s.squad b' n' := by
  simp only [State.squad, State.modSquad_squads]
  by_cases h : squadKey b' n' = squadKey b n
  · rw [h]
    by_cases h2 : (tget s.squads (squadKey b n)).isSome = true
    · simp [h2, tgetD_tmod_same _ _ _ _ h2]
    · simp only [h2]
      have : tget s.squads (squadKey b n) = none := by simpa using h2
      simp [tmod, this]
  · simp [h, tgetD_tmod_ne _ _ _ _ _ h]

theorem State.endIssue_squads (s : State) (l : Latch) (w : List (Nat × Nat)) (pc : Word) : s.sameSquads (s.endIssue l w pc) := by
  intro b n
  simp only [State.endIssue]
  split
  · exact ⟨rfl, rfl⟩
  · split
    · simp only [State.endQuantum, modSquad_squad]
      split <;> exact ⟨rfl, rfl⟩
    · exact ⟨rfl, rfl⟩

/-! ## Lanes -/

theorem Latch.lanesOf_nodup (l : Latch) : l.lanesOf.Nodup := List.nodup_range.filter _

/-- An instruction each of whose lanes acts on its own thread; its fall-through path goes on at `fall`. -/
theorem State.execFall_local {s : State} {l : Latch} (fall : Latch → Word) (hl : s.latch = some l) (hr : l.trial = false) (body : Lane → LaneOut)
    (g : Nat → Thread → Thread) (hp : ∃ x ∈ l.lanesOf, (body (s.laneAt l x)).proceeds = true)
    (h : ∀ x ∈ l.lanesOf, LocalFx (l.key x) (fun u => u.applyLane (l.key x) l.pc l.next (body (s.laneAt l x))) (g x)) :
    s.groupFrame (s.execFall fall body fun _ s => s) l ∧ s.sameSquads (s.execFall fall body fun _ s => s) ∧
    ∀ x ∈ l.lanesOf, tget (s.execFall fall body fun _ s => s).threads (l.key x) = (tget s.threads (l.key x)).map (g x) := by
  have hany : ((s.outcomes l body).any fun o => o.2.2.proceeds) = true := by
    obtain ⟨x, hx, hxp⟩ := hp
    simp only [State.outcomes, List.any_map, List.any_eq_true]
    exact ⟨x, hx, hxp⟩
  have hfold : ∀ u : State, (s.outcomes l body).foldl (fun s o => s.applyLane o.2.1 l.pc (nextPc l.pc l.len) o.2.2) u =
      l.lanesOf.foldl (fun u x => u.applyLane (l.key x) l.pc l.next (body (s.laneAt l x))) u := by
    intro u
    simp only [State.outcomes, List.foldl_map]
    rfl
  let G : Nat → Thread → Thread := fun k => g (k - l.key 0)
  have hG : ∀ x, G (l.key x) = g x := by
    intro x
    simp only [G, Latch.key, threadKey]
    congr 1; omega
  have hnd : (l.lanesOf.map l.key).Nodup :=
    List.Pairwise.map l.key (fun a b hab he => hab (Latch.key_inj he)) l.lanesOf_nodup
  have hA := LocalAll.fold l.key (fun x u => u.applyLane (l.key x) l.pc l.next (body (s.laneAt l x))) G l.lanesOf hnd
    (fun x hx => by rw [hG]; exact h x hx)
  have he : (s.execFall fall body fun _ s => s) = (l.lanesOf.foldl (fun u x => u.applyLane (l.key x) l.pc l.next (body (s.laneAt l x))) s).endIssue l
      (((s.outcomes l body).filter fun o => o.2.2.goes).map fun o => (o.1, o.2.1)) (fall l) := by
    simp only [State.execFall, hl, hr, hany, if_true, ← hfold]
    rfl
  have hs' := hA.rest s
  have ha' := hA.accs s
  have hin := hA.inside s
  have hout := hA.outside s
  rw [he]
  generalize l.lanesOf.foldl (fun u x => u.applyLane (l.key x) l.pc l.next (body (s.laneAt l x))) s = u at *
  refine ⟨⟨?_, ?_, ?_, fun k hk => ?_, fun c hc => ?_⟩, fun b n => ?_, fun x hx => ?_⟩
  · have h1 := State.endIssue_onlyGroup u l (((s.outcomes l body).filter fun o => o.2.2.goes).map fun o => (o.1, o.2.1)) (fall l)
    simp only [State.onlyGroup] at h1 ⊢
    rw [h1, hs']
  · rw [State.endIssue_blocks, hs']
  · rw [State.sameAccs, State.endIssue_accs, ha']
  · simp only [State.thr, State.endIssue_threads]
    have : k ∉ l.lanesOf.map l.key := by
      simp only [List.mem_map, not_exists, not_and]
      exact fun x hx he => hk x hx he.symm
    rw [tgetD, hout k this]; rfl
  · rw [State.endIssue_core _ _ _ _ _ hc, hs']; rfl
  · have := State.endIssue_squads u l (((s.outcomes l body).filter fun o => o.2.2.goes).map fun o => (o.1, o.2.1)) (fall l) b n
    rw [this.1, this.2, hs']
    exact ⟨rfl, rfl⟩
  · rw [State.endIssue_threads, hin _ (List.mem_map_of_mem hx), hG]

/-- An instruction each of whose lanes acts on its own thread. -/
theorem State.execGroup_local {s : State} {l : Latch} (hl : s.latch = some l) (hr : l.trial = false) (body : Lane → LaneOut)
    (g : Nat → Thread → Thread) (hp : ∃ x ∈ l.lanesOf, (body (s.laneAt l x)).proceeds = true)
    (h : ∀ x ∈ l.lanesOf, LocalFx (l.key x) (fun u => u.applyLane (l.key x) l.pc l.next (body (s.laneAt l x))) (g x)) :
    s.groupFrame (s.execGroup body) l ∧ s.sameSquads (s.execGroup body) ∧
    ∀ x ∈ l.lanesOf, tget (s.execGroup body).threads (l.key x) = (tget s.threads (l.key x)).map (g x) :=
  State.execFall_local _ hl hr body g hp h

theorem LocalFx.done {k : Nat} {f : State → State} {g : Thread → Thread} (h : LocalFx k f g) (ipc next pc : Word) :
    LocalFx k (fun u => u.applyLane k ipc next (.done f pc)) (fun t => (g t).goTo next pc) :=
  h.comp (LocalFx.modThr k fun t => t.goTo next pc)

/-- A lane that goes on in sequence. -/
theorem LocalFx.next {k : Nat} {f : State → State} {g : Thread → Thread} (h : LocalFx k f g) (ipc next : Word) :
    LocalFx k (fun u => u.applyLane k ipc next (.done f next)) (fun t => { g t with pc := next, stepOver := none }) := by
  simpa only [Thread.goTo_next] using h.done ipc next next

/-- An instruction under a guard whose executing lanes act on their own threads: `g x` is what lane `x` does to its thread. -/
theorem State.execGuarded_local {s : State} {l : Latch} (hi : s.issues l) {g : BitVec 3} {n : Bool} (hg : s.guardsKnown l g)
    (body : Lane → LaneOut) (fx : Nat → Thread → Thread)
    (h : ∀ x ∈ l.lanesOf, s.laneOn l x g n →
      (body (s.laneAt l x)).proceeds = true ∧ LocalFx (l.key x) (fun u => u.applyLane (l.key x) l.pc l.next (body (s.laneAt l x))) (fx x)) :
    s.groupFrame (s.execGroup (guarded g n body)) l ∧ s.sameSquads (s.execGroup (guarded g n body)) ∧
    ∀ x ∈ l.lanesOf, (s.execGroup (guarded g n body)).thr (l.key x) =
      if s.laneOn l x g n then fx x (s.thr (l.key x)) else { s.thr (l.key x) with pc := l.next, stepOver := none } := by
  obtain ⟨hl, hr, hne, hth⟩ := hi
  have hout : ∀ x ∈ l.lanesOf, guarded g n body (s.laneAt l x) =
      if s.laneOn l x g n then body (s.laneAt l x) else .done id l.next := by
    intro x hx
    have := hg x hx
    simp only [guarded]
    rw [if_neg (by simpa [State.laneAt] using this)]
    by_cases hon : s.laneOn l x g n
    · rw [if_pos hon]; exact if_pos hon
    · rw [if_neg hon]; exact if_neg hon
  have main := State.execGroup_local hl hr (guarded g n body)
    (fun x t => if s.laneOn l x g n then fx x t else { t with pc := l.next, stepOver := none }) ?_ ?_
  · refine ⟨main.1, main.2.1, fun x hx => ?_⟩
    have := main.2.2 x hx
    obtain ⟨v, hv⟩ := Option.isSome_iff_exists.mp (hth x hx).1
    simp only [State.thr, tgetD, this, hv, Option.map_some, Option.getD_some]
  · obtain ⟨x, hx⟩ := List.exists_mem_of_ne_nil _ hne
    refine ⟨x, hx, ?_⟩
    rw [hout x hx]
    split
    · rename_i hon; exact (h x hx hon).1
    · rfl
  · intro x hx
    rw [hout x hx]
    split
    · rename_i hon; simpa [hon] using (h x hx hon).2
    · exact (LocalFx.id (l.key x)).next l.pc l.next

/-- A lane that executes with an effect on its own thread. -/
theorem LaneOut.done_local {l : Latch} {x : Nat} (f : State → State) (g : Thread → Thread) (pc : Word) (h : LocalFx (l.key x) f g) :
    (LaneOut.done f pc).proceeds = true ∧
    LocalFx (l.key x) (fun u => u.applyLane (l.key x) l.pc l.next (.done f pc)) (fun t => (g t).goTo l.next pc) := ⟨rfl, h.done l.pc l.next pc⟩

/-- A lane that executes and goes on in sequence. -/
theorem LaneOut.next_local {l : Latch} {x : Nat} (f : State → State) (g : Thread → Thread) (h : LocalFx (l.key x) f g) :
    (LaneOut.done f l.next).proceeds = true ∧
    LocalFx (l.key x) (fun u => u.applyLane (l.key x) l.pc l.next (.done f l.next)) (fun t => { g t with pc := l.next, stepOver := none }) := ⟨rfl, h.next l.pc l.next⟩

/-- A lane that waits with an effect on its own thread. -/
theorem LaneOut.wait_local {l : Latch} {x : Nat} (f : State → State) (g : Thread → Thread) (h : LocalFx (l.key x) f g) :
    (LaneOut.wait f).proceeds = true ∧ LocalFx (l.key x) (fun u => u.applyLane (l.key x) l.pc l.next (.wait f)) (fun t => (g t).arrived) :=
  ⟨rfl, h.comp (LocalFx.modThr (l.key x) Thread.arrived)⟩

theorem LaneOut.local_of_eq {l : Latch} {x : Nat} {o o' : LaneOut} {g : Thread → Thread} (h : o = o')
    (hl : o'.proceeds = true ∧ LocalFx (l.key x) (fun u => u.applyLane (l.key x) l.pc l.next o') g) :
    o.proceeds = true ∧ LocalFx (l.key x) (fun u => u.applyLane (l.key x) l.pc l.next o) g := h ▸ hl

/-- An instruction without a guard whose lanes act on their own threads. -/
theorem State.execFall_all {s : State} {l : Latch} (fall : Latch → Word) (hi : s.issues l) (body : Lane → LaneOut) (g : Nat → Thread → Thread)
    (h : ∀ x ∈ l.lanesOf, (body (s.laneAt l x)).proceeds = true ∧ LocalFx (l.key x) (fun u => u.applyLane (l.key x) l.pc l.next (body (s.laneAt l x))) (g x)) :
    s.groupFrame (s.execFall fall body fun _ s => s) l ∧ s.sameSquads (s.execFall fall body fun _ s => s) ∧
    ∀ x ∈ l.lanesOf, (s.execFall fall body fun _ s => s).thr (l.key x) = g x (s.thr (l.key x)) := by
  obtain ⟨hl, hr, hne, hth⟩ := hi
  obtain ⟨x0, hx0⟩ := List.exists_mem_of_ne_nil _ hne
  have m := State.execFall_local fall hl hr body g ⟨x0, hx0, (h x0 hx0).1⟩ fun x hx => (h x hx).2
  refine ⟨m.1, m.2.1, fun x hx => ?_⟩
  obtain ⟨v, hv⟩ := Option.isSome_iff_exists.mp (hth x hx).1
  simp only [State.thr, tgetD, m.2.2 x hx, hv, Option.map_some, Option.getD_some]

/-! ## Effects on the squad -/

/-- The effect of lane `x` of a group on its own thread, by `g`, and on the group's squad, by `q`. -/
structure SquadFx (l : Latch) (x : Nat) (f : State → State) (g : Thread → Thread) (q : Squad → Squad) : Prop where
  threads : ∀ u j, tget (f u).threads j = if j = l.key x then (tget u.threads j).map g else tget u.threads j
  keeps : ∀ t, (g t).blk = t.blk ∧ (g t).sq = t.sq
  squads : ∀ u, (u.thr (l.key x)).blk = l.blk → (u.thr (l.key x)).sq = l.sq →
    ∀ j, tget (f u).squads j = if j = squadKey l.blk l.sq then (tget u.squads j).map q else tget u.squads j
  rest : ∀ u, f u = { u with threads := (f u).threads, squads := (f u).squads, accs := (f u).accs }
  accs : ∀ u, (f u).accs.map Access.noDests = u.accs.map Access.noDests

theorem LocalFx.onSquad {l : Latch} {x : Nat} {f : State → State} {g : Thread → Thread} (h : LocalFx (l.key x) f g)
    (hg : ∀ t, (g t).blk = t.blk ∧ (g t).sq = t.sq) : SquadFx l x f g (fun q => q) where
  threads := h.threads
  keeps := hg
  squads u _ _ j := by rw [h.rest u]; simp
  rest u := by rw [h.rest u]
  accs := h.accs

theorem thr_of_tget {s t : State} {k : Nat} (h : tget s.threads k = tget t.threads k) : s.thr k = t.thr k := by
  simp only [State.thr, tgetD, h]

theorem SquadFx.thr_keeps {l : Latch} {x : Nat} {f : State → State} {g : Thread → Thread} {q : Squad → Squad} (h : SquadFx l x f g q)
    (u : State) (k : Nat) : ((f u).thr k).blk = (u.thr k).blk ∧ ((f u).thr k).sq = (u.thr k).sq := by
  have := h.threads u k
  by_cases hk : k = l.key x
  · rw [if_pos hk] at this
    simp only [State.thr, tgetD, this]
    cases tget u.threads k with
    | none => exact ⟨rfl, rfl⟩
    | some v => exact h.keeps v
  · rw [if_neg hk] at this
    rw [thr_of_tget this]; exact ⟨rfl, rfl⟩

theorem SquadFx.comp {l : Latch} {x : Nat} {f f' : State → State} {g g' : Thread → Thread} {q q' : Squad → Squad} (h : SquadFx l x f g q)
    (h' : SquadFx l x f' g' q') : SquadFx l x (fun s => f' (f s)) (fun t => g' (g t)) (fun t => q' (q t)) where
  threads u j := by
    rw [h'.threads, h.threads]
    split
    · cases tget u.threads j <;> rfl
    · rfl
  keeps t := ⟨(h'.keeps _).1.trans (h.keeps t).1, (h'.keeps _).2.trans (h.keeps t).2⟩
  squads u hb hs j := by
    have hk := h.thr_keeps u (l.key x)
    rw [h'.squads (f u) (hk.1.trans hb) (hk.2.trans hs), h.squads u hb hs]
    split
    · cases tget u.squads j <;> rfl
    · rfl
  rest u := by rw [h'.rest (f u), h.rest u]
  accs u := by rw [h'.accs, h.accs]

theorem SquadFx.writeS (l : Latch) (x n : Nat) (v : Word) :
    SquadFx l x (fun s => s.writeReg (l.key x) (.s n) v) (fun t => t) (fun q => q.writeS n v) where
  threads u j := by simp [State.writeReg, State.supersede]
  keeps _ := ⟨rfl, rfl⟩
  squads u hb hs j := by
    have e : (u.supersede (l.key x) (.s n)).thr (l.key x) = u.thr (l.key x) := rfl
    simp only [State.writeReg, e, hb, hs, State.modSquad_squads]
    split
    · rename_i h; subst h; exact tget_tmod_same ..
    · rename_i h; exact tget_tmod_ne _ _ _ _ h
  rest _ := rfl
  accs u := (LocalFx.supersede (l.key x) (l.key x) (.s n)).accs u

theorem SquadFx.done {l : Latch} {x : Nat} {f : State → State} {g : Thread → Thread} {q : Squad → Squad} (h : SquadFx l x f g q)
    (ipc next : Word) : SquadFx l x (fun u => u.applyLane (l.key x) ipc next (.done f next)) (fun t => { g t with pc := next, stepOver := none }) q := by
  have := h.comp ((LocalFx.modThr (l.key x) fun t => t.goTo next next).onSquad fun t => by simp)
  simpa only [State.applyLane, Thread.goTo_next] using this

/-- Effects of distinct lanes on their threads and their squad, put together. -/
theorem SquadFx.fold {l : Latch} (fx : Nat → State → State) (g : Nat → Thread → Thread) (q : Nat → Squad → Squad) (xs : List Nat)
    (hn : xs.Nodup) (h : ∀ x ∈ xs, SquadFx l x (fx x) (g x) (q x)) (u : State)
    (hu : ∀ x ∈ xs, (u.thr (l.key x)).blk = l.blk ∧ (u.thr (l.key x)).sq = l.sq) :
    (∀ x ∈ xs, tget (xs.foldl (fun s x => fx x s) u).threads (l.key x) = (tget u.threads (l.key x)).map (g x)) ∧
    (∀ j, (∀ x ∈ xs, j ≠ l.key x) → tget (xs.foldl (fun s x => fx x s) u).threads j = tget u.threads j) ∧
    (∀ j, tget (xs.foldl (fun s x => fx x s) u).squads j =
      if j = squadKey l.blk l.sq then (tget u.squads j).map fun t => xs.foldl (fun t x => q x t) t else tget u.squads j) ∧
    (xs.foldl (fun s x => fx x s) u =
      { u with threads := (xs.foldl (fun s x => fx x s) u).threads, squads := (xs.foldl (fun s x => fx x s) u).squads,
               accs := (xs.foldl (fun s x => fx x s) u).accs }) ∧
    (xs.foldl (fun s x => fx x s) u).accs.map Access.noDests = u.accs.map Access.noDests := by
  induction xs generalizing u with
  | nil => exact ⟨by simp, by simp, fun j => by simp, rfl, rfl⟩
  | cons b xs ih =>
    have hb := h b (List.mem_cons_self ..)
    have hn := List.nodup_cons.mp hn
    have hub := hu b (List.mem_cons_self ..)
    have ih := ih hn.2 (fun c hc => h c (List.mem_cons_of_mem _ hc)) (fx b u) fun c hc => by
      have := hb.thr_keeps u (l.key c)
      have hc := hu c (List.mem_cons_of_mem _ hc)
      exact ⟨this.1.trans hc.1, this.2.trans hc.2⟩
    simp only [List.foldl_cons]
    obtain ⟨i1, i2, i3, i4, i5⟩ := ih
    refine ⟨fun x hx => ?_, fun j hj => ?_, fun j => ?_, ?_, ?_⟩
    · rcases List.mem_cons.mp hx with rfl | hx'
      · rw [i2 _ (fun y hy he => hn.1 (by rw [Latch.key_inj he]; exact hy)), hb.threads, if_pos rfl]
      · rw [i1 x hx', hb.threads, if_neg]
        intro he
        exact hn.1 (Latch.key_inj he ▸ hx')
    · rw [i2 j (fun x hx => hj x (List.mem_cons_of_mem _ hx)), hb.threads, if_neg (hj b (List.mem_cons_self ..))]
    · rw [i3 j, hb.squads u hub.1 hub.2]
      split
      · cases tget u.squads j <;> rfl
      · rfl
    · rw [i4, hb.rest]
    · rw [i5, hb.accs]

/-- An instruction each of whose lanes acts on its own thread and on its squad. -/
theorem State.execGroup_squad {s : State} {l : Latch} (hi : s.issues l) (hq : (tget s.squads (squadKey l.blk l.sq)).isSome = true)
    (body : Lane → LaneOut) (g : Nat → Thread → Thread) (q : Nat → Squad → Squad)
    (hp : ∃ x ∈ l.lanesOf, (body (s.laneAt l x)).proceeds = true)
    (h : ∀ x ∈ l.lanesOf, SquadFx l x (fun u => u.applyLane (l.key x) l.pc l.next (body (s.laneAt l x))) (g x) (q x)) :
    s.groupFrame (s.execGroup body) l ∧ s.squadFrame (s.execGroup body) l ∧
    (let q' := l.lanesOf.foldl (fun t x => q x t) (s.squad l.blk l.sq)
     ((s.execGroup body).squad l.blk l.sq).s = q'.s ∧ ((s.execGroup body).squad l.blk l.sq).j = q'.j) ∧
    ∀ x ∈ l.lanesOf, (s.execGroup body).thr (l.key x) = g x (s.thr (l.key x)) := by
  obtain ⟨hl, hr, _, hth⟩ := hi
  have hany : ((s.outcomes l body).any fun o => o.2.2.proceeds) = true := by
    obtain ⟨x, hx, hxp⟩ := hp
    simp only [State.outcomes, List.any_map, List.any_eq_true]
    exact ⟨x, hx, hxp⟩
  have hfold : ∀ u : State, (s.outcomes l body).foldl (fun s o => s.applyLane o.2.1 l.pc (nextPc l.pc l.len) o.2.2) u =
      l.lanesOf.foldl (fun u x => u.applyLane (l.key x) l.pc l.next (body (s.laneAt l x))) u := by
    intro u
    simp only [State.outcomes, List.foldl_map]
    rfl
  have hA := SquadFx.fold (fun x u => u.applyLane (l.key x) l.pc l.next (body (s.laneAt l x))) g q l.lanesOf l.lanesOf_nodup h s
    fun x hx => ⟨(hth x hx).2.1, (hth x hx).2.2.1⟩
  have he : s.execGroup body = (l.lanesOf.foldl (fun u x => u.applyLane (l.key x) l.pc l.next (body (s.laneAt l x))) s).endIssue l
      (((s.outcomes l body).filter fun o => o.2.2.goes).map fun o => (o.1, o.2.1)) (nextPc l.pc l.len) := by
    simp only [State.execGroup, State.execThen, State.execFall, hl, hr, hany, if_true, ← hfold]
    rfl
  obtain ⟨a1, a2, a3, a4, a5⟩ := hA
  rw [he]
  generalize l.lanesOf.foldl (fun u x => u.applyLane (l.key x) l.pc l.next (body (s.laneAt l x))) s = u at *
  have hsq : ∀ b n, u.squad b n = if squadKey b n = squadKey l.blk l.sq then l.lanesOf.foldl (fun t x => q x t) (s.squad b n)
      else s.squad b n := by
    intro b n
    simp only [State.squad, tgetD, a3]
    split
    · rename_i hk
      obtain ⟨v, hv⟩ := Option.isSome_iff_exists.mp hq
      rw [hk, hv]; rfl
    · rfl
  have hend := State.endIssue_squads u l (((s.outcomes l body).filter fun o => o.2.2.goes).map fun o => (o.1, o.2.1)) (nextPc l.pc l.len)
  refine ⟨⟨?_, ?_, ?_, fun k hk => ?_, fun c hc => ?_⟩, fun b n hk => ?_, ?_, fun x hx => ?_⟩
  · have h1 := State.endIssue_onlyGroup u l (((s.outcomes l body).filter fun o => o.2.2.goes).map fun o => (o.1, o.2.1)) (nextPc l.pc l.len)
    simp only [State.onlyGroup] at h1 ⊢
    rw [h1, a4]
  · rw [State.endIssue_blocks, a4]
  · rw [State.sameAccs, State.endIssue_accs, a5]
  · simp only [State.thr, State.endIssue_threads, tgetD]
    rw [a2 k hk]
  · rw [State.endIssue_core _ _ _ _ _ hc, a4]; rfl
  · rw [(hend b n).1, (hend b n).2, hsq, if_neg hk]
    exact ⟨rfl, rfl⟩
  · rw [(hend l.blk l.sq).1, (hend l.blk l.sq).2, hsq, if_pos rfl]
    exact ⟨rfl, rfl⟩
  · obtain ⟨v, hv⟩ := Option.isSome_iff_exists.mp (hth x hx).1
    simp only [State.thr, tgetD, State.endIssue_threads, a1 x hx, hv, Option.map_some, Option.getD_some]

/-- An instruction under a guard whose executing lanes act on their own threads and on their squad. -/
theorem State.execGuarded_squad {s : State} {l : Latch} (hi : s.issues l) (hq : (tget s.squads (squadKey l.blk l.sq)).isSome = true)
    {g : BitVec 3} {n : Bool} (hg : s.guardsKnown l g) (body : Lane → LaneOut) (fx : Nat → Thread → Thread) (q : Nat → Squad → Squad)
    (h : ∀ x ∈ l.lanesOf, s.laneOn l x g n →
      (body (s.laneAt l x)).proceeds = true ∧ SquadFx l x (fun u => u.applyLane (l.key x) l.pc l.next (body (s.laneAt l x))) (fx x) (q x)) :
    s.groupFrame (s.execGroup (guarded g n body)) l ∧ s.squadFrame (s.execGroup (guarded g n body)) l ∧
    (let q' := (l.lanesOf.filter fun x => decide (s.laneOn l x g n)).foldl (fun t x => q x t) (s.squad l.blk l.sq)
     ((s.execGroup (guarded g n body)).squad l.blk l.sq).s = q'.s ∧ ((s.execGroup (guarded g n body)).squad l.blk l.sq).j = q'.j) ∧
    ∀ x ∈ l.lanesOf, (s.execGroup (guarded g n body)).thr (l.key x) =
      if s.laneOn l x g n then fx x (s.thr (l.key x)) else { s.thr (l.key x) with pc := l.next, stepOver := none } := by
  have hout : ∀ x ∈ l.lanesOf, guarded g n body (s.laneAt l x) =
      if s.laneOn l x g n then body (s.laneAt l x) else .done id l.next := by
    intro x hx
    have := hg x hx
    simp only [guarded]
    rw [if_neg (by simpa [State.laneAt] using this)]
    by_cases hon : s.laneOn l x g n
    · rw [if_pos hon]; exact if_pos hon
    · rw [if_neg hon]; exact if_neg hon
  have main := State.execGroup_squad hi hq (guarded g n body)
    (fun x t => if s.laneOn l x g n then fx x t else { t with pc := l.next, stepOver := none })
    (fun x t => if s.laneOn l x g n then q x t else t) ?_ ?_
  · refine ⟨main.1, main.2.1, ?_, main.2.2.2⟩
    have := main.2.2.1
    simp only [List.foldl_filter, decide_eq_true_eq]
    exact this
  · obtain ⟨x, hx⟩ := List.exists_mem_of_ne_nil _ hi.2.2.1
    refine ⟨x, hx, ?_⟩
    rw [hout x hx]
    split
    · rename_i hon; exact (h x hx hon).1
    · rfl
  · intro x hx
    rw [hout x hx]
    by_cases hon : s.laneOn l x g n
    · simp only [if_pos hon]; exact (h x hx hon).2
    · simp only [if_neg hon]
      exact ((LocalFx.id (l.key x)).next l.pc l.next).onSquad fun _ => ⟨rfl, rfl⟩

/-! ## Effects followed by a settlement -/

/-- The state after the effects of every lane. -/
def State.lanesDone (s : State) (l : Latch) (body : Lane → LaneOut) : State :=
  l.lanesOf.foldl (fun u x => u.applyLane (l.key x) l.pc l.next (body (s.laneAt l x))) s

/-- The lanes that went on. -/
def State.lanesWent (s : State) (l : Latch) (body : Lane → LaneOut) : List (Nat × Nat) :=
  ((s.outcomes l body).filter fun o => o.2.2.goes).map fun o => (o.1, o.2.1)

/-- An issue group that executes: the effects of its lanes, what follows them, and the end of the issue. -/
theorem State.execThen_eq {s : State} {l : Latch} (hi : s.issues l) (body : Lane → LaneOut) (post : Latch → State → State)
    (hp : ∃ x ∈ l.lanesOf, (body (s.laneAt l x)).proceeds = true) :
    s.execThen body post = (post l (s.lanesDone l body)).endIssue l (s.lanesWent l body) (nextPc l.pc l.len) := by
  obtain ⟨hl, hr, _, _⟩ := hi
  have hany : ((s.outcomes l body).any fun o => o.2.2.proceeds) = true := by
    obtain ⟨x, hx, hxp⟩ := hp
    simp only [State.outcomes, List.any_map, List.any_eq_true]
    exact ⟨x, hx, hxp⟩
  have hfold : (s.outcomes l body).foldl (fun s o => s.applyLane o.2.1 l.pc (nextPc l.pc l.len) o.2.2) s = s.lanesDone l body := by
    simp only [State.outcomes, List.foldl_map, State.lanesDone]
    rfl
  simp only [State.execThen, State.execFall, hl, hr, hany, if_true, hfold]
  rfl

/-- The outcome of a lane under a guard that is known. -/
theorem guarded_eq {s : State} {l : Latch} {x : Nat} {g : BitVec 3} {n : Bool} (hg : s.pendingPred (l.key x) g.toNat = false)
    (body : Lane → LaneOut) :
    guarded g n body (s.laneAt l x) = if s.laneOn l x g n then body (s.laneAt l x) else .done id l.next := by
  simp only [guarded]
  rw [if_neg (by simpa [State.laneAt] using hg)]
  by_cases hon : s.laneOn l x g n
  · rw [if_pos hon]; exact if_pos hon
  · rw [if_neg hon]; exact if_neg hon

/-- Threads of a state after lanes that act on their threads and their squad. -/
theorem State.lanesDone_squad {s : State} {l : Latch} (hi : s.issues l) (body : Lane → LaneOut) (g : Nat → Thread → Thread)
    (q : Nat → Squad → Squad)
    (h : ∀ x ∈ l.lanesOf, SquadFx l x (fun u => u.applyLane (l.key x) l.pc l.next (body (s.laneAt l x))) (g x) (q x)) :
    let u := s.lanesDone l body
    u = { s with threads := u.threads, squads := u.squads, accs := u.accs } ∧ s.sameAccs u ∧
    (∀ x ∈ l.lanesOf, u.thr (l.key x) = g x (s.thr (l.key x))) ∧
    (∀ k, (∀ x ∈ l.lanesOf, k ≠ l.key x) → tget u.threads k = tget s.threads k) ∧
    (∀ k, (tget u.threads k).isSome = (tget s.threads k).isSome) ∧
    ∀ j, tget u.squads j = if j = squadKey l.blk l.sq then (tget s.squads j).map fun t => l.lanesOf.foldl (fun t x => q x t) t
      else tget s.squads j := by
  obtain ⟨hl, hr, _, hth⟩ := hi
  obtain ⟨a1, a2, a3, a4, a5⟩ := SquadFx.fold (fun x u => u.applyLane (l.key x) l.pc l.next (body (s.laneAt l x))) g q l.lanesOf l.lanesOf_nodup h s
    fun x hx => ⟨(hth x hx).2.1, (hth x hx).2.2.1⟩
  refine ⟨a4, a5, fun x hx => ?_, a2, fun k => ?_, a3⟩
  · obtain ⟨v, hv⟩ := Option.isSome_iff_exists.mp (hth x hx).1
    have := a1 x hx
    simp only [State.thr, tgetD, State.lanesDone, this, hv, Option.map_some, Option.getD_some]
  · by_cases hk : ∃ x ∈ l.lanesOf, k = l.key x
    · obtain ⟨x, hx, rfl⟩ := hk
      simp only [State.lanesDone]
      rw [a1 x hx]
      cases tget s.threads (l.key x) <;> rfl
    · have := a2 k fun x hx he => hk ⟨x, hx, he⟩
      simp only [State.lanesDone]
      rw [this]

end Sys2Proof.Machine
end

