-- ==== Sys2Proof/Laws/Values.lean ====
section
/-! SUPPORT. Sub-elements of a register put together and read back, and the bits of small numbers. -/

namespace Sys2Proof.Machine

theorem join_succ (w n : Nat) (f : Nat → Nat) : join w (n + 1) f = join w n f + f n % 2 ^ w * 2 ^ (w * n) := by
  simp [join, List.range_succ]

theorem join_lt (w n : Nat) (f : Nat → Nat) : join w n f < 2 ^ (w * n) := by
  induction n with
  | zero => simp [join]
  | succ n ih =>
    rw [join_succ, Nat.mul_succ, Nat.pow_add]
    have h1 : f n % 2 ^ w < 2 ^ w := Nat.mod_lt _ (Nat.two_pow_pos w)
    have h2 : f n % 2 ^ w * 2 ^ (w * n) + 2 ^ (w * n) ≤ 2 ^ (w * n) * 2 ^ w := by
      have := Nat.mul_le_mul_right (2 ^ (w * n)) h1
      rw [Nat.succ_mul] at this
      rw [Nat.mul_comm (2 ^ (w * n))]; exact this
    omega

/-- A sub-element of sub-elements put together. -/
theorem elem_join {w n k : Nat} (f : Nat → Nat) (h : k < n) : elem (join w n f) w k = f k % 2 ^ w := by
  induction n with
  | zero => omega
  | succ n ih =>
    rw [join_succ]
    have hp := Nat.two_pow_pos (w * k)
    by_cases hk : k = n
    · subst hk
      simp only [elem]
      rw [Nat.add_mul_div_right _ _ hp, Nat.div_eq_of_lt (join_lt w k f), Nat.zero_add, Nat.mod_mod]
    · have hlt : k < n := by omega
      rw [← ih hlt]
      simp only [elem]
      obtain ⟨d, hd⟩ := Nat.exists_eq_add_of_lt hlt
      have e : 2 ^ (w * n) = 2 ^ (w * d) * 2 ^ w * 2 ^ (w * k) := by
        rw [hd, ← Nat.pow_add, ← Nat.pow_add]
        congr 1
        rw [Nat.mul_add, Nat.mul_add]; omega
      rw [e, ← Nat.mul_assoc, ← Nat.mul_assoc, Nat.add_mul_div_right _ _ hp, Nat.add_mul_mod_self_right]

/-- A sub-element of a register of sub-elements. -/
theorem elem_elements {w k : Nat} (f : Nat → Nat) (h : k < 64 / w) : elem (elements w f).toNat w k = f k % 2 ^ w := by
  have hw : w * (64 / w) ≤ 64 := Nat.mul_div_le 64 w
  have := join_lt w (64 / w) f
  have hle : 2 ^ (w * (64 / w)) ≤ 2 ^ 64 := Nat.pow_le_pow_right (by decide) hw
  simp only [elements, BitVec.toNat_ofNat]
  rw [Nat.mod_eq_of_lt (by omega), elem_join f h]

theorem elem_lt (x w k : Nat) : elem x w k < 2 ^ w := Nat.mod_lt _ (Nat.two_pow_pos w)

theorem bit_eq_testBit (x i : Nat) : bit x i = x.testBit i := by
  simp [bit, Nat.testBit_eq_decide_div_mod_eq]

theorem wrapInt_lt (v : Int) (n : Nat) : wrapInt v n < 2 ^ n := by
  have h : (0 : Int) < ((2 ^ n : Nat) : Int) := by exact_mod_cast Nat.two_pow_pos n
  have h1 := Int.emod_lt_of_pos v h
  have h2 := Int.emod_nonneg v (by omega : ((2 ^ n : Nat) : Int) ≠ 0)
  simp only [wrapInt]
  omega

theorem wrapInt_cast (v : Int) (n : Nat) : ((wrapInt v n : Nat) : Int) = v % ((2 ^ n : Nat) : Int) := by
  have h2 := Int.emod_nonneg v (by have := Nat.two_pow_pos n; omega : ((2 ^ n : Nat) : Int) ≠ 0)
  simp only [wrapInt]
  omega

/-! ## PCs -/

theorem bundleOf_toNat (pc : Word) : (bundleOf pc).toNat = pc.toNat / 64 * 64 := by
  unfold bundleOf
  rw [BitVec.toNat_and]
  have h : (~~~63#64 : BitVec 64).toNat = 2^64 - 64 := by decide
  rw [h]
  have hp := pc.isLt
  apply Nat.eq_of_testBit_eq
  intro i
  rw [Nat.testBit_and]
  have e : pc.toNat / 64 * 64 = (pc.toNat >>> 6) <<< 6 := by rw [Nat.shiftLeft_eq, Nat.shiftRight_eq_div_pow]
  have e2 : 2^64 - 64 = (2^58 - 1) <<< 6 := by decide
  rw [e, e2, Nat.testBit_shiftLeft, Nat.testBit_shiftLeft, Nat.testBit_shiftRight, Nat.testBit_two_pow_sub_one]
  by_cases hi : 6 ≤ i
  · have : 6 + (i - 6) = i := by omega
    simp only [hi, decide_true, Bool.true_and, this]
    by_cases h2 : i - 6 < 58
    · simp [h2]
    · have : pc.toNat.testBit i = false := Nat.testBit_lt_two_pow (Nat.lt_of_lt_of_le hp (Nat.pow_le_pow_right (by decide) (by omega)))
      simp [this]
  · simp [hi]

theorem bundleOf_eq (pc : Word) : pc - BitVec.ofNat 64 (pc.toNat % 64) = bundleOf pc := by
  apply BitVec.eq_of_toNat_eq
  rw [bundleOf_toNat, BitVec.toNat_sub, BitVec.toNat_ofNat]
  have := pc.isLt
  omega

end Sys2Proof.Machine
end

