-- ==== Sys2Proof/Laws/Control.lean ====
section
/-! SUPPORT. What the checks of the control-flow instructions let through, and the parts of their effects. -/

namespace Sys2Proof.Machine

theorem slot_setSlot (c : Core) (i : Nat) (r : Option Run) : (c.setSlot i r).slot i = r := by
  unfold Core.setSlot Core.slot; split <;> simp_all

theorem runAfter_count {s : State} {l : Latch} {r r' : Run} {went : List (Nat × Nat)} {pc : Word} (h : s.runAfter l r went pc = some r') : r'.count = r.count + 1 := by
  unfold State.runAfter at h
  rw [Option.ite_none_left_eq_some] at h
  have := Option.some.inj h.2
  rw [← this]

/-- An issue is one instruction of its run. -/
theorem endIssue_count {s : State} {l : Latch} {r r' : Run} {went : List (Nat × Nat)} {pc : Word} (h : (s.core l.core).slot l.slot = some r)
   (h' : ((s.endIssue l went pc).core l.core).slot l.slot = some r') : r'.count = r.count + 1 := by
  have hc : ((s.modBlock l.blk fun b => { b with bySwap := false }).core l.core).slot l.slot = some r := h
  unfold State.endIssue at h'
  simp only [hc] at h'
  generalize hu : State.runAfter _ l r went pc = ra at h'
  have : ra = some r' := by
    have e : ∀ u : State, u.cores = tset (s.modBlock l.blk fun b => { b with bySwap := false }).cores l.core
       ((((s.modBlock l.blk fun b => { b with bySwap := false }).core l.core).setSlot l.slot ra).hasIssued l.blk l.sq) → (u.core l.core).slot l.slot = ra := by
      intro u hu
      simp only [State.core, hu, tgetD_tset_same]
      exact slot_setSlot _ l.slot ra
    rw [← h']
    symm
    split
    · exact e _ rfl
    · exact e _ rfl
  subst this
  exact runAfter_count hu

theorem pointer_global {b : Block} {rank : Nat} {p : Word} (h : p.toNat < 2 ^ 56) : pointer b rank .globalOnly p 0 0 = .ok (.global p.toNat) := by
  have h1 : p.toNat / 2 ^ 60 = 0 := by omega
  have h2 : bits p.toNat 59 56 = 0 := by simp only [bits]; omega
  have h3 : bits p.toNat 55 0 = p.toNat := by simp only [bits]; omega
  unfold pointer
  simp only [h1, h2, h3]
  simp [Accept.takes]

/-- The checks of an indirect target pass a good one. -/
theorem goodTarget_go {s : State} {l : Latch} {x : Nat} {w : AluWord} (h : s.goodTarget l x w) (go : LaneOut) :
    (s.laneAt l x).checked [targetOperand w] ((s.laneAt l x).checkTarget w (s.targetAt l x w) go) = go := by
  obtain ⟨⟨h1, h2⟩, h3, h4, h5⟩ := h
  have hb : firstBounds [targetOperand w] (s.laneAt l x).block.allot = none := h1
  have ho : (s.laneAt l x).s.operandsReady (s.laneAt l x).k [targetOperand w] = true := h2
  simp only [Lane.checked, hb, ho, if_true, Lane.checkTarget, pointer_global h3]
  rw [if_neg (by simpa using h4)]
  by_cases hc : bit w.b.toNat 8 = true
  · have hc' : w.b.getLsbD 8 = true := by simpa [bit_eq_testBit, BitVec.getLsbD] using hc
    obtain ⟨ws, hw, hp⟩ := h5 hc'
    have hw' : (s.laneAt l x).s.fetchBundle (s.laneAt l x).block.ctx (s.targetAt l x w).toNat (coreDie ((s.laneAt l x).s.thrCore (s.laneAt l x).t)) = .words ws := hw
    simp only [hc, if_true, Lane.fetchCheck, hw', hp]
  · simp [hc]

/-- A guard under which a false lane goes to the bundle after a call. -/
theorem execCall_local {s : State} {l : Latch} (hi : s.issues l) {g : BitVec 3} {n : Bool} (hg : s.guardsKnown l g)
    (body : Lane → LaneOut) (fx : Nat → Thread → Thread)
    (h : ∀ x ∈ l.lanesOf, s.laneOn l x g n →
      (body (s.laneAt l x)).proceeds = true ∧ LocalFx (l.key x) (fun u => u.applyLane (l.key x) l.pc l.next (body (s.laneAt l x))) (fx x)) :
    s.groupFrame (s.callGroup (callGuarded g n body)) l ∧ s.sameSquads (s.callGroup (callGuarded g n body)) ∧
    ∀ x ∈ l.lanesOf, (s.callGroup (callGuarded g n body)).thr (l.key x) =
      if s.laneOn l x g n then fx x (s.thr (l.key x)) else (s.thr (l.key x)).goTo l.next (enter (afterCall l.pc)) := by
  have m := State.execFall_all (fun l => enter (afterCall l.pc)) hi (callGuarded g n body) (fun x t => if s.laneOn l x g n then fx x t else t.goTo l.next (enter (afterCall l.pc)))
    (fun x hx => by
      have hp := hg x hx
      by_cases hon : s.laneOn l x g n
      · simp only [if_pos hon]
        refine LaneOut.local_of_eq ?_ (h x hx hon)
        simp only [callGuarded]
        rw [if_neg (by simpa [State.laneAt] using hp)]
        exact if_pos hon
      · simp only [if_neg hon]
        refine LaneOut.local_of_eq ?_ (LaneOut.done_local id _ (enter (afterCall l.pc)) (LocalFx.id _))
        simp only [callGuarded]
        rw [if_neg (by simpa [State.laneAt] using hp)]
        exact if_neg hon)
  exact m

/-- A call below the limit of the link stack. -/
theorem callTo_local {s : State} {l : Latch} {x : Nat} {t : Word} (h : (s.thr (l.key x)).cdepth < 16) :
   ((s.laneAt l x).callTo t).proceeds = true ∧ LocalFx (l.key x) (fun u => u.applyLane (l.key x) l.pc l.next ((s.laneAt l x).callTo t))
     (fun u => (u.pushLink l.pc).goTo l.next (enter t)) := by
  refine LaneOut.local_of_eq (o' := .done (fun s => s.modThr (l.key x) fun x => x.pushLink l.pc) (enter t)) ?_ (LaneOut.done_local _ _ _ (LocalFx.modThr _ _))
  have : ¬ 16 ≤ (s.laneAt l x).t.cdepth := by simpa [State.laneAt] using h
  simp only [Lane.callTo, if_neg this]
  rfl

/-- A fetch that finds the bundle. -/
theorem fetchCheck_eq {s : State} {l : Latch} {x va : Nat} {ws : List Nat} (h : s.codeAt l x va ws) (go : List Nat → LaneOut) :
    (s.laneAt l x).fetchCheck va go = go ws := by
  have hw' : (s.laneAt l x).s.fetchBundle (s.laneAt l x).block.ctx va (coreDie ((s.laneAt l x).s.thrCore (s.laneAt l x).t)) = .words ws := h
  simp only [Lane.fetchCheck, hw']

/-- Operands that fit pass the checks. -/
theorem checked_ok {s : State} {l : Latch} {x : Nat} {os : List Operand} (h : s.operandsFit l x os) (go : LaneOut) :
    (s.laneAt l x).checked os go = go := by
  have hb : firstBounds os (s.laneAt l x).block.allot = none := h.1
  have ho : (s.laneAt l x).s.operandsReady (s.laneAt l x).k os = true := h.2
  simp only [Lane.checked, hb, ho, if_true]

/-- The registers that a checkpoint keeps. -/
theorem checkpoint_vals (mask base : Nat) (u : Thread) (n i : Nat) (hi : i < n) (hm : bit mask i = true) (v0 : Table Word) :
   sget 0 ((List.range n).foldl (fun v i => if bit mask i then sset 0 v i (u.readV (base + i)) else v) v0) i = u.readV (base + i) := by
  induction n with
  | zero => omega
  | succ n ih =>
    rw [List.range_succ, List.foldl_append]
    simp only [List.foldl_cons, List.foldl_nil]
    by_cases h : i = n
    · subst h; rw [if_pos hm, sget_sset_same]
    · split
      · rw [sget_sset_ne _ _ _ _ _ h]; exact ih (by omega)
      · exact ih (by omega)

theorem fpmode_ok {v : Nat} (hv : v < 512) (h0 : v % 8 ≠ 0) (h7 : v % 8 ≠ 7) : fpmodeBad v = none := by
  unfold fpmodeBad
  rw [if_neg (by omega)]
  rw [List.find?_eq_none]
  intro i hi
  by_cases h9 : 9 ≤ i
  · have : bit v i = false := by
      rw [bit_eq_testBit]
      exact Nat.testBit_lt_two_pow (Nat.lt_of_lt_of_le hv (Nat.pow_le_pow_right (n := 2) (i := 9) (by decide) h9))
    simp [this]
  · simp [h9]

/-- REGION follows, so the check of R426 passes. -/
theorem regionFollows_eq {s : State} {l : Latch} {x : Nat} (h : s.regionNext l x) (go : LaneOut) :
    (s.laneAt l x).regionFollows go = go := by
  obtain ⟨he, hf⟩ := h
  have he' : (s.laneAt l x).latch.eor = false := he
  simp only [Lane.regionFollows, he']
  have e : (s.laneAt l x).latch.follow = l.follow := rfl
  rw [e]
  cases hfo : l.follow with
  | some v => rw [hfo] at hf; simp [hf]
  | none =>
    rw [hfo] at hf
    obtain ⟨ws, hw, hr⟩ := hf
    have := fetchCheck_eq hw fun ws => if isRegionWord (ws.getD 1 0) = true then go else LaneOut.fault (regionOrder l.next 0)
    exact this.trans (by simp only [hr, if_true])

end Sys2Proof.Machine
end

