-- ==== Sys2Proof/Laws/Memory.lean ====
section
/-! SUPPORT. Memory: reading after writing, and its canonical form kept by every operation that changes it. -/

namespace Sys2Proof.Machine

theorem readByte_writeByte_same (m : Memory) (k : Nat) (v : Byte) : readByte (writeByte m k v) k = v := sget_sset_same ..

theorem readByte_writeByte_ne (m : Memory) (k j : Nat) (v : Byte) (h : j ≠ k) : readByte (writeByte m k v) j = readByte m j :=
  sget_sset_ne _ _ _ _ _ h

theorem writeByte_wf {m : Memory} (k : Nat) (v : Byte) (h : Memory.wf m = true) : Memory.wf (writeByte m k v) = true :=
  sparseWf_sset k v h

theorem writeBytes_wf (n : Nat) : ∀ {m : Memory} (k v : Nat), Memory.wf m = true → Memory.wf (writeBytes m k n v) = true := by
  induction n with
  | zero => intro m k v h; exact h
  | succ n ih => intro m k v h; exact ih _ _ (writeByte_wf _ _ h)

theorem clearBytes_wf {m : Memory} (k n : Nat) (h : Memory.wf m = true) : Memory.wf (clearBytes m k n) = true := sparseWf_filter _ h

theorem filter_wf {m : Memory} (p : Nat × Byte → Bool) (h : Memory.wf m = true) : Memory.wf (m.filter p) = true := sparseWf_filter _ h

/-- Bytes outside those written are unchanged. -/
theorem readByte_writeBytes_out (n : Nat) : ∀ (m : Memory) (k v j : Nat), j < k ∨ k + n ≤ j →
    readByte (writeBytes m k n v) j = readByte m j := by
  induction n with
  | zero => intro m k v j _; rfl
  | succ n ih =>
    intro m k v j h
    rw [writeBytes, ih _ _ _ _ (by omega), readByte_writeByte_ne _ _ _ _ (by omega)]

/-- Byte `i` of those written is byte `i` of the value. -/
theorem readByte_writeBytes_in (n : Nat) : ∀ (m : Memory) (k v i : Nat), i < n →
    readByte (writeBytes m k n v) (k + i) = BitVec.ofNat 8 (v / 256 ^ i) := by
  induction n with
  | zero => intro m k v i h; omega
  | succ n ih =>
    intro m k v i h
    cases i with
    | zero => rw [writeBytes, readByte_writeBytes_out _ _ _ _ _ (by omega), Nat.add_zero, readByte_writeByte_same]; simp
    | succ i =>
      rw [writeBytes, show k + (i + 1) = (k + 1) + i by omega, ih _ _ _ _ (by omega), Nat.div_div_eq_div_mul, Nat.pow_succ, Nat.mul_comm]

/-- Reading back what was written. -/
theorem readBytes_writeBytes (n : Nat) : ∀ (m : Memory) (k v : Nat), v < 256 ^ n → readBytes (writeBytes m k n v) k n = v := by
  have key : ∀ (n : Nat) (m : Memory) (k : Nat) (f : Nat → Nat), (∀ i, i < n → (readByte m (k + i)).toNat = f i % 256) →
      ∀ v, (∀ i, i < n → f i % 256 = v / 256 ^ i % 256) → v < 256 ^ n → readBytes m k n = v := by
    intro n
    induction n with
    | zero => intro m k f _ v _ hv; simp at hv; subst hv; rfl
    | succ n ih =>
      intro m k f h v hf hv
      have h0 := h 0 (by omega)
      have hf0 := hf 0 (by omega)
      simp only [Nat.add_zero, Nat.pow_zero, Nat.div_one] at h0 hf0
      have hrest := ih m (k + 1) (fun i => f (i + 1))
        (fun i hi => by have := h (i + 1) (by omega); rwa [show k + (i + 1) = k + 1 + i by omega] at this)
        (v / 256)
        (fun i hi => by rw [hf (i + 1) (by omega), Nat.div_div_eq_div_mul, Nat.pow_succ, Nat.mul_comm])
        (by rw [Nat.pow_succ] at hv; exact Nat.div_lt_of_lt_mul (by omega))
      rw [readBytes, hrest, h0, hf0]
      omega
  intro m k v hv
  refine key n _ k (fun i => v / 256 ^ i) (fun i hi => ?_) v (fun i _ => rfl) hv
  rw [readByte_writeBytes_in n m k v i hi]
  simp

/-- Clearing makes the bytes zero. -/
theorem readByte_clearBytes_in (m : Memory) (k n j : Nat) (h : k ≤ j ∧ j < k + n) : readByte (clearBytes m k n) j = 0 := by
  have : ∀ t : Memory, tget (t.filter fun e => decide (e.1 < k ∨ k + n ≤ e.1)) j = none := by
    intro t
    induction t with
    | nil => rfl
    | cons e t ih =>
      obtain ⟨k', v⟩ := e
      by_cases h1 : k' < k ∨ k + n ≤ k'
      · rw [List.filter_cons_of_pos (by simpa using h1)]; simp only [tget]; rw [if_neg (by omega), ih]
      · rw [List.filter_cons_of_neg (by simpa using h1)]; exact ih
  simp only [readByte, sget, tgetD, clearBytes, this]; rfl

/-- Clearing leaves the other bytes. -/
theorem readByte_clearBytes_out (m : Memory) (k n j : Nat) (h : j < k ∨ k + n ≤ j) : readByte (clearBytes m k n) j = readByte m j := by
  have : ∀ t : Memory, tget (t.filter fun e => decide (e.1 < k ∨ k + n ≤ e.1)) j = tget t j := by
    intro t
    induction t with
    | nil => rfl
    | cons e t ih =>
      obtain ⟨k', v⟩ := e
      by_cases h1 : k' < k ∨ k + n ≤ k'
      · rw [List.filter_cons_of_pos (by simpa using h1)]; simp only [tget]; rw [ih]
      · rw [List.filter_cons_of_neg (by simpa using h1)]; simp only [tget]; rw [if_neg (by omega), ih]
  simp only [readByte, sget, tgetD, clearBytes, this]

end Sys2Proof.Machine
end

