-- ==== Sys2Proof/Laws/Frame.lean ====
section
/-! SUPPORT. Frames: what a frame reads as after another has been copied into it, and the canonical form kept. -/

namespace Sys2Proof.Machine

theorem readByte_filter (p : Nat → Bool) (m : Memory) (k : Nat) :
    readByte (m.filter fun e => p e.1) k = if p k = true then readByte m k else 0 := by
  have h : tget (m.filter fun e => p e.1) k = if p k = true then tget m k else none := by
    induction m with
    | nil => simp [tget]
    | cons e m ih =>
      by_cases hp : p e.1 = true
      · simp only [List.filter_cons, hp, if_true]
        by_cases he : e.1 = k
        · subst he; simp [tget, hp]
        · simp only [tget, he, if_false, ih]
      · simp only [List.filter_cons, hp, if_false, ih, Bool.false_eq_true]
        by_cases he : e.1 = k
        · subst he; simp [hp]
        · simp [tget, he]
  simp only [readByte, sget, tgetD, h]
  split <;> rfl

/-- The frame `dst` reads as `src` did, and every other place as before. -/
theorem readByte_copyFrameBytes (m : Memory) (src dst k : Nat) :
    readByte (copyFrameBytes m src dst) k = if k / 65536 = dst then readByte m (src * 65536 + k % 65536) else readByte m k := by
  have key : ∀ l : Memory, (∀ e ∈ l, e.1 / 65536 = src) → ∀ b : Memory,
      readByte (l.foldr (fun e m => writeByte m (dst * 65536 + e.1 % 65536) e.2) b) k =
        if k / 65536 = dst then (match tget l (src * 65536 + k % 65536) with | some v => v | none => readByte b k) else readByte b k := by
    intro l
    induction l with
    | nil => intro _ b; simp [tget]
    | cons e l ih =>
      intro hl b
      have he := hl e (by simp)
      by_cases hk : k = dst * 65536 + e.1 % 65536
      · have h1 : k / 65536 = dst := by omega
        have h2 : e.1 = src * 65536 + k % 65536 := by omega
        rw [List.foldr_cons, if_pos h1, tget, if_pos h2, ← hk]
        exact readByte_writeByte_same ..
      · rw [List.foldr_cons, readByte_writeByte_ne _ _ _ _ hk, ih (fun x hx => hl x (by simp [hx]))]
        by_cases hd : k / 65536 = dst
        · simp only [if_pos hd]
          rw [tget, if_neg (by omega)]
        · simp only [if_neg hd]
  have hsrc := key (m.filter fun e => e.1 / 65536 == src) (fun e he => by simpa using (List.mem_filter.1 he).2) (m.filter fun e => e.1 / 65536 != dst)
  rw [copyFrameBytes, hsrc, readByte_filter (fun x => x / 65536 != dst)]
  by_cases hd : k / 65536 = dst
  · simp only [if_pos hd]
    have h := readByte_filter (fun x => x / 65536 == src) m (src * 65536 + k % 65536)
    rw [if_pos (by simp; omega)] at h
    simp only [readByte, sget, tgetD] at h
    simp only [readByte, sget, tgetD, ← h]
    cases tget (m.filter fun e => e.1 / 65536 == src) (src * 65536 + k % 65536) <;> simp [hd]
  · simp [hd]

theorem copyFrameBytes_wf {m : Memory} (src dst : Nat) (h : Memory.wf m = true) : Memory.wf (copyFrameBytes m src dst) = true := by
  have key : ∀ (l b : Memory), Memory.wf b = true →
      Memory.wf (l.foldr (fun e m => writeByte m (dst * 65536 + e.1 % 65536) e.2) b) = true := by
    intro l
    induction l with
    | nil => intro b hb; exact hb
    | cons e l ih => intro b hb; exact writeByte_wf _ _ (ih b hb)
  exact key _ _ (filter_wf _ h)

/-- A copy of a frame changes memory and poison alone. -/
theorem copyFrame_eq (s : State) (src dst : Nat) :
    s.copyFrame src dst = { s with mem := copyFrameBytes s.mem src dst, poison := (s.copyFrame src dst).poison } := rfl

end Sys2Proof.Machine
end

