-- ==== Sys2Proof/Laws/Register.lean ====
section
/-! SUPPORT. The instructions that write one register or one predicate: each is its form (`regForm`, `predForm`) run under its guard, and what
one lane of a form does. -/

namespace Sys2Proof.Machine

/-- One lane of a form that writes a register. -/
def regLane (f : RegForm) (L : Lane) : LaneOut :=
  if f.preds.any fun p => L.s.pendingPred L.k p then .notReady
  else
    L.checked (f.ops L.t)
      (.done (fun s =>
        let s' := s.writeReg L.k (fieldName f.sq false f.d 0) (f.val L)
        if f.steps L then s'.modThr L.k fun t => { t with srctr := t.srctr + 1 } else s') L.next)

theorem aluLane_eq (sh : AluShape) (w : AluWord) (b : Lane → Word) (v : LaneIn → Word) :
    aluLane sh w b v = regLane (RegForm.ofSource sh w b v) := rfl

/-- Every instruction of the table of forms is its form, under its guard. -/
theorem exec_regForm {i : Instr} {f : RegForm} (h : regForm i = some f) (s : State) :
    exec i s = .next (s.execGroup (guarded f.g f.n (regLane f))) := by
  cases i <;> first | (cases h; rfl) | (unfold regForm at h; cases h) | skip
  all_goals (unfold regForm at h; simp only [] at h; split at h <;> cases h)
  all_goals
    rename_i hc
    simp only [exec, execIcmp, execFcmp]
    refine congrArg Host.Outcome.next (congrArg _ ?_)
    funext L
    simp only [guarded, compareLane, hc, if_true]
    rfl

theorem regLane_eq {f : RegForm} {s : State} {l : Latch} {x : Nat} (h : s.laneReady l x f.ops f.preds) :
    regLane f (s.laneAt l x) =
      .done (fun u =>
        let u' := u.writeReg (l.key x) (fieldName f.sq false f.d 0) (f.val (s.laneAt l x))
        if f.steps (s.laneAt l x) then u'.modThr (l.key x) fun t => { t with srctr := t.srctr + 1 } else u') l.next := by
  obtain ⟨⟨h1, h2⟩, h3⟩ := h
  have h3' : (f.preds.any fun p => (s.laneAt l x).s.pendingPred (s.laneAt l x).k p) = false := by
    simpa [State.laneAt] using h3
  have hb : firstBounds (f.ops (s.laneAt l x).t) (s.laneAt l x).block.allot = none := h1
  have ho : (s.laneAt l x).s.operandsReady (s.laneAt l x).k (f.ops (s.laneAt l x).t) = true := h2
  simp only [regLane, h3', Lane.checked, hb, ho]
  rfl

/-- The counter step after a write to a thread register. -/
theorem regLane_local {f : RegForm} {s : State} {l : Latch} {x : Nat} (hsq : f.sq = false) (h : s.laneReady l x f.ops f.preds) :
    (regLane f (s.laneAt l x)).proceeds = true ∧
    LocalFx (l.key x) (fun u => u.applyLane (l.key x) l.pc l.next (regLane f (s.laneAt l x))) (fun t =>
      { t.writeV f.d.toNat (f.val (s.laneAt l x)) with
        pc := l.next, stepOver := none, srctr := if f.steps (s.laneAt l x) then t.srctr + 1 else t.srctr }) := by
  have hf : fieldName f.sq false f.d 0 = .v f.d.toNat := by simp [fieldName, hsq]
  rw [regLane_eq h, hf]
  refine ⟨rfl, ?_⟩
  have hw := LocalFx.writeV (l.key x) f.d.toNat (f.val (s.laneAt l x))
  cases f.steps (s.laneAt l x) with
  | false => exact hw.next l.pc l.next
  | true => exact (hw.comp (LocalFx.modThr (l.key x) fun t => { t with srctr := t.srctr + 1 })).next l.pc l.next

/-- A write to S[d], when d names an S register. -/
def Squad.writeField (q : Squad) (d : Nat) (v : Word) : Squad := if d < 64 then q.writeS d v else q

theorem regLane_squad {f : RegForm} {s : State} {l : Latch} {x : Nat} (hsq : f.sq = true) (h : s.laneReady l x f.ops f.preds) :
    (regLane f (s.laneAt l x)).proceeds = true ∧
    SquadFx l x (fun u => u.applyLane (l.key x) l.pc l.next (regLane f (s.laneAt l x)))
      (fun t => { t with pc := l.next, stepOver := none, srctr := if f.steps (s.laneAt l x) then t.srctr + 1 else t.srctr })
      (fun q => q.writeField f.d.toNat (f.val (s.laneAt l x))) := by
  rw [regLane_eq h]
  refine ⟨rfl, ?_⟩
  generalize f.val (s.laneAt l x) = v
  have hw : SquadFx l x (fun u => u.writeReg (l.key x) (fieldName f.sq false f.d 0) v) (fun t => t) (fun q => q.writeField f.d.toNat v) := by
    by_cases hd : f.d.toNat < 64
    · have e1 : fieldName f.sq false f.d 0 = .s f.d.toNat := by simp [fieldName, hsq, hd]
      have e2 : (fun q : Squad => q.writeField f.d.toNat v) = fun q => q.writeS f.d.toNat v := by funext q; simp [Squad.writeField, hd]
      rw [e1, e2]; exact SquadFx.writeS l x f.d.toNat v
    · have e1 : fieldName f.sq false f.d 0 = .ro f.d.toNat := by simp [fieldName, hsq, hd]
      have e2 : (fun q : Squad => q.writeField f.d.toNat v) = fun q => q := by funext q; simp [Squad.writeField, hd]
      rw [e1, e2]
      exact (LocalFx.supersede (l.key x) (l.key x) (.ro f.d.toNat)).onSquad fun _ => ⟨rfl, rfl⟩
  cases f.steps (s.laneAt l x) with
  | false => exact hw.done l.pc l.next
  | true =>
    exact (hw.comp ((LocalFx.modThr (l.key x) fun t => { t with srctr := t.srctr + 1 }).onSquad fun _ => ⟨rfl, rfl⟩)).done l.pc l.next

/-- Writes of lanes in increasing order: the last stands, and J is kept. -/
theorem foldl_writeField (d : Nat) (v : Nat → Word) (xs : List Nat) (q : Squad) :
    (xs.foldl (fun t x => t.writeField d (v x)) q).j = q.j ∧
    ∀ m, (xs.foldl (fun t x => t.writeField d (v x)) q).readS m =
      match xs.getLast? with
      | some x => if m = d ∧ d < 64 then v x else q.readS m
      | none => q.readS m := by
  induction xs generalizing q with
  | nil => exact ⟨rfl, fun _ => rfl⟩
  | cons a xs ih =>
    have hj : (q.writeField d (v a)).j = q.j := by unfold Squad.writeField; split <;> rfl
    refine ⟨(ih _).1.trans hj, fun m => ?_⟩
    rw [List.foldl_cons, (ih _).2 m]
    have hr : (q.writeField d (v a)).readS m = if m = d ∧ d < 64 then v a else q.readS m := by
      unfold Squad.writeField
      by_cases hd : d < 64
      · by_cases hm : m = d
        · subst hm; simp [hd, Squad.readS, Squad.writeS, sget_sset_same]
        · simp [hd, hm, Squad.readS, Squad.writeS, sget_sset_ne _ _ _ _ _ hm]
      · simp [hd]
    cases xs with
    | nil => simpa using hr
    | cons b xs =>
      simp only [List.getLast?_cons_cons]
      split
      · split
        · rfl
        · rename_i h; rw [hr, if_neg h]
      · rename_i h; simp at h

/-! ## Predicates -/

/-- One lane of a form that writes a predicate. -/
theorem predLane_local {f : PredForm} {s : State} {l : Latch} {x : Nat}
    (h : s.laneReady l x (aluOperands { f.shape with wd := false } f.word) f.shape.preds) :
    (predLane f.shape f.word f.pred f.val (s.laneAt l x)).proceeds = true ∧
    LocalFx (l.key x) (fun u => u.applyLane (l.key x) l.pc l.next (predLane f.shape f.word f.pred f.val (s.laneAt l x))) (fun t =>
      { t.writeP f.pred (f.val (aluIn f.word (s.laneAt l x) (aluB f.word (s.laneAt l x)))) with pc := l.next, stepOver := none }) := by
  obtain ⟨⟨h1, h2⟩, h3⟩ := h
  have e : predLane f.shape f.word f.pred f.val (s.laneAt l x) =
      .done (fun u => u.writePred (l.key x) f.pred (f.val (aluIn f.word (s.laneAt l x) (aluB f.word (s.laneAt l x))))) l.next := by
    have h3' : (f.shape.preds.any fun p => (s.laneAt l x).s.pendingPred (s.laneAt l x).k p) = false := by
      simpa [State.laneAt] using h3
    have hb : firstBounds (aluOperands { f.shape with wd := false } f.word (s.laneAt l x).t) (s.laneAt l x).block.allot = none := h1
    have ho : (s.laneAt l x).s.operandsReady (s.laneAt l x).k (aluOperands { f.shape with wd := false } f.word (s.laneAt l x).t) = true := h2
    simp only [predLane, h3', Lane.checked, hb, ho]
    rfl
  rw [e]
  exact ⟨rfl, (LocalFx.writePred _ _ _).next l.pc l.next⟩

/-- Every instruction of the table of predicate forms is its form, under its guard. -/
theorem exec_predForm {i : Instr} {f : PredForm} (h : predForm i = some f) (s : State) :
    exec i s = .next (s.execGroup (guarded f.word.g f.word.n (predLane f.shape f.word f.pred f.val))) := by
  cases i <;> first | (cases h; rfl) | (unfold predForm at h; cases h) | skip
  all_goals (unfold predForm at h; simp only [] at h; split at h <;> cases h)
  all_goals
    rename_i hc
    simp only [exec, execIcmp, execFcmp]
    refine congrArg Host.Outcome.next (congrArg _ ?_)
    funext L
    have hc : L.s = L.s ∧ ¬ _ := ⟨rfl, hc⟩
    simp only [guarded, compareLane, hc.2]
    rfl

end Sys2Proof.Machine
end

