-- ==== Sys2Proof/Laws/Rejoin.lean ====
section
/-! SUPPORT. What the settling of a squad does when none of its threads waits at a synchronising site: it releases the threads whose JWAIT
holds, and changes nothing else. -/

namespace Sys2Proof.Machine

/-- A change of several threads at once: `p` says which, `f` how. -/
theorem foldl_modThr (p : Nat × Thread → Bool) (f : Thread → Thread) (es : List (Nat × Thread)) (s : State)
    (hn : (es.map (·.1)).Nodup) :
    let u := es.foldl (fun s e => if p e then s.modThr e.1 f else s) s
    u = { s with threads := u.threads } ∧
    ∀ j, tget u.threads j = if es.any (fun e => e.1 == j && p e) then (tget s.threads j).map f else tget s.threads j := by
  induction es generalizing s with
  | nil => exact ⟨rfl, fun j => by simp⟩
  | cons e es ih =>
    have hn' : e.1 ∉ es.map (·.1) ∧ (es.map (·.1)).Nodup := List.nodup_cons.mp (by simpa only [List.map_cons] using hn)
    simp only [List.foldl_cons]
    by_cases hp : p e = true
    · simp only [hp, if_true]
      obtain ⟨i1, i2⟩ := ih (s.modThr e.1 f) hn'.2
      refine ⟨i1.trans rfl, fun j => ?_⟩
      rw [i2 j]
      by_cases hj : e.1 = j
      · subst hj
        have : (es.any fun x => x.1 == e.1 && p x) = false := by
          rw [List.any_eq_false]
          intro x hx h
          simp only [Bool.and_eq_true, beq_iff_eq] at h
          exact hn'.1 (h.1 ▸ List.mem_map_of_mem hx)
        simp [this, hp, tget_tmod_same]
      · have h1 : tget (s.modThr e.1 f).threads j = tget s.threads j := by
          simp only [State.modThr_threads]; exact tget_tmod_ne _ _ _ _ (fun h => hj h.symm)
        have hj' : (e.1 == j) = false := by simpa using hj
        rw [h1]
        simp only [List.any_cons, hj', Bool.false_and, Bool.false_or]
    · have hp' : p e = false := by simpa using hp
      simp only [hp', Bool.false_eq_true, if_false]
      obtain ⟨i1, i2⟩ := ih s hn'.2
      refine ⟨i1, fun j => ?_⟩
      rw [i2 j]
      simp only [List.any_cons, hp', Bool.and_false, Bool.false_or]

theorem squadThreads_nodup (b : Block) (blk sq : Nat) : (squadThreads b blk sq).Nodup := by
  unfold squadThreads
  apply List.Pairwise.filterMap (R := fun a b => a ≠ b)
  · intro a a' hne b hb b' hb'
    simp only [Option.ite_none_right_eq_some, Option.some.injEq] at hb hb'
    obtain ⟨_, rfl⟩ := hb
    obtain ⟨_, rfl⟩ := hb'
    intro h
    simp only [threadKey] at h
    omega
  · exact List.nodup_range

/-- The threads that wait on mask `m`, by lane. -/
theorem settleJ_spec (s : State) (blk sq m : Nat) :
    let u := s.settleJ blk sq m
    u = { s with threads := u.threads } ∧
    ∀ j, tget u.threads j =
      if j ∈ squadThreads (s.block blk) blk sq ∧ (s.thr j).inJwait m = true ∧ s.jwaitHolds blk sq m = true then
        (tget s.threads j).map fun t => { t with wait := .ready, pc := nextPc t.pc 2 }
      else tget s.threads j := by
  simp only [State.settleJ]
  by_cases hh : s.jwaitHolds blk sq m = true
  · rw [if_pos hh]
    have hn : ((s.laneThreads blk sq).map (·.1)).Nodup := by
      have : (s.laneThreads blk sq).map (·.1) = squadThreads (s.block blk) blk sq := by
        simp [State.laneThreads, List.map_map, Function.comp_def]
      rw [this]; exact squadThreads_nodup _ _ _
    obtain ⟨h1, h2⟩ := foldl_modThr (fun e => e.2.inJwait m) (fun t => { t with wait := .ready, pc := nextPc t.pc 2 }) (s.laneThreads blk sq) s hn
    refine ⟨h1, fun j => ?_⟩
    rw [h2 j]
    have : (((s.laneThreads blk sq).any fun e => e.1 == j && e.2.inJwait m) = true) ↔
        (j ∈ squadThreads (s.block blk) blk sq ∧ (s.thr j).inJwait m = true ∧ s.jwaitHolds blk sq m = true) := by
      simp only [State.laneThreads, List.any_map, List.any_eq_true, Function.comp, Bool.and_eq_true, beq_iff_eq]
      constructor
      · rintro ⟨k, hk, rfl, hw⟩; exact ⟨hk, hw, hh⟩
      · rintro ⟨hk, hw, _⟩; exact ⟨j, hk, rfl, hw⟩
    simp only [this]
  · rw [if_neg hh]
    refine ⟨rfl, fun j => ?_⟩
    rw [if_neg (fun h => hh h.2.2)]

/-- What the JWAITs of a squad do to a thread of it: released when the condition of its mask holds, before mask `n`. -/
def State.released (s : State) (blk sq n j : Nat) : Bool :=
  (List.range n).any fun m => (s.thr j).inJwait m && s.jwaitHolds blk sq m

/-- The thread after a release. -/
def Thread.goOn (t : Thread) : Thread := { t with wait := .ready, pc := nextPc t.pc 2 }

theorem inJwait_unique {t : Thread} {m m' : Nat} (h : t.inJwait m = true) (h' : t.inJwait m' = true) : m = m' := by
  simp only [Thread.inJwait, Bool.and_eq_true, beq_iff_eq] at h h'
  have := h.2.symm.trans h'.2
  cases this; rfl

theorem goOn_inJwait (t : Thread) (m : Nat) : t.goOn.inJwait m = false := by
  simp [Thread.inJwait, Thread.goOn]

theorem settleJs_spec (s : State) (blk sq n : Nat) :
    let u := (List.range n).foldl (fun s m => s.settleJ blk sq m) s
    u = { s with threads := u.threads } ∧
    ∀ j, tget u.threads j =
      if j ∈ squadThreads (s.block blk) blk sq ∧ s.released blk sq n j = true then (tget s.threads j).map Thread.goOn
      else tget s.threads j := by
  induction n with
  | zero => exact ⟨rfl, fun j => by simp [State.released]⟩
  | succ n ih =>
    obtain ⟨i1, i2⟩ := ih
    simp only [List.range_succ, List.foldl_append, List.foldl_cons, List.foldl_nil]
    generalize hu : (List.range n).foldl (fun s m => s.settleJ blk sq m) s = u at *
    obtain ⟨j1, j2⟩ := settleJ_spec u blk sq n
    have hb : u.block blk = s.block blk := by rw [i1]; rfl
    have hsq : u.squad blk sq = s.squad blk sq := by rw [i1]; rfl
    -- a thread of the squad that waits on mask n still does
    have hthr : ∀ j, u.thr j = if (j ∈ squadThreads (s.block blk) blk sq ∧ s.released blk sq n j = true) ∧ (tget s.threads j).isSome = true
        then (s.thr j).goOn else s.thr j := by
      intro j
      have := i2 j
      simp only [State.thr, tgetD, this]
      by_cases hc : j ∈ squadThreads (s.block blk) blk sq ∧ s.released blk sq n j = true
      · rw [if_pos hc]
        cases h : tget s.threads j with
        | none => simp
        | some v => simp [hc.1, hc.2]
      · rw [if_neg hc, if_neg (fun h => hc h.1)]
    have hin : ∀ j, (u.thr j).inJwait n = true ↔ (s.thr j).inJwait n = true ∧ (s.thr j).live = true := by
      intro j
      rw [hthr j]
      split
      · rename_i hc
        rw [goOn_inJwait]
        simp only [Bool.false_eq_true, false_iff, not_and]
        intro hw
        have hr := hc.1.2
        simp only [State.released, List.any_eq_true, List.mem_range, Bool.and_eq_true] at hr
        obtain ⟨m, hm, hmw, _⟩ := hr
        have := inJwait_unique hw hmw
        omega
      · simp only [Thread.inJwait, Bool.and_eq_true]
        constructor
        · rintro ⟨a, b⟩; exact ⟨⟨a, b⟩, a⟩
        · rintro ⟨a, _⟩; exact a
    have hlane : ∀ j, (u.thr j).lane = (s.thr j).lane := by
      intro j; rw [hthr j]; split <;> rfl
    have hin' : ∀ j, (u.thr j).inJwait n = (s.thr j).inJwait n := by
      intro j
      rw [Bool.eq_iff_iff, hin j]
      simp only [Thread.inJwait, Bool.and_eq_true]
      constructor
      · rintro ⟨a, _⟩; exact a
      · rintro a; exact ⟨a, a.1⟩
    have hholds : u.jwaitHolds blk sq n = s.jwaitHolds blk sq n := by
      simp only [State.jwaitHolds, State.laneThreads, hb, hsq, List.any_map, Function.comp_def, hin', hlane]
    refine ⟨by rw [j1, i1], fun j => ?_⟩
    rw [j2 j, hb, hin', hholds, i2 j]
    by_cases hs : j ∈ squadThreads (s.block blk) blk sq
    · simp only [hs, true_and]
      have hrel : s.released blk sq (n + 1) j = (s.released blk sq n j || ((s.thr j).inJwait n && s.jwaitHolds blk sq n)) := by
        simp [State.released, List.range_succ, List.any_append]
      rw [hrel]
      by_cases hr : s.released blk sq n j = true
      · have hno : ¬ ((s.thr j).inJwait n = true ∧ s.jwaitHolds blk sq n = true) := by
          rintro ⟨hw, _⟩
          simp only [State.released, List.any_eq_true, List.mem_range, Bool.and_eq_true] at hr
          obtain ⟨m, hm, hmw, _⟩ := hr
          have := inJwait_unique hw hmw
          omega
        simp [hr, hno]
      · have hr' : s.released blk sq n j = false := by simpa using hr
        simp only [hr', Bool.false_or, Bool.false_eq_true, if_false, Bool.and_eq_true]
        rfl
    · simp [hs]

theorem settleSquad_spec {s : State} {blk sq : Nat} (h : s.noSites blk sq = true) :
    let u := s.settleSquad blk sq
    u = { s with threads := u.threads } ∧
    ∀ j, tget u.threads j =
      if j ∈ squadThreads (s.block blk) blk sq ∧ s.released blk sq 8 j = true then (tget s.threads j).map Thread.goOn
      else tget s.threads j := by
  have hspec := settleJs_spec s blk sq 8
  simp only [State.settleSquad]
  simp only at hspec
  generalize (List.range 8).foldl (fun s m => s.settleJ blk sq m) s = u at *
  obtain ⟨i1, i2⟩ := hspec
  have hs : u.atSites blk sq = [] := by
    simp only [State.atSites, State.laneThreads, List.filterMap_map, List.filterMap_eq_nil_iff, Function.comp]
    intro k hk
    have hb : u.block blk = s.block blk := by rw [i1]; rfl
    rw [hb] at hk
    have hk' := List.all_eq_true.mp h k hk
    have hw : (u.thr k).wait = .ready ∨ (u.thr k).wait = (s.thr k).wait := by
      have := i2 k
      simp only [State.thr, tgetD, this]
      split
      · cases tget s.threads k with
        | none => right; rfl
        | some v => left; rfl
      · right; rfl
    rcases hw with hw | hw
    · simp only [hw]
    · simp only [hw]
      revert hk'
      cases (s.thr k).wait <;> simp
  have hr : u.releaseSites blk sq = u := by simp [State.releaseSites, hs, sitePcs]
  have hm : u.mismatches blk sq (u.releasable blk sq) = [] := by simp [State.mismatches, hs]
  rw [hr, hm]
  exact ⟨i1, i2⟩

/-- Squads to be settled, all of them one. -/
theorem squadInsert_same {x : Nat × Nat} (es : List (Nat × Nat)) (h : ∀ e ∈ es, e = x) : (es ++ [x]).foldr squadInsert [] = [x] := by
  induction es with
  | nil => rfl
  | cons e es ih =>
    rw [List.cons_append, List.foldr_cons, ih fun y hy => h y (List.mem_cons_of_mem _ hy), h e (List.mem_cons_self ..)]
    simp [squadInsert]

/-- What the settling of a squad after an issue does: it settles now, or the squad waits for the end of the cycle (06 R141). -/
theorem settleNow_spec {u : State} {blk sq : Nat} (h : u.noSites blk sq = true) (ha : u.focus = [] → ∀ e ∈ u.unsettled, e = (blk, sq)) :
    u.settleNow blk sq = { u with threads := (u.settleNow blk sq).threads, unsettled := (u.settleNow blk sq).unsettled } ∧
    (u.settleNow blk sq).unsettled = (if u.focus = [] then [] else u.unsettled ++ [(blk, sq)]) ∧
    ∀ j, tget (u.settleNow blk sq).threads j =
      if u.focus = [] ∧ j ∈ squadThreads (u.block blk) blk sq ∧ u.released blk sq 8 j = true then (tget u.threads j).map Thread.goOn
      else tget u.threads j := by
  by_cases hf : u.focus = []
  · have e : u.settleNow blk sq = ({ u with unsettled := [] } : State).settleSquad blk sq := by
      simp only [State.settleNow, hf, List.isEmpty_nil, if_true, State.settleAll, squadInsert_same _ (ha hf), List.foldl_cons, List.foldl_nil]
    have h' : ({ u with unsettled := [] } : State).noSites blk sq = true := h
    obtain ⟨e1, e2⟩ := settleSquad_spec h'
    rw [e, if_pos hf]
    have e3 : (({ u with unsettled := [] } : State).settleSquad blk sq).unsettled = [] := by rw [e1]
    refine ⟨by rw [e3]; exact e1, e3, fun j => ?_⟩
    rw [e2 j]
    simp only [hf, true_and]
    rfl
  · have hf' : ¬ u.focus.isEmpty = true := by simpa using hf
    have e : u.settleNow blk sq = { u with unsettled := u.unsettled ++ [(blk, sq)] } := by
      simp only [State.settleNow, if_neg hf']
    rw [e, if_neg hf]
    exact ⟨rfl, rfl, fun j => by rw [if_neg (fun h => hf h.1)]⟩

/-! ## Instructions on a rejoin mask -/

theorem SquadFx.modJ {s : State} {l : Latch} {x : Nat} (hb : (s.thr (l.key x)).blk = l.blk) (hs : (s.thr (l.key x)).sq = l.sq) (m : Nat) (f : BitVec 32 → BitVec 32) :
    SquadFx l x (fun u => (s.laneAt l x).modJ m f u) (fun t => t) (fun q => q.writeJ m (f (q.readJ m))) where
  threads u j := by simp [Lane.modJ]
  keeps _ := ⟨rfl, rfl⟩
  squads u _ _ j := by
    have e1 : (s.laneAt l x).t.blk = l.blk := hb
    have e2 : (s.laneAt l x).t.sq = l.sq := hs
    simp only [Lane.modJ, e1, e2, State.modSquad_squads]
    split
    · rename_i h; subst h; exact tget_tmod_same ..
    · rename_i h; exact tget_tmod_ne _ _ _ _ h
  rest _ := rfl
  accs u := rfl

theorem readJ_writeJ (q : Squad) (m r : Nat) (v : BitVec 32) : (q.writeJ m v).readJ r = if r = m then v else q.readJ r := by
  by_cases h : r = m
  · subst h; simp [Squad.readJ, Squad.writeJ, sget_sset_same]
  · simp [Squad.readJ, Squad.writeJ, sget_sset_ne _ _ _ _ _ h, h]

theorem onlyGroup_trans {s t u : State} (h : s.onlyGroup t) (h' : t.onlyGroup u) : s.onlyGroup u := by
  unfold State.onlyGroup at *
  rw [h'] 
  rw [h]

/-- Lanes that leave their run change no thread, access, S or J register. -/
theorem leaveRun_keeps (s : State) (l : Latch) (xs : List Nat) :
    s.onlyGroup (s.leaveRun l xs) ∧ (s.leaveRun l xs).threads = s.threads ∧ (s.leaveRun l xs).accs = s.accs ∧ s.sameSquads (s.leaveRun l xs) := by
  have hq : ∀ c i, s.onlyGroup (s.freeSlot c i) ∧ (s.freeSlot c i).threads = s.threads ∧ (s.freeSlot c i).accs = s.accs ∧ s.sameSquads (s.freeSlot c i) := by
    intro c i
    unfold State.freeSlot
    repeat' split
    all_goals first
      | exact ⟨rfl, rfl, rfl, fun _ _ => ⟨rfl, rfl⟩⟩
      | refine ⟨rfl, rfl, rfl, fun b n => ?_⟩
        simp only [State.endQuantum, modSquad_squad]
        split <;> exact ⟨rfl, rfl⟩
  unfold State.leaveRun
  split
  · dsimp only
    split
    · exact ⟨rfl, rfl, rfl, fun _ _ => ⟨rfl, rfl⟩⟩
    · split
      · exact hq _ _
      · exact ⟨rfl, rfl, rfl, fun _ _ => ⟨rfl, rfl⟩⟩
  · exact ⟨rfl, rfl, rfl, fun _ _ => ⟨rfl, rfl⟩⟩

theorem rejoined_keeps (s s0 : State) (w : AluWord) :
    s.onlyGroup (s.rejoined s0 w) ∧ (s.rejoined s0 w).threads = s.threads ∧ (s.rejoined s0 w).accs = s.accs ∧ s.sameSquads (s.rejoined s0 w) := by
  unfold State.rejoined
  split
  · dsimp only
    split
    · exact ⟨rfl, rfl, rfl, fun _ _ => ⟨rfl, rfl⟩⟩
    · split
      · exact leaveRun_keeps _ _ _
      · exact ⟨rfl, rfl, rfl, fun _ _ => ⟨rfl, rfl⟩⟩
  · exact ⟨rfl, rfl, rfl, fun _ _ => ⟨rfl, rfl⟩⟩

/-- An instruction on a rejoin mask: its lanes change J[m] to `j`, or wait in a JWAIT on it, and the squad settles. -/
theorem rejoin_core {s : State} {l : Latch} {w : AluWord} (hi : s.issues l) (hq : s.squadListed l) (hg : s.guardsKnown l w.g)
   (hns : s.noSites l.blk l.sq = true) (hal : s.aloneInCycle l) (hset : s.jwaitsSettled l.blk l.sq = true)
   (hrd : ∀ x ∈ l.lanesOf, 32 * l.sq + x < (s.block l.blk).nthreads ∧ (s.thr (l.key x)).live = true ∧ (s.thr (l.key x)).wait = .ready)
   (m : Nat) (hm : m < 8) (body : Lane → LaneOut) (joins : Bool) (j : BitVec 32) (q : Nat → Squad → Squad) (i : Instr)
   (post : State → State)
   (hpost : ∀ u : State, u.onlyGroup (post u) ∧ (post u).threads = u.threads ∧ (post u).accs = u.accs ∧ u.sameSquads (post u))
   (he : exec i s = .next (post (s.execThen (guarded w.g w.n body) fun l s => s.settleNow l.blk l.sq)))
   (hp : ∀ x ∈ l.lanesOf, s.laneOn l x w.g w.n → (body (s.laneAt l x)).proceeds = true)
   (hb : ∀ x ∈ l.lanesOf, s.laneOn l x w.g w.n → SquadFx l x (fun u => u.applyLane (l.key x) l.pc l.next (body (s.laneAt l x)))
       (fun t => if joins then { t with wait := .jwait m, stepOver := none } else { t with pc := l.next, stepOver := none }) (q x))
   (hj : ∀ r, ((l.lanesOf.foldl (fun t x => if s.laneOn l x w.g w.n then q x t else t) (s.squad l.blk l.sq)).readJ r) = if r = m then j else (s.squad l.blk l.sq).readJ r)
   (hs : (l.lanesOf.foldl (fun t x => if s.laneOn l x w.g w.n then q x t else t) (s.squad l.blk l.sq)).s = (s.squad l.blk l.sq).s) :
   s.rejoins l i w.g w.n m j joins := by
  have hguard := fun x (hx : x ∈ l.lanesOf) => guarded_eq (n := w.n) (hg x hx) body
  have hpx : ∃ x ∈ l.lanesOf, (guarded w.g w.n body (s.laneAt l x)).proceeds = true := by
    obtain ⟨x, hx⟩ := List.exists_mem_of_ne_nil _ hi.2.2.1
    refine ⟨x, hx, ?_⟩
    rw [hguard x hx]; split
    · rename_i hon; exact hp x hx hon
    · rfl
  have heq := State.execThen_eq hi (guarded w.g w.n body) (fun l s => s.settleNow l.blk l.sq) hpx
  have hd := State.lanesDone_squad hi (guarded w.g w.n body)
    (fun x t => if s.laneOn l x w.g w.n then (if joins then { t with wait := .jwait m, stepOver := none } else { t with pc := l.next, stepOver := none }) else { t with pc := l.next, stepOver := none })
    (fun x t => if s.laneOn l x w.g w.n then q x t else t) (fun x hx => by
      rw [hguard x hx]
      by_cases hon : s.laneOn l x w.g w.n
      · simp only [if_pos hon]; exact hb x hx hon
      · simp only [if_neg hon]
        exact ((LocalFx.id (l.key x)).next l.pc l.next).onSquad fun _ => ⟨rfl, rfl⟩)
  refine ⟨_, he, ?_⟩
  rw [heq]
  generalize s.lanesWent l (guarded w.g w.n body) = went
  generalize s.lanesDone l (guarded w.g w.n body) = u at *
  obtain ⟨d1, d2, d3, d4, d5, d6⟩ := hd
  have hblk : u.block l.blk = s.block l.blk := by rw [d1]; rfl
  have hkey : ∀ x ∈ l.lanesOf, l.key x ∈ squadThreads (s.block l.blk) l.blk l.sq := by
    intro x hx
    simp only [squadThreads, List.mem_filterMap, List.mem_range, Option.ite_none_right_eq_some]
    have hx32 : x < 32 := List.mem_range.mp (List.mem_filter.mp hx).1
    exact ⟨x, hx32, (hrd x hx).1, rfl⟩
  have hthr : ∀ k, (∀ x ∈ l.lanesOf, k ≠ l.key x) → u.thr k = s.thr k := fun k hk => thr_of_tget (d4 k hk)
  have hnsu : u.noSites l.blk l.sq = true := by
    simp only [State.noSites, hblk, List.all_eq_true]
    intro k hk
    by_cases hkx : ∃ x ∈ l.lanesOf, k = l.key x
    · obtain ⟨x, hx, rfl⟩ := hkx
      rw [d3 x hx]
      have := (hrd x hx).2.2
      by_cases hon : s.laneOn l x w.g w.n
      · simp only [if_pos hon]
        cases joins with
        | true => rfl
        | false => simp [this]
      · simp only [if_neg hon, this]
    · rw [hthr k fun x hx he => hkx ⟨x, hx, he⟩]
      exact List.all_eq_true.mp hns k hk
  have hfoc : u.focus = s.focus := by rw [d1]
  have huns : u.unsettled = s.unsettled := by rw [d1]
  obtain ⟨s1, s1u, s2⟩ := settleNow_spec hnsu (by rw [hfoc, huns]; exact hal)
  rw [huns, hfoc] at s1u
  simp only [hfoc] at s2
  have hsquad : ∀ b n, u.squad b n = if squadKey b n = squadKey l.blk l.sq then l.lanesOf.foldl (fun t x => if s.laneOn l x w.g w.n then q x t else t) (s.squad l.blk l.sq) else s.squad b n := by
    intro b n
    simp only [State.squad, tgetD, d6]
    split
    · rename_i hk
      obtain ⟨v, hv⟩ := Option.isSome_iff_exists.mp hq
      rw [hk, hv]; rfl
    · rfl
  -- who waits, and what holds
  have harr : ∀ x ∈ l.lanesOf, s.arrives l w.g w.n (l.key x) = decide (s.laneOn l x w.g w.n) := by
    intro x hx
    rw [Bool.eq_iff_iff, decide_eq_true_iff]
    simp only [State.arrives, List.any_eq_true, Bool.and_eq_true, beq_iff_eq, decide_eq_true_iff]
    constructor
    · rintro ⟨y, hy, hk, ho⟩; rw [Latch.key_inj hk]; exact ho
    · intro ho; exact ⟨x, hx, rfl, ho⟩
  have hnarr : ∀ k, (∀ x ∈ l.lanesOf, k ≠ l.key x) → s.arrives l w.g w.n k = false := by
    intro k hk
    rw [Bool.eq_false_iff]
    intro h
    simp only [State.arrives, List.any_eq_true, Bool.and_eq_true, beq_iff_eq] at h
    obtain ⟨y, hy, hky, _⟩ := h
    exact hk y hy hky
  have hwait : ∀ k r, (u.thr k).inJwait r = ((s.thr k).inJwait r || (decide (r = m) && joins && s.arrives l w.g w.n k)) := by
    intro k r
    by_cases hkx : ∃ x ∈ l.lanesOf, k = l.key x
    · obtain ⟨x, hx, rfl⟩ := hkx
      rw [d3 x hx, harr x hx]
      obtain ⟨_, hlv, hwt⟩ := hrd x hx
      have h0 : (s.thr (l.key x)).inJwait r = false := by simp [Thread.inJwait, hwt]
      rw [h0]
      by_cases hon : s.laneOn l x w.g w.n
      · rw [if_pos hon]
        cases joins with
        | true => 
          simp only [if_true, Thread.inJwait, hlv, Bool.true_and, Bool.false_or, Bool.and_true, decide_eq_true hon]
          by_cases hr : r = m
          · subst hr; simp
          · have : ¬ m = r := fun h => hr h.symm
            simp [hr, this]
        | false => simp [Thread.inJwait, hwt]
      · rw [if_neg hon]
        simp [Thread.inJwait, hwt, hon]
    · have hk : ∀ x ∈ l.lanesOf, k ≠ l.key x := fun x hx he => hkx ⟨x, hx, he⟩
      rw [hthr k hk, hnarr k hk]; simp
  have hlane : ∀ k, (u.thr k).lane = (s.thr k).lane := by
    intro k
    by_cases hkx : ∃ x ∈ l.lanesOf, k = l.key x
    · obtain ⟨x, hx, rfl⟩ := hkx
      rw [d3 x hx]
      split
      · cases joins <;> rfl
      · rfl
    · rw [hthr k fun x hx he => hkx ⟨x, hx, he⟩]
  have hJ : ∀ r, (u.squad l.blk l.sq).readJ r = if r = m then j else (s.squad l.blk l.sq).readJ r := by
    intro r; rw [hsquad, if_pos rfl, hj]
  have hholds_m : u.jwaitHolds l.blk l.sq m = s.jwaitMet l w.g w.n m joins j := by
    simp only [State.jwaitHolds, State.jwaitMet, hJ, if_true, State.laneThreads, hblk, List.any_map, Function.comp_def, hlane, hwait,
      decide_true, Bool.true_and, State.waitsAt, bit_eq_testBit, BitVec.testBit_toNat]
  have hrel : ∀ k ∈ squadThreads (s.block l.blk) l.blk l.sq, u.released l.blk l.sq 8 k = (s.waitsAt l w.g w.n m joins k && s.jwaitMet l w.g w.n m joins j) := by
    intro k hk
    rw [Bool.eq_iff_iff]
    simp only [State.released, List.any_eq_true, List.mem_range, Bool.and_eq_true]
    constructor
    · rintro ⟨r, hr8, hw, hh⟩
      by_cases hr : r = m
      · subst hr
        rw [hwait] at hw
        rw [hholds_m] at hh
        refine ⟨?_, hh⟩
        simpa [State.waitsAt] using hw
      · exfalso
        rw [hwait] at hw
        simp only [hr, decide_false, Bool.false_and, Bool.or_false] at hw
        have hold : s.jwaitHolds l.blk l.sq r = true := by
          have e : u.jwaitHolds l.blk l.sq r = s.jwaitHolds l.blk l.sq r := by
            simp only [State.jwaitHolds, hJ, hr, if_false, State.laneThreads, hblk, List.any_map, Function.comp_def, hlane, hwait,
              decide_false, Bool.false_and, Bool.or_false]
          rw [← e]; exact hh
        have := List.all_eq_true.mp hset r (List.mem_range.mpr hr8)
        simp only [hold, Bool.not_true, Bool.false_or, List.all_eq_true] at this
        have := this k hk
        simp [hw] at this
    · rintro ⟨hw, hh⟩
      refine ⟨m, hm, ?_, by rw [hholds_m]; exact hh⟩
      rw [hwait]; simpa [State.waitsAt] using hw
  generalize u.settleNow l.blk l.sq = v at *
  have hthrends : ∀ k, (v.endIssue l went (nextPc l.pc l.len)).thr k = v.thr k := by
    intro k; simp only [State.thr, State.endIssue_threads]
  have k1 : v.squads = u.squads := by rw [s1]
  have k2 : v.accs = u.accs := by rw [s1]
  have k3 : ∀ b n, (v).squad b n = u.squad b n := fun b n => by simp only [State.squad, k1]
  obtain ⟨p1, p2, p3, p4⟩ := hpost (v.endIssue l went (nextPc l.pc l.len))
  generalize post (v.endIssue l went (nextPc l.pc l.len)) = t at *
  have h1 := State.endIssue_onlyGroup v l went (nextPc l.pc l.len)
  have htu : t.unsettled = v.unsettled := by
    rw [show t.unsettled = (v.endIssue l went (nextPc l.pc l.len)).unsettled by rw [p1], h1]
  refine ⟨?_, ?_, htu.trans s1u, ?_, ?_, ?_⟩
  · have h2 : ({ u with unsettled := v.unsettled } : State).onlyGroup v := by
      unfold State.onlyGroup
      rw [k1, k2, show v.blocks = u.blocks by rw [s1], show v.cores = u.cores by rw [s1]]; exact s1
    have h3 : ({ s with unsettled := v.unsettled } : State).onlyGroup { u with unsettled := v.unsettled } := by
      have e : ({ u with unsettled := v.unsettled } : State) =
          { s with threads := u.threads, squads := u.squads, accs := u.accs, unsettled := v.unsettled } :=
        congrArg (fun x : State => { x with unsettled := v.unsettled }) d1
      unfold State.onlyGroup
      rw [e]
    rw [htu]
    exact onlyGroup_trans (onlyGroup_trans (onlyGroup_trans h3 h2) h1) p1
  · simp only [State.sameAccs, p3, State.endIssue_accs, k2]
    exact d2
  · intro b n
    rw [(p4 b n).1, (State.endIssue_squads _ l went _ b n).1, k3, hsquad]
    by_cases hk : squadKey b n = squadKey l.blk l.sq
    · rw [if_pos hk, hs]; simp only [State.squad, hk]
    · rw [if_neg hk]
  · intro b n r
    have h1 := (State.endIssue_squads (v) l went (nextPc l.pc l.len) b n).2
    have e : (t.squad b n).readJ r = (u.squad b n).readJ r := by
      simp only [Squad.readJ, (p4 b n).2, h1, k3]
    rw [e, hsquad]
    by_cases hk : squadKey b n = squadKey l.blk l.sq
    · rw [if_pos hk, hj]
      have : s.squad b n = s.squad l.blk l.sq := by simp only [State.squad, hk]
      simp only [hk, true_and, this]
    · rw [if_neg hk, if_neg (fun h => hk h.1)]
  · intro k
    rw [show t.thr k = v.thr k by rw [← hthrends k]; simp only [State.thr, p2]]
    have hs2 := s2 k
    rw [hblk] at hs2
    have hut : (v).thr k = if s.focus = [] ∧ k ∈ squadThreads (s.block l.blk) l.blk l.sq ∧ u.released l.blk l.sq 8 k = true ∧ (tget s.threads k).isSome = true then (u.thr k).goOn else u.thr k := by
      simp only [State.thr, tgetD, hs2]
      by_cases hc : s.focus = [] ∧ k ∈ squadThreads (s.block l.blk) l.blk l.sq ∧ u.released l.blk l.sq 8 k = true
      · rw [if_pos hc]
        have := d5 k
        cases h : tget u.threads k with
        | none => rw [h] at this; simp at this; simp [this]
        | some v => rw [h] at this; simp at this; simp [hc, ← this]
      · rw [if_neg hc, if_neg (fun h => hc ⟨h.1, h.2.1, h.2.2.1⟩)]
    have hlisted : s.waitsAt l w.g w.n m joins k = true → (tget s.threads k).isSome = true := by
      intro h
      simp only [State.waitsAt, Bool.or_eq_true, Bool.and_eq_true] at h
      rcases h with h | ⟨_, h⟩
      · simp only [Thread.inJwait, Bool.and_eq_true, State.thr, tgetD] at h
        cases hk : tget s.threads k with
        | none => rw [hk] at h; simp [noThread] at h
        | some v => rfl
      · simp only [State.arrives, List.any_eq_true, Bool.and_eq_true, beq_iff_eq] at h
        obtain ⟨x, hx, rfl, _⟩ := h
        exact (hi.2.2.2 x hx).1
    refine hut.trans ?_
    generalize s.jwaitMet l w.g w.n m joins j = met at *
    by_cases hkx : ∃ x ∈ l.lanesOf, k = l.key x
    · rw [if_pos hkx]
      obtain ⟨x, hx, rfl⟩ := hkx
      have hmem := hkey x hx
      rw [hrel _ hmem, d3 x hx]
      obtain ⟨_, hlv, hwt⟩ := hrd x hx
      have h0 : (s.thr (l.key x)).inJwait m = false := by simp [Thread.inJwait, hwt]
      have hw0 : s.waitsAt l w.g w.n m joins (l.key x) = (joins && decide (s.laneOn l x w.g w.n)) := by
        simp only [State.waitsAt, h0, harr x hx, Bool.false_or]
      have hsome := (hi.2.2.2 x hx).1
      rw [hw0, harr x hx]
      by_cases hon : s.laneOn l x w.g w.n
      · rw [if_pos hon, decide_eq_true hon]
        by_cases hnow : s.focus = []
        · cases joins <;> cases met <;> simp [hmem, hsome, hnow, Thread.goOn]
        · cases joins <;> simp [hmem, hnow]
      · rw [if_neg hon, decide_eq_false hon, if_neg (by simp), if_neg (by simp)]
    · have hk : ∀ x ∈ l.lanesOf, k ≠ l.key x := fun x hx he => hkx ⟨x, hx, he⟩
      rw [hthr k hk, if_neg hkx]
      have hna := hnarr k hk
      by_cases hmem : k ∈ squadThreads (s.block l.blk) l.blk l.sq
      · rw [hrel _ hmem]
        by_cases hw : s.waitsAt l w.g w.n m joins k = true
        · rw [if_pos (show _ ∧ _ from ⟨hmem, hw⟩), hw]
          by_cases hnow : s.focus = [] ∧ met = true
          · rw [if_pos ⟨hnow.1, hmem, by simp [hnow.2], hlisted hw⟩, if_pos hnow]; simp [hna, Thread.goOn]
          · rw [if_neg (fun h => hnow ⟨h.1, by simpa using h.2.2.1⟩), if_neg hnow, if_neg (by simp [hna])]
        · rw [if_neg (fun h => by simp [hw] at h), if_neg (fun h => hw h.2)]
      · rw [if_neg (fun h => hmem h.2.1), if_neg (fun h => hmem h.1)]

end Sys2Proof.Machine
end

