-- ==== Sys2Proof/Tests/Slice0.lean ====
section
/-! SUPPORT. Tests of the model. Expected results come from the encoding tables of 05, from the rules named in the comments and from hand
calculation with them. Witnesses show that the hypotheses of the obligations can be met together. -/

open Sys2Proof Sys2Proof.Machine

set_option Elab.async false

namespace Sys2Proof.Tests

/-! ## Words whose fields are all plain -/

def aw : AluWord :=
  { g := 7, n := false, d := 4, a := 2, b := 3, c := 0, ty := 4, rnd := 0, sat := false, sq := false, ind := false, xs := 0, rsv := false, lit := none }
def az : AluWord := { aw with d := 0, a := 0, b := 0, ty := 0 }
def mw : MemWord :=
  { g := 7, n := false, d := 4, a := 0, base := 2, size := 2, scope := 0, ro := false, strm := 0, pred := 0, sq := false, ind := false, xs := 0, lit := none }
def yw : AsyncWord := { g := 7, n := false, d := 0, a := 2, b := 0, c := 0, strm := 0, pred := 0, md := 0 }

/-! ## Well-formedness: each check refuses a term (19 R420) -/

theorem test_wf_plain : (Instr.iadd aw).WellFormed = true ∧ (Instr.nop).WellFormed = true ∧ (Instr.ld mw).WellFormed = true := by decide
theorem test_wf_event : (Instr.migrationEpochEnd).WellFormed = false := by decide
theorem test_wf_a32_zero : (Instr.movA32 { d := 1, a := 2, b := 3 }).WellFormed = false ∧
    (Instr.moviI64A32 { d := 1, a := 2, b := 3 }).WellFormed = false := by decide
theorem test_wf_zero_field : (Instr.ret { az with d := 1 }).WellFormed = false ∧ (Instr.exit { az with a := 1 }).WellFormed = false ∧
    (Instr.yield { az with b := 1 }).WellFormed = false ∧ (Instr.tret { az with c := 1 }).WellFormed = false := by decide
theorem test_wf_squad_source : (Instr.iadd { aw with sq := true, a := 72 }).WellFormed = false ∧
    (Instr.iadd { aw with sq := true, a := 71 }).WellFormed = true := by decide
theorem test_wf_squad_dest : (Instr.iadd { aw with sq := true, d := 64 }).WellFormed = false ∧
    (Instr.iadd { aw with sq := true, d := 63 }).WellFormed = true := by decide
theorem test_wf_low_field : (Instr.pad { az with b := 256 }).WellFormed = false ∧ (Instr.jwait { az with d := 8 }).WellFormed = false := by decide
theorem test_wf_sq_read_field : (Instr.bref { az with a := 72 }).WellFormed = false := by decide
theorem test_wf_sq_write_field : (Instr.tinfo { az with d := 64 }).WellFormed = false := by decide
theorem test_wf_type : (Instr.iadd { aw with ty := 8 }).WellFormed = false ∧ (Instr.fadd { aw with ty := 7 }).WellFormed = false ∧
    (Instr.mov { aw with b := 0, ty := 12 }).WellFormed = false := by decide
theorem test_wf_rounding : (Instr.iadd { aw with rnd := 1 }).WellFormed = false ∧ (Instr.fadd { aw with ty := 10, rnd := 7 }).WellFormed = false := by decide
theorem test_wf_saturate : (Instr.imin { aw with sat := true }).WellFormed = false ∧ (Instr.iadd { aw with sat := true }).WellFormed = true := by decide
theorem test_wf_squad_form : (Instr.ret { az with sq := true }).WellFormed = false := by decide
theorem test_wf_indirect : (Instr.rdclk { az with ind := true }).WellFormed = false := by decide
theorem test_wf_index : (Instr.iadd { aw with xs := 1 }).WellFormed = false ∧ (Instr.iadd { aw with ind := true, xs := 1 }).WellFormed = true := by decide
theorem test_wf_literal : (Instr.ret { az with lit := some 0 }).WellFormed = false ∧ (Instr.movi { az with lit := none }).WellFormed = false ∧
    (Instr.iadd { aw with lit := some 9 }).WellFormed = false := by decide
theorem test_wf_reserved_bit : (Instr.iadd { aw with rsv := true }).WellFormed = false := by decide
theorem test_wf_compare : (Instr.icmp { aw with d := 1, c := 6 }).WellFormed = false ∧ (Instr.icmp { aw with d := 1, c := 24 }).WellFormed = false ∧
    (Instr.icmp { aw with d := 1, c := 64 }).WellFormed = false ∧ (Instr.icmp { aw with d := 8 }).WellFormed = false ∧
    (Instr.icmp { aw with c := 40 }).WellFormed = false ∧ (Instr.fcmp { aw with d := 1, ty := 10, c := 7 }).WellFormed = true := by decide
theorem test_wf_convert : (Instr.cvt { az with b := 0x14 }).WellFormed = false ∧ (Instr.cvt { az with c := 0x14 }).WellFormed = false ∧
    (Instr.cvt { az with b := 0x0A, c := 0x0A + 32 }).WellFormed = false ∧ (Instr.cvt { az with b := 0x0A, c := 0x0C, sat := true }).WellFormed = false ∧
    (Instr.cvti { az with lit := some 0x400000 }).WellFormed = false ∧ (Instr.cvt { az with b := 0x0A, c := 0x0C + 32 }).WellFormed = true := by decide
theorem test_wf_reduce : (Instr.lred { az with b := 9 }).WellFormed = false ∧ (Instr.lred { az with b := 16 }).WellFormed = false ∧
    (Instr.lred { az with b := 6 }).WellFormed = false ∧ (Instr.lred { az with rnd := 1 }).WellFormed = false ∧
    (Instr.lred { az with b := 1, sat := true }).WellFormed = false ∧ (Instr.lscan { az with b := 16 }).WellFormed = true := by decide
theorem test_wf_region_guard : (Instr.region { az with g := 0 }).WellFormed = false ∧ (Instr.region { az with n := true }).WellFormed = false := by decide
theorem test_wf_special_number : (Instr.rdsr { az with b := 16 }).WellFormed = false ∧ (Instr.wrsr { az with b := 1 }).WellFormed = false := by decide
theorem test_wf_movi_spread : (Instr.movi { az with c := 1, ty := 6, lit := some 1 }).WellFormed = false := by decide
theorem test_wf_unpack_tail : (Instr.unpack { aw with b := 0, ty := 1, c := 3 }).WellFormed = false := by decide
theorem test_wf_mx_format : (Instr.qmx { az with ty := 10, b := 0x13 }).WellFormed = false ∧ (Instr.dqmx { az with ty := 10, b := 0x1A }).WellFormed = false := by decide
theorem test_wf_shflx_literal : (Instr.shflx { aw with b := 0, lit := some 0x40000 }).WellFormed = false := by decide
theorem test_wf_mem_size : (Instr.ld { mw with size := 7 }).WellFormed = false ∧ (Instr.atomAdd { mw with size := 4, scope := 1 }).WellFormed = false := by decide
theorem test_wf_mem_scope : (Instr.ld { mw with scope := 7 }).WellFormed = false ∧ (Instr.atomAdd { mw with scope := 0 }).WellFormed = false := by decide
theorem test_wf_mem_hint : (Instr.st { mw with ro := true }).WellFormed = false ∧ (Instr.atomAdd { mw with scope := 1, ro := true }).WellFormed = false := by decide
theorem test_wf_mem_order : (Instr.pref { mw with d := 0, size := 0, strm := 1 }).WellFormed = false ∧
    (Instr.pref { mw with d := 0, size := 0, pred := 1 }).WellFormed = false := by decide
theorem test_wf_mem_squad : (Instr.atomc { mw with scope := 1, sq := true }).WellFormed = false := by decide
theorem test_wf_mem_index : (Instr.ld { mw with xs := 1 }).WellFormed = false ∧ (Instr.pref { mw with d := 0, size := 0, ind := true }).WellFormed = false := by decide
theorem test_wf_red_code : (Instr.red { mw with d := 7, scope := 1 }).WellFormed = false ∧ (Instr.red { mw with d := 9, scope := 1 }).WellFormed = false := by decide
theorem test_wf_atomic_float : (Instr.atomFadd { mw with scope := 1, ro := true }).WellFormed = false := by decide
theorem test_wf_async_modifier : (Instr.bwait { yw with md := 1 }).WellFormed = false ∧ (Instr.bcopy { yw with md := 3 }).WellFormed = false ∧
    (Instr.bcopy { yw with md := 5 }).WellFormed = false := by decide
theorem test_wf_clove_size : (Instr.cjoin { yw with b := 0 }).WellFormed = false ∧ (Instr.cjoin { yw with b := 193 }).WellFormed = false ∧
    (Instr.cjoin { yw with a := 64, b := 1 }).WellFormed = false := by decide
theorem test_wf_slice_index : (Instr.acrdr { aw with ty := 0, xs := 1 }).WellFormed = false := by decide

/-! ## Decoding: words written out from the tables of 05 -/

/-- Word 0 of a 64-bit or 96-bit form (Table 5.6). -/
def w0 (len opc g n d a : Nat) : Nat := len + opc * 4 + g * 2 ^ 10 + n * 2 ^ 13 + d * 2 ^ 14 + a * 2 ^ 23

/-- What a decoder answers. -/
def found (ws : List Nat) : Option (Instr × Nat) := match decodeWords ws with | .ok r => some r | .error _ => none

/-- Why a decoder refuses. -/
def rejected (ws : List Nat) : Option DecodeError := match decodeWords ws with | .ok _ => none | .error e => some e

-- Table 5.4: compact forms; NOP is the zero word
theorem test_decode_nop : found [0x00000000] = some (.nop, 1) := by decide
theorem test_decode_a32_bad_nop : rejected [0x00000200] = some (.reservedField { word := 0, bit := 9 }) := by decide
theorem test_decode_a32_iadd_imm : found [0x04 * 4 + 5 * 2 ^ 9 + 6 * 2 ^ 17 + 0x7F * 2 ^ 25] = some (.iaddI32A32Imm { d := 5, a := 6, b := 0x7F }, 1) := by decide
theorem test_decode_a32_st : found [0x24 * 4 + 255 * 2 ^ 9 + 1 * 2 ^ 17 + 2 * 2 ^ 25] = some (.stB128A32 { d := 255, a := 1, b := 2 }, 1) := by decide
theorem test_decode_a32_unassigned : rejected [0x25 * 4] = some (.illegalOpcode 0x25 0 false) := by decide
-- 05 R109: branches
theorem test_decode_call : found [1 + 2 * 4 + 3 * 2 ^ 7 + 2 ^ 10 + 9 * 2 ^ 11] = some (.call { g := 3, n := true, ofs := 9 }, 1) := by decide
theorem test_decode_brp : found [1 + 1 * 4 + 7 * 2 ^ 7] = some (.brp { g := 7, n := false, ofs := 0 }, 1) := by decide
theorem test_decode_b32_unassigned : rejected [1 + 3 * 4] = some (.illegalOpcode 3 1 false) := by decide
-- Table 5.12, one of each family
theorem test_decode_exit : found [w0 2 0x08 7 0 0 0, 0] = some (.exit az, 2) := by decide
theorem test_decode_region : found [w0 2 0x09 7 0 0 16, 5 + 3 * 2 ^ 9] = some (.region { az with a := 16, b := 5, c := 3 }, 2) := by decide
theorem test_decode_rdsr : found [w0 2 0x10 7 0 4 0, 2] = some (.rdsr { az with d := 4, b := 2 }, 2) := by decide
theorem test_decode_launch : found [w0 2 0x13 7 0 4 2, 2 * 2 ^ 18 + 9 * 2 ^ 21] = some (.launch { yw with d := 4, strm := 2, pred := 9 }, 2) := by decide
theorem test_decode_and_literal : found [w0 3 0x30 7 0 4 2, 4 * 2 ^ 18 + 2 ^ 30, 0xFF00FF00] = some (.and { aw with b := 0, lit := some 0xFF00FF00 }, 3) := by decide
theorem test_decode_mov_indirect : found [w0 2 0x40 7 0 4 2, 7 * 2 ^ 18 + 2 ^ 27 + 2 * 2 ^ 28] = some (.mov { aw with b := 0, ty := 7, ind := true, xs := 2 }, 2) := by decide
theorem test_decode_frcp : found [w0 2 0x60 7 0 4 2, 10 * 2 ^ 18 + 1 * 2 ^ 22] = some (.frcp { aw with b := 0, ty := 10, rnd := 1 }, 2) := by decide
theorem test_decode_cvt : found [w0 2 0x70 7 0 4 2, 0x0A + (0x0C + 1 * 32) * 2 ^ 9] = some (.cvt { aw with ty := 0, b := 0x0A, c := 0x2C }, 2) := by decide
theorem test_decode_shfl : found [w0 2 0x80 7 0 4 2, 3 + 64 * 2 ^ 9 + 4 * 2 ^ 18] = some (.shfl { aw with c := 64 }, 2) := by decide
theorem test_decode_st_offset : found [w0 3 0x91 7 0 4 0, 2 + 2 * 2 ^ 9 + 2 ^ 31, 0xFFFFFFFC] = some (.st { mw with lit := some 0xFFFFFFFC }, 3) := by decide
theorem test_decode_atom : found [w0 2 0xA0 7 0 4 3, 2 + 3 * 2 ^ 9 + 6 * 2 ^ 12 + 1 * 2 ^ 16] = some (.atomAdd { mw with a := 3, size := 3, scope := 6, strm := 1 }, 2) := by decide
theorem test_decode_balloc : found [w0 3 0xB0 7 0 4 1, 2 ^ 30, 32] = some (.balloc { az with d := 4, a := 1, lit := some 32 }, 3) := by decide
theorem test_decode_bcopy : found [w0 2 0xC0 7 0 4 2, 3 + 5 * 2 ^ 9 + 1 * 2 ^ 18 + 2 * 2 ^ 21 + 1 * 2 ^ 29] = some (.bcopy { yw with d := 4, a := 2, b := 3, c := 5, strm := 1, pred := 2, md := 1 }, 2) := by decide
theorem test_decode_mma : found [w0 2 0xD2 7 0 0 2, 0] = some (.mma yw, 2) := by decide
theorem test_decode_undefined : rejected [w0 2 0xFF 7 0 0 0, 0] = some (.illegalOpcode 0xFF 2 false) := by decide
theorem test_decode_reserved_field : rejected [w0 2 0x08 7 0 1 0, 0] = some (.reservedField { word := 0, bit := 14 }) := by decide

/-! ## States for single steps -/

/-- A thread of block 1, which stands at word 1 of its first bundle: V2 = lane + 5, V3 = 7. -/
def tThread (x : Nat) : Thread := { blk := 1, sq := 0, lane := x, tid := x, pc := 4, v := [(2, BitVec.ofNat 64 (x + 5)), (3, 7)] }

/-- The group of lanes 0 and 1 of squad 0 of block 1, at a word followed by a REGION. -/
def tLatch : Latch :=
  { core := 0, slot := 0, blk := 1, sq := 0, lanes := 3, pc := 4, len := 2, eor := false, yld := false, follow := some (w0 2 9 7 0 0 0) }

/-- Context 1 with its grid, block 1 of three threads on core 0, two of which issue; S5 = 1, S6 = 0x1_0000_0001. -/
def tState : State :=
  let s := State.reset.withFetchWord 32 0
  { s with
    focus := [], nextId := 20, latch := some tLatch
    threads := [(2048, tThread 0), (2049, tThread 1), (2050, tThread 2)]
    squads := [(64, { blk := 1, num := 0, core := 0, slot := 0, s := [(5, 1), (6, 0x100000001)] })]
    blocks := [(1, { placedBlock with nthreads := 3, scratch := 8192, leader := some 0, banks := 0xFFFF })]
    cores := [(0, { slot0 := some { blk := 1, sq := 0, lanes := 3 } })] }

/-- The state after an instruction, where it answers one. -/
def after (i : Instr) (s : State) : State := match exec i s with | .next t => t | _ => s

/-- V register `n` of lane `x` after an instruction. -/
def vAfter (i : Instr) (x n : Nat) : Nat := (((after i tState).thr (2048 + x)).readV n).toNat

/-! ## Witnesses: instructions of issue groups -/

theorem witness_issues : tState.issues tLatch ∧ tState.guardsKnown tLatch 7 ∧ tState.squadListed tLatch := by decide +kernel
theorem witness_register_thread : ∃ f, regForm (.iadd aw) = some f ∧ f.sq = false ∧ tState.issues tLatch ∧ tState.guardsKnown tLatch f.g ∧
    ∀ x ∈ tLatch.lanesOf, tState.laneOn tLatch x f.g f.n ∧ tState.laneReady tLatch x f.ops f.preds := ⟨_, rfl, rfl, by decide +kernel⟩

def tSet (f : Thread → Thread) : State := { tState with threads := tState.threads.map fun (e : Nat × Thread) => (e.1, f e.2) }
def tLatchIn (l : Latch) : State := { tState with latch := some l }

theorem witness_register_squad : ∃ f, regForm (.iadd { aw with sq := true, a := 5, b := 6 }) = some f ∧ f.sq = true ∧ tState.issues tLatch ∧
    tState.squadListed tLatch ∧ tState.guardsKnown tLatch f.g ∧ ∀ x ∈ tLatch.lanesOf, tState.laneOn tLatch x f.g f.n ∧ tState.laneReady tLatch x f.ops f.preds :=
  ⟨_, rfl, rfl, by decide +kernel⟩
theorem witness_predicate : ∃ f, predForm (.icmp { aw with d := 1 }) = some f ∧ tState.issues tLatch ∧ tState.guardsKnown tLatch f.word.g ∧
    ∀ x ∈ tLatch.lanesOf, tState.laneOn tLatch x f.word.g f.word.n ∧
      tState.laneReady tLatch x (aluOperands { f.shape with wd := false } f.word) f.shape.preds := ⟨_, rfl, by decide +kernel⟩
theorem witness_integer_element : ∃ v, exactInt (.iadd aw) = some (aw, v) ∧ aw.ty.toNat < 8 ∧ 1 < 64 / formatBits aw.ty.toNat := ⟨_, rfl, by decide⟩
theorem witness_shift_and_count : aw.ty.toNat < 8 ∧ 1 < 64 / formatBits aw.ty.toNat := by decide
theorem witness_float_nan :
    let w := { aw with ty := 10 }
    let L := (tSet fun t => t.writeV 3 0x7F800001).laneAt tLatch 0
    let r := aluIn w L (aluB w L)
    8 ≤ w.ty.toNat ∧ w.ty.toNat < 12 ∧ 0 < 64 / formatBits w.ty.toNat ∧
    [elem r.a.toNat 32 0, elem r.b.toNat 32 0].find? (nanCode w.ty.toNat) = some 0x7F800001 := by decide +kernel
theorem witness_branch_target : tState.issues tLatch ∧ tState.guardsKnown tLatch 7 ∧
    ∀ x ∈ tLatch.lanesOf, tState.laneOn tLatch x 7 false ∧ tState.goodTarget tLatch x { az with a := 9 } := by
  refine ⟨by decide +kernel, by decide +kernel, fun x hx => ⟨?_, ?_, ?_, ?_, fun h => absurd h (by decide)⟩⟩ <;> revert x <;> decide +kernel

/-- A bundle with the word pair `w` at VA 0. -/
def tCode (w : Nat) : State := { tState with mem := (State.reset.withFetchWord 64 w).mem }

/-- The words of the bundle at VA 0 that has the pair `w`. -/
def tBundle (w : Nat) : List Nat := match (tCode w).fetchBundle 1 0 0 with | .words ws => ws | _ => []

theorem witness_branch_pad : ∀ x ∈ tLatch.lanesOf, (tCode (w0 2 4 7 0 0 0 + 0xAB * 2 ^ 32)).goodTarget tLatch x { az with a := 9, b := 0x1AB } := by
  refine fun x hx => ⟨?_, ?_, ?_, fun _ => ⟨tBundle (w0 2 4 7 0 0 0 + 0xAB * 2 ^ 32), ?_, ?_⟩⟩ <;> revert x <;> decide +kernel
theorem witness_call : let s := tSet fun t => { t with cdepth := 15 }
    s.issues tLatch ∧ s.guardsKnown tLatch 7 ∧ ∀ x ∈ tLatch.lanesOf, s.laneOn tLatch x 7 false ∧ (s.thr (tLatch.key x)).cdepth < 16 := by decide +kernel
theorem witness_callx : let s := tSet fun t => { t with cdepth := 15 }
    ∀ x ∈ tLatch.lanesOf, s.goodTarget tLatch x { az with a := 9 } ∧ (s.thr (tLatch.key x)).cdepth < 16 := by
  refine fun x hx => ⟨⟨?_, ?_, ?_, fun h => absurd h (by decide)⟩, ?_⟩ <;> revert x <;> decide +kernel

def tReturn : State := { tSet (fun t => { t with cdepth := 1 }) with mem := (tCode (w0 2 9 7 0 0 0)).mem }
theorem witness_ret : tReturn.issues tLatch ∧ tReturn.guardsKnown tLatch 7 ∧
    ∀ x ∈ tLatch.lanesOf, let u := tReturn.thr (tLatch.key x)
      u.cdepth ≠ 0 ∧ ∃ ws, tReturn.codeAt tLatch x (u.readLink (u.cdepth - 1)).toNat ws ∧ isRegionWord (ws.getD 1 0) = true := by
  refine ⟨by decide +kernel, by decide +kernel, fun x hx => ⟨?_, tBundle (w0 2 9 7 0 0 0), ?_, ?_⟩⟩ <;> revert x <;> decide +kernel
theorem witness_region : ∀ x ∈ tLatch.lanesOf,
    let u := tState.thr (tLatch.key x)
    240 + 16 ≤ (tState.thrBlock u).allot ∧ tState.regionWaits (tLatch.key x) 240 0xFFFF = false ∧ u.trap = none := by decide +kernel
theorem witness_sleep : ∀ x ∈ tLatch.lanesOf, tState.laneOn tLatch x 7 false ∧
    tState.operandsFit tLatch x [{ field := 2, name := fieldName false false 3 0 }] := by decide +kernel
theorem witness_wrsr : ∀ x ∈ tLatch.lanesOf, tState.operandsFit tLatch x [{ field := 1, name := fieldName false false 2 0 }] ∧
    let v := (tState.readReg (tState.thr (tLatch.key x)) (fieldName false false 2 0)).toNat % 2 ^ 32
    v < 512 ∧ v % 8 ≠ 0 ∧ v % 8 ≠ 7 := by decide +kernel
theorem witness_region_next : ∀ x ∈ tLatch.lanesOf, tState.regionNext tLatch x := by
  intro x _; refine ⟨rfl, ?_⟩; show isRegionWord (w0 2 9 7 0 0 0) = true; decide
theorem witness_rejoin : tState.squadListed tLatch ∧ tState.noSites 1 0 = true ∧ tState.jwaitsSettled 1 0 = true ∧
    (∀ x ∈ tLatch.lanesOf, 32 * 0 + x < (tState.block 1).nthreads ∧ (tState.thr (tLatch.key x)).live = true ∧ (tState.thr (tLatch.key x)).wait = .ready) ∧
    ∀ x ∈ tLatch.lanesOf, tState.operandsFit tLatch x [sOperand 1 5] := by decide +kernel
theorem witness_exit : (∀ x ∈ tLatch.lanesOf, 32 * 0 + x < (tState.block 1).nthreads ∧ (tState.thr (tLatch.key x)).wait = .ready ∧
      (tState.thr (tLatch.key x)).held = none) ∧
    ∃ k ∈ tState.liveThreads 1, tState.arrives tLatch 7 false k = false ∧
      blockCore (tState.block 1) (tState.thr k).sq = blockCore (tState.block 1) 0 := by
  refine ⟨by decide +kernel, 2050, by decide +kernel, by decide +kernel⟩
/-- Block 1 with the two threads of the group alone. -/
def tPair : State := { tState with threads := tState.threads.take 2, blocks := tmod tState.blocks 1 fun b => { b with nthreads := 2 } }
theorem witness_exit_last : tPair.issues tLatch ∧ tPair.squadListed tLatch ∧ tPair.noSites 1 0 = true ∧ (∀ e ∈ tPair.unsettled, e = (1, 0)) ∧
    (tget tPair.blocks 1).isSome = true ∧ (tPair.block 1).status ≠ .complete ∧ (tget tPair.grids (tPair.block 1).grid).isSome = true ∧
    (∀ x ∈ tLatch.lanesOf, 32 * 0 + x < (tPair.block 1).nthreads ∧ tPair.laneOn tLatch x 7 false ∧ (tPair.thr (tLatch.key x)).held = none) ∧
    (∀ k ∈ tPair.liveThreads 1, tPair.arrives tLatch 7 false k = true) ∧ tPair.accs = [] ∧ (tPair.dies.all fun d => d.2.cloves.isEmpty) = true := by
  decide +kernel
theorem witness_yield : (tLatchIn { tLatch with eor := true }).issues { tLatch with eor := true } ∧
    (tLatchIn { tLatch with eor := true }).squadListed { tLatch with eor := true } := by decide +kernel
theorem witness_brk_none : tState.session = 0 ∧ (tSet id).dbg.dctl.getLsbD 6 = false ∧ tState.onLanes tLatch 7 true = [] := by decide +kernel

/-- A session on context 1 with BRK and WATCH set as said, whose sink is open. -/
def tDebug (dctl : Word) : State := { tState with dbg := { tState.dbg with dctl := dctl, sink := true } }
theorem witness_brk_other : ((tDebug 2).block 1).ctx ≠ (tDebug 2).session := by decide +kernel
theorem witness_brk_stop : let s := tDebug 65
    s.issues tLatch ∧ s.session ≠ 0 ∧ s.dbg.dctl.getLsbD 6 = true ∧ (s.block 1).ctx = s.session ∧ s.dbg.sink = true ∧ s.dbg.overflow = false ∧
    s.dbg.buffer.length < 1024 ∧ (s.onLanes tLatch 7 false).head? = some 0 ∧ (s.quad (s.thrCore (s.thr (tLatch.key 0)) / 4)).frozen = false := by
  decide +kernel

theorem witness_brk_write : let s := { tDebug 65 with dbg := { (tDebug 65).dbg with stops := [(100, { type := 2, code := 16 })] } }
    s.dbg.stops = [(100, { type := 2, code := 16 })] ∧ (2 : Nat) ≠ 1 ∧ s.dbg.sink = true ∧ s.dbg.overflow = false ∧ s.dbg.buffer.length < 1024 := by
  decide +kernel

theorem witness_brk_stepped : let s := { tDebug 1 with dbg := { (tDebug 1).dbg with stepping := true } }
    s.session ≠ 0 ∧ s.dbg.stepping = true ∧ (s.block 1).ctx = s.session ∧ (s.onLanes tLatch 7 false).head? = some 0 ∧
    (({ s with quads := tset s.quads 0 { s.quad 0 with frozen := true } } : State).quad 0).frozen = true := by decide +kernel

/-- The grid with a handler. -/
def tHandler (f : Thread → Thread) : State :=
  { tSet f with grids := tmod tState.grids 1 fun g => { g with rc := { g.rc with handler := 0x1000 } } }
theorem witness_trap_enters : let s := tHandler fun t => { t with trap := some (17, 0x80) }
    s.issues tLatch ∧ ∀ x ∈ tLatch.lanesOf, let u := s.thr (tLatch.key x)
      8 + 16 ≤ (s.thrBlock u).allot ∧ s.regionWaits (tLatch.key x) 8 5 = false ∧ u.trap.isSome = true ∧ s.canHandle (tLatch.key x) := by decide +kernel
theorem witness_tret : let s := tSet fun t => { t with frame := { isOpen := true, slot := {} } }
    s.issues tLatch ∧ ∀ x ∈ tLatch.lanesOf, let u := s.thr (tLatch.key x)
      u.frame.isOpen = true ∧ u.held = none ∧ ∀ a ∈ s.accs, a.thr = tLatch.key x → a.kind ≠ .load ∧ a.stage ≠ .cancelled := by decide +kernel
theorem witness_fault_enters : ∃ fault, faultForm (.iadd { aw with a := 256 }) = some (7, false, fault) ∧ (tHandler id).issues tLatch ∧
    ∀ x ∈ tLatch.lanesOf, (tHandler id).laneOn tLatch x 7 false ∧ (fault ((tHandler id).laneAt tLatch x)).isSome = true ∧ (tHandler id).canHandle (tLatch.key x) :=
  ⟨_, rfl, by decide +kernel⟩
theorem witness_fault_encoding : ∃ fault, faultForm (.reservedField 0 14) = some (7, false, fault) ∧
    ∀ x ∈ tLatch.lanesOf, (fault ((tHandler id).laneAt tLatch x)).isSome = true := ⟨_, rfl, by decide +kernel⟩
/-- A page of VA 0 with the entry `e`, V9 = `p` in each thread. -/
def tPage0 (e : Nat) (p : Word) : State :=
  { tHandler fun t => { t with v := [(9, p)] } with mem := writeBytes tState.mem 0x8000 8 e }
theorem witness_fault_memory : ∀ x ∈ [(2 ^ 32 + 31, BitVec.ofNat 64 (3 * 2 ^ 60), 0x0301), (2 ^ 32 + 31, 2, 0x0302), (2 ^ 32 + 27, 0, 0x0401)],
    ∃ fault, faultForm (.ld { mw with base := 9 }) = some (7, false, fault) ∧ (tPage0 x.1 x.2.1).issues tLatch ∧
      ∀ n ∈ tLatch.lanesOf, (fault ((tPage0 x.1 x.2.1).laneAt tLatch n)).map (·.code) = some x.2.2 ∧ (tPage0 x.1 x.2.1).canHandle (tLatch.key n) := by
  intro x hx; refine ⟨_, rfl, ?_⟩; revert x; decide +kernel
theorem witness_fault_stream : ∃ fault, faultForm (.st { mw with base := 9, strm := 2 }) = some (7, false, fault) ∧
    ∀ n ∈ tLatch.lanesOf, (fault ((tHandler fun t => { t with broken := 4 }).laneAt tLatch n)).map (·.code) = some 0x0501 := ⟨_, rfl, by decide +kernel⟩
theorem witness_fault_nested : ∃ fault, faultForm (.ret az) = some (7, false, fault) ∧
    let s := tHandler fun t => { t with frame := { isOpen := true, slot := {} } }
    ∀ x ∈ tLatch.lanesOf, (fault (s.laneAt tLatch x)).isSome = true ∧ (s.thr (tLatch.key x)).frame.isOpen = true ∧ (s.thr (tLatch.key x)).held = none :=
  ⟨_, rfl, by decide +kernel⟩
theorem witness_fault_halts : ∃ fault f0, faultForm (.ret az) = some (7, false, fault) ∧ tState.issues tLatch ∧
    (tState.grid (tState.block 1).grid).rc.handler = 0 ∧ (tget tState.ctxs 1).isSome = true ∧ (tState.ctx 1).status = .active ∧ tState.session ≠ 1 ∧
    (∀ a ∈ tState.accs, a.stage ≠ .cancelled) ∧
    (∀ x ∈ tLatch.lanesOf, (fault (tState.laneAt tLatch x)).isSome = true ∧ (tState.thr (tLatch.key x)).frame.isOpen = false) ∧
    (tState.onLanes tLatch 7 false).head? = some 0 ∧ fault (tState.laneAt tLatch 0) = some f0 :=
  ⟨_, { code := 0x0202 }, rfl, by decide +kernel⟩
theorem witness_srseed : (tget tState.blocks 1).isSome = true ∧
    ∀ x ∈ tLatch.lanesOf, tState.operandsFit tLatch x [{ field := 1, name := aluNameA { az with a := 2 } (tState.thr (tLatch.key x)) }] := by decide +kernel
theorem witness_mx : let big := mxRegs 0x14 + 1; let small := formatBits 10 / 2
    ∀ x ∈ tLatch.lanesOf, ∀ p ∈ [(big, small), (small, big)],
      tState.operandsFit tLatch x
        [{ field := 0, name := .v 20, count := p.1, rd := false, wr := true }, { field := 1, name := aluNameA { az with a := 40, ty := 10 } (tState.thr (tLatch.key x)), count := p.2 }] := by
  decide +kernel
theorem witness_lane_site : ∃ os ps, siteForm (.shfl { aw with c := 66 }) = some ({ aw with c := 66 }, 66, os, ps) ∧
    let s := tPair
    s.issues tLatch ∧ s.squadListed tLatch ∧ (tget s.blocks 1).isSome = true ∧ (∀ e ∈ s.unsettled, e = (1, 0)) ∧ s.noSites 1 0 = true ∧ s.jwaitsSettled 1 0 = true ∧
    ∀ x ∈ tLatch.lanesOf, 32 * 0 + x < (s.block 1).nthreads ∧ (s.thr (tLatch.key x)).live = true ∧ (s.thr (tLatch.key x)).wait = .ready ∧
      s.pendingReg (tLatch.key x) (fieldName true false 66 0) 1 = false ∧
      (∀ y, y < 32 → (s.siteOf tLatch (.shfl { aw with c := 66 }) { aw with c := 66 } 66 x).members.testBit y = true →
        y ∈ tLatch.lanesOf ∨ (s.liveMask 1 0).testBit y = false) ∧
      s.laneReady tLatch x os ps := ⟨_, _, rfl, by decide +kernel⟩
theorem witness_lane_values : ∀ i ∈ [Instr.vote { aw with b := 3 }, .vote { aw with b := 0 }, .matchLanes aw, .elect aw, .shfl aw, .shflx aw, .lred aw, .lscan aw],
    let site := fun x => tPair.siteOf tLatch i aw 66 x
    ([site 0, site 1].map (·.t.lane)).Pairwise (· < ·) ∧ (∀ a ∈ [site 0, site 1], a.t.lane < 32) ∧ (site 1).members < 2 ^ 32 ∧ (site 1).i = i := by
  decide +kernel
theorem witness_lane_combine : (4 : Nat) < 8 ∧ 5 < 2 ^ formatBits 4 ∧ 2 ^ 31 < 2 ^ formatBits 4 := by decide
theorem witness_balloc : (tget tState.blocks 1).isSome = true ∧ tState.onLanes tLatch 7 false ≠ [] ∧ (4 : BitVec 9).toNat < 64 ∧
    ∀ x ∈ tLatch.lanesOf, tState.operandsFit tLatch x ([sOperand 0 4 1 false true] ++ [sOperand 2 5]) ∧
      1 = ((tState.laneAt tLatch x).sq 5).toNat % 2 ^ 21 := by decide +kernel

/-- Barrier slot 0 of quad 0 in use with generation 1: its handle is 0x10000, in S7. -/
def tBarrier (b : BarrierSlot) : State :=
  { tState with quads := tset tState.quads 0 ((tState.quad 0).setBarrier 0 b)
                squads := tmod tState.squads 64 fun q => { q with s := [(7, 0x10000)] } }
def tSlot : BarrierSlot := { allot := true, gen := 1, hold := 1, ctx := 1, init := 2, arr := 2 }
theorem witness_bref_bfree : let s := tBarrier tSlot
    s.issues tLatch ∧ (∀ x ∈ tLatch.lanesOf, s.operandsFit tLatch x [sOperand 1 7] ∧ 0x10000 = ((s.laneAt tLatch x).sq 7).truncate 32 ∧
      s.current (s.block 1).ctx 0x10000 = true) ∧ (s.slotOf (handleOf 0x10000)).hold < 65535 ∧ 1 ≤ (s.slotOf (handleOf 0x10000)).hold := by decide +kernel
theorem witness_tile : (∀ x ∈ tLatch.lanesOf, tState.operandsFit tLatch x [sOperand 1 20 2] ∧ tState.operandsFit tLatch x [sOperand 0 62 2 false true]) ∧
    tileReserved (((tState.squad 1 0).readS 20).toNat + ((tState.squad 1 0).readS 21).toNat * 2 ^ 64) = none := by decide +kernel
theorem witness_slice : let s := { tState with quads := tset tState.quads 0 ((tState.quad 0).setBank 0 { occupant := some 1 }) }
    s.issues tLatch ∧ (s.bank 0 0).poisoned = false ∧ ∀ row ∈ [true, false], ∀ reads ∈ [true, false], ∀ x ∈ tLatch.lanesOf,
      s.mayMove tLatch x { az with d := 20, a := 9, b := 0, c := 0 } row reads := by decide +kernel
theorem witness_rkacq : ∀ x ∈ tLatch.lanesOf, tState.operandsFit tLatch x ([sOperand 0 4 1 false true] ++ [sOperand 2 5]) ∧
    1 = ((tState.laneAt tLatch x).sq 5).toNat := by decide +kernel
theorem witness_rkrel : ∀ x ∈ tLatch.lanesOf, tState.operandsFit tLatch x [sOperand 1 5] ∧ 1 = ((tState.laneAt tLatch x).sq 5).toNat % 65536 := by
  decide +kernel
theorem witness_rkrel_bank : let s := { tState with quads := tset tState.quads 0 ((tState.quad 0).setBank 0 { occupant := some 1 }) }
    (s.block 1).banks.getLsbD 0 = true ∧ (s.bank 0 0).occupant = some 1 ∧ s.commandsOn 0 = [] ∧ s.moveWaits 1 0 = false := by decide +kernel

/-- The group of lane 0 alone; the page of VA 0 is resident and readable. -/
def tOne : Latch := { tLatch with lanes := 1 }
theorem witness_prefetch : let s := tLatchIn tOne
    s.issues tOne ∧ (∀ x ∈ tOne.lanesOf, s.operandsFit tOne x [{ field := 2, name := memBase { mw with base := 9 } false }]) ∧ s.onLanes tOne 7 false = [0] ∧
    pointer (s.laneAt tOne 0).block (s.laneAt tOne 0).rank .any ((s.laneAt tOne 0).ea { mw with base := 9 } false) 1 0 = .ok (.global 0) ∧
    (∃ pa e lv, s.translate (s.laneAt tOne 0).block.ctx 0 (coreDie (s.thrCore (s.laneAt tOne 0).t)) .read = .ok pa e lv ∧ inHbm pa = true ∧
      s.lines = [] ∧ s.asked (lineOf pa) = false ∧ (s.packetsAt (stackOf (lineOf pa * 128))).length < 1024) := by
  refine ⟨by decide +kernel, by decide +kernel, by decide +kernel, rfl, 0x10000, 2 ^ 32 + 31, 3, by decide +kernel⟩
theorem witness_access : ∃ f, issueForm (.ld { mw with base := 9 }) = some f ∧ tState.issues tLatch ∧ tState.guardsKnown tLatch f.g ∧ tState.noWatch ∧
    f.commits = false ∧ ∀ x ∈ tLatch.lanesOf, tState.mayAccess tLatch x f := by
  refine ⟨_, rfl, by decide +kernel, by decide +kernel, by decide +kernel, rfl, fun x hx => ⟨?_, ?_, ?_, trivial, fun g hg => ?_⟩⟩
  · revert x; decide +kernel
  · revert x; decide +kernel
  · revert x; decide +kernel
  · cases hg; revert x; decide +kernel

/-- The page of VA 0 is not resident; `n` accesses of core 0 stand in its log. -/
def tAbsent (n : Nat) : State :=
  { tLatchIn tOne with
    mem := writeBytes tState.mem 0x8000 8 (2 ^ 32 + 30), owned := true, owner := 2
    accs := (List.range n).map fun i =>
      { id := 100 + i, thr := 2050, blk := 1, ctx := 1, core := 0, pc := 4, execId := 0, strm := 1, pred := 0, kind := .load, ea := 0, size := 8,
        stage := .logged 0 } }
theorem witness_access_logged : ∃ f, issueForm (.ld { mw with base := 9 }) = some f ∧ ∀ n ∈ [63, 64], let s := tAbsent n
    let L := s.laneAt tOne 0
    ∃ g, f.through L = some g ∧ s.issues tOne ∧ s.guardsKnown tOne f.g ∧ s.noWatch ∧ s.onLanes tOne f.g f.n = [0] ∧ (f.acc L).kind = .load ∧
    s.operandsFit tOne 0 (f.ops L.t) ∧ brokenNamed L.t f.strm.toNat f.pred.toNat = 0 ∧ L.t.bead f.strm.toNat < 32 ∧
    (match pointer L.block L.rank g.takes g.p g.ask.size (sizeCode g.ask.size) with | .ok (.global 0) => true | _ => false) = true ∧
    s.translate L.block.ctx 0 (coreDie (s.thrCore L.t)) g.ask.need = .notResident 3 ∧ s.active L.block.ctx ∧ s.logUsed 0 = n ∧
    (s.ctx 1).report (s.absentPage 1 0).1 = none := by
  refine ⟨_, rfl, fun n hn => ⟨_, rfl, ?_⟩⟩; revert n; decide +kernel

/-! ## Witnesses: accesses in flight -/

theorem quiet_of {s : State} (h : s.notices = [] ∧ s.acks = [] ∧ (s.accs.all fun a => match a.stage with | .acked _ _ => false | _ => true) = true) : s.quiet := by
  refine ⟨h.1, h.2.1, fun x hx n st hs => ?_⟩
  have := List.all_eq_true.1 h.2.2 x hx
  rw [hs] at this
  exact Bool.noConfusion this

/-- An access of thread 1 of the block, to VA 0x400, whose page lies in frame 1. -/
def tAcc : Access :=
  { id := 5, thr := 2049, blk := 1, ctx := 1, core := 0, pc := 0x44, execId := 5, strm := 2, pred := 0, kind := .load, ea := 0x400, size := 8,
    key := some 0x10400, dests := [.v 20 0] }

/-- Those accesses in flight; the page of VA 0 has the class `cls`; core 0 and die 0 hold the line of its byte 0x400; packages 1 and 3. -/
def tFlight (cls : Nat) (accs : List Access) : State :=
  { tState with
    accs := accs, mem := writeBytes tState.mem 0x8000 8 (2 ^ 32 + 31 + 512 * cls)
    lines := [{ level := .l1 0, line := lineOf 0x10400 }, { level := .l2 0, line := lineOf 0x10400 }]
    links := { tState.links with routes := [(3, { port := 2 })], packageId := 1 }
    time := 10000000 }
/-- The first byte of a scratchpad place of block 1. -/
def tScratch : Nat := 2 ^ 48 + 4 * 2 ^ 18 + 0x40
def tHost : Nat := hostKey 0x5000
def tRemote : Word := BitVec.ofNat 64 (4 * 2 ^ 60 + 3 * 2 ^ 46 + 64)

theorem witness_load_scratch : let a := { tAcc with key := some tScratch }; let s := tFlight 3 [a]
    s.dueNow a ∧ s.noWatch ∧ a.partsLeft ≠ [] ∧ s.ownStore a = none ∧ 2 ^ 48 ≤ tScratch ∧ s.poisoned tScratch 8 = false := by decide +kernel
theorem witness_load_l1 : ∀ a ∈ [tAcc, { tAcc with size := 32, got := [0], data := 7 }], let s := tFlight 3 [a]
    s.dueNow a ∧ a.partsLeft ≠ [] ∧ s.ownStore a = none ∧ s.classWaits 1 a.va (some 0) = false ∧ s.keepsClass a 0 false ∧
    s.lineHeld (lineOf 0x10400) = false ∧ (s.holds (.l1 0) (lineOf 0x10400)).isSome = true ∧ s.poisoned 0x10400 a.size = false ∧
    homeDie 0x10400 = some (coreDie 0) := by decide +kernel
theorem witness_load_asks : let s := { tFlight 3 [tAcc] with lines := [] }
    s.dueNow tAcc ∧ s.ownStore tAcc = none ∧ inHbm 0x10400 = true ∧ s.keepsClass tAcc 0 false ∧ s.lineHeld (lineOf 0x10400) = false ∧ s.lines = [] ∧
    homeDie 0x10400 = some (coreDie 0) ∧ s.probes tAcc tAcc.va (lineOf 0x10400) = none ∧
    s.asked (lineOf 0x10400) = false ∧ (s.packetsAt (stackOf (lineOf 0x10400 * 128))).length < 1024 := by decide +kernel
theorem witness_load_probes : let a := { tAcc with core := 8 }; let s := { tFlight 2 [a] with cores := [(8, { predictor := [(0, (0, 0))] })] }
    s.dueNow a ∧ s.ownStore a = none ∧ s.keepsClass a 8 false ∧ s.classWaits 1 a.va (some 8) = false ∧ s.lineHeld (lineOf 0x10400) = false ∧
    (s.probes a a.va (lineOf 0x10400)).isSome = true := by decide +kernel
theorem witness_load_probing : let a := { tAcc with core := 8, probe := some (0, lineOf 0x10400) }; let s := tFlight 2 [a]
    s.dueNow a ∧ s.ownStore a = none ∧ a.probe.isSome = true ∧ s.keepsClass a 8 false ∧ s.classWaits 1 a.va (some 8) = false := by decide +kernel
theorem witness_load_class : let a := { tAcc with core := 8 }; let s := tFlight 1 [{ tAcc with id := 4, thr := 2048 }, a]
    s.dueNow a ∧ s.ownStore a = none ∧ s.classWaits 1 a.va (some 8) = true := by decide +kernel
theorem witness_load_sent : let a := { tAcc with key := some tHost }; let b := { tAcc with key := none, ea := tRemote }
    (tFlight 3 [a]).dueNow a ∧ (tFlight 3 [a]).ownStore a = none ∧ inHost tHost = true ∧ tHost < 2 ^ 48 ∧ (tFlight 3 [a]).ideDenied 1 0 = false ∧
    (tFlight 3 [a]).links.hostUp = true ∧ (tFlight 3 [b]).dueNow b ∧ b.package ≠ (tFlight 3 [b]).links.packageId ∧
    tget (tFlight 3 [b]).links.routes b.package = some { port := 2 } := by decide +kernel
/-- An older store of the same thread that covers the load. -/
def tOwn : Access := { tAcc with id := 3, kind := .store, data := 0x1122334455667788, size := 32, dests := [], strm := 3 }
theorem witness_load_own : let a := { tAcc with ea := 0x408, key := some 0x10408 }; let s := { tFlight 3 [tOwn, a] with lines := [] }
    s.dueNow a ∧ a.partsLeft ≠ [] ∧ a.got = [] ∧ s.ownStore a = some tOwn ∧ tOwn.masked = [] ∧ tOwn.key = some 0x10400 := by decide +kernel
theorem witness_load_bound : let a := { tAcc with dests := [], stage := .bound 3 9 }
    (let s := tFlight 3 [a]; s.acc 5 = some a ∧ s.hasIssuer a ∧ s.noWatch ∧ s.acc 3 = none) ∧ (tFlight 3 [tOwn, a]).acc 3 ≠ none := by decide +kernel

def tStore (core : Nat) (key : Nat) : Access := { tAcc with kind := .store, dests := [], core := core, key := some key, data := 77 }
theorem witness_store_places :
    (let a := tStore 0 tScratch; (tFlight 3 [a]).acc 5 = some a ∧ (tFlight 3 [a]).hasIssuer a ∧ (tFlight 3 [a]).waits a = false ∧ a.partsLeft ≠ []) ∧
    (let a := tStore 0 0x10400; let s := tFlight 3 [a]; s.writeWaits a 0x10400 = none ∧ s.keepsClass a 0 true ∧ s.classOf 1 a.va ≠ 1 ∧
      s.exclusive 0 (lineOf 0x10400) = false ∧ homeDie 0x10400 = some (coreDie 0)) ∧
    (let a := tStore 0 0x10400; let s := tFlight 1 [a]; s.writeWaits a 0x10400 = none ∧ s.keepsClass a 0 true ∧ s.classOf 1 a.va = 1) ∧
    (let a := tStore 0 0x10400; let s := { tFlight 3 [a] with lines := [{ level := .l1 0, line := lineOf 0x10400, excl := true }] }
     s.writeWaits a 0x10400 = none ∧ s.keepsClass a 0 true ∧ s.exclusive 0 (lineOf 0x10400) = true) ∧
    (let a := tStore 0 tHost; inHost tHost = true ∧ (tFlight 3 [a]).ideDenied 1 0 = false ∧ (tFlight 3 [a]).links.hostUp = true) := by decide +kernel
theorem witness_store_away : let a := { tStore 192 0x10400 with size := 16, got := [1] }; let s := tFlight 3 [a]
    s.waits a = false ∧ a.partsLeft ≠ [] ∧ s.writeWaits a 0x10400 = none ∧ s.keepsClass a 192 true ∧ s.classOf 1 a.va ≠ 1 ∧ s.quiet ∧
    s.exclusive 192 (lineOf 0x10400) = false ∧ homeDie 0x10400 = some 0 ∧ 0 ≠ coreDie 192 ∧ (0 < a.size ∧ 0 ∉ a.masked) := by
  exact ⟨by decide +kernel, by decide +kernel, by decide +kernel, by decide +kernel, by decide +kernel, quiet_of (by decide +kernel), by decide +kernel⟩
theorem witness_store_class : let a := tStore 8 0x10400; let s := tFlight 1 [{ tAcc with id := 4, thr := 2048 }, a]
    s.waits a = false ∧ s.duplicated 1 a.va = false ∧ s.classWaits 1 a.va (some 8) = true := by decide +kernel
theorem witness_store_acked : let a := { tStore 192 0x10400 with stage := .acked 0 [1, 0, 0, 0] }; let s := tFlight 3 [a]
    s.acc 5 = some a ∧ s.hasIssuer a ∧ a.stage = .acked 0 [1, 0, 0, 0] ∧ a.partsLeft = [0] ∧ 0 ≠ coreDie 192 ∧ s.notices = [] ∧ s.acks = [] ∧
    countLe ((s.die 1).clock.getD 0 0) (([1, 0, 0, 0] : List Nat).getD 0 0) = true ∧ ∀ x ∈ s.accs, x = a := by decide +kernel

def tAtomic (scope : Nat) (key : Option Nat) : Access := { tAcc with kind := .atomic { code := 0, var := false } true, scope := scope, key := key, data := 5 }
theorem witness_atomic_due :
    (let a := tAtomic 4 (some tScratch); (tFlight 3 [a]).due 5 = some a ∧ (tFlight 3 [a]).poisoned tScratch 8 = false) ∧
    (∀ scope ∈ [1, 2], let a := tAtomic scope (some 0x10400); let s := tFlight 3 [a]; s.hasIssuer a ∧ s.due 5 = some a ∧ s.writeWaits a 0x10400 = none ∧
      s.atomCore a = 0 ∧ s.classWaits 1 a.va (some 0) = false ∧ s.keepsClass a 0 true ∧ homeDie 0x10400 = some (coreDie 0) ∧
      (s.holds (.l1 0) (lineOf 0x10400)).isSome = true) ∧
    (let a := tAtomic 4 (some 0x10400); let s := tFlight 3 [a]; s.hasIssuer a ∧ s.due 5 = some a ∧ s.writeWaits a 0x10400 = none ∧
      s.classWaits 1 a.va (some 0) = false ∧ homeDie 0x10400 = some (coreDie 0) ∧ s.sectorsAt (.l2 0) (lineOf 0x10400) = 15 ∧ s.keepsClass a 0 true) := by
  decide +kernel
theorem witness_atomic_far : let a := tAtomic 6 (some 0x10400); let s := { tFlight 3 [a] with lines := [] }
    s.due 5 = some a ∧ s.writeWaits a 0x10400 = none ∧ inHbm 0x10400 = true ∧ s.classWaits 1 a.va (some 0) = false ∧ s.keepsClass a 0 true ∧
    s.lines = [] ∧ homeDie 0x10400 = some (coreDie a.core) ∧
    (s.leaf 1 a.va).map (fun x => (pteClass x.2.1, x.2.2)) = some (3, 3) ∧ (s.packetsAt (stackOf 0x10400)).length < 1024 := by decide +kernel
theorem witness_atomic_packet : let a := { tAtomic 6 (some 0x10400) with stage := .atBase }
    let s := { tFlight 3 [a] with packets := [(stackOf 0x10400, [.atomic 4 5])] }
    s.acc 5 = some a ∧ s.packetsAt (stackOf 0x10400) = [.atomic 4 5] ∧ s.evicted = [] ∧ s.notices = [] ∧ s.accs = [a] ∧ s.keyGone a = none := by
  decide +kernel

def tSent (kind : AccessKind) (key : Option Nat) : Access :=
  { tAcc with stage := .sent, kind := kind, key := key, ea := if key.isSome then 0x400 else tRemote, dests := if kind = .store then [] else [.v 20 0] }
theorem witness_answers : ∀ k ∈ [AccessKind.load, .store, .atomic { code := 9, var := false } true], ∀ key ∈ [some tHost, none],
    let a := tSent k key; let s := tFlight 3 [a]
    s.acc 5 = some a ∧ a.stage = .sent ∧ s.hasIssuer a ∧ s.canTell a := by decide +kernel
theorem witness_timeout : let a := tSent .load none; let s := tFlight 3 [a]
    tget s.links.routes a.package = some { port := 2 } ∧ a.sentAt + 10000000 ≤ s.time.toNat ∧ s.canTell a ∧ s.waitsHere a.id = false ∧
    ({ s with remote := [{ src := s.links.packageId, offset := 0, size := 8, kind := .read, tag := a.id }] } : State).waitsHere a.id = true := by decide +kernel

/-! ## Witnesses: barrier units, cloves, engines and banks -/

def tSync (op : SyncOp) : Access := { tAcc with kind := .sync op, ea := 0x10000, key := none, dests := [], size := 0 }
/-- An operation on the barrier of handle 0x10000, whose slot is `b`. -/
def tUnit (op : SyncOp) (b : BarrierSlot) : State := { tBarrier b with accs := [tSync op] }
theorem witness_barrier_moves :
    (let s := tUnit (.expect 0 7) tSlot; s.dueNow (tSync (.expect 0 7)) ∧ s.current 1 0x10000 = true ∧ tSlot.fits 0 7) ∧
    (let s := tUnit (.arrive 2 0) tSlot; s.dueNow (tSync (.arrive 2 0)) ∧ tSlot.fits (-2) 0) := by decide +kernel
theorem witness_barrier_reads : let b := { tSlot with phase := 1 }
    (tUnit (.test 0) b).dueNow (tSync (.test 0)) ∧ b.past 0 ∧ ¬ b.past 1 ∧ b.past 32769 ∧ ¬ b.past 32768 ∧
    (let s := (tUnit (.wait 0) b).modThr 2049 fun t => { t with wait := .bwait 5 }
     s.dueNow (tSync (.wait 0)) ∧ (s.thr 2049).wait = .bwait 5 ∧ (s.thr 2049).held = none) := by decide +kernel
/-- The same access from die 1, whose clock does not hold the count of the slot's die. -/
def tFar (op : SyncOp) : Access := { tSync op with core := 192 }
def tFarUnit (op : SyncOp) (b : BarrierSlot) : State := { tUnit op b with accs := [tFar op], dies := tset tState.dies 0 { tState.die 0 with clock := [1, 0, 0, 0] } }
theorem witness_barrier_clock :
    (∀ op ∈ [SyncOp.arrive 1 0, .test 0], let s := tFarUnit op tSlot
      s.dueNow (tFar op) ∧ s.current 1 0x10000 = true ∧ s.notices = [] ∧ s.accs = [tFar op] ∧ (s.thr 2049).held = none ∧ tSlot.fits (-1) 0 ∧
      (handleOf 0x10000).dquad / 48 ≠ coreDie 192 ∧ countLe ((s.die 0).clock.getD 0 0) ((s.die 1).clock.getD 0 0) = false ∧
      countLe ((s.die 1).clock.getD 0 0) ((s.die 0).clock.getD 0 0) = true) ∧
    (let s := (tFarUnit (.wait 0) { tSlot with phase := 1 }).modThr 2049 fun t => { t with wait := .bwait 5 }
     s.dueNow (tFar (.wait 0)) ∧ (s.thr 2049).wait = .bwait 5 ∧ ({ tSlot with phase := 1 } : BarrierSlot).past 0) := by decide +kernel
theorem witness_barrier_stale : let s := tUnit (.expect 0 7) { tSlot with gen := 2 }
    s.dueNow (tSync (.expect 0 7)) ∧ s.current 1 0x10000 = false ∧ (tSync (.expect 0 7)).ea.toNat < 2 ^ 32 ∧ s.canTell (tSync (.expect 0 7)) := by decide +kernel
def tCredit : Credit := { handle := 0x10000, bytes := 5, thr := 2049, blk := 1, ctx := 1, pc := 0x88, origin := 2, arrivals := 1, acc := 5 }
theorem witness_credit :
    (let s := { tBarrier tSlot with credits := [(7, tCredit)] }
     tget s.credits 7 = some tCredit ∧ s.acc 5 = none ∧ s.current 1 0x10000 = true ∧ tSlot.fits (-1) (-5)) ∧
    (let s := { tBarrier { tSlot with gen := 2 } with credits := [(7, tCredit)] }
     s.current 1 0x10000 = false ∧ (s.thr 2049).live = true ∧ (s.thr 2049).blk = 1 ∧ (s.thr 2049).held = none) ∧
    (let a := { tSync (.expect 0 0) with stage := .crediting }; let s := { tBarrier tSlot with credits := [(7, tCredit)], accs := [a] }
     s.acc 5 = some a ∧ s.hasIssuer a ∧ a.dests = [] ∧ tCredit.stamp = []) ∧
    (let c := { tCredit with stamp := [0, 3, 0, 0] }; let s := { tBarrier tSlot with credits := [(7, c)] }
     tget s.credits 7 = some c ∧ s.notices = [] ∧ s.accs = [] ∧ 1 ≠ (handleOf c.handle).dquad / 48 ∧
     countLe ((s.die 0).clock.getD 1 0) (c.stamp.getD 1 0) = true) := by decide +kernel

theorem witness_unit_quiet : ∀ s ∈ [tFarUnit (.arrive 1 0) tSlot, tFarUnit (.test 0) tSlot, tBarrier tSlot], s.quiet := by
  intro s hs; refine quiet_of ?_; revert s; decide +kernel

/-- Clove 7 of die 0. -/
def tClove (x : Clove) (op : SyncOp) : State := { tState with dies := tset tState.dies 0 { tState.die 0 with cloves := [(7, x)] }, accs := [tSync op] }
def tMember : Clove := { active := true, n := 3, timer := 5, ctx := 1, members := [((8, 1), 4)], nextSeq := 6 }
theorem witness_clove_join :
    (tClove {} (.cjoin 7 1)).dueNow (tSync (.cjoin 7 1)) ∧ ((tClove {} (.cjoin 7 1)).clove 0 7).active = false ∧
    (let s := tClove tMember (.cjoin 7 3); s.dueNow (tSync (.cjoin 7 3)) ∧ (s.clove 0 7).active = true ∧ (s.clove 0 7).ctx = 1 ∧ (s.clove 0 7).n = 3 ∧
      ∀ m ∈ (s.clove 0 7).members, m.1 ≠ (0, 1)) ∧
    (let s := tClove tMember (.cjoin 7 2); (s.clove 0 7).n ≠ 2 ∧ s.canTell (tSync (.cjoin 7 2)) ∧ (s.die 0).holds = []) := by decide +kernel
theorem witness_clove_leave : let s := tClove { tMember with members := [((0, 1), 4)] } (.cleave 7)
    s.dueNow (tSync (.cleave 7)) ∧ ∃ m ∈ (s.clove 0 7).members, m.1 = (0, 1) := by
  refine ⟨by decide +kernel, ((0, 1), 4), by decide +kernel⟩

/-- A record of one dimension of 40 f32 elements at VA 0x400 with a box of 32 (09 Table 9.6). -/
def tRecord : Nat := 0x400 + 0x0A * 2 ^ 64 + 1 * 2 ^ 72 + 40 * 2 ^ 128 + 32 * 2 ^ (8 * 0x48)
def tPlace (o : Nat) : Word := BitVec.ofNat 64 (2 ^ 60 + o)
def tCopy (op : EngineOp) (stage : Stage) : Access :=
  { tAcc with kind := .engine op, ea := tPlace 0x1000, key := some (scratchKey 1 0 + 0x1000), dests := [], stage := stage, size := 0 }
def tCloveOp : EngineOp := .copy .ld true (tPlace 0x1000) (tPlace 0x80) 2 0 (BitVec.ofNat 64 (7 * 2 ^ 32))
def tEngine (a : Access) (x : Clove) (hs : List Hold) : State :=
  { tFlight 3 [a] with mem := writeBytes (tFlight 3 []).mem (scratchKey 1 0 + 0x1000) 128 tRecord
                       dies := tset tState.dies 0 { tState.die 0 with cloves := [(7, x)], holds := hs } }
theorem witness_clove_request : let a := tCopy tCloveOp .issued
    let x := { tMember with members := [((8, 1), 4), ((0, 1), 6)] }
    let s := tEngine a x []
    s.acc 5 = some a ∧ s.waits a = false ∧ a.key = some (scratchKey 1 0 + 0x1000) ∧ s.poisoned (scratchKey 1 0 + 0x1000) 128 = false ∧
    s.readMem (scratchKey 1 0 + 0x1000) 128 = tRecord ∧ trecBad tRecord = none ∧
    boxFault (s.block 1) (readTrec tRecord) (tPlace 0x80) (a.scratchAt (tPlace 0x80)).2
      (coordinates (readTrec tRecord).rank 2 0 (BitVec.ofNat 64 (7 * 2 ^ 32))) = none ∧
    (x.members.find? fun m => m.1 == (0, 1)) = some ((0, 1), 6) ∧ x.nextSeq ≤ 6 ∧ x.reached = false ∧ s.asksFirst a = false ∧
    ∀ h ∈ (s.die 0).holds, h.clove ≠ 7 := by decide +kernel
theorem witness_clove_expiry : let h : Hold := { clove := 7, seq := 6, reqs := [5], left := 0 }
    let a := tCopy tCloveOp (.inHold 0 7 6 tRecord)
    let s := { tEngine a tMember [h] with lines := [{ level := .l2 0, line := lineOf 0x10400 }, { level := .l2 0, line := lineOf 0x10480 }] }
    (s.die 0).holds.find? (fun y => y.clove == 7 && y.seq == 6) = some h ∧ h.released = false ∧ (s.clove 0 7).active = true ∧
    (let box := readTrec tRecord
     let reader := { a with noAlloc := box.noAlloc }
     let parts := box.parts (coordinates box.rank 2 0 (BitVec.ofNat 64 (7 * 2 ^ 32))) 0 true
     let counted := s.modClove 0 7 fun y => { y with nextSeq := max y.nextSeq (6 + 1), timerRel := y.timerRel + 1 }
     let read := parts.foldl (fun b p => b.step reader p) { state := counted.walkAhead reader parts : BoxRead }
     read.absent = false ∧ read.fault.isNone = true) := by decide +kernel
theorem witness_copy : let a := tCopy (.copy .sp false (tPlace 0x40) (tPlace 0x80) 32 0 0) .issued
    let s := tFlight 3 [a]
    s.acc 5 = some a ∧ s.hasIssuer a ∧ s.waits a = false ∧ s.poisoned (a.scratchAt (tPlace 0x40)).1 32 = false ∧ a.barrier = 0 ∧
    ((32 : Word).toNat % 2 ^ 18 ≠ 0) := by decide +kernel
theorem witness_copy_last : let l := scratchKey 1 0 + 0x80
    let a := tCopy (.copy .ld false (tPlace 0) (tPlace 0x80) 32 0 0) (.moving [.put (.key (8 * l)) [.mem (.va (8 * 0x400)) (8 * 16)]] [] 16 false)
    let s := tFlight 3 [a]
    s.acc 5 = some a ∧ a.barrier = 0 ∧ 2 ^ 48 ≤ l ∧ s.translate 1 0x400 (coreDie 0) .read = .ok 0x10400 (2 ^ 32 + 31 + 1536) 3 ∧ inHost 0x10400 = false ∧
    s.poisoned 0x10400 16 = false ∧ s.classWaits 1 0x400 none = false ∧ s.lineHeld (lineOf 0x10400) = false ∧ s.classify 1 0x400 none false = s ∧
    homeDie 0x10400 = some (coreDie 0) ∧ s.sectorsAt (.l2 (coreDie 0)) (lineOf 0x10400) = 15 := by decide +kernel

def tCommand (pre : Nat) : Command :=
  { id := 7, pre0 := pre, pre1 := 255, mode := 0, bank := 2, trans := 0, m := 2, n := 2, k := 3
    ah := BitVec.ofNat 128 (2 ^ 20 + 0x0A * 2 ^ 24 + 4 * 2 ^ 32 + 4 * 2 ^ 48 + 64 * 2 ^ 64)
    bh := BitVec.ofNat 128 (512 + 2 ^ 20 + 0x0A * 2 ^ 24 + 4 * 2 ^ 32 + 4 * 2 ^ 48 + 64 * 2 ^ 64)
    ash := none, bsh := none, topk := 0, order := 0, done := 0 }
def tMma (stage : Stage) : Access := { tAcc with kind := .mma (tCommand 255), ea := 0, key := none, dests := [], size := 0, stage := stage }
def tBanks (a : List Access) (b : Bank) : State := { tState with accs := a, quads := tset tState.quads 0 ((tState.quad 0).setBank 2 b) }
theorem witness_command_accept : let s := tBanks [tMma .issued] { occupant := some 1 }
    s.acc 5 = some (tMma .issued) ∧ s.hasIssuer (tMma .issued) ∧ (s.quad 0).hung = false ∧ s.inFlight 0 = [] ∧
    ∀ x ∈ s.commandsOn 0, x.2.id = 7 → x.1.stage ≠ .issued ∨ 5 ≤ x.1.id := by decide +kernel
theorem witness_command_start : let s := tBanks [tMma (.accepted [3] 4)] { occupant := some 1 }
    s.acc 3 = none ∧ s.waits (tMma (.accepted [3] 4)) = false ∧ (s.quad 0).hung = false ∧ (s.bank 0 2).occupant = some 1 ∧ (s.bank 0 2).handover = none ∧
    s.moveBlocks 1 2 5 = false ∧ ∀ x ∈ s.commandsOn 0, x.2.bank = 2 → x.1.stage.isExecuting = false := by decide +kernel
theorem witness_command_retire : let s := tBanks [tMma (.executing 4)] { occupant := some 1 }
    s.mmaPoisoned 1 (tCommand 255) = false ∧ (s.bank 0 2).poisoned = false ∧ (s.block 1).banks.getLsbD 2 = true ∧
    (tCommand 255).mode.testBit 2 = false ∧ (tCommand 255).m ≤ 128 ∧ (tCommand 255).n ≤ 128 ∧ (tCommand 255).done = 0 := by decide +kernel
/-- Bank 2 held by block 2, and a command of block 1 that waits for it. -/
def tSwitch (h : Option Nat) : State := tBanks [tMma (.accepted [] 4)] { occupant := some 2, dirty := true, held := 100000000, handover := h }
theorem witness_bank_switch : let s := tSwitch none
    (s.bank 0 2).occupant = some 2 ∧ s.bankBusy 0 2 = false ∧ (firstWaiter (s.bankWaiters 0 2)).map (·.1) = some 1 ∧ s.bankYields 0 2 = true := by decide +kernel
theorem witness_bank_handover : let s := tSwitch (some 1)
    s.bankBusy 0 2 = false ∧ (s.bank 0 2).handover = some 1 ∧ (s.block 1).banks.getLsbD 2 = true := by decide +kernel
theorem witness_bank_hang : (let s := tBanks [tMma (.executing (2 ^ 20))] { occupant := some 1 }
      ∃ x ∈ s.commandsOn 0, ∃ n, x.1.stage = .executing n ∧ 2 ^ 20 ≤ n) ∧
    2 ^ 20 ≤ ((tState.modQuad 0 fun q => { q with idleReck := 2 ^ 20 }).quad 0).idleReck ∧ ((tState.modQuad 0 fun q => { q with hung := true }).quad 0).hung = true :=
  ⟨⟨(tMma (.executing (2 ^ 20)), tCommand 255), by decide +kernel, 2 ^ 20, by decide +kernel⟩, by decide +kernel⟩

/-! ## Witnesses: packets and pages -/

theorem witness_packets :
    ({ tState with packets := [(0, [.read 4 520 15 false 0])] } : State).packetsAt 0 = [.read 4 520 15 false 0] ∧
    ({ tState with packets := [(0, [.write 4 520 15])] } : State).packetsAt 0 = [.write 4 520 15] ∧ tState.evicted = [] ∧
    ({ tState with packets := [(0, [.read 3 520 1 false 0, .write 4 520 3])] } : State).packetsAt 0 = [.read 3 520 1 false 0, .write 4 520 3] ∧
    (3 : BitVec 4) &&& 1 ≠ 0 ∧ tState.accs = [] ∧
    ({ tState with notices := [{ src := 3, dst := 1, line := 520, stamp := [4, 5, 6, 7] }] } : State).notices = [{ src := 3, dst := 1, line := 520, stamp := [4, 5, 6, 7] }] := by
  decide +kernel
/-- Die 3 has counted one write of its own, of which die 1 does not know. -/
def tAhead : State := { tState with dies := tset tState.dies 3 { clock := [0, 0, 0, 1] } }
theorem witness_clock_probe : tState.knows 1 (tState.die 3).clock = true ∧ tAhead.knows 1 (tAhead.die 3).clock = false ∧ tAhead.notices = [] ∧ tAhead.accs = [] ∧
    (let n : Notice := { src := 3, dst := 1, line := 520, stamp := [0, 0, 0, 1] }
     countLe (n.stamp.getD 3 0) ((tAhead.die 3).clock.getD 3 0) = true ∧ countLe ((tAhead.die 1).clock.getD 3 0) ((tAhead.die 3).clock.getD 3 0) = true) := by
  decide +kernel
theorem witness_peer_probe : let a := { tAcc with core := 8, probe := some (0, lineOf 0x10400) }
    let x : TlbEntry := { ctx := 1, page := 0, level := 3, pte := BitVec.ofNat 64 (2 ^ 32 + 31 + 512 * 2), frame := 1 }
    let s := { tFlight 2 [a] with cores := [(0, { tlb := [x] }), (8, { predictor := [(0, (0, 0))] })] }
    s.prober 0 (lineOf 0x10400) = some a ∧ (s.holds (.l1 0) (lineOf 0x10400)).isSome = true ∧ x ∈ (s.core 0).tlb ∧ x.ctx = a.ctx ∧
    (∃ v ∈ a.lineVas (lineOf 0x10400), x.page = pageBase v x.level) ∧ pteClass x.pte.toNat = 2 := by decide +kernel
theorem witness_page_class : let s := tFlight 1 []
    let e := 2 ^ 32 + 31 + 512
    (tget s.ctxs 1).isSome = true ∧ s.leaf 1 0x400 = some (0x8000, e, 3) ∧ pteV e = true ∧ pteW e = true ∧ pteDup e = false ∧
    inHost (pteFrame e * 65536) = false ∧ s.classWaits 1 0x400 (some 8) = false := by decide +kernel
def tWalk (id : Nat) (unit : Bool) : Walk := { id := id, ctx := 1, va := 0x400, core := 0, ahead := false, level := 3, table := 0x8000, inUnit := unit }
def tWalks (used : Nat) (w : Walk) : State := { tFlight 3 [] with walks := (List.range used).map (fun i => tWalk (100 + i) true) ++ [w] }
theorem witness_walk_unit : ∀ used ∈ [47, 48], let w := tWalk 3 false; let s := tWalks used w
    s.walks.find? (fun x => x.id == 3) = some w ∧ w.sent = true ∧ s.unitsUsed (stackOf 0x8000) = used ∧ (s.walksQueued (stackOf 0x8000)).head? = some w := by decide +kernel
theorem witness_walk : let w := tWalk 3 true
    (tWalks 0 w).walks.find? (fun x => x.id == 3) = some w ∧ w.sent = true ∧ w.next = none ∧
    (tWalks 0 w).readEntry ((tWalks 0 w).readMem (entryPa w.table w.va w.level) 8) 3 0 = .leaf (2 ^ 32 + 31 + 1536) 1 := by decide +kernel
theorem witness_replay : ∀ k ∈ [AccessKind.load, .store], let a := { tAcc with kind := k, stage := .logged 0, key := none }
    let s := tFlight 3 [a]
    s.acc 5 = some a ∧ (s.quad 0).frozen = false ∧ (((s.ctx 1).report 0).all fun r => !r.unresolvable) = true ∧ s.replayFirst a = false ∧
    a.ea.toNat / 2 ^ 60 = 0 ∧ (s.replayCheck a a.touches).1 = .ok 0 0 0 ∧
    s.translate 1 a.va (coreDie 0) a.kind.need = .ok 0x10400 (2 ^ 32 + 31 + 1536) 3 := by decide +kernel

/-- A report of the page of VA 0. -/
def tReport (u : Bool) : State → State := fun s =>
  { s with ctxs := tmod s.ctxs 1 fun c => { c with reports := [{ page := 0, va := 0x400, kind := 1, level := 3, engine := false, unresolvable := u }] } }
theorem witness_replay_unresolvable : let a := { tAcc with stage := .logged 0, key := none }
    let s := tReport true (tFlight 3 [a])
    s.acc 5 = some a ∧ s.replayFirst a = false ∧ ((s.ctx 1).report 0).map (·.unresolvable) = some true ∧ s.canTell a := by decide +kernel
theorem witness_fetch_retry : let s := tState.modThr 2049 fun t => { t with wait := .fetch 0 }
    (tget s.threads 2049).isSome = true ∧ (s.thr 2049).wait = .fetch 0 ∧ s.translate 1 0 0 .fetch = .ok 0x10000 (2 ^ 32 + 31) 3 := by decide +kernel
theorem witness_fetch_waits : let s := { tReport false tState with mem := writeBytes tState.mem 0x8000 8 (2 ^ 32 + 30) }
    s.translate 1 0 0 .fetch = .notResident 3 ∧ (((s.ctx 1).report 0).all fun r => !r.unresolvable) = true := by decide +kernel

def tMigration : Migration := { ctx := 1, va := 0, frame := 7 }
theorem witness_migration : let s := { tFlight 3 [] with migrations := [tMigration] }
    s.migrations.find? (fun x => x.ctx == 1 && x.va == pageBase 0x400 3) = some tMigration ∧ s.leaf 1 0x400 = some (0x8000, 2 ^ 32 + 31 + 1536, 3) ∧
    s.frameBusy 1 = false ∧ 0x8000 / 65536 ≠ 7 ∧ 0x8007 / 65536 ≠ 7 := by decide +kernel
/-- A save region of 128 GiB on die 0 leaves no frame of the die free; the page of VA 0 stands there in frame 1. -/
def tFull : State := { tFlight 3 [] with ctxs := tmod tState.ctxs 1 fun c => { c with desc := { c.desc with savepa := 2 ^ 36, savemax := 2 ^ 37 } } }
theorem blank_bytes {m : Memory} : ∀ {n k : Nat}, (∀ e ∈ m, e.1 < k ∨ k + n ≤ e.1) → readBytes m k n = 0
  | 0, _, _ => rfl
  | n + 1, k, h => by
    have hb : ∀ {t : Memory}, (∀ e ∈ t, e.1 ≠ k) → tget t k = none := by
      intro t
      induction t with
      | nil => intro _; rfl
      | cons e t ih => intro ht; simp [tget, ht e (by simp), ih fun x hx => ht x (by simp [hx])]
    have := hb fun e he => by have := h e he; omega
    simp [readBytes, readByte, sget, tgetD, this, blank_bytes (n := n) (k := k + 1) fun e he => by have := h e he; omega]
theorem mapped_first {s : State} {f fuel level table : Nat} (h : ∀ e ∈ s.mem, e.1 < table + 8 ∨ table + 8192 ≤ e.1)
    (h0 : (let e := s.readMem table 8
      if !pteV e then false else if pteLeaf e then decide (pteFrame e ≤ f ∧ f < pteFrame e + 2 ^ (levelShift level - 16))
      else s.frameMapped f fuel (level + 1) (bits e 47 13 * 8192)) = false) : s.frameMapped f (fuel + 1) level table = false := by
  simp only [State.frameMapped, List.any_eq_false, List.mem_range]
  intro i hi
  rcases Nat.eq_zero_or_pos i with rfl | hp
  · simp only [Nat.mul_zero, Nat.add_zero]; rw [h0]; simp
  · have : s.readMem (table + 8 * i) 8 = 0 := blank_bytes fun e he => by have := h e he; omega
    simp [this, pteV, bit]
theorem save_used {a b c n : Nat} (h : n ≤ c) : n ≤ a + b + c := by omega
theorem full_save : 2 ^ 21 ≤ ((tvals tFull.ctxs).filter fun c => homeDie c.desc.savepa == some 0).foldl (fun n c => n + c.desc.savemax / 65536) 0 := by decide +kernel
theorem used_save (s : State) (d n : Nat) (h : n ≤ ((tvals s.ctxs).filter fun c => homeDie c.desc.savepa == some d).foldl (fun n c => n + c.desc.savemax / 65536) 0) : n ≤ s.hbmUsed d := by
  unfold State.hbmUsed
  exact save_used h
theorem full_used : 2 ^ 21 ≤ tFull.hbmUsed 0 := used_save _ _ _ full_save
theorem mapped_below {s : State} {f fuel level table e t : Nat} (h : ∀ e ∈ s.mem, e.1 < table + 8 ∨ table + 8192 ≤ e.1)
    (he : s.readMem table 8 = e) (hl : pteLeaf e = false) (ht : bits e 47 13 * 8192 = t) (h0 : s.frameMapped f fuel (level + 1) t = false) :
    s.frameMapped f (fuel + 1) level table = false := by
  subst he ht
  refine mapped_first h ?_
  simp only [hl, h0]
  simp
/-- The tables of context 1 at 0x2000 to 0x8000, of which each has its first entry only. -/
theorem chain_unmapped {s : State} {f : Nat}
    (h : ((s.mem.all fun e => [0x2000, 0x4000, 0x6000, 0x8000].all fun t => decide (e.1 < t + 8 ∨ t + 8192 ≤ e.1)) &&
      (s.readMem 0x2000 8 == 16385) && (s.readMem 0x4000 8 == 24577) && (s.readMem 0x6000 8 == 32769) &&
      pteLeaf (s.readMem 0x8000 8) && (pteFrame (s.readMem 0x8000 8) != f)) = true) : s.frameMapped f 4 0 0x2000 = false := by
  simp only [Bool.and_eq_true, beq_iff_eq, List.all_eq_true, decide_eq_true_eq, bne_iff_ne] at h
  obtain ⟨⟨⟨⟨⟨hm, h2⟩, h4⟩, h6⟩, h8⟩, hf⟩ := h
  refine mapped_below (e := 16385) (t := 0x4000) (fun e he => hm e he 0x2000 (by simp)) h2 (by decide) (by decide) ?_
  refine mapped_below (e := 24577) (t := 0x6000) (fun e he => hm e he 0x4000 (by simp)) h4 (by decide) (by decide) ?_
  refine mapped_below (e := 32769) (t := 0x8000) (fun e he => hm e he 0x6000 (by simp)) h6 (by decide) (by decide) ?_
  refine mapped_first (fun e he => hm e he 0x8000 (by simp)) ?_
  simp [h8, levelShift]
  omega
theorem leaves_first {s : State} {fuel level table va : Nat} (h : ∀ e ∈ s.mem, e.1 < table + 8 ∨ table + 8192 ≤ e.1) :
    s.leavesOf (fuel + 1) level table va =
      if pteLeaf (s.readMem table 8) then [(va, table, s.readMem table 8, level)]
      else if pteV (s.readMem table 8) then s.leavesOf fuel (level + 1) (bits (s.readMem table 8) 47 13 * 8192) va else [] := by
  have rest : ∀ i, i < 1023 → s.readMem (table + 8 * (i + 1)) 8 = 0 := fun i hi => blank_bytes fun e he => by have := h e he; omega
  rw [State.leavesOf, show 1024 = 1023 + 1 from rfl, List.range_succ_eq_map, List.flatMap_cons,
    (List.flatMap_eq_nil_iff (l := List.map Nat.succ (List.range 1023))).2, List.append_nil]
  · simp
  · intro i hi
    obtain ⟨j, hj, rfl⟩ := List.mem_map.1 hi
    simp [rest j (List.mem_range.1 hj), pteLeaf, pteV, bit]
/-- Context 1 has one page: that of VA 0. -/
theorem chain_page {s : State}
    (h : ((s.mem.all fun e => [0x2000, 0x4000, 0x6000, 0x8000].all fun t => decide (e.1 < t + 8 ∨ t + 8192 ≤ e.1)) &&
      (s.readMem 0x2000 8 == 16385) && (s.readMem 0x4000 8 == 24577) && (s.readMem 0x6000 8 == 32769) &&
      pteLeaf (s.readMem 0x8000 8) && pteV (s.readMem 0x8000 8) && (s.ctxs.map fun c => (c.1, c.2.root)) == [(1, 0x2000)]) = true) :
    s.smallPages = [(1, 0, 0x8000, s.readMem 0x8000 8)] := by
  simp only [Bool.and_eq_true, beq_iff_eq, List.all_eq_true, decide_eq_true_eq] at h
  obtain ⟨⟨⟨⟨⟨⟨hm, h2⟩, h4⟩, h6⟩, h8⟩, hv⟩, hc⟩ := h
  have leaves : s.ctxLeaves 0x2000 = [(0, 0x8000, s.readMem 0x8000 8, 3)] := by
    rw [State.ctxLeaves, leaves_first (fun e he => hm e he 0x2000 (by simp)), h2]
    simp only [show pteLeaf 16385 = false from by decide, show pteV 16385 = true from by decide, show bits 16385 47 13 * 8192 = 0x4000 from by decide,
      Bool.false_eq_true, if_false, if_true]
    rw [leaves_first (fun e he => hm e he 0x4000 (by simp)), h4]
    simp only [show pteLeaf 24577 = false from by decide, show pteV 24577 = true from by decide, show bits 24577 47 13 * 8192 = 0x6000 from by decide,
      Bool.false_eq_true, if_false, if_true]
    rw [leaves_first (fun e he => hm e he 0x6000 (by simp)), h6]
    simp only [show pteLeaf 32769 = false from by decide, show pteV 32769 = true from by decide, show bits 32769 47 13 * 8192 = 0x8000 from by decide,
      Bool.false_eq_true, if_false, if_true]
    rw [leaves_first (fun e he => hm e he 0x8000 (by simp))]
    simp [h8]
  obtain ⟨c, hs, hk⟩ := List.map_eq_singleton_iff.1 hc
  simp only [Prod.mk.injEq] at hk
  simp [State.smallPages, hs, hk.1, hk.2, leaves, hv]
theorem frame_free {s : State} {f r : Nat} (hm : s.frameMapped f 4 0 r = false)
    (hc : ((tvals s.ctxs).all fun c => c.root == r && !decide (c.desc.savepa ≤ f * 65536 ∧ f * 65536 < c.desc.savepa + c.desc.savemax)) = true)
    (hd : (tvals s.dupMap).any (·.contains f) = false) (hg : s.migrations.any (fun m => m.frame == f) = false) : s.frameUsed f = false := by
  simp only [State.frameUsed, hd, hg, Bool.or_false, List.any_eq_false]
  intro c h
  have := List.all_eq_true.1 hc c h
  simp only [Bool.and_eq_true, beq_iff_eq, Bool.not_eq_true'] at this
  rw [this.1, hm, this.2]
  simp
theorem tier_free : tFull.frameUsed 0x1000000 = false := frame_free (chain_unmapped (by decide +kernel)) (by decide +kernel) (by decide +kernel) (by decide +kernel)
theorem none_free {used mark : Nat} (h : 2 ^ 21 ≤ used) : 2 ^ 21 - used < mark + 1 := by omega
theorem witness_demotion : 2 ^ 21 - tFull.hbmUsed 0 < Config.lowMark 0 + 1 ∧ tFull.frameUsed 0x1000000 = false := ⟨none_free full_used, tier_free⟩
theorem witness_demotion_page : tFull.smallPages = [(1, 0, 0x8000, tFull.readMem 0x8000 8)] ∧ tFull.readMem 0x8000 8 = 2 ^ 32 + 31 + 1536 ∧
    inHbm (pteFrame (2 ^ 32 + 31 + 1536) * 65536) = true ∧ homeDie (pteFrame (2 ^ 32 + 31 + 1536) * 65536) = some 0 ∧
    pteTier (2 ^ 32 + 31 + 1536) = 0 ∧ tFull.movable 1 0 (2 ^ 32 + 31 + 1536) = true ∧
    inTier (0x1000000 * 65536) = true := ⟨chain_page (by decide +kernel), by decide +kernel⟩
/-- A page of the tier that die 1 used more than PROMOTE times in the epoch, and a SHARED page of HBM that dies 1 and 2 read. -/
def tHot : State :=
  { tState with mem := writeBytes tState.mem 0x8000 8 (31 + 512 * 3 + 0x1000000 * 2 ^ 32), epochLeft := 0
                pages := [(0x1000000, { counts := [1, 100000, 0, 0] })] }
def tRead : State :=
  { tState with mem := writeBytes tState.mem 0x8000 8 (31 + 192 + 512 * 3 + 2 ^ 32), epochLeft := 0, pages := [(1, { counts := [0, 4, 4, 0], readBy := 6 })] }
theorem witness_promotes : tHot.smallPages = [(1, 0, 0x8000, tHot.readMem 0x8000 8)] ∧ tHot.readMem 0x8000 8 = 31 + 512 * 3 + 0x1000000 * 2 ^ 32 ∧
    tHot.promotes 1 0 (31 + 512 * 3 + 0x1000000 * 2 ^ 32) ∧ (tHot.pageInfo (0x1000000 * 65536)).busiest = 1 := ⟨chain_page (by decide +kernel), by decide +kernel⟩
theorem witness_duplicates : tRead.smallPages = [(1, 0, 0x8000, tRead.readMem 0x8000 8)] ∧ tRead.readMem 0x8000 8 = 31 + 192 + 512 * 3 + 2 ^ 32 ∧
    tRead.duplicates 1 0 (31 + 192 + 512 * 3 + 2 ^ 32) ∧ inTier (pteFrame (31 + 192 + 512 * 3 + 2 ^ 32) * 65536) = false ∧
    tRead.lowestReader (31 + 192 + 512 * 3 + 2 ^ 32) 1 := ⟨chain_page (by decide +kernel), by decide +kernel⟩
theorem witness_free_tag : tRead.freeTag = some 0 := by
  rw [State.freeTag, show 8192 = 8191 + 1 from rfl, List.range_succ_eq_map, List.find?_cons_of_pos]
  rfl
theorem witness_die_free : (2 ^ 21 + 5) / 2 ^ 21 = 1 ∧ tHot.frameUsed (2 ^ 21 + 5) = false ∧ tRead.frameUsed (2 ^ 21 + 5) = false :=
  ⟨by decide, frame_free (chain_unmapped (by decide +kernel)) (by decide +kernel) (by decide +kernel) (by decide +kernel),
   frame_free (chain_unmapped (by decide +kernel)) (by decide +kernel) (by decide +kernel) (by decide +kernel)⟩
theorem witness_epoch : ({ tState with epochLeft := 0 } : State).epochLeft = 0 := rfl
/-- A duplicated page whose copies stand on dies 1 and 2, and its collapse. -/
def tDup (cs : List Collapse) : State :=
  { tState with mem := writeBytes tState.mem 0x8000 8 (2 ^ 32 + 31 + 256 + 512 * 3 + 2048 * 4), dupMap := [(4, [0xFFFFFFFF, 0x200005, 0x400006, 0xFFFFFFFF])], collapses := cs }
theorem witness_collapse : let s := tDup []
    let e := 2 ^ 32 + 31 + 256 + 512 * 3 + 2048 * 4
    s.leaf 1 0x400 = some (0x8000, e, 3) ∧ pteV e = true ∧ pteDup e = true ∧ (s.ctx 1).report (pageBase 0x400 3) = none ∧ s.collapses = [] := by decide +kernel
theorem witness_collapse_ack : let c : Collapse := { ctx := 1, va := 0, home := 3, waiting := [(1, 2 ^ 20, true)] }
    let s := tDup [c]
    s.collapses.find? (fun x => x.ctx == 1 && x.va == pageBase 0x400 3) = some c ∧ c.failed = false ∧ pteKey (2 ^ 32 + 31 + 256 + 512 * 3 + 2048 * 4) = 0 ∧ s.leaf 1 0x400 = s.leaf c.ctx c.va ∧ (s.leaf 1 0).isSome = true ∧
    s.active 1 ∧ s.session ≠ 1 := by decide +kernel

/-! ## Witnesses: scheduling -/

/-- No run on core 0. -/
def tIdle : State := { tState with cores := [(0, { n := 3 })] }
theorem witness_arbitration : let s := { tIdle with offers := [(1, 0, 3)] }
    (s.core 0).mayArbitrate 0 = true ∧ (s.core 0).mayArbitrate 1 = false ∧ (tState.core 0).mayArbitrate 1 = true ∧ (3 : BitVec 32) ≠ 0 ∧ (tget s.squads (squadKey 1 0)).isSome = true ∧
    (s.slotSquads 0).filter (fun q => q.blk == 1 && q.num == 0) = [s.squad 1 0] := by decide +kernel
theorem witness_stall : ∀ n ∈ [255, 256], ∀ y ∈ [true, false], let r : Run := { blk := 1, sq := 0, lanes := 3, idle := n, yld := y }
    let s := { tState with cores := [(0, { slot0 := some r })] }
    (s.core 0).slot 0 = some r ∧ s.owedRun r = none ∧ (tget s.squads (squadKey r.blk r.sq)).isSome = true := by decide +kernel
theorem witness_sleep_expiry : (tget (tSet fun t => { t with wait := .sleep 0 0x88 }).threads 2049).isSome = true ∧
    ((tSet fun t => { t with wait := .sleep 0 0x88 }).thr 2049).wait = .sleep 0 0x88 := by decide +kernel
def tDiscarding (c : DiscardCause) (n : Nat) : State := { tIdle with blocks := tmod tState.blocks 1 fun b => { b with status := .discarding c n } }
theorem witness_discard : let s := tDiscarding .slice 100
    (tget s.squads (squadKey 1 0)).isSome = true ∧ (tget s.blocks 1).isSome = true ∧ (s.block 1).status = .discarding .slice 100 ∧
    (s.squad 1 0).resident = true ∧ (s.squad 1 0).replay = false ∧ (s.quad (s.block 1).dquad).frozen = false ∧ s.squadEligible 1 0 = true ∧
    (s.block 1).nsq = 1 ∧ s.copiesLeft 1 = false ∧ (s.ctx (s.block 1).ctx).status ≠ .halting ∧ s.hold.entering = false := by decide +kernel
theorem witness_discard_hold : let s := { tDiscarding .hold 100 with hold := { entering := true } }
    (s.block 1).status = .discarding .hold 100 ∧ 5 ≤ s.holdStep ∧ s.squadEligible 1 0 = true := by decide +kernel
theorem witness_discard_stuck : ∀ c ∈ [DiscardCause.swap, .slice, .stop, .hold, .softError], let s := tDiscarding c (2 ^ 39)
    (tget s.blocks 1).isSome = true ∧ (s.block 1).status = .discarding c (2 ^ 39) ∧ (s.ctx (s.block 1).ctx).swapIdle ≤ 2 ^ 39 ∧ (s.ctx (s.block 1).ctx).status ≠ .halting ∧
    (s.quad (s.block 1).dquad).frozen = false := by decide +kernel

def tLaunch : LaunchRecord := { (tState.grid 1).rc with entry := 0x1000, bx := 40, byy := 2, bz := 1, gx := 3, regs := 256, flags := 0x52, scratch := 5000 }
/-- A second grid waits on die 0, with room in the save region. -/
def tQueued : State :=
  { tIdle with grids := tset tState.grids 4 { launch := 9, ctx := 1, rc := tLaunch, depth := 1, prio := 2, nextBid := 1 }
               ctxs := tmod tState.ctxs 1 fun c => { c with desc := { c.desc with savemax := 100000000 } } }
theorem witness_placement : tQueued.placing 0 = true ∧ tQueued.swapReady 0 = none ∧ (tQueued.nextBlock 0).map (·.1) = some (.fresh 4 1) ∧
    tQueued.roomSaved 4 = true ∧ (tQueued.placeAt 0 4).isSome = true ∧ (tQueued.grid 4).rc.threads ≤ 2048 ∧
    tQueued.knows 0 (tQueued.grid 4).since = true ∧ tQueued.notices = [] ∧ tQueued.accs = [] ∧
    tget tQueued.squads (squadKey tQueued.nextId 0) = none := by decide +kernel
/-- Grid 1 has made its one block, which is complete, and has no child. -/
def tDone : State :=
  { tIdle with grids := tmod tState.grids 1 fun g => { g with rc := { g.rc with gx := 1, gy := 1, gz := 1, done := 0x10000 }, nextBid := 1, doneBlocks := 1 }
               owned := true, owner := 2 }
theorem witness_grid_retires : ∃ g, tget tDone.grids 1 = some g ∧ g.complete = true ∧ (∀ c ∈ tDone.grids, c.2.parent ≠ some 1) ∧ tDone.accs = [] ∧
    g.rc.done ≠ 0 ∧ g.parent = none ∧ (tDone.ctx g.ctx).halted = false := ⟨_, rfl, by decide +kernel⟩
theorem witness_grid_stays : let s := { tDone with grids := tset tDone.grids 4 { launch := 9, ctx := 1, rc := (tState.grid 1).rc, depth := 2, prio := 0, parent := some 1 } }
    (∃ c ∈ s.grids, c.2.parent = some 1) ∧ (tget s.grids 1).isSome = true := by decide +kernel
def tRestart : State :=
  { tIdle with blocks := tmod tState.blocks 1 fun b => { b with status := .discarded .slice }
               squads := tmod tState.squads 64 fun q => { q with resident := false }
               dies := tset tState.dies 0 { tState.die 0 with restart := [1] } }
theorem witness_restart : tRestart.placing 0 = true ∧ tRestart.swapReady 0 = none ∧ (tRestart.nextBlock 0).map (·.1) = some (.restart 1) ∧
    tRestart.restartFits 1 = true ∧ (tRestart.quad (tRestart.block 1).dquad).frozen = false ∧ (tRestart.block 1).die = 0 := by decide +kernel
/-- Block 3 waits for core 0, which has been idle for SWAP_IDLE and more, under block 1. -/
def tSwap : State :=
  { tIdle with blocks := tset (tmod tState.blocks 1 fun b => { b with nthreads := 32, scratch := 200 * 1024 }) 3
                           { placedBlock with nthreads := 32, scratch := 200 * 1024, status := .discarded .swap }
               dies := tset tState.dies 0 { tState.die 0 with restart := [3] }, cores := [(0, { idle := 2 ^ 40 })] }
theorem witness_swap : (tSwap.die 0).active = some 1 ∧ tSwap.placing 0 = true ∧ (tSwap.quad 0).frozen = false ∧
    (tSwap.ctx 1).swapIdle ≤ (tSwap.core 0).idle ∧
    ((tSwap.waitingFor 0).head?.bind fun w => (chooseVictim 0 (tSwap.victims 0 w.1)).map fun v => (v.1, decide (v.2.prio ≤ w.2 ∧ tget tSwap.blocks v.1 = some v.2))) =
      some (1, true) := by decide +kernel
def tSlice : State :=
  { tIdle with ctxs := tset tState.ctxs 2 { tState.ctx 1 with desc := { (tState.ctx 1).desc with id := 2 } }
               grids := tset tState.grids 4 { launch := 9, ctx := 2, rc := tLaunch, depth := 1, prio := 2, nextBid := 1 } }
theorem witness_slice_expiry : tSlice.held = false ∧ (tSlice.die 0).active = some 1 ∧ (tSlice.ctx 1).status ≠ .halting ∧ (tSlice.die 0).leaving = false ∧
    tSlice.blocksAt 0 1 Block.onQuad ≠ [] ∧ (tSlice.die 0).sliceLeft = 0 ∧ (tSlice.nextContext 0 (some 1)).isSome = true := by decide +kernel
theorem witness_slice_leave : let s := { tSlice with blocks := tmod tState.blocks 1 fun b => { b with status := .discarded .slice }
                                                     dies := tset tSlice.dies 0 { tSlice.die 0 with leaving := true } }
    s.held = false ∧ (s.die 0).active = some 1 ∧ (s.die 0).leaving = true ∧ s.blocksAt 0 1 Block.onQuad = [] := by decide +kernel
/-- A launch record of 40 by 2 threads and 3 blocks (02 Table 2.3), read at VA 0x400. -/
def tRecordBytes : Nat :=
  0x1000 + 3 * 2 ^ 64 + 1 * 2 ^ 96 + 1 * 2 ^ 128 + 40 * 2 ^ 160 + 2 * 2 ^ 176 + 1 * 2 ^ 192 + 256 * 2 ^ 208 + 0x3 * 2 ^ (8 * 0x2C)
theorem witness_launch : let a := { tAcc with kind := .launch, size := 64 }
    let s := { tFlight 2 [a] with mem := writeBytes (tFlight 2 []).mem 0x10400 64 tRecordBytes, ctxs := tQueued.ctxs }
    s.dueNow a ∧ a.va = a.ea.toNat % 2 ^ 56 ∧ inHost 0x10400 = false ∧ s.keepsClass a 0 false ∧ s.poisoned 0x10400 64 = false ∧ s.classWaits 1 a.va (some 0) = false ∧
    s.lineHeld (lineOf 0x10400) = false ∧ (s.holds (.l1 0) (lineOf 0x10400)).isSome = true ∧ homeDie 0x10400 = some (coreDie 0) ∧
    (∀ x ∈ s.accs, x.thr = a.thr → x.kind = .launch → x.id < a.id → x.stage = .cancelled) ∧ (s.ctx 1).halted = false ∧
    s.launchFault 1 a.ea (readLaunch (s.readMem 0x10400 64)) true = none ∧ s.grids.length < 2 ^ 32 := by decide +kernel

/-! ## Witnesses: faults, soft errors, the control plane -/

theorem witness_async_fault : let s := { tHandler (fun t => { t with held := some ({ code := 0x0A02 }, 0x99) }) with cores := [] }
    (tget s.threads 2049).isSome = true ∧ (s.thr 2049).held = some ({ code := 0x0A02 }, 0x99) ∧ s.mayDeliver 2049 = true ∧ s.canHandle 2049 ∧
    ({ tAcc with stage := .cancelled } : Access).dead 2049 = true ∧ (∀ a ∈ s.accs, a.dead 2049 = false) := by decide +kernel
theorem witness_dump : let s := { tIdle with ctxs := tmod tState.ctxs 1 fun c => { c with status := .halting, primary := some (threadlessRecord 0x123 0 2 0) } }
    (tget s.ctxs 1).isSome = true ∧ (s.ctx 1).status = .halting ∧ (((s.stopAtReplays 1).cancelLog 1).cancelHeldOps 1).haltReady 1 = true ∧
    (((s.stopAtReplays 1).cancelLog 1).cancelHeldOps 1).firstHalting 1 = true := by decide +kernel
theorem witness_queue_reset : tState.active 1 ∧ tState.session ≠ 1 ∧
    (({ tState with ctxs := tmod tState.ctxs 1 fun c => { c with status := .faulted } } : State).ctx 1).status = .faulted := by decide +kernel
theorem witness_soft_register : (tState.thr 2049).live = true ∧ (tState.thrSquad (tState.thr 2049)).resident = true ∧ tState.regionReads 2049 3 = false ∧
    (tget tState.squads (squadKey (tState.thr 2049).blk (tState.thr 2049).sq)).isSome = true ∧ tState.active 1 := by decide +kernel
theorem witness_soft_region : let s := { tState.modThr 2049 (fun t => { t with owed := .atHandler }) with mem := (tCode (w0 2 9 7 0 0 2 + 1 * 2 ^ 32)).mem }
    s.regionReads 2049 2 = true ∧ s.active (s.thrBlock (s.thr 2049)).ctx := by decide +kernel
theorem witness_soft_tags : let s := tFlight 3 []
    (s.lines.map (·.level)) = [.l1 0, .l2 0] ∧ 1 ∈ s.contextsOf (lineOf 0x10400) ∧ s.active 1 := by decide +kernel
theorem witness_soft_bank : ((tBanks [] { occupant := some 1 }).bank 0 2).occupant.isSome = true := by decide +kernel

def tOwned (owner : Nat) : State := { tState with owned := true, owner := owner }
theorem witness_claim : tState.owned = false ∧ (∀ x, x < 3 → .claim x ∉ tState.agenda) ∧ (tOwned 2).owned = true := by decide +kernel
theorem witness_handover : (tOwned 2).owner = 2 ∧ (7 : Word).toNat / 4 = 1 ∧ (tOwned 2).held = false ∧ (tOwned 2).owner ≠ 1 := by decide +kernel
theorem witness_accept : let s := { tOwned 2 with pending := true, target := 3, handoverLeft := 1 }
    s.pending = true ∧ s.target = 3 ∧ s.target ≠ 1 ∧ s.handoverLeft ≠ 0 ∧ tState.pending = false := by decide +kernel
theorem witness_handover_lapse : let s := { tOwned 2 with pending := true, target := 3, handoverLeft := 0 }
    s.pending = true ∧ s.target = 3 ∧ s.handoverLeft = 0 := by decide +kernel
/-- A page with its event queue at host address 0x5000, at the last number of TAIL. -/
def tPage : Page := { evqBase := 0x5000, evqSize := 16, evqHead := 0xFFFFFFFF, evqTail := 0xFFFFFFFF, waiting := [{ code := 2, ctx := 5 }], seq := 8 }
theorem witness_event_post : let s := { tState with ctl := [(2, tPage)] }
    s.nextEvent (s.page 2) = some { code := 2, ctx := 5 } ∧ (s.page 2).evqFree = true ∧ hostReach (0x5000 + 32 * 15) 32 = true := by decide +kernel
/-- A CTX_STOP in the mailbox of page 2. -/
def tMail : State := { tOwned 2 with ctl := [(2, { mbox := [(0, 2), (4, 5), (8, 1)] })] }
theorem witness_page_write : tMail.pageThere 2 = true ∧ (tMail.page 2).evqSize < 2 ^ 32 ∧ (tMail.page 2).evqHead < 2 ^ 32 ∧
    0x80 ≤ 0xB0 ∧ 0xB0 + 8 ≤ 0xB8 ∧ (tMail.page 2).cmd = none ∧
    knownCode ((tMail.page 2).mailWrite 0xBC 4 0).command.code = true ∧ tMail.mailStatus 2 ((tMail.page 2).mailWrite 0xBC 4 0).command = none := by decide +kernel
theorem witness_window_write : (tOwned 0).owned = true ∧ (tOwned 0).owner = 0 ∧ tState.owned = false ∧ (tOwned 2).owner ≠ 0 := by decide +kernel

def tBox (code arg0 arg1 arg2 arg3 : Nat) : Mailbox :=
  { code := code, seq := 77, ctx := 1, arg0 := BitVec.ofNat 64 arg0, arg1 := BitVec.ofNat 64 arg1, arg2 := BitVec.ofNat 64 arg2, arg3 := BitVec.ofNat 64 arg3, rsv := false }
def tCmd (m : Mailbox) : State := { tFlight 3 [] with ctl := [(2, { cmd := some m })] }
theorem witness_command_unknown : ((tCmd (tBox 33 0 0 0 0)).page 2).cmd = some (tBox 33 0 0 0 0) ∧ knownCode 33 = false ∧ knownCode 9 = true := by decide +kernel
/-- A descriptor of context 7 at host address 0x5000 whose launch record stands at 0x6000 (16 Table 16.4, 02 Table 2.3). -/
def tStart : State :=
  { tCmd (tBox 1 0x5000 0 0 0) with
    ctxs := []
    mem := writeBytes (writeBytes tState.mem (hostKey 0x5000) 64 (7 + 3 * 2 ^ 16 + 0x100000 * 2 ^ 64 + 2 ^ 26 * 2 ^ 128 + 0x6000 * 2 ^ 192)) (hostKey 0x6000) 64 tRecordBytes }
theorem witness_command_start_ctx : (tStart.startContext 0x5000).isSome = true ∧ ((tCmd (tBox 1 0x5000 0 0 0)).startContext 0x5000).isNone = true := by decide +kernel
theorem witness_command_stop : (let s := tCmd (tBox 2 0 0 0 0); (tget s.ctxs 1).isSome = true ∧ (s.ctx 1).status = .active ∧ s.session ≠ 1 ∧
      (s.block 1).ctx = 1 ∧ (s.block 1).status = .resident) ∧
    (let s := { tCmd (tBox 2 0 0 0 0) with ctxs := tmod tState.ctxs 1 fun c => { c with status := .stopping 2 77 }, blocks := [] }
     (s.ctx 1).status = .stopping 2 77 ∧ s.accs = [] ∧ s.blocks = []) := by decide +kernel
theorem witness_command_map : let pte := 9 * 2 ^ 32 + 7
    let s := tCmd (tBox 3 0x10000 pte 0 3)
    (s.page 2).stage = .fresh ∧ (tget s.ctxs 1).map (fun c => (c.status, c.confidential)) = some (.active, false) ∧ mapBad 0x10000 pte 0 3 = false ∧
    s.inSaveRegion (pteFrame pte * 65536) 65536 = false ∧
    s.tablePath 1 0x10000 3 4 0 (s.ctx 1).root = some (s, 0x8000) ∧ pteV (s.readMem (entryPa 0x8000 0x10000 3) 8) = false ∧ pteV pte = true ∧
    inHost (pteFrame pte * 65536) = false := by decide +kernel
theorem witness_command_unmap : let s := tCmd (tBox 4 0x400 1 0 0)
    s.leaf 1 0x400 = some (0x8000, 2 ^ 32 + 31 + 1536, 3) ∧ pteV (2 ^ 32 + 31 + 1536) = true ∧ pteDup (2 ^ 32 + 31 + 1536) = false ∧ s.accs = [] := by decide +kernel
theorem witness_command_hold : (tCmd (tBox 6 0 0 0 0)).held = false ∧
    (let s := { tCmd (tBox 7 0 0 0 0) with hold := { inHold := true, cmd := true } }; s.hold.inHold = true ∧ s.hold.pin = false) ∧
    (tget (tCmd (tBox 5 0x400 0 0 0)).ctxs 1).isSome = true := by decide +kernel
theorem witness_command_query : ((tCmd (tBox 8 0 0 0 0)).page 2).stage ≠ .posting ∧
    (let s := { tCmd (tBox 8 0 0 0 0) with ctl := [(2, { cmd := some (tBox 8 0 0 0 0), stage := .posting })] }
     (s.page 2).stage = .posting ∧ ∀ e ∈ (s.page 2).waiting, e.code ≠ 7) := by decide +kernel
theorem witness_command_cap : (600 : Word).toNat = 600 ∧ (3000 : Word).toNat ≤ 3000 ∧ (599 : Word).toNat < 600 ∧ 3000 < (3001 : Word).toNat := by decide

/-! ## Witnesses: requests from outside, links, Hold, debugging -/

theorem witness_host_access : let s := { tFlight 3 [] with ctxs := [] }
    s.barIdle ∧ 0x10400 + 8 ≤ 2 ^ 41 ∧ inWindow 0x10400 = false ∧ s.hold.inHold = false ∧ inHbm 0x10400 = true ∧ s.barDenied 0x10400 8 = false ∧
    ∀ wr ∈ [true, false], (match s.barClass 0x10400 8 wr with | .ok u => !u.poisoned 0x10400 8 | .error _ => false) = true := by decide +kernel
theorem witness_host_hole : inWindow 0x8000100000 = false ∧ inHbm 0x8000100000 = false ∧ inTier 0x8000100000 = false := by decide
theorem witness_host_denied : let s := { tState with mem := [], ctxs := tmod tState.ctxs 1 fun c => { c with desc := { c.desc with savepa := 0x10000, savemax := 0x1000 } } }
    s.barDenied 0x10400 8 = true ∧ s.barIdle := by decide +kernel
theorem witness_host_held : let s := { tState with hold := { inHold := true } }
    s.barIdle ∧ s.hold.inHold = true ∧ 2 ^ 41 < (2 ^ 41 - 7) + 8 ∧ 2 ^ 46 < (2 ^ 46 - 7) + 8 := by decide +kernel
/-- Context 1 is the export context. -/
def tExport : State := { tFlight 3 [] with ctxs := tmod tState.ctxs 1 fun c => { c with desc := { c.desc with cflags := 4 } } }
theorem witness_space4 : tExport.turn = false ∧ (∀ r ∈ tExport.remote, r.src ≠ 7) ∧ 7 ≠ tExport.links.packageId ∧ tExport.held = false ∧
    tExport.exportCtx = some 1 ∧ tExport.translate 1 0x400 noDie .both = .ok 0x10400 (2 ^ 32 + 31 + 1536) 3 ∧ inHost 0x10400 = false ∧
    tExport.duplicated 1 0x400 = false ∧ tExport.migrating 1 0x400 = false ∧ tExport.lineHeld (lineOf 0x10400) = false ∧ tExport.classWaits 1 0x400 none = false ∧
    tExport.classify 1 0x400 none true = tExport ∧ tExport.poisoned 0x10400 8 = false ∧ (tFlight 3 []).exportCtx = none ∧
    ({ tExport with hold := { inHold := true } } : State).held = true := by decide +kernel
/-- A request of package 7 for 16 bytes, at its turn, of which the first part has been performed; the home slice has its line. -/
def tAsked (kind : RemoteKind) : RemoteReq := { src := 7, offset := 0x400, size := 16, kind := kind, got := [0] }
theorem witness_space4_turn : ∀ k ∈ [RemoteKind.read, .write 5], let s := { tExport with turn := true, remote := [tAsked k] }
    s.hold.inHold = false ∧ tAsked k ∈ s.remote ∧ s.exportCtx = some 1 ∧
    ((s.remote.takeWhile fun r => r != tAsked k).any fun r => remoteAfter (s.banked 1) (tAsked k) r) = false ∧
    s.translate 1 0x400 noDie (remoteNeed k) = .ok 0x10400 (2 ^ 32 + 31 + 1536) 3 ∧ s.classify 1 0x400 none (remoteWrites k) = s ∧
    s.poisoned 0x10400 16 = false ∧ remoteLeft (tAsked k) = [1] ∧ (({ s with turn := false } : State).outsideReach 0x10400 16).2 = true := by
  decide +kernel
theorem witness_link_down : let s := tFlight 3 [tSent .load (some tHost)]
    s.links.hostUp = true ∧ ∀ a ∈ s.accs, ∀ b ∈ s.accs, a.id = b.id → a = b := by decide +kernel
theorem witness_bound : ∀ u ∈ [TdiState.run, .locked], let s := { tState with bound := [(2, 1)], tdis := [(2, u)] }
    tget s.bound 2 = some 1 ∧ s.active 1 ∧ s.session ≠ 1 ∧ s.tdi 2 = u ∧ s.tdi 2 ≠ .error := by decide +kernel
theorem witness_tdisp : tState.tdi 15 = .unlocked ∧ (({ tState with tdis := [(1, .locked)] } : State).tdi 1) = .locked ∧ tget tState.bound 2 = none := by decide +kernel
theorem witness_module_reset : tState.hold.pin = false := by decide +kernel

theorem witness_hold_requests : tState.held = false ∧ (tget tState.blocks 1).isSome = true ∧ (tState.block 1).status = .resident ∧
    (({ tState with hold := { inHold := true, pin := true } } : State).hold.cmd = false) := by decide +kernel
theorem witness_hold_banks : let s := { tBanks [] { occupant := some 1, dirty := true } with blocks := [], hold := { entering := true, cmd := true } }
    s.hold.entering = true ∧ s.holdStep = 4 ∧ (tget s.quads 0).isSome = true ∧ (s.bank 0 2).occupant.isSome = true := by decide +kernel
theorem witness_hold_overrun : let s := { tState with hold := { entering := true, inStep := 514, elapsed := 4499999 } }
    s.hold.entering = true ∧ s.holdStep = 1 ∧ s.holdLate 1 = true ∧ 1 ∉ s.hold.overran ∧ s.hold.elapsed < 4500000 := by decide +kernel
theorem witness_hold_entered : let s := { tBanks [] { occupant := some 1 } with blocks := [], hold := { entering := true, cmd := true }, owned := true }
    s.hold.entering = true ∧ (∀ n ∈ [1, 2, 3, 4, 5, 6], s.holdStepDone n = true) ∧ s.startsOrStops = false ∧ (tget s.quads 0).isSome = true ∧ (s.bank 0 2).occupant.isSome = true := by decide +kernel
theorem witness_hold_exit : let s := { tState with hold := { inHold := true, exiting := true, activeAt := [(2, 1)] } }
    s.hold.failed = false ∧ s.hold.pin = false ∧ s.hold.cmd = false ∧ s.hold.activeAt = [(2, 1)] ∧ (tget s.ctxs 1).isSome = true := by decide +kernel
theorem witness_power : ({ tState with cap := 600 } : State).cap ≠ 0 ∧ 2 ≤ tState.aclk := by decide +kernel

theorem witness_attach : (tget tState.ctxs ((1 : Word).toNat % 64)).map tState.debuggable = some true ∧ dctlOk 1 = true ∧ tState.session = 0 ∧
    (let s := { tState with ctxs := tmod tState.ctxs 1 fun c => { c with desc := { c.desc with cflags := 2 } } }
     (tget s.ctxs 1).map s.debuggable = some false) := by decide +kernel
/-- A session on context 1 in which quads 0 and 1 are frozen. -/
def tFrozen : State :=
  { tDebug 1 with quads := tset tState.quads 0 { tState.quad 0 with frozen := true, cause := 5 }, cores := [], offers := [(1, 0, 2)]
                  dbg := { (tDebug 1).dbg with freezes := [[0, 1]] } }
theorem witness_detach : (0 : Word).toNat % 64 = 0 ∧ dctlOk 0 = true ∧ tFrozen.session ≠ 0 := by decide +kernel
theorem witness_freeze : (tDebug 1).attachedQuad 47 = true ∧ ((tDebug 1).quad 47).frozen = false := by decide +kernel
theorem witness_resume : tFrozen.attachedQuad 1 = true ∧ tFrozen.dbg.freezes.find? (fun f => f.contains 1) = some [0, 1] := by decide +kernel
theorem witness_step : tFrozen.attachedQuad 0 = true ∧ (tFrozen.quad 0).frozen = true ∧ tFrozen.dbg.stepN = 0 ∧
    (tFrozen.squadAt 0 0).map (fun q => (q.blk, q.num, (tFrozen.lowestLive q).isSome)) = some (1, 0, true) ∧ tFrozen.offers = [(1, 0, 2)] ∧
    (tFrozen.core 0).slot0 = none ∧ tFrozen.skidding 0 = false ∧ ({ tFrozen with dbg := { tFrozen.dbg with stepN := 3 } } : State).dbg.stepN ≠ 0 := by decide +kernel
theorem witness_sample : let s := { tDebug (1 + (1#64 <<< 11)) with dbg := { (tDebug (1 + (1#64 <<< 11))).dbg with sampleClk := 250 } }
    s.dbg.dctl.getLsbD 11 = true ∧ s.counting 0 = true ∧ (s.quad 0).stands = false ∧ s.samplePeriod - s.dbg.sampleClk % s.samplePeriod ≤ 6 ∧
    ((s.oldestSquad 0).bind fun q => s.lowestLive q).isSome = true := by decide +kernel
theorem witness_sample_record : let s := { tDebug 1 with cores := [(0, { sample := some { type := 1, code := 3 } })] }
    (s.core 0).sample = some { type := 1, code := 3 } ∧ s.dbg.sink = true ∧ s.dbg.overflow = false ∧ s.dbg.backlog < 512 := by decide +kernel
theorem witness_trunc : let s := { tState with dbg := { trBase := 0x5000, trTail := 5, closing := some (8, { type := 6, code := 0 }) } }
    s.dbg.closing = some (8, { type := 6, code := 0 }) ∧ s.dbg.slotsIn 8 ≠ 0 ∧ hostReach (s.dbg.trBase.toNat + 64 * (s.dbg.trTail % 2 ^ 8)) 64 = true := by decide +kernel
theorem witness_brk_step_end : let s := { tFrozen with dbg := { tFrozen.dbg with stepN := 2, stepBrk := true, stepBlk := 1, stops := [(100, { type := 2, code := 16 })] } }
    s.attachedQuad 0 = true ∧ (s.quad 0).frozen = true ∧ s.skidding 0 = false ∧ s.dbg.stepN ≠ 0 ∧ s.dbg.stepBrk = true ∧ s.dbg.stops ≠ [] ∧
    (s.lowestLive s.steppedSquad).isSome = true ∧ s.stepHeld = false := by decide +kernel
theorem witness_trace_write : let s := { tState with dbg := { dctl := BitVec.ofNat 64 (1 + 2 ^ 10 + 6 * 2 ^ 17), sink := true, trBase := 0x5000, trHead := 0xFFFFFFFF, trTail := 0xFFFFFFFF,
                                                              buffer := [{ type := 1, code := 3 }] } }
    s.dbg.closing = none ∧ s.dbg.freeSlots ≠ 0 ∧ s.dbg.trLost = 0 ∧ s.dbg.buffer = [{ type := 1, code := 3 }] ∧
    hostReach (s.dbg.trBase.toNat + 64 * (s.dbg.trTail % 2 ^ s.dbg.trlog)) 64 = true := by decide +kernel

/-! ## Witnesses: the machine as a whole -/

/-- Slot 0 of core 0 in focus with IADD.i32 V4, V2, V3 at the PC of its run; `ws` are the words that its threads have read. -/
def tFocus (ws : Option (List Nat)) : State :=
  { tSet (fun u => { u with entered := ws.map fun x => (0, x) }) with
    focus := [(0, 0), (4, 1)], latch := none, mem := (State.reset.withFetchWord 64 (w0 2 0x20 7 0 4 2 + (3 + 4 * 2 ^ 18) * 2 ^ 32)).mem }
theorem witness_step_decodes : let s := tFocus none
    (s.core 0).slot 0 = some { blk := 1, sq := 0, lanes := 3 } ∧ s.runGroup { blk := 1, sq := 0, lanes := 3 } = [2048, 2049] ∧
    (s.thr 2048).pc.toNat / 4 % 16 = 1 ∧ s.session ≠ (s.block 1).ctx ∧ (∀ x ∈ [2048, 2049], (s.thr x).hasBundle (bundleOf (s.thr 2048).pc) = false) ∧
    (match s.fetchBundle 1 (bundleOf (s.thr 2048).pc).toNat 0 with
     | .words ws => (bcwViolation ws 1).isNone && decide (found (ws.drop 1) = some (.iadd aw, 2))
     | _ => false) = true ∧ ∀ x ∈ [2048, 2049], (s.thr x).owed ≠ .atHandler := by decide +kernel
theorem witness_step_read : let ws := [0, w0 2 0x20 7 0 4 2, 3 + 4 * 2 ^ 18]; let s := tFocus (some ws)
    s.runGroup { blk := 1, sq := 0, lanes := 3 } = [2048, 2049] ∧ (∀ x ∈ [2048, 2049], (s.thr x).entered = some (bundleOf (s.thr 2048).pc, ws)) ∧
    found (ws.drop 1) = some (.iadd aw, 2) := by decide +kernel
theorem witness_step_events : ({ State.reset with agenda := [.migrationEpochEnd] } : State).focus = [] ∧ State.reset.focus = [] ∧ State.reset.agenda = [] := by decide
theorem witness_memory_form : State.reset.memOk ∧ ∃ t, step State.reset = .next t := ⟨rfl, _, rfl⟩
theorem witness_encoding : (Instr.iadd aw).WellFormed = true ∧ found (encode (.iadd aw)) = some (.iadd aw, 2) := by decide

/-! ## Single steps: expected values from the worked examples of 07 and 08 and by hand from the rules named -/

/-- V register `n` of lane 0 after an instruction, where V2, V3 and V4 held `a`, `b` and `c`. -/
def vWith (a b c : Word) (i : Instr) (n : Nat) : Nat :=
  (((after i (tSet fun t => { t with v := [(2, a), (3, b), (4, c)] })).thr 2048).readV n).toNat

-- 07, the example of R165
theorem test_iadd_sat : vWith 0x7FF000018000FFFF 0x00200002FFFF0001 0 (.iadd { aw with ty := 2, sat := true }) 4 = 0x7FFF000380000000 := by decide +kernel
theorem test_iadd_wrap : vWith 0x7FF000018000FFFF 0x00200002FFFF0001 0 (.iadd { aw with ty := 2 }) 4 = 0x801000037FFF0000 := by decide +kernel
-- Table 7.3: a - b, low and high product, a * b + c, quotient toward zero and by zero
theorem test_isub : vWith 0 1 0 (.isub { aw with ty := 6 }) 4 = 0xFFFFFFFFFFFFFFFF := by decide +kernel
theorem test_imul : vWith 0xFFFFFFFF00000003 0x0000000200000005 0 (.imul aw) 4 = 0xFFFFFFFE0000000F := by decide +kernel
theorem test_imulh : vWith 0xFFFFFFFFFFFFFFFF 2 0 (.imulh { aw with ty := 6 }) 4 = 0xFFFFFFFFFFFFFFFF := by decide +kernel
theorem test_imad : vWith 3 5 7 (.imad { aw with c := 4, ty := 6 }) 4 = 22 := by decide +kernel
theorem test_idiv : vWith 0xFFFFFFF900000009 0x0000000200000000 0 (.idiv aw) 4 = 0xFFFFFFFDFFFFFFFF := by decide +kernel
theorem test_irem : vWith 0xFFFFFFF900000009 0x0000000200000000 0 (.irem aw) 4 = 0xFFFFFFFF00000009 := by decide +kernel
theorem test_imin_unsigned : vWith 0xFFFFFFFFFFFFFFFF 1 0 (.imin { aw with ty := 7 }) 4 = 1 := by decide +kernel
-- R80: shifts by the width and more
theorem test_shl_width : vWith 0x0000000100000001 0x0000001F00000020 0 (.shl { aw with ty := 5 }) 4 = 0x8000000000000000 := by decide +kernel
theorem test_shra_wide : vWith 0x8000000000000000 200 0 (.shra { aw with ty := 7 }) 4 = 0xFFFFFFFFFFFFFFFF := by decide +kernel
theorem test_rotl : vWith 0x8000000000000001 1 0 (.rotl { aw with ty := 7 }) 4 = 3 := by decide +kernel
theorem test_clz_zero : vWith 0x00000000FFFFFFFF 0 0 (.clz { aw with b := 0 }) 4 = 0x0000002000000000 := by decide +kernel
theorem test_brev : vWith 1 0 0 (.brev { aw with b := 0, ty := 7 }) 4 = 0x8000000000000000 := by decide +kernel
theorem test_andn : vWith 0xFF00FF00FF00FF00 0xF0F0F0F0F0F0F0F0 0 (.andn { aw with ty := 7 }) 4 = 0x0F000F000F000F00 := by decide +kernel
theorem test_a32_imm : vWith 5 0 0 (.iaddI64A32Imm { d := 4, a := 2, b := 0x7F }) 4 = 4 := by decide +kernel
-- 07 R174: MOVI.f32 V6, 1.5
theorem test_movi : vWith 0 0 0 (.movi { az with d := 4, ty := 10, lit := some 0x3FC00000 }) 4 = 0x3FC000003FC00000 := by decide +kernel
-- 04: f32 sums and products, 1.0 + 2.0 and -3.5 * 2.0; infinity minus infinity is the default NaN
theorem test_fadd : vWith 0x3F80000040000000 0x4000000040000000 0 (.fadd { aw with ty := 10 }) 4 = 0x4040000040800000 := by decide +kernel
theorem test_fmul : vWith 0xC060000000000000 0x4000000040000000 0 (.fmul { aw with ty := 10 }) 4 = 0xC0E0000000000000 := by decide +kernel
theorem test_fsub_invalid : vWith 0x7FF0000000000000 0x7FF0000000000000 0 (.fsub { aw with ty := 11 }) 4 = 0x7FF8000000000000 := by decide +kernel
theorem test_ffma_once_rounded : vWith 0x3FF0000000000001 0x3FF0000000000001 0xBFF0000000000002 (.ffma { aw with ty := 11, c := 4 }) 4 = 0x3970000000000000 := by decide +kernel
theorem test_fmin_zero : vWith 0x8000000000000000 0 0 (.fmin { aw with ty := 11 }) 4 = 0x8000000000000000 := by decide +kernel
theorem test_fsqrt : vWith 0x4080000041100000 0 0 (.fsqrt { aw with b := 0, ty := 10 }) 4 = 0x4000000040400000 := by decide +kernel
-- Table 7.11: the first and the second CVT of the example, SATN = 0
theorem test_cvt_first : vWith 0xC06000003F800000 0 0 (.cvt { aw with ty := 0, b := 0x0C, c := 0x0A }) 4 = 0x000000000000C638 := by decide +kernel
theorem test_cvt_second : vWith 0x3C00000043FA0000 0 0xC638 (.cvt { aw with ty := 0, b := 0x0C, c := 0x0A + 32 }) 4 = 0x00000000047FC638 := by decide +kernel
-- 08, the example of SUBP
theorem test_subp : vWith 0x4444333322221111 0x8888777766665555 0 (.subp { aw with ty := 3, lit := some 0x1357, b := 0, c := 3 }) 4 = 0x2222444466668888 := by decide +kernel
-- Table 7.12: QMX.mx8 of 100, -0.75, 3 and zeros with SATN = 1
theorem test_qmx : let t := (after (.qmx { az with d := 40, a := 8, b := 0x14, ty := 10, rnd := 1 })
      (tSet fun t => { t with v := [(8, 0xBF40000042C80000), (9, 0x0000000040400000)], fpmode := t.fpmode ||| 32 })).thr 2048
    ((t.readV 40).toNat, (t.readV 41).toNat, (t.readV 44).toNat) = (0x0054C47C, 0, 0x7D) := by decide +kernel
theorem test_dqmx : let t := (after (.dqmx { az with d := 8, a := 40, b := 0x14, ty := 10, rnd := 1 })
      (tSet fun t => { t with v := [(40, 0x0054C47C), (44, 0x7D)] })).thr 2048
    ((t.readV 8).toNat, (t.readV 9).toNat, (t.readV 23).toNat) = (0xBF40000042C00000, 0x0000000040400000, 0) := by decide +kernel
-- 05 R110, 03 R57: ICMP.lt of two lanes; a false guard; P7 stays true
theorem test_icmp : ((after (.icmp { aw with d := 1, c := 2 }) tState).thr 2048).readP 1 = true ∧ ((after (.icmp { aw with d := 7, c := 0 }) tState).thr 2048).readP 7 = true := by decide +kernel
theorem test_guard_false : vAfter (.iadd { aw with n := true }) 0 4 = 0 ∧ ((after (.iadd { aw with n := true }) tState).thr 2048).pc = 12 := by decide +kernel
-- 06 R133: BRA to the bundle before, and BRP with X3 = 1 falls through
theorem test_bra_back : let l := { tLatch with pc := 132, len := 1 }
    ((after (.bra { g := 7, n := false, ofs := -1 }) { tSet (fun t => { t with pc := 132 }) with latch := some l }).thr 2049).pc = 68 := by decide +kernel
theorem test_brp_last : let t := (after (.brp { g := 7, n := false, ofs := 3 }) { tSet (fun t => t.writeX 3 1) with latch := some { tLatch with len := 1 } }).thr 2048
    t.pc = 8 ∧ t.readX 3 = 0 := by decide +kernel
-- 06 R137: CALL pushes the start of the next bundle
theorem test_call : let t := (after (.call { g := 7, n := false, ofs := 2 }) tState).thr 2048
    t.pc = 132 ∧ t.readLink 0 = 64 ∧ t.cdepth = 1 := by decide +kernel
-- 06 R140: JSET of lanes 0 and 1
theorem test_jset : ((after (.jset { az with d := 3 }) tState).squad 1 0).readJ 3 = 3 := by decide +kernel
-- 03 R59: the highest executing lane's value stands in S4
theorem test_squad_highest : ((after (.movs { az with d := 4, a := 2, c := 1 }) tState).squad 1 0).readS 4 = 6 := by decide +kernel
-- 08 R195: VOTE.BALLOT with P7 in both lanes of a squad of two
theorem test_vote : (((after (.vote { az with d := 4, a := 7, b := 3, c := 66 }) tPair).thr 2049).readV 4).toNat = 3 := by decide +kernel
-- 09 R223: the lowest slot of quad 0 at generation 1 has the handle 0x10000
theorem test_balloc : let t := after (.balloc { az with d := 4, a := 1, lit := some 32 }) tState
    ((t.squad 1 0).readS 4).toNat = 0x10000 ∧ ((t.quad 0).barrier 0).arr = 32 ∧ ((t.thr 2049).readP 1) = true := by decide +kernel
-- 09 R225: BEXPECT and BARRIVE move the counts of their slot
theorem test_barrive_ends_phase : let t := after (.barrierUpdate 5) (tUnit (.arrive 2 0) tSlot)
    ((t.quad 0).barrier 0).phase = 1 ∧ ((t.quad 0).barrier 0).arr = 2 := by decide +kernel
-- 08 R199, R205: a store of 8 bytes to its place, first byte lowest
theorem test_store : let t := after (.storePerform 5) (tFlight 1 [{ tStore 0 0x10400 with data := 0x1122334455667788 }])
    (readByte t.mem 0x10400, readByte t.mem 0x10407, readByte t.mem 0x10408) = (0x88, 0x11, 0) := by decide +kernel
theorem test_load : let s := tFlight 3 [tAcc]
    ((after (.loadPerform 5) { s with mem := writeBytes s.mem 0x10400 8 0x0123456789ABCDEF }).thr 2049).readV 20 = 0x0123456789ABCDEF := by decide +kernel
-- Table 8.7: ATOM.ADD of 5 to 0xFFFF_FFFF_FFFF_FFFE wraps and returns the old value
theorem test_atomic : let s := tFlight 3 [tAtomic 4 (some 0x10400)]
    let t := after (.atomicPerform 5) { s with mem := writeBytes s.mem 0x10400 8 0xFFFFFFFFFFFFFFFE }
    (readBytes t.mem 0x10400 8, ((t.thr 2049).readV 20).toNat) = (3, 0xFFFFFFFFFFFFFFFE) := by decide +kernel
-- 18 R405: RET at depth 0 enters the handler at word 1 with RET_EMPTY
theorem test_ret_empty : let t := (after (.ret az) (tHandler id)).thr 2048
    t.pc = 0x1004 ∧ t.frame.code = 0x0202 ∧ t.frame.isOpen = true ∧ t.frame.fpc = 4 := by decide +kernel
theorem test_illegal_opcode : let t := (after (.illegalOpcode 0xFF 2 false) (tHandler id)).thr 2048
    t.frame.code = 0x0101 ∧ t.frame.addr = 4 := by decide +kernel
-- 16 R360: CLAIM of a free control plane
theorem test_claim : (after (.claim 3) tState).owner = 3 ∧ (after (.claim 3) tState).owned = true := by decide +kernel
-- 16 Table 16.3: POWER_CAP of 600 W, and 599 W is refused with status 3
theorem test_power_cap : (after (.powerCap 2) (tCmd (tBox 9 600 0 0 0))).cap = 600 ∧ ((after (.powerCap 2) (tCmd (tBox 9 599 0 0 0))).page 2).cmdDone = 77 + 3 * 2 ^ 32 := by decide +kernel
-- the first step after a word is placed runs it: IADD.i32 V4, V2, V3 of zeros moves the PC to the next word pair
theorem test_step_runs : (match step (State.reset.withFetchWord 64 (w0 2 0x20 7 0 4 2 + (3 + 4 * 2 ^ 18) * 2 ^ 32)) with | .next t => (t.thr 2048).pc == 12 | _ => false) = true := by decide +kernel
theorem test_decode_table_word : decodeTableWord 64 (w0 2 0x20 7 0 4 2 + (3 + 4 * 2 ^ 18) * 2 ^ 32) = some (.iadd aw) := by decide

end Sys2Proof.Tests
end

section
/-! Settles O57. What an issue slot's step executes: the fetch of a group cut into the note of a walk, the reading of the bundle by the threads
of the group, and the latch. -/

namespace Sys2Proof.Machine

/-! ## What the note of a walk changes, and what a fetch depends on -/

/-- Nothing but translation buffers, walks and their packets, and the next name, differs from `s`. -/
def State.onlyWalks (s t : State) : Prop :=
  t = { s with cores := t.cores, quads := t.quads, walks := t.walks, packets := t.packets, nextId := t.nextId }

theorem startWalk_onlyWalks (s : State) (w : Walk) : s.onlyWalks (s.startWalk w) := by
  unfold State.startWalk
  extract_lets w'
  split <;> exact rfl

theorem fillTlb_onlyWalks (s : State) (core : Nat) (ahead : Bool) (e : TlbEntry) : s.onlyWalks (s.fillTlb core ahead e) := by
  unfold State.fillTlb
  split <;> exact rfl

theorem noteWalk_onlyWalks (s : State) (ctx va core : Nat) (ahead : Bool) : s.onlyWalks (s.noteWalk ctx va core ahead) := by
  unfold State.noteWalk
  extract_lets mine
  split
  case isTrue => exact rfl
  case isFalse =>
    split
    case h_1 e _ => exact fillTlb_onlyWalks s core ahead e
    case h_2 =>
      split
      case isTrue => exact rfl
      case isFalse => exact startWalk_onlyWalks s.name _

theorem noteWalk_thr (s : State) (ctx va core : Nat) (ahead : Bool) (k : Nat) : (s.noteWalk ctx va core ahead).thr k = s.thr k := by
  rw [noteWalk_onlyWalks s ctx va core ahead]; rfl

section
variable {s t : State} (hm : t.mem = s.mem) (hd : t.dupMap = s.dupMap) (hc : t.ctxs = s.ctxs)
include hm

theorem readMem_congr (p n : Nat) : t.readMem p n = s.readMem p n := by
  rw [State.readMem, State.readMem, hm]

theorem leafPa_congr (va fuel level table : Nat) : t.leafPa va fuel level table = s.leafPa va fuel level table := by
  induction fuel generalizing level table with
  | zero => rfl
  | succ fuel ih => simp only [State.leafPa, readMem_congr hm, ih]

include hd

theorem walkFrom_congr (va die fuel level table : Nat) : t.walkFrom va die fuel level table = s.walkFrom va die fuel level table := by
  have he : ∀ e l, t.readEntry e l die = s.readEntry e l die := fun e l => by simp only [State.readEntry, State.dupFrame, hd]
  induction fuel generalizing level table with
  | zero => rfl
  | succ fuel ih => simp only [State.walkFrom, readMem_congr hm, he, ih]

include hc

theorem translate_congr (ctx va die : Nat) (n : Need) : t.translate ctx va die n = s.translate ctx va die n := by
  simp only [State.translate, State.walk, State.ctx, hc, walkFrom_congr hm hd]

/-- A fetch depends on memory, poison, the duplicate map and the contexts only. -/
theorem fetchBundle_congr (hp : t.poison = s.poison) (ctx va die : Nat) : t.fetchBundle ctx va die = s.fetchBundle ctx va die := by
  simp only [State.fetchBundle, translate_congr hm hd hc, readMem_congr hm, State.absentPage, leafPa_congr hm, State.ctx, hc, hp]

end

theorem fetchBundle_noteWalk (s : State) (c v k : Nat) (a : Bool) (ctx va die : Nat) :
    (s.noteWalk c v k a).fetchBundle ctx va die = s.fetchBundle ctx va die := by
  rw [noteWalk_onlyWalks s c v k a]; exact fetchBundle_congr rfl rfl rfl rfl ctx va die

/-! ## The threads of a group read the bundle -/

/-- A thread that has read the words of the bundle at a VA, and waits for nothing. -/
def Thread.enter (t : Thread) (va : Word) (ws : List Nat) : Thread := { t with entered := some (va, ws), wait := .ready }

/-- Some threads read the words of the bundle at a VA. -/
def State.enter (s : State) (ks : List Nat) (va : Word) (ws : List Nat) : State :=
  ks.foldl (fun s k => s.modThr k fun t => t.enter va ws) s

@[simp] theorem Thread.enter_enter (t : Thread) (va : Word) (ws : List Nat) : (t.enter va ws).enter va ws = t.enter va ws := rfl

theorem enter_eq (s : State) (ks : List Nat) (va : Word) (ws : List Nat) :
    s.enter ks va ws = { s with threads := (s.enter ks va ws).threads } := by
  induction ks generalizing s with
  | nil => rfl
  | cons k ks ih => exact ih (s.modThr k fun t => t.enter va ws)

theorem modThr_thr (s : State) (k x : Nat) (f : Thread → Thread) :
    (s.modThr k f).thr x = if x = k ∧ (tget s.threads x).isSome = true then f (s.thr x) else s.thr x := by
  by_cases hx : x = k
  · subst hx
    cases h : tget s.threads x <;> simp [State.thr, tgetD, tget_tmod_same, h]
  · simp [State.thr, tgetD_tmod_ne _ _ _ _ _ hx, hx]

theorem enter_thr (s : State) (ks : List Nat) (va : Word) (ws : List Nat) (x : Nat) :
    (s.enter ks va ws).thr x = if x ∈ ks ∧ (tget s.threads x).isSome = true then (s.thr x).enter va ws else s.thr x := by
  induction ks generalizing s with
  | nil => simp [State.enter]
  | cons k ks ih =>
    have hk : s.enter (k :: ks) va ws = (s.modThr k fun t => t.enter va ws).enter ks va ws := rfl
    have hlisted : (tget (s.modThr k fun t => t.enter va ws).threads x).isSome = (tget s.threads x).isSome := tget_tmod_isSome ..
    rw [hk, ih, hlisted, modThr_thr]
    by_cases hx : x = k
    · subst hx
      cases (tget s.threads x).isSome <;> simp
    · simp [hx]

theorem enter_owed (s : State) (ks : List Nat) (va : Word) (ws : List Nat) (x : Nat) : ((s.enter ks va ws).thr x).owed = (s.thr x).owed := by
  rw [enter_thr]; split <;> rfl

/-! ## The fetch of a group -/

/-- What the fetch of a group leaves for its instruction, which has `len` words (05 R104). -/
def groupLatch (core slot : Nat) (r : Run) (ks : List Nat) (pc : Word) (ws : List Nat) (len : Nat) : Latch :=
  let w := pc.toNat / 4 % 16
  { core := core, slot := slot, blk := r.blk, sq := r.sq, lanes := lanesMask r.sq r.blk ks, pc := pc, len := len,
    eor := (ws.headD 0).testBit (w + len - 2), yld := (ws.headD 0).testBit 15, code := (ws.drop w).take len, follow := ws[w + len]? }

/-- The threads of a group have read the bundle that their PC is in, with these words. -/
def State.haveRead (s : State) (ks : List Nat) (pc : Word) (ws : List Nat) : Prop := ∀ x ∈ ks, (s.thr x).entered = some (bundleOf pc, ws)

/-- The threads of a group come to the bundle that their PC is in: none has read it, memory holds these words, and its control word is in order
for them. -/
def State.comesTo (s : State) (core : Nat) (r : Run) (ks : List Nat) (pc : Word) (ws : List Nat) : Prop :=
  (∀ x ∈ ks, (s.thr x).hasBundle (bundleOf pc) = false) ∧
    s.fetchBundle (s.block r.blk).ctx (bundleOf pc).toNat (coreDie core) = .words ws ∧ bcwViolation ws (pc.toNat / 4 % 16) = none

section
variable {s : State} {core slot : Nat} {r : Run} {k : Nat} {ks : List Nat} {pc : Word} {ws : List Nat}

theorem comesTo_congr {t : State} {r' : Run} (hm : t.mem = s.mem) (hd : t.dupMap = s.dupMap) (hc : t.ctxs = s.ctxs) (hp : t.poison = s.poison)
    (ht : t.threads = s.threads) (hb : t.block r'.blk = s.block r.blk) (h : s.comesTo core r ks pc ws) : t.comesTo core r' ks pc ws := by
  obtain ⟨hnew, hf, hv⟩ := h
  refine ⟨?_, ?_, hv⟩
  · simpa only [State.thr, ht] using hnew
  · rw [hb, fetchBundle_congr hm hd hc hp, hf]

/-- Words that decode, in a bundle without a violation for threads that come to it, are the instruction of the group. -/
theorem decodeGroup_ok {i : Instr} {len : Nat} (hne : ks ≠ []) (hd : decodeWords (ws.drop (pc.toNat / 4 % 16)) = .ok (i, len))
    (hv : bcwViolation ws (pc.toNat / 4 % 16) = none ∨ s.haveRead ks pc ws)
    (ho : ∀ x ∈ ks, (s.thr x).owed ≠ .atHandler) :
    s.decodeGroup core slot r ks pc ws =
      ({ s.enter ks (bundleOf pc) ws with latch := some (groupLatch core slot r ks pc ws len) }, some i) := by
  have hlate : (ks.filter fun k => ((s.enter ks (bundleOf pc) ws).thr k).owed == .atHandler) = [] := by
    simpa [List.filter_eq_nil_iff, enter_owed] using ho
  unfold State.decodeGroup
  simp only [hd, decodedStep]
  split
  · rename_i b x xs hb hfresh
    exfalso
    rcases hv with hv | hv
    · revert hb; rw [hv]; split <;> simp
    · obtain ⟨hx, hne'⟩ := List.mem_filter.mp (hfresh ▸ List.mem_cons_self .. : x ∈ ks.filter _)
      exact bne_iff_ne.mp hne' (hv x hx)
  · have he : ks.foldl (fun s k => s.modThr k fun t => { t with entered := some (bundleOf pc, ws), wait := .ready }) s =
        s.enter ks (bundleOf pc) ws := rfl
    have hkeep : (ks.filter fun k => !([] : List Nat).contains k) = ks := List.filter_eq_self.mpr fun _ _ => rfl
    have hsome : ks.isEmpty = false := List.isEmpty_eq_false_iff.mpr hne
    simp only [he, Except.toOption, Option.isNone_some, Bool.or_false, hlate, ite_self, List.foldl_nil, hkeep, hsome, Bool.false_eq_true,
      if_false, groupLatch, bit_eq_testBit]

/-- Threads that have read the bundle go on with the words they read. -/
theorem fetchGroup_read (h : s.haveRead (k :: ks) pc ws) :
    s.fetchGroup core slot r (k :: ks) pc = s.decodeGroup core slot r (k :: ks) pc ws := by
  have hall : ((k :: ks).filter fun x => !(s.thr x).hasBundle (bundleOf pc) || (s.thr x).entered == some (bundleOf pc, ws)) = k :: ks :=
    List.filter_eq_self.mpr fun x hx => by simp [h x hx]
  have hread : ((k :: ks).filter fun x => (s.thr x).hasBundle (bundleOf pc)) = k :: ks :=
    List.filter_eq_self.mpr fun x hx => by simp [Thread.hasBundle, h x hx]
  have hk : ((s.thr k).entered.filter fun e => e.1 == bundleOf pc) = some (bundleOf pc, ws) := by simp [h k (List.mem_cons_self ..)]
  simp only [State.fetchGroup, List.headD_cons, hk, hall, hread]

/-- Threads that come to a bundle note its walk, and have the words that memory holds. -/
theorem fetchGroup_first (h : s.comesTo core r (k :: ks) pc ws) :
    s.fetchGroup core slot r (k :: ks) pc =
      (s.noteWalk (s.block r.blk).ctx (bundleOf pc).toNat core false).decodeGroup core slot r (k :: ks) pc ws := by
  obtain ⟨h, hf, -⟩ := h
  have hall : ((k :: ks).filter fun x => !(s.thr x).hasBundle (bundleOf pc) || (s.thr x).entered == some (bundleOf pc, ws)) = k :: ks :=
    List.filter_eq_self.mpr fun x hx => by simp [h x hx]
  have hk : ((s.thr k).entered.filter fun e => e.1 == bundleOf pc) = none := by
    have hnot := h k (List.mem_cons_self ..)
    cases he : (s.thr k).entered with
    | none => rfl
    | some e =>
      rw [Thread.hasBundle, he] at hnot
      simpa only [Option.filter_some_eq_none, Bool.not_eq_true] using hnot
  simp only [State.fetchGroup, List.headD_cons, hk, fetchBundle_noteWalk, hf, hall]

/-- No comparator stops a group outside the session, or while DCTL does not arm them (17 R377). -/
theorem comparatorStops_off (run : Instr → State → State) (h : s.session ≠ (s.block r.blk).ctx ∨ s.dbg.dctl.getLsbD 6 = false) :
    s.comparatorStops run core r ks pc = [] := by
  have hhits : (if (s.block r.blk).ctx = s.session ∧ !s.dbg.stepping then s.compHits (core / 4) pc else []) = [] := by
    split
    case isTrue hc =>
      have hd : bit s.dbg.dctl.toNat 6 = false := (bit_eq_testBit _ _).trans (h.resolve_left fun hne => hne hc.1.symm)
      simp [State.compHits, hd]
    case isFalse => rfl
  simp only [State.comparatorStops, hhits, List.isEmpty_nil, Bool.true_or, if_true]

/-- A group whose words decode is fetched: it has the instruction, in a state in which its threads have read the bundle. Only a first reading
notes a walk. -/
theorem fetchGroup_ok {i : Instr} {len : Nat} (hd : decodeWords (ws.drop (pc.toNat / 4 % 16)) = .ok (i, len))
    (ho : ∀ x ∈ k :: ks, (s.thr x).owed ≠ .atHandler)
    (h : s.comesTo core r (k :: ks) pc ws ∨ s.haveRead (k :: ks) pc ws) :
    ∃ t, s.onlyWalks t ∧ (s.haveRead (k :: ks) pc ws → t = s) ∧
      s.fetchGroup core slot r (k :: ks) pc =
        ({ t.enter (k :: ks) (bundleOf pc) ws with latch := some (groupLatch core slot r (k :: ks) pc ws len) }, some i) := by
  rcases h with hfirst | hread
  · refine ⟨s.noteWalk (s.block r.blk).ctx (bundleOf pc).toNat core false, noteWalk_onlyWalks .., fun hread => ?_, ?_⟩
    · have hk := hfirst.1 k (List.mem_cons_self ..)
      simp [Thread.hasBundle, hread k (List.mem_cons_self ..)] at hk
    · rw [fetchGroup_first hfirst, decodeGroup_ok (List.cons_ne_nil _ _) hd (.inl hfirst.2.2)]
      simpa only [noteWalk_thr] using ho
  · exact ⟨s, rfl, fun _ => rfl, by rw [fetchGroup_read hread, decodeGroup_ok (List.cons_ne_nil _ _) hd (.inr hread) ho]⟩

/-! ## The step of an issue slot -/

/-- A run with the lanes of a group of threads. -/
def Run.narrow (r : Run) (ks : List Nat) : Run := { r with lanes := lanesMask r.sq r.blk ks }

/-- The state in which a run is in its issue slot. -/
def State.atSlot (s : State) (core slot : Nat) (r : Run) : State := s.modCore core fun c => c.setSlot slot (some r)

/-- The group of a run is fetched when no comparator stops it. -/
theorem fetchRun_group (run : Instr → State → State) (hs : (s.core core).slot slot = some r) (hg : s.runGroup r = k :: ks)
    (hc : s.session ≠ (s.block r.blk).ctx ∨ s.dbg.dctl.getLsbD 6 = false) :
    s.fetchRun run core slot =
      (s.atSlot core slot (r.narrow (k :: ks))).fetchGroup core slot (r.narrow (k :: ks)) (k :: ks) (s.thr k).pc := by
  have hstop : (s.atSlot core slot (r.narrow (k :: ks))).comparatorStops run core (r.narrow (k :: ks)) (k :: ks) (s.thr k).pc = [] :=
    comparatorStops_off run hc
  simp only [State.atSlot, Run.narrow] at hstop ⊢
  simp only [State.fetchRun, hs, hg, hstop]

/-- An issue slot comes to the instruction that decoding finds: `fetchGroup_ok`, of a slot's run. -/
theorem fetchRun_ok (run : Instr → State → State) (hs : (s.core core).slot slot = some r) (hg : s.runGroup r = k :: ks)
    (hc : s.session ≠ (s.block r.blk).ctx ∨ s.dbg.dctl.getLsbD 6 = false) (hpc : (s.thr k).pc = pc) {i : Instr} {len : Nat}
    (hd : decodeWords (ws.drop (pc.toNat / 4 % 16)) = .ok (i, len)) (ho : ∀ x ∈ k :: ks, (s.thr x).owed ≠ .atHandler)
    (h : s.comesTo core r (k :: ks) pc ws ∨ s.haveRead (k :: ks) pc ws) :
    ∃ t, s.onlyWalks t ∧ (s.haveRead (k :: ks) pc ws →
        t.quads = s.quads ∧ t.walks = s.walks ∧ t.packets = s.packets ∧ t.nextId = s.nextId) ∧
      s.fetchRun run core slot =
        ({ t.enter (k :: ks) (bundleOf pc) ws with latch := some (groupLatch core slot r (k :: ks) pc ws len) }, some i) := by
  obtain ⟨t, ht, hsame, hgo⟩ := fetchGroup_ok (s := s.atSlot core slot (r.narrow (k :: ks))) (slot := slot) (r := r.narrow (k :: ks)) hd ho
    (h.imp_left (comesTo_congr rfl rfl rfl rfl rfl rfl))
  refine ⟨t, ht, fun hread => ?_, ?_⟩
  · rw [hsame hread]; exact ⟨rfl, rfl, rfl, rfl⟩
  · rw [fetchRun_group run hs hg hc, hpc, hgo]; rfl

theorem step_slot {rest : List (Nat × Nat)} {i : Instr} {u : State} (hf : s.focus = (core, slot) :: rest)
    (h : State.fetchRun runInstr { s with focus := rest, latch := none } core slot = (u, some i)) : step s = exec i u := by
  simp only [step, hf, h]

theorem step_event {e : Instr} {rest : List Instr} (hf : s.focus = []) (ha : s.agenda = e :: rest) :
    step s = exec e (s.beginEvent runInstr e rest) := by
  simp only [step, hf, ha]

theorem step_tick (hf : s.focus = []) (ha : s.agenda = []) : step s = .next (s.tick runInstr) := by
  simp only [step, hf, ha]
end

/-- Settles O57. The group is fetched in the state without the focus and the latch, and its fetch adds to the threads' reading of the bundle
only the note of a walk. -/
theorem stepRunsDecoded : Obligations.StepRunsDecoded := by
  unfold Obligations.StepRunsDecoded
  refine fun s => ⟨?_, fun e rest => step_event, step_tick⟩
  intro core slot rest r k ks ws i len hfoc hslot hgroup pc ctx w reads hasRead hcomp hread hdec howed
  obtain ⟨t, ht, hsame, hgo⟩ :=
    fetchRun_ok (s := { s with focus := rest, latch := none }) runInstr hslot hgroup hcomp rfl hdec howed
      (hread.imp_left (comesTo_congr rfl rfl rfl rfl rfl rfl))
  refine ⟨_, step_slot hfoc hgo, rfl, ?_, fun h => ?_, fun x => ?_⟩
  · rw [enter_eq t, ht]
  · rw [enter_eq t]; exact hsame h
  · refine (enter_thr t (k :: ks) (bundleOf pc) ws x).trans ?_
    rw [ht]; rfl

end Sys2Proof.Machine
end

section
/-! Settles O2 and O3. The instructions that write an S register of their squad, and those that write a predicate of their lane. -/

namespace Sys2Proof.Machine

/-- The S registers a squad reads after the lanes of a group whose guard holds have each written S[d], in increasing order. -/
theorem readS_foldl_writeField_eq_squadWritten (s : State) (l : Latch) (g : BitVec 3) (n : Bool) (d : Nat) (v : Nat → Word) (m : Nat) :
    ((l.lanesOf.filter fun x => decide (s.laneOn l x g n)).foldl (fun q x => q.writeField d (v x)) (s.squad l.blk l.sq)).readS m =
      s.squadWritten l g n d v m :=
  (foldl_writeField d v _ _).2 m

/-- Settles O2. Each executing lane writes the same S register of the squad (`regLane_squad`), so the last of them stands
(`foldl_writeField`). -/
theorem registerSquadForm : Obligations.RegisterSquadForm := by
  unfold Obligations.RegisterSquadForm
  intro i f s l hform hsq hissues hlisted hguards hready
  obtain ⟨hframe, hsquads, ⟨hs, hj⟩, hthreads⟩ :=
    State.execGuarded_squad hissues hlisted hguards (regLane f) _ _ fun x hx hon => regLane_squad (x := x) hsq (hready x hx hon)
  refine ⟨_, exec_regForm hform s, hframe, hsquads, ?_, fun m => ?_, hthreads⟩
  · exact hj.trans (foldl_writeField ..).1
  · rw [← readS_foldl_writeField_eq_squadWritten, Squad.readS, hs, Squad.readS]

/-- Settles O3. Each executing lane writes the predicate of its own thread (`predLane_local`); a lane whose guard is false only goes on. -/
theorem predicateForm : Obligations.PredicateForm := by
  unfold Obligations.PredicateForm
  intro i f s l hform hissues hguards hready
  obtain ⟨hframe, hsquads, hthreads⟩ :=
    State.execGuarded_local hissues hguards (predLane f.shape f.word f.pred f.val) _ fun x hx hon => predLane_local (x := x) (hready x hx hon)
  exact ⟨_, exec_predForm hform s, hframe, hsquads, hthreads⟩

end Sys2Proof.Machine
end

section
/-! Settles O4 and O5. The element values of the integer instructions and of the shifts and rotates. -/

namespace Sys2Proof.Machine

theorem formatBits_pos (code : Nat) : 0 < formatBits code := by
  unfold formatBits
  split <;> decide

/-- 2^w as twice the weight of the sign bit. -/
theorem two_pow_formatBits (code : Nat) : 2 ^ formatBits code = 2 * 2 ^ (formatBits code - 1) := by
  rw [← Nat.pow_succ', Nat.succ_eq_add_one, Nat.sub_add_cancel (formatBits_pos code)]

theorem natCast_two_pow (n : Nat) : ((2 ^ n : Nat) : Int) = 2 ^ n := Int.natCast_pow 2 n

/-! ## Narrowing (R80, R165) -/

theorem decodeInt_eq_typedInt {ty x : Nat} (h : x < 2 ^ formatBits ty) : decodeInt ty (formatBits ty) x = typedInt ty x := by
  have hpow := two_pow_formatBits ty
  simp only [decodeInt, typedInt, signedOf, Nat.mod_eq_of_lt h, ← natCast_two_pow]
  cases codeSigned ty with
  | false => rw [if_neg Bool.false_ne_true, if_neg (fun hs => Bool.false_ne_true hs.1)]
  | true =>
    by_cases hneg : 2 ^ (formatBits ty - 1) ≤ x
    · rw [if_pos rfl, if_neg (by omega), if_pos ⟨rfl, hneg⟩]
    · rw [if_pos rfl, if_pos (by omega), if_neg (fun hs => hneg hs.2)]

theorem max_min_eq_ite {lo hi : Int} (h : lo ≤ hi) (v : Int) : max lo (min hi v) = if v < lo then lo else if hi < v then hi else v := by
  split
  · omega
  · split <;> omega

theorem intMin_le_intMax (signed : Bool) (w : Nat) : intMin signed w ≤ intMax signed w := by
  cases signed with
  | false =>
    have := Nat.two_pow_pos w
    simp only [intMin, intMax, Bool.false_eq_true, if_false]; omega
  | true =>
    have := Nat.two_pow_pos (w - 1)
    simp only [intMin, intMax, if_true]; omega

theorem intResult_eq_narrowed (ty : Nat) (sat : Bool) (v : Int) :
    ((intResult (codeSigned ty) sat (formatBits ty) v : Nat) : Int) = narrowed ty sat v := by
  rw [intResult, wrapInt_cast, narrowed, clampInt, max_min_eq_ite (intMin_le_intMax _ _)]
  cases sat <;> simp [intMin, intMax]

theorem intResult_lt (signed sat : Bool) (w : Nat) (v : Int) : intResult signed sat w v < 2 ^ w := wrapInt_lt _ _

/-- A sub-element of an integer element instruction. -/
theorem elem_intElements (w : AluWord) (f : Int → Int → Int → Int) (r : LaneIn) {k : Nat} (h : k < 64 / formatBits w.ty.toNat) :
    let ty := w.ty.toNat
    let n := formatBits ty
    ((elem (intElements w f r).toNat n k : Nat) : Int) =
      narrowed ty w.sat (f (typedInt ty (elem r.a.toNat n k)) (typedInt ty (elem r.b.toNat n k)) (typedInt ty (elem r.c.toNat n k))) := by
  intro ty n
  rw [intElements, elem_elements _ h, Nat.mod_eq_of_lt (intResult_lt _ _ _ _), intResult_eq_narrowed]
  simp only [decodeInt_eq_typedInt (elem_lt _ _ _)]
  rfl

/-! ## The rows of Table 7.3 -/

theorem quotient_eq (w : AluWord) (a b : Int) :
    quotient w a b = if b = 0 then (if codeSigned w.ty.toNat then -1 else 2 ^ formatBits w.ty.toNat - 1) else a.tdiv b := by
  simp [quotient, intMax]

theorem natAbs_sub_eq_ite (a b : Int) : ((a - b).natAbs : Int) = if a ≤ b then b - a else a - b := by
  split <;> omega

theorem min_max_eq_ite (a b c : Int) : min (max a b) c = if c < b then c else if a < b then b else if c < a then c else a := by
  split
  · omega
  · split
    · omega
    · split <;> omega

theorem fdiv_two_pow (a : Int) (n : Nat) : a.fdiv (2 ^ n) = a / ((2 ^ n : Nat) : Int) := by
  rw [← natCast_two_pow, Int.fdiv_eq_ediv_of_nonneg a (Int.natCast_nonneg _)]

/-- Every instruction of Table 7.3 is the element form of its exact value. -/
theorem regForm_exactInt {i : Instr} {w : AluWord} {v : Int → Int → Int → Int} (h : exactInt i = some (w, v)) :
    ∃ sh, regForm i = some (RegForm.ofWord sh w (intElements w v)) := by
  cases i with
  | iadd | isub | iadd3 | imul | imad | irem => cases h; exact ⟨_, rfl⟩
  | isad => cases h; simp only [← natAbs_sub_eq_ite]; exact ⟨_, rfl⟩
  | imulh => cases h; simp only [fdiv_two_pow]; exact ⟨_, rfl⟩
  | idiv => cases h; simp only [← quotient_eq]; exact ⟨_, rfl⟩
  | imin => cases h; simp only [← Int.min_def]; exact ⟨_, rfl⟩
  | imax => cases h; simp only [← Int.max_def]; exact ⟨_, rfl⟩
  | iclamp => cases h; simp only [← min_max_eq_ite]; exact ⟨_, rfl⟩
  | _ => cases h

/-- Settles O4. The instruction is the element form of its exact value (`regForm_exactInt`), and each of its sub-elements is that value
narrowed once (`elem_intElements`). -/
theorem integerElementResults : Obligations.IntegerElementResults := by
  unfold Obligations.IntegerElementResults
  intro i w v hv _
  obtain ⟨sh, hform⟩ := regForm_exactInt hv
  exact ⟨_, hform, fun L k hk => elem_intElements w v (aluIn w L (aluB w L)) hk⟩

/-! ## Shifts and rotates (R80, R167) -/

theorem elem_bitElements (w : AluWord) (f : Nat → Nat → Nat → Nat) (r : LaneIn) {k : Nat} (h : k < 64 / formatBits w.ty.toNat) :
    let n := formatBits w.ty.toNat
    elem (bitElements w f r).toNat n k = f n (elem r.a.toNat n k) (elem r.b.toNat n k) % 2 ^ n := elem_elements _ h

theorem shiftLeft_mod (n a c : Nat) : shiftLeft n a c % 2 ^ n = if c < n then a * 2 ^ c % 2 ^ n else 0 := by
  by_cases h : c < n
  · simp [shiftLeft, h, Nat.not_le.mpr h]
  · simp [shiftLeft, h, Nat.not_lt.mp h]

theorem shiftRight_mod {n a : Nat} (ha : a < 2 ^ n) (c : Nat) : shiftRight n a c % 2 ^ n = if c < n then a / 2 ^ c else 0 := by
  by_cases h : c < n
  · simp [shiftRight, h, Nat.not_le.mpr h, Nat.mod_eq_of_lt (Nat.lt_of_le_of_lt (Nat.div_le_self a _) ha)]
  · simp [shiftRight, h, Nat.not_lt.mp h]

theorem signedOf_eq_toInt (a n : Nat) : signedOf a n = (BitVec.ofNat n a).toInt := by
  rw [BitVec.toInt_eq_toNat_cond, BitVec.toNat_ofNat, signedOf]

/-- SHRA is the library's arithmetic right shift; a count beyond the width shifts by the width. -/
theorem shiftArith_eq_sshiftRight (n a c : Nat) : shiftArith n a c = ((BitVec.ofNat n a).sshiftRight (min c n)).toNat := by
  have hdiv : signedOf a n / 2 ^ min c n = ((BitVec.ofNat n a).sshiftRight (min c n)).toInt := by
    rw [BitVec.toInt_sshiftRight, Int.shiftRight_eq_div_pow, signedOf_eq_toInt, natCast_two_pow]
  rw [shiftArith, hdiv, wrapInt, ← BitVec.toNat_ofInt, BitVec.ofInt_toInt]

theorem bit_shiftArith_mod {n j : Nat} (hj : j < n) (a c : Nat) :
    bit (shiftArith n a c % 2 ^ n) j = bit a (if j + c < n then j + c else n - 1) := by
  have hge : ¬ n ≤ j := Nat.not_le.mpr hj
  rw [shiftArith_eq_sshiftRight, Nat.mod_eq_of_lt (BitVec.isLt _), bit_eq_testBit, bit_eq_testBit, BitVec.testBit_toNat,
    BitVec.getLsbD_sshiftRight, BitVec.msb_eq_getLsbD_last, BitVec.getLsbD_ofNat, BitVec.getLsbD_ofNat]
  by_cases h : j + c < n
  · have hc : min c n + j = j + c := by omega
    simp [hge, h, hc]
  · have hc : ¬ min c n + j < n := by omega
    have hn : n - 1 < n := by omega
    simp [hge, h, hc, hn]

/-- ROTL by r below the width: the bits below r are the top bits of the operand. -/
theorem testBit_rotate {n a r : Nat} (ha : a < 2 ^ n) (hr : r < n) (i : Nat) :
    (a * 2 ^ r + a / 2 ^ (n - r)).testBit i = if i < r then a.testBit (n - r + i) else a.testBit (i - r) := by
  have hlow : a / 2 ^ (n - r) < 2 ^ r := by
    rw [Nat.div_lt_iff_lt_mul (Nat.two_pow_pos _), ← Nat.pow_add]
    rwa [Nat.add_sub_of_le (Nat.le_of_lt hr)]
  rw [Nat.mul_comm, Nat.testBit_two_pow_mul_add _ hlow, Nat.testBit_div_two_pow, Nat.add_comm i]

theorem bit_rotateLeft_mod {n a j : Nat} (ha : a < 2 ^ n) (hj : j < n) (c : Nat) :
    bit (rotateLeft n a c % 2 ^ n) ((j + c) % n) = bit a j := by
  have hr : c % n < n := Nat.mod_lt _ (by omega)
  have hi : (j + c) % n < n := Nat.mod_lt _ (by omega)
  have hpos : (j + c) % n = if j + c % n < n then j + c % n else j + c % n - n := by
    rw [← Nat.add_mod_mod]
    split
    · next h => exact Nat.mod_eq_of_lt h
    · next h => rw [Nat.mod_eq_sub_mod (by omega), Nat.mod_eq_of_lt (by omega)]
  rw [bit_eq_testBit, bit_eq_testBit, rotateLeft, Nat.testBit_mod_two_pow, testBit_rotate ha hr, decide_eq_true hi, Bool.true_and, hpos]
  by_cases h : j + c % n < n
  · rw [if_pos h, if_neg (by omega), Nat.add_sub_cancel]
  · rw [if_neg h, if_pos (by omega)]
    congr 1
    omega

/-- Settles O5. Each instruction computes its sub-elements one by one (`elem_bitElements`), and every sub-element is below 2^w. -/
theorem shiftResults : Obligations.ShiftResults := by
  unfold Obligations.ShiftResults
  intro w L k _ n r a c hk
  have ha : a < 2 ^ n := elem_lt _ _ _
  refine ⟨_, _, _, _, rfl, rfl, rfl, rfl, ?_, ?_, fun j hj => ?_, fun j hj => ?_⟩
  · exact (elem_bitElements w shiftLeft r hk).trans (shiftLeft_mod n a c)
  · exact (elem_bitElements w shiftRight r hk).trans (shiftRight_mod ha c)
  · exact (congrArg (bit · j) (elem_bitElements w shiftArith r hk)).trans (bit_shiftArith_mod hj a c)
  · exact (congrArg (bit · _) (elem_bitElements w rotateLeft r hk)).trans (bit_rotateLeft_mod ha hj c)

end Sys2Proof.Machine
end

section
/-! Settles O7. A NaN of a floating type as a value and back as an encoding, and the NaN that FADD, FSUB, FMUL and FFMA choose (R93). -/

namespace Sys2Proof.Machine

/-! ## The fields of f16, bf16, f32 and f64 (Table 4.2) -/

/-- The floating TYPE codes of Table 5.10: f16, bf16, f32 and f64. -/
def IsFloatType (ty : Nat) : Prop := 8 ≤ ty ∧ ty < 12

section
variable {ty x : Nat}

theorem IsFloatType.cases (h : IsFloatType ty) : ty = 8 ∨ ty = 9 ∨ ty = 10 ∨ ty = 11 := by
  obtain ⟨h8, h12⟩ := h
  omega

/-- Sign, exponent and fraction fill the format, whose all-ones exponent holds infinity and NaN. -/
theorem IsFloatType.fields (h : IsFloatType ty) :
    fmtIeee ty = true ∧ formatBits ty = fmtM ty + fmtE ty + 1 ∧ 0 < fmtE ty ∧ 0 < fmtM ty := by
  obtain rfl | rfl | rfl | rfl := h.cases <;> decide

theorem nanCode_iff : nanCode ty x = true ↔ x / 2 ^ fmtM ty % 2 ^ fmtE ty = 2 ^ fmtE ty - 1 ∧ x % 2 ^ fmtM ty ≠ 0 := by
  simp [nanCode]

/-- The type is neither e8m0 nor e4m3, the formats that `decodeFloat` reads in their own ways. -/
theorem IsFloatType.ne (h : IsFloatType ty) : ty ≠ 0x11 ∧ ty ≠ 0x0C := by
  obtain rfl | rfl | rfl | rfl := h.cases <;> decide

/-! ## A NaN operand as a value -/

theorem decodeFloat_of_nanCode (h : IsFloatType ty) (hx : nanCode ty x = true) :
    decodeFloat ty x = .nan (decide (x / 2 ^ (fmtM ty + fmtE ty) % 2 = 1)) (x % 2 ^ fmtM ty * 2 ^ (52 - fmtM ty)) := by
  obtain ⟨hieee, -, -, -⟩ := h.fields
  obtain ⟨hexp, hfrac⟩ := nanCode_iff.mp hx
  simp [decodeFloat, h.ne.1, hieee, hexp, hfrac]

theorem isNan_decodeFloat (h : IsFloatType ty) (x : Nat) : (decodeFloat ty x).isNan = nanCode ty x := by
  by_cases hx : nanCode ty x = true
  · rw [decodeFloat_of_nanCode h hx, hx]; rfl
  · obtain ⟨hieee, -, -, -⟩ := h.fields
    rw [eq_false_of_ne_true hx]
    rw [nanCode_iff, ne_eq, Decidable.not_and_not_right] at hx
    simp only [decodeFloat, if_neg h.ne.1, hieee, beq_eq_false_iff_ne.mpr h.ne.2, Bool.false_and, Bool.true_and, beq_iff_eq]
    split
    · next hexp => rw [if_pos (hx hexp)]; rfl
    · rw [if_neg Bool.false_ne_true]
      split
      · split <;> rfl
      · rfl

/-- The flush of R92 changes only a subnormal, to a zero of its sign. -/
theorem flushIn_cases (fp : FpMode) (code x : Nat) :
    flushIn fp code x = x ∨
      isSubnormal code x = true ∧ flushIn fp code x = x / 2 ^ (fmtM code + fmtE code) % 2 * 2 ^ (fmtM code + fmtE code) := by
  unfold flushIn
  extract_lets on
  by_cases h : (on && isSubnormal code x) = true
  · exact .inr ⟨(Bool.and_eq_true_iff.mp h).2, if_pos h⟩
  · exact .inl (if_neg h)

theorem nanCode_of_isSubnormal (h : IsFloatType ty) (hx : isSubnormal ty x = true) : nanCode ty x = false := by
  obtain ⟨-, -, hE, -⟩ := h.fields
  have hone := Nat.one_lt_two_pow (Nat.ne_of_gt hE)
  have hexp : x / 2 ^ fmtM ty % 2 ^ fmtE ty = 0 := by
    rw [isSubnormal, Bool.and_eq_true, beq_iff_eq] at hx; exact hx.1
  rw [Bool.eq_false_iff, ne_eq, nanCode_iff, hexp]
  omega

theorem nanCode_signed_zero (ty s : Nat) : nanCode ty (s * 2 ^ (fmtM ty + fmtE ty)) = false := by
  rw [Bool.eq_false_iff, ne_eq, nanCode_iff, Nat.pow_add, Nat.mul_left_comm, Nat.mul_mod_right]
  exact fun hnan => hnan.2 rfl

theorem nanCode_flushIn (h : IsFloatType ty) (fp : FpMode) (x : Nat) : nanCode ty (flushIn fp ty x) = nanCode ty x := by
  obtain heq | ⟨hsub, hzero⟩ := flushIn_cases fp ty x
  · rw [heq]
  · rw [hzero, nanCode_signed_zero, nanCode_of_isSubnormal h hsub]

theorem operand_of_nanCode (h : IsFloatType ty) (hx : nanCode ty x = true) (fp : FpMode) : operand fp ty x = decodeFloat ty x := by
  obtain heq | ⟨hsub, -⟩ := flushIn_cases fp ty x
  · rw [operand, heq]
  · rw [nanCode_of_isSubnormal h hsub] at hx; cases hx

theorem isNan_operand (h : IsFloatType ty) (fp : FpMode) (x : Nat) : (operand fp ty x).isNan = nanCode ty x := by
  rw [operand, isNan_decodeFloat h, nanCode_flushIn h]

/-- The first NaN among the values of encodings is the value of the first NaN encoding. -/
theorem firstNan_operands (h : IsFloatType ty) (fp : FpMode) (xs : List Nat) :
    firstNan (xs.map (operand fp ty)) = (xs.find? (nanCode ty)).map (operand fp ty) := by
  induction xs with
  | nil => rfl
  | cons y ys ih =>
    rw [List.map_cons, firstNan, isNan_operand h, List.find?_cons, ih]
    cases nanCode ty y <;> rfl

theorem withNan_operands (h : IsFloatType ty) (fp : FpMode) {xs : List Nat} (hx : xs.find? (nanCode ty) = some x) (v : FVal) :
    withNan (xs.map (operand fp ty)) v = operand fp ty x := by
  rw [withNan, firstNan_operands h, hx]; rfl

/-! ## A NaN value as an encoding -/

/-- A number of m + 1 bits with its highest bit set. -/
theorem or_two_pow_eq_ite {m f : Nat} (hf : f < 2 ^ (m + 1)) : f ||| 2 ^ m = if f / 2 ^ m % 2 = 1 then f else f + 2 ^ m := by
  split
  · next h =>
    refine Nat.eq_of_testBit_eq fun i => ?_
    have hbit : f.testBit m = true := by rw [Nat.testBit_eq_decide_div_mod_eq, h]; rfl
    by_cases hi : m = i
    · subst hi; simp [hbit]
    · simp [Nat.testBit_two_pow_of_ne hi]
  · next h =>
    have htwo : f / 2 ^ m < 2 := by
      rwa [Nat.div_lt_iff_lt_mul (Nat.two_pow_pos m), ← Nat.pow_succ']
    rw [Nat.mod_eq_of_lt htwo] at h
    have hzero : f / 2 ^ m = 0 := Nat.lt_one_iff.mp (Nat.lt_of_le_of_ne (Nat.le_of_lt_succ htwo) h)
    exact Nat.or_two_pow_eq_add_of_lt ((Nat.div_eq_zero_iff_lt (Nat.two_pow_pos m)).mp hzero)

/-- Setting a bit of the fraction leaves what stands above the fraction. -/
theorem or_two_pow_eq_add {m j : Nat} (hj : j < m) (x : Nat) : x ||| 2 ^ j = x / 2 ^ m * 2 ^ m + (x % 2 ^ m ||| 2 ^ j) := by
  have hlt : 2 ^ j < 2 ^ m := Nat.pow_lt_pow_right (by decide) hj
  calc x ||| 2 ^ j = (x ||| 2 ^ j) / 2 ^ m * 2 ^ m + (x ||| 2 ^ j) % 2 ^ m := (Nat.div_add_mod' _ _).symm
    _ = _ := by rw [Nat.or_div_two_pow, Nat.or_mod_two_pow, Nat.div_eq_of_lt hlt, Nat.mod_eq_of_lt hlt, Nat.or_zero]

theorem defaultNanBits_eq_defaultNanCode (h : IsFloatType ty) : defaultNanBits ty = defaultNanCode ty := by
  obtain rfl | rfl | rfl | rfl := h.cases <;> decide

theorem defaultNanCode_lt (h : IsFloatType ty) : defaultNanCode ty < 2 ^ formatBits ty := by
  obtain rfl | rfl | rfl | rfl := h.cases <;> decide

/-- The sign and the all-ones exponent of a NaN are what stands above its fraction. -/
theorem signBit_add_infinity (h : IsFloatType ty) (hx : nanCode ty x = true) (hlt : x < 2 ^ formatBits ty) :
    signBit ty (decide (x / 2 ^ (fmtM ty + fmtE ty) % 2 = 1)) + infinity ty = x / 2 ^ fmtM ty * 2 ^ fmtM ty := by
  obtain ⟨-, hwidth, -, -⟩ := h.fields
  have hsign : x / 2 ^ (fmtM ty + fmtE ty) < 2 := by
    rwa [Nat.div_lt_iff_lt_mul (Nat.two_pow_pos _), ← Nat.pow_succ', Nat.succ_eq_add_one, ← hwidth]
  have hbit : signBit ty (decide (x / 2 ^ (fmtM ty + fmtE ty) % 2 = 1)) = x / 2 ^ (fmtM ty + fmtE ty) * 2 ^ (fmtM ty + fmtE ty) := by
    obtain hzero | hone := Nat.le_one_iff_eq_zero_or_eq_one.mp (Nat.le_of_lt_succ hsign)
    · simp [signBit, hzero]
    · simp [signBit, hone]
  rw [hbit, infinity, ← (nanCode_iff.mp hx).1, Nat.pow_add, ← Nat.div_div_eq_div_mul, Nat.mul_comm (2 ^ fmtM ty), ← Nat.mul_assoc, ← Nat.add_mul,
    Nat.div_add_mod']

/-- Without DNAN a NaN keeps its sign and fraction, and its quiet bit is set. -/
theorem nanBits_of_nanCode (h : IsFloatType ty) (hx : nanCode ty x = true) (hlt : x < 2 ^ formatBits ty) {fp : FpMode} (hfp : fp.dnan = false) :
    nanBits fp ty (decide (x / 2 ^ (fmtM ty + fmtE ty) % 2 = 1)) (x % 2 ^ fmtM ty * 2 ^ (52 - fmtM ty)) = x ||| 2 ^ (fmtM ty - 1) := by
  obtain ⟨-, -, -, hM⟩ := h.fields
  have hfrac : x % 2 ^ fmtM ty < 2 ^ (fmtM ty - 1 + 1) := by
    rw [Nat.sub_add_cancel hM]; exact Nat.mod_lt _ (Nat.two_pow_pos _)
  simp only [nanBits, hfp, Bool.false_eq_true, if_false, if_neg h.ne.2]
  rw [Nat.mul_div_cancel _ (Nat.two_pow_pos _), signBit_add_infinity h hx hlt, ← or_two_pow_eq_ite hfrac, ← or_two_pow_eq_add (by omega)]

/-- R93: a NaN operand as the result of an operation in its own type. -/
theorem roundTo_operand_nan (h : IsFloatType ty) (hx : nanCode ty x = true) (hlt : x < 2 ^ formatBits ty) (fp : FpMode) (rnd : Nat) :
    roundTo fp ty rnd (operand fp ty x) = if fp.dnan then defaultNanCode ty else x ||| 2 ^ (fmtM ty - 1) := by
  have hnarrow : ¬ (ty = 0x0E ∨ ty = 0x0F) ∧ ty ≠ 0x10 := by
    obtain rfl | rfl | rfl | rfl := h.cases <;> decide
  rw [operand_of_nanCode h hx, decodeFloat_of_nanCode h hx, roundTo, if_neg hnarrow.1, if_neg hnarrow.2]
  split
  · next hfp => rw [nanBits, if_pos hfp, defaultNanBits_eq_defaultNanCode h]
  · next hfp => exact nanBits_of_nanCode h hx hlt (eq_false_of_ne_true hfp)

theorem nanResult_lt (h : IsFloatType ty) (hlt : x < 2 ^ formatBits ty) (b : Bool) :
    (if b then defaultNanCode ty else x ||| 2 ^ (fmtM ty - 1)) < 2 ^ formatBits ty := by
  obtain ⟨-, hwidth, -, -⟩ := h.fields
  split
  · exact defaultNanCode_lt h
  · exact Nat.or_lt_two_pow hlt (Nat.pow_lt_pow_right (by decide) (by omega))

end

/-! ## The element instructions -/

/-- Sub-element `k` of a source, as the value that a float instruction of type `ty` reads. -/
def LaneIn.valueAt (r : LaneIn) (ty k : Nat) (y : Word) : FVal := operand r.fp ty (elem y.toNat (formatBits ty) k)

theorem elem_floatElements (w : AluWord) (f : FpMode → FVal → FVal → FVal → FVal) (r : LaneIn) {k : Nat}
    (hk : k < 64 / formatBits w.ty.toNat) :
    let ty := w.ty.toNat
    elem (floatElements w f r).toNat (formatBits ty) k =
      roundTo r.fp ty (r.rnd k) (f r.fp (r.valueAt ty k r.a) (r.valueAt ty k r.b) (r.valueAt ty k r.c)) % 2 ^ formatBits ty :=
  elem_elements _ hk

/-- R93 for a sub-element of a float instruction that takes the first NaN of the sources `ys`. -/
theorem elem_floatElements_nan {w : AluWord} {f : FpMode → FVal → FVal → FVal → FVal} {r : LaneIn} {k : Nat} {ys : List Word} {v : FVal}
    (h : IsFloatType w.ty.toNat) (hk : k < 64 / formatBits w.ty.toNat)
    (hf : f r.fp (r.valueAt w.ty.toNat k r.a) (r.valueAt w.ty.toNat k r.b) (r.valueAt w.ty.toNat k r.c) =
      withNan (ys.map (r.valueAt w.ty.toNat k)) v) :
    let ty := w.ty.toNat
    let n := formatBits ty
    ∀ x, (ys.map fun y => elem y.toNat n k).find? (nanCode ty) = some x →
      elem (floatElements w f r).toNat n k = if r.fp.dnan then defaultNanCode ty else x ||| 2 ^ (fmtM ty - 1) := by
  intro ty n x hx
  have hlt : x < 2 ^ n := by
    obtain ⟨y, -, rfl⟩ := List.mem_map.mp (List.mem_of_find?_eq_some hx)
    exact elem_lt _ _ _
  have hfirst : withNan (ys.map (r.valueAt ty k)) v = operand r.fp ty x := by
    rw [← withNan_operands h r.fp hx v, List.map_map]; rfl
  rw [elem_floatElements w f r hk, hf, hfirst, roundTo_operand_nan h (List.find?_some hx) hlt, Nat.mod_eq_of_lt (nanResult_lt h hlt _)]

/-- Settles O7. Each of the four takes the first NaN of its operands, and rounding a NaN of the type gives the NaN that R93 chooses
(`elem_floatElements_nan`). -/
theorem floatNanResults : Obligations.FloatNanResults := by
  unfold Obligations.FloatNanResults
  intro w i L k ty n r ab h8 h12 hk hi ops
  have htype : IsFloatType ty := ⟨h8, h12⟩
  have htwo : i ≠ .ffma w → ops = ab := fun hne => if_neg hne
  have hthree : i = .ffma w → ops = ab ++ [elem r.c.toNat n k] := fun heq => if_pos heq
  obtain rfl | rfl | rfl | rfl := hi
  · rw [htwo nofun]
    exact ⟨_, rfl, elem_floatElements_nan (ys := [r.a, r.b]) htype hk rfl⟩
  · rw [htwo nofun]
    exact ⟨_, rfl, elem_floatElements_nan (ys := [r.a, r.b]) htype hk rfl⟩
  · rw [htwo nofun]
    exact ⟨_, rfl, elem_floatElements_nan (ys := [r.a, r.b]) htype hk rfl⟩
  · rw [hthree rfl]
    exact ⟨_, rfl, elem_floatElements_nan (ys := [r.a, r.b, r.c]) htype hk rfl⟩

end Sys2Proof.Machine
end

section
/-! Settles O59 and O58. The words that the tables of 05 give each instruction, the fields of a word put together and read back, and the decoder
as the reading of those words. -/

namespace Sys2Proof

/-! ## Opcodes (Tables 5.4, 5.5 and 5.12) -/

/-- The branches, as `decodeShort` reads them. -/
def b32Opcode : Nat → Option (B32Word → Instr)
  | 0x00 => some .bra
  | 0x01 => some .brp
  | 0x02 => some .call
  | _ => none

/-- The words of an instruction, by its class: an opcode of the class's table, with the fields laid out as the class has them. -/
inductive Instr.HasWords : Instr → List Nat → Prop
  | nop : HasWords .nop [0]
  | a32 {opc : Nat} {k : A32Word → Instr} (hk : a32Opcode opc = some k) (w : A32Word) : HasWords (k w) [encodeA32 opc w]
  | b32 {opc : Nat} {k : B32Word → Instr} (hk : b32Opcode opc = some k) (w : B32Word) : HasWords (k w) [encodeB32 opc w]
  | alu {opc : Nat} {k : AluWord → Instr} (hk : aluOpcode opc = some k) (w : AluWord) : HasWords (k w) (encodeAlu opc w)
  | mem {opc : Nat} {k : MemWord → Instr} (hk : memOpcode opc = some k) (w : MemWord) : HasWords (k w) (encodeMem opc w)
  | async {opc : Nat} {k : AsyncWord → Instr} (hk : asyncOpcode opc = some k) (w : AsyncWord) : HasWords (k w) (encodeAsync opc w)

/-- Every instruction stands in the opcode table of its class under the opcode that `encode` gives it. -/
theorem Instr.hasWords_encode {i : Instr} (h : i.wordCount ≠ 0) : i.HasWords (encode i) := by
  cases i with
  | nop => exact .nop
  | movA32 | moviI64A32 | iaddI32A32 | iaddI32A32Imm | iaddI64A32 | iaddI64A32Imm | isubI32A32 | isubI64A32 | imulI32A32 | imulI32A32Imm
  | iminI32A32 | imaxI32A32 | andN64A32 | andN64A32Imm | orN64A32 | xorN64A32 | shlN32A32Imm | shrN32A32Imm | shraI32A32Imm | shlN64A32Imm
  | shrN64A32Imm | faddF32A32 | fsubF32A32 | fmulF32A32 | fminF32A32 | fmaxF32A32 | faddBf16A32 | fmulBf16A32 | faddF16A32 | fmulF16A32
  | ldB32A32 | ldB64A32 | ldB128A32 | stB32A32 | stB64A32 | stB128A32 => exact .a32 rfl _
  | bra | brp | call => exact .b32 rfl _
  | brx | callx | ret | pad | jset | jwait | jdrop | exit | region | yield | elect | trap | tret | brk | sleep | rdsr | wrsr | rdclk
  | iadd | isub | iadd3 | imul | imulh | imad | imadw | idiv | irem | imin | imax | iclamp | isad | popc | clz | ctz | and | or | xor | not
  | andn | shl | shr | shra | rotl | bfx | bfi | brev | icmp | sel | plop | mov | movi | movs | lea | ptrx | fadd | fsub | fmul | ffma | fmin
  | fmax | fminn | fmaxn | fcmp | fclass | frnd | fdot2 | frcp | frsq | fsqrt | fexp2 | flog2 | fsin | fcos | ftanh | cvt | cvti | pack
  | unpack | qmx | dqmx | srseed | shfl | shflx | subp | vote | lred | lscan | matchLanes | balloc | bref | bfree | tcfg | tinfo | rkacq
  | rkrel | rkstat | acrdr | acrdc | acwrr | acwrc => exact .alu rfl _
  | ld | st | ldw | stw | atomc | red | pref | atomAdd | atomSub | atomMin | atomMax | atomAnd | atomOr | atomXor | atomExch | atomFadd =>
    exact .mem rfl _
  | launch | cjoin | cleave | bexpect | barrive | bwait | btest | bcopy | bgather | bscatter | trecld | mma => exact .async rfl _
  | _ => exact absurd rfl h

theorem a32Opcode_eq_some {opc : Nat} {k : A32Word → Instr} (h : a32Opcode opc = some k) :
    opc ≠ 0 ∧ opc < 128 ∧ ∀ w, encode (k w) = [encodeA32 opc w] ∧ (k w).wordCount = 1 := by
  unfold a32Opcode at h
  split at h <;> cases h
  all_goals exact ⟨by decide, by decide, fun w => ⟨rfl, rfl⟩⟩

theorem b32Opcode_eq_some {opc : Nat} {k : B32Word → Instr} (h : b32Opcode opc = some k) :
    opc < 32 ∧ ∀ w, encode (k w) = [encodeB32 opc w] ∧ (k w).wordCount = 1 ∧ (k w).violations = [] := by
  unfold b32Opcode at h
  split at h <;> cases h
  all_goals exact ⟨by decide, fun w => ⟨rfl, rfl, rfl⟩⟩

theorem aluOpcode_eq_some {opc : Nat} {k : AluWord → Instr} (h : aluOpcode opc = some k) :
    opc < 256 ∧ ∀ w, encode (k w) = encodeAlu opc w ∧ (k w).wordCount = if w.lit.isSome then 3 else 2 := by
  unfold aluOpcode at h
  split at h <;> cases h
  all_goals exact ⟨by decide, fun w => ⟨rfl, rfl⟩⟩

theorem memOpcode_eq_some {opc : Nat} {k : MemWord → Instr} (h : memOpcode opc = some k) :
    opc < 256 ∧ aluOpcode opc = none ∧ ∀ w, encode (k w) = encodeMem opc w ∧ (k w).wordCount = if w.lit.isSome then 3 else 2 := by
  unfold memOpcode at h
  split at h <;> cases h
  all_goals exact ⟨by decide, rfl, fun w => ⟨rfl, rfl⟩⟩

theorem asyncOpcode_eq_some {opc : Nat} {k : AsyncWord → Instr} (h : asyncOpcode opc = some k) :
    opc < 256 ∧ aluOpcode opc = none ∧ memOpcode opc = none ∧ ∀ w, encode (k w) = encodeAsync opc w ∧ (k w).wordCount = 2 := by
  unfold asyncOpcode at h
  split at h <;> cases h
  all_goals exact ⟨by decide, rfl, rfl, fun w => ⟨rfl, rfl⟩⟩

/-! ## Fields of a word, put together and read back (Tables 5.3 to 5.9) -/

theorem ofNat_eq_iff_mod {n x : Nat} {b : BitVec n} : BitVec.ofNat n x = b ↔ x % 2 ^ n = b.toNat := by
  rw [← BitVec.toNat_inj, BitVec.toNat_ofNat]

theorem decide_mod_two_eq_iff {x : Nat} {b : Bool} : decide (x % 2 = 1) = b ↔ x % 2 = b.toNat := by
  cases b <;> simp

theorem toNat_decide_mod_two (x : Nat) : (decide (x % 2 = 1)).toNat = x % 2 := by
  obtain h | h := Nat.mod_two_eq_zero_or_one x <;> simp [h]

theorem a32Fields_encodeA32 {opc : Nat} (h : opc < 128) (w : A32Word) : a32Fields (encodeA32 opc w) = w := by
  obtain ⟨d, a, b⟩ := w
  simp only [a32Fields, A32Word.mk.injEq, ofNat_eq_iff_mod, encodeA32]
  omega

theorem encodeA32_a32Fields {x : Nat} (hx : x < 2 ^ 32) (h : x % 4 = 0) : encodeA32 (x / 4 % 128) (a32Fields x) = x := by
  simp only [encodeA32, a32Fields, BitVec.toNat_ofNat]
  omega

theorem b32Fields_encodeB32 {opc : Nat} (h : opc < 32) (w : B32Word) : b32Fields (encodeB32 opc w) = w := by
  obtain ⟨g, n, ofs⟩ := w
  have := n.toNat_lt
  simp only [b32Fields, B32Word.mk.injEq, ofNat_eq_iff_mod, decide_mod_two_eq_iff]
  simp only [encodeB32]
  omega

theorem encodeB32_b32Fields {x : Nat} (hx : x < 2 ^ 32) (h : x % 4 = 1) : encodeB32 (x / 4 % 32) (b32Fields x) = x := by
  simp only [encodeB32, b32Fields, BitVec.toNat_ofNat, toNat_decide_mod_two]
  omega

/-- LEN and OPC of word 0 of the long forms. -/
theorem encodeHead_len_opc {len opc : Nat} (hl : len < 4) (ho : opc < 256) (g : BitVec 3) (n : Bool) (d a : BitVec 9) :
    encodeHead len opc g n d a % 4 = len ∧ encodeHead len opc g n d a / 4 % 256 = opc := by
  have := n.toNat_lt
  simp only [encodeHead]
  omega

/-- The guard and the fields D and A of word 0 of the long forms. -/
theorem encodeHead_fields {len opc : Nat} (hl : len < 4) (ho : opc < 256) (g : BitVec 3) (n : Bool) (d a : BitVec 9) :
    BitVec.ofNat 3 (encodeHead len opc g n d a / 1024) = g ∧ decide (encodeHead len opc g n d a / 8192 % 2 = 1) = n ∧
    BitVec.ofNat 9 (encodeHead len opc g n d a / 16384) = d ∧ BitVec.ofNat 9 (encodeHead len opc g n d a / 8388608) = a := by
  have := n.toNat_lt
  simp only [ofNat_eq_iff_mod, decide_mod_two_eq_iff]
  simp only [encodeHead]
  omega

theorem encodeHead_of_fields {x : Nat} (hx : x < 2 ^ 32) :
    encodeHead (x % 4) (x / 4 % 256) (BitVec.ofNat 3 (x / 1024)) (decide (x / 8192 % 2 = 1)) (BitVec.ofNat 9 (x / 16384))
      (BitVec.ofNat 9 (x / 8388608)) = x := by
  simp only [encodeHead, BitVec.toNat_ofNat, toNat_decide_mod_two]
  omega

/-- The words of a long form: two, and the literal when it has one (R112). -/
def longWords (w0 w1 : Nat) (lit : Option (BitVec 32)) : List Nat := w0 :: w1 :: (lit.map BitVec.toNat).toList

/-- LEN of a long form (R103). -/
def longLen (lit : Option (BitVec 32)) : Nat := if lit.isSome then 3 else 2

@[simp] theorem longLen_none : longLen none = 2 := rfl
@[simp] theorem longLen_some (l : BitVec 32) : longLen (some l) = 3 := rfl

theorem longLen_lt (lit : Option (BitVec 32)) : longLen lit < 4 := by cases lit <;> simp

theorem longWords_length (w0 w1 : Nat) (lit : Option (BitVec 32)) : (longWords w0 w1 lit).length = longLen lit := by cases lit <;> rfl

/-- Word 1 of an instruction of ALU class (Table 5.7). -/
def aluTail (w : AluWord) : Nat :=
  w.b.toNat + 512 * w.c.toNat + 262144 * w.ty.toNat + 4194304 * w.rnd.toNat + 33554432 * w.sat.toNat + 67108864 * w.sq.toNat +
    134217728 * w.ind.toNat + 268435456 * w.xs.toNat + 1073741824 * w.lit.isSome.toNat + 2147483648 * w.rsv.toNat

/-- Word 1 of an instruction of memory class (Table 5.8). -/
def memTail (w : MemWord) : Nat :=
  w.base.toNat + 512 * w.size.toNat + 4096 * w.scope.toNat + 32768 * w.ro.toNat + 65536 * w.strm.toNat + 524288 * w.pred.toNat +
    134217728 * w.sq.toNat + 268435456 * w.ind.toNat + 536870912 * w.xs.toNat + 2147483648 * w.lit.isSome.toNat

/-- Word 1 of an instruction of async class (Table 5.9). -/
def asyncTail (w : AsyncWord) : Nat :=
  w.b.toNat + 512 * w.c.toNat + 262144 * w.strm.toNat + 2097152 * w.pred.toNat + 536870912 * w.md.toNat

theorem encodeAlu_eq (opc : Nat) (w : AluWord) :
    encodeAlu opc w = longWords (encodeHead (longLen w.lit) opc w.g w.n w.d w.a) (aluTail w) w.lit := by
  obtain ⟨g, n, d, a, b, c, ty, rnd, sat, sq, ind, xs, rsv, _ | l⟩ := w <;> rfl

theorem encodeMem_eq (opc : Nat) (w : MemWord) :
    encodeMem opc w = longWords (encodeHead (longLen w.lit) opc w.g w.n w.d w.a) (memTail w) w.lit := by
  obtain ⟨g, n, d, a, base, size, scope, ro, strm, pred, sq, ind, xs, _ | l⟩ := w <;> rfl

theorem encodeAsync_eq (opc : Nat) (w : AsyncWord) :
    encodeAsync opc w = longWords (encodeHead (longLen none) opc w.g w.n w.d w.a) (asyncTail w) none := rfl

theorem map_ofNat_map_toNat (lit : Option (BitVec 32)) : (lit.map BitVec.toNat).map (BitVec.ofNat 32) = lit := by
  cases lit <;> simp

theorem aluFields_encode {opc : Nat} (ho : opc < 256) (w : AluWord) :
    aluFields (encodeHead (longLen w.lit) opc w.g w.n w.d w.a) (aluTail w) (w.lit.map BitVec.toNat) = w ∧
    decide (aluTail w / 1073741824 % 2 = 1) = w.lit.isSome := by
  obtain ⟨g, n, d, a, b, c, ty, rnd, sat, sq, ind, xs, rsv, lit⟩ := w
  have := sat.toNat_lt
  have := sq.toNat_lt
  have := ind.toNat_lt
  have := rsv.toNat_lt
  have := lit.isSome.toNat_lt
  simp only [aluFields, AluWord.mk.injEq, encodeHead_fields (longLen_lt _) ho, map_ofNat_map_toNat, ofNat_eq_iff_mod, decide_mod_two_eq_iff,
    true_and, and_true]
  simp only [aluTail]
  omega

theorem memFields_encode {opc : Nat} (ho : opc < 256) (w : MemWord) :
    memFields (encodeHead (longLen w.lit) opc w.g w.n w.d w.a) (memTail w) (w.lit.map BitVec.toNat) = w ∧
    decide (memTail w / 2147483648 % 2 = 1) = w.lit.isSome := by
  obtain ⟨g, n, d, a, base, size, scope, ro, strm, pred, sq, ind, xs, lit⟩ := w
  have := ro.toNat_lt
  have := sq.toNat_lt
  have := ind.toNat_lt
  have := lit.isSome.toNat_lt
  simp only [memFields, MemWord.mk.injEq, encodeHead_fields (longLen_lt _) ho, map_ofNat_map_toNat, ofNat_eq_iff_mod, decide_mod_two_eq_iff,
    true_and, and_true]
  simp only [memTail]
  omega

theorem asyncFields_encode {opc : Nat} (ho : opc < 256) (w : AsyncWord) :
    asyncFields (encodeHead (longLen none) opc w.g w.n w.d w.a) (asyncTail w) = w := by
  obtain ⟨g, n, d, a, b, c, strm, pred, md⟩ := w
  simp only [asyncFields, AsyncWord.mk.injEq, encodeHead_fields (longLen_lt _) ho, ofNat_eq_iff_mod, true_and]
  simp only [asyncTail]
  omega

theorem aluTail_aluFields (w0 : Nat) {w1 : Nat} (h1 : w1 < 2 ^ 32) {lit : Option (BitVec 32)}
    (hlit : decide (w1 / 1073741824 % 2 = 1) = lit.isSome) : aluTail (aluFields w0 w1 (lit.map BitVec.toNat)) = w1 := by
  simp only [aluTail, aluFields, map_ofNat_map_toNat, ← hlit, BitVec.toNat_ofNat, toNat_decide_mod_two]
  omega

theorem memTail_memFields (w0 : Nat) {w1 : Nat} (h1 : w1 < 2 ^ 32) {lit : Option (BitVec 32)}
    (hlit : decide (w1 / 2147483648 % 2 = 1) = lit.isSome) : memTail (memFields w0 w1 (lit.map BitVec.toNat)) = w1 := by
  simp only [memTail, memFields, map_ofNat_map_toNat, ← hlit, BitVec.toNat_ofNat, toNat_decide_mod_two]
  omega

theorem asyncTail_asyncFields (w0 : Nat) {w1 : Nat} (h1 : w1 < 2 ^ 32) : asyncTail (asyncFields w0 w1) = w1 := by
  simp only [asyncTail, asyncFields, BitVec.toNat_ofNat]
  omega

section
variable {w0 w1 : Nat} {lit : Option (BitVec 32)} (h0 : w0 < 2 ^ 32) (h1 : w1 < 2 ^ 32) (hlen : w0 % 4 = longLen lit)
include h0 h1 hlen

theorem encodeAlu_aluFields (hlit : decide (w1 / 1073741824 % 2 = 1) = lit.isSome) :
    encodeAlu (w0 / 4 % 256) (aluFields w0 w1 (lit.map BitVec.toNat)) = longWords w0 w1 lit := by
  have hl : (aluFields w0 w1 (lit.map BitVec.toNat)).lit = lit := map_ofNat_map_toNat lit
  rw [encodeAlu_eq, aluTail_aluFields w0 h1 hlit, hl, ← hlen]
  exact congrArg (longWords · w1 lit) (encodeHead_of_fields h0)

theorem encodeMem_memFields (hlit : decide (w1 / 2147483648 % 2 = 1) = lit.isSome) :
    encodeMem (w0 / 4 % 256) (memFields w0 w1 (lit.map BitVec.toNat)) = longWords w0 w1 lit := by
  have hl : (memFields w0 w1 (lit.map BitVec.toNat)).lit = lit := map_ofNat_map_toNat lit
  rw [encodeMem_eq, memTail_memFields w0 h1 hlit, hl, ← hlen]
  exact congrArg (longWords · w1 lit) (encodeHead_of_fields h0)

end

theorem encodeAsync_asyncFields {w0 w1 : Nat} (h0 : w0 < 2 ^ 32) (h1 : w1 < 2 ^ 32) (hlen : w0 % 4 = longLen none) :
    encodeAsync (w0 / 4 % 256) (asyncFields w0 w1) = longWords w0 w1 none := by
  rw [encodeAsync_eq, asyncTail_asyncFields w0 h1, ← hlen]
  exact congrArg (longWords · w1 none) (encodeHead_of_fields h0)

/-! ## The words of an instruction are those `encode` gives -/

theorem Instr.HasWords.encode_and_wordCount_eq {i : Instr} {ws : List Nat} (h : i.HasWords ws) : encode i = ws ∧ i.wordCount = ws.length := by
  cases h with
  | nop => exact ⟨rfl, rfl⟩
  | a32 hk w => obtain ⟨-, -, hw⟩ := a32Opcode_eq_some hk; exact hw w
  | b32 hk w =>
    obtain ⟨-, hw⟩ := b32Opcode_eq_some hk
    obtain ⟨he, hn, -⟩ := hw w
    exact ⟨he, hn⟩
  | alu hk w =>
    obtain ⟨-, hw⟩ := aluOpcode_eq_some hk
    obtain ⟨he, hn⟩ := hw w
    exact ⟨he, by rw [hn, encodeAlu_eq, longWords_length]; rfl⟩
  | mem hk w =>
    obtain ⟨-, -, hw⟩ := memOpcode_eq_some hk
    obtain ⟨he, hn⟩ := hw w
    exact ⟨he, by rw [hn, encodeMem_eq, longWords_length]; rfl⟩
  | async hk w => obtain ⟨-, -, -, hw⟩ := asyncOpcode_eq_some hk; exact hw w

theorem Instr.HasWords.ne_nil {i : Instr} {ws : List Nat} (h : i.HasWords ws) : ws ≠ [] := by
  cases h with
  | alu _ w => rw [encodeAlu_eq]; nofun
  | mem _ w => rw [encodeMem_eq]; nofun
  | nop | a32 | b32 | async => nofun

theorem Instr.wellFormed_iff {i : Instr} : i.WellFormed = true ↔ i.wordCount ≠ 0 ∧ i.violations = [] := by
  simp [Instr.WellFormed]

/-! ## What the decoder answers -/

theorem firstViolation_eq_none_iff {vs : List Violation} : firstViolation vs = none ↔ vs = [] := by
  cases vs with
  | nil => exact ⟨fun _ => rfl, fun _ => rfl⟩
  | cons v vs =>
    refine ⟨fun h => ?_, nofun⟩
    unfold firstViolation at h
    split at h
    · cases h
    · split at h <;> cases h

theorem accept_of_violations_nil {i : Instr} (h : i.violations = []) (len : Nat) : accept i len = .ok (i, len) := by
  rw [accept, firstViolation_eq_none_iff.mpr h]

theorem accept_eq_ok {i j : Instr} {len n : Nat} (h : accept i len = .ok (j, n)) : i.violations = [] ∧ i = j ∧ len = n := by
  unfold accept at h
  split at h
  · cases h
  · next hv => cases h; exact ⟨firstViolation_eq_none_iff.mp hv, rfl, rfl⟩

theorem hasWords_of_accept {i j : Instr} {ws : List Nat} {len n : Nat} (h : accept i len = .ok (j, n)) (hwords : i.HasWords ws) :
    j.HasWords ws ∧ n = len ∧ j.violations = [] := by
  obtain ⟨hv, rfl, rfl⟩ := accept_eq_ok h
  exact ⟨hwords, rfl, hv⟩

theorem decodeWords_short {x : Nat} (h : x / 2 % 2 = 0) (rest : List Nat) : decodeWords (x :: rest) = decodeShort x := if_pos h

theorem decodeWords_long {w0 : Nat} {lit : Option (BitVec 32)} (h : w0 % 4 = longLen lit) (w1 : Nat) (rest : List Nat) :
    decodeWords (longWords w0 w1 lit ++ rest) = decodeLong w0 w1 (lit.map BitVec.toNat) := by
  cases lit with
  | none =>
    rw [longLen_none] at h
    have hbits : w0 / 2 % 2 = 1 ∧ w0 % 2 = 0 := by omega
    simp [longWords, decodeWords, hbits]
  | some l =>
    rw [longLen_some] at h
    have hbits : w0 / 2 % 2 = 1 ∧ w0 % 2 = 1 := by omega
    simp [longWords, decodeWords, hbits]

/-- The decoder reads one word, or a long form of which all words are there. -/
theorem decodeWords_eq_ok {ws : List Nat} {r : Instr × Nat} (hlt : ∀ w ∈ ws, w < 2 ^ 32) (h : decodeWords ws = .ok r) :
    (∃ x rest, ws = x :: rest ∧ x / 2 % 2 = 0 ∧ decodeShort x = .ok r) ∨
    ∃ w0 w1 lit rest, ws = longWords w0 w1 lit ++ rest ∧ w0 % 4 = longLen lit ∧ decodeLong w0 w1 (lit.map BitVec.toNat) = .ok r := by
  match ws, h with
  | w0 :: rest, h =>
    by_cases hshort : w0 / 2 % 2 = 0
    · rw [decodeWords_short hshort] at h
      exact .inl ⟨w0, rest, rfl, hshort, h⟩
    · right
      obtain heven | hodd := Nat.mod_two_eq_zero_or_one w0
      · have hlen : w0 % 4 = longLen none := by rw [longLen_none]; omega
        match rest, h with
        | [], h => simp [decodeWords, hshort, heven] at h
        | w1 :: rest, h => exact ⟨w0, w1, none, rest, rfl, hlen, (decodeWords_long hlen w1 rest).symm.trans h⟩
      · have hlen (l : BitVec 32) : w0 % 4 = longLen (some l) := by rw [longLen_some]; omega
        match rest, h with
        | [], h | [w1], h => simp [decodeWords, hshort, hodd] at h
        | w1 :: w2 :: rest, h =>
          have hw2 : (BitVec.ofNat 32 w2).toNat = w2 := by
            rw [BitVec.toNat_ofNat, Nat.mod_eq_of_lt (hlt w2 (by simp))]
          have hws : w0 :: w1 :: w2 :: rest = longWords w0 w1 (some (BitVec.ofNat 32 w2)) ++ rest := by simp [longWords, hw2]
          rw [hws] at h
          exact ⟨w0, w1, _, rest, hws, hlen _, (decodeWords_long (hlen _) w1 rest).symm.trans h⟩

theorem decodeShort_b32 {x : Nat} (h : x % 4 ≠ 0) :
    decodeShort x = match b32Opcode (x / 4 % 32) with
      | some k => .ok (k (b32Fields x), 1)
      | none => .error (.illegalOpcode (x / 4 % 32) 1 false) := by
  rw [decodeShort, if_neg h]
  generalize x / 4 % 32 = opc
  match opc with
  | 0 | 1 | 2 | _ + 3 => rfl

theorem decodeShort_a32 {x : Nat} {k : A32Word → Instr} (h : x % 4 = 0) (hk : a32Opcode (x / 4 % 128) = some k) :
    decodeShort x = accept (k (a32Fields x)) 1 := by
  obtain ⟨hopc, -, -⟩ := a32Opcode_eq_some hk
  simp [decodeShort, h, hopc, hk]

theorem decodeShort_eq_ok {x n : Nat} {i : Instr} (hx : x < 2 ^ 32) (hshort : x / 2 % 2 = 0) (h : decodeShort x = .ok (i, n)) :
    i.HasWords [x] ∧ n = 1 ∧ i.violations = [] := by
  by_cases hpage : x % 4 = 0
  · rw [decodeShort, if_pos hpage] at h
    dsimp only at h
    split at h
    · split at h
      · next hzero => cases h; subst hzero; exact ⟨.nop, rfl, rfl⟩
      · cases h
    · split at h
      · next k hk =>
        have hwords := Instr.HasWords.a32 hk (a32Fields x)
        rw [encodeA32_a32Fields hx hpage] at hwords
        exact hasWords_of_accept h hwords
      · cases h
  · rw [decodeShort_b32 hpage] at h
    split at h
    · next k hk =>
      cases h
      have hwords := Instr.HasWords.b32 hk (b32Fields x)
      rw [encodeB32_b32Fields hx (by omega)] at hwords
      obtain ⟨-, hk⟩ := b32Opcode_eq_some hk
      obtain ⟨-, -, hv⟩ := hk (b32Fields x)
      exact ⟨hwords, rfl, hv⟩
    · cases h

section
variable {w0 w1 : Nat} {lit : Option (BitVec 32)}

theorem decodeLong_alu {k : AluWord → Instr} (hk : aluOpcode (w0 / 4 % 256) = some k) :
    decodeLong w0 w1 (lit.map BitVec.toNat) = if decide (w1 / 1073741824 % 2 = 1) = lit.isSome
      then accept (k (aluFields w0 w1 (lit.map BitVec.toNat))) (longLen lit) else .error lengthError := by
  simp [decodeLong, hk, longLen]

theorem decodeLong_mem {k : MemWord → Instr} (ha : aluOpcode (w0 / 4 % 256) = none) (hk : memOpcode (w0 / 4 % 256) = some k) :
    decodeLong w0 w1 (lit.map BitVec.toNat) = if decide (w1 / 2147483648 % 2 = 1) = lit.isSome
      then accept (k (memFields w0 w1 (lit.map BitVec.toNat))) (longLen lit) else .error lengthError := by
  simp [decodeLong, ha, hk, longLen]

theorem decodeLong_async {k : AsyncWord → Instr} (ha : aluOpcode (w0 / 4 % 256) = none) (hm : memOpcode (w0 / 4 % 256) = none)
    (hk : asyncOpcode (w0 / 4 % 256) = some k) :
    decodeLong w0 w1 (lit.map BitVec.toNat) = if lit.isSome then .error lengthError else accept (k (asyncFields w0 w1)) 2 := by
  simp [decodeLong, ha, hm, hk]

theorem decodeLong_unassigned (ha : aluOpcode (w0 / 4 % 256) = none) (hm : memOpcode (w0 / 4 % 256) = none)
    (hk : asyncOpcode (w0 / 4 % 256) = none) :
    decodeLong w0 w1 (lit.map BitVec.toNat) = .error (.illegalOpcode (w0 / 4 % 256) 2 false) := by
  simp [decodeLong, ha, hm, hk]

theorem decodeLong_eq_ok {i : Instr} {n : Nat} (h0 : w0 < 2 ^ 32) (h1 : w1 < 2 ^ 32) (hlen : w0 % 4 = longLen lit)
    (h : decodeLong w0 w1 (lit.map BitVec.toNat) = .ok (i, n)) : i.HasWords (longWords w0 w1 lit) ∧ n = longLen lit ∧ i.violations = [] := by
  cases ha : aluOpcode (w0 / 4 % 256) with
  | some k =>
    rw [decodeLong_alu ha] at h
    split at h
    · next hlit =>
      have hwords := Instr.HasWords.alu ha (aluFields w0 w1 (lit.map BitVec.toNat))
      rw [encodeAlu_aluFields h0 h1 hlen hlit] at hwords
      exact hasWords_of_accept h hwords
    · cases h
  | none =>
    cases hm : memOpcode (w0 / 4 % 256) with
    | some k =>
      rw [decodeLong_mem ha hm] at h
      split at h
      · next hlit =>
        have hwords := Instr.HasWords.mem hm (memFields w0 w1 (lit.map BitVec.toNat))
        rw [encodeMem_memFields h0 h1 hlen hlit] at hwords
        exact hasWords_of_accept h hwords
      · cases h
    | none =>
      cases hy : asyncOpcode (w0 / 4 % 256) with
      | some k =>
        rw [decodeLong_async ha hm hy] at h
        cases lit with
        | some l => cases h
        | none =>
          have hwords := Instr.HasWords.async hy (asyncFields w0 w1)
          rw [encodeAsync_asyncFields h0 h1 hlen] at hwords
          exact hasWords_of_accept h hwords
      | none => rw [decodeLong_unassigned ha hm hy] at h; cases h

end

/-! ## Decoding and encoding -/

/-- Words that decode begin with the words of the instruction. -/
theorem hasWords_of_decodeWords {ws : List Nat} {i : Instr} {n : Nat} (hlt : ∀ w ∈ ws, w < 2 ^ 32) (h : decodeWords ws = .ok (i, n)) :
    ∃ pre rest, ws = pre ++ rest ∧ n = pre.length ∧ i.HasWords pre ∧ i.violations = [] := by
  obtain ⟨x, rest, rfl, hshort, hx⟩ | ⟨w0, w1, lit, rest, rfl, hlen, hw⟩ := decodeWords_eq_ok hlt h
  · obtain ⟨hwords, hn, hv⟩ := decodeShort_eq_ok (hlt x (by simp)) hshort hx
    exact ⟨[x], rest, rfl, hn, hwords, hv⟩
  · obtain ⟨hwords, hn, hv⟩ := decodeLong_eq_ok (hlt w0 (by simp [longWords])) (hlt w1 (by simp [longWords])) hlen hw
    exact ⟨_, rest, rfl, hn.trans (longWords_length ..).symm, hwords, hv⟩

/-- The words of an instruction without a violation decode to it. -/
theorem Instr.HasWords.decodeWords_append {i : Instr} {ws : List Nat} (h : i.HasWords ws) (hv : i.violations = []) (rest : List Nat) :
    decodeWords (ws ++ rest) = .ok (i, ws.length) := by
  cases h with
  | nop => rfl
  | @a32 opc k hk w =>
    obtain ⟨-, hopc, -⟩ := a32Opcode_eq_some hk
    have hbits : encodeA32 opc w % 4 = 0 ∧ encodeA32 opc w / 4 % 128 = opc := by simp only [encodeA32]; omega
    rw [List.singleton_append, decodeWords_short (by omega), decodeShort_a32 hbits.1 (hbits.2.symm ▸ hk), a32Fields_encodeA32 hopc,
      accept_of_violations_nil hv]
    rfl
  | @b32 opc k hk w =>
    obtain ⟨hopc, -⟩ := b32Opcode_eq_some hk
    have hbits : encodeB32 opc w % 4 = 1 ∧ encodeB32 opc w / 4 % 32 = opc := by simp only [encodeB32]; omega
    rw [List.singleton_append, decodeWords_short (by omega), decodeShort_b32 (by omega), hbits.2, hk, b32Fields_encodeB32 hopc]
    rfl
  | @alu opc k hk w =>
    obtain ⟨hopc, -⟩ := aluOpcode_eq_some hk
    obtain ⟨hlen, hop⟩ := encodeHead_len_opc (longLen_lt w.lit) hopc w.g w.n w.d w.a
    obtain ⟨hfields, hlit⟩ := aluFields_encode hopc w
    rw [encodeAlu_eq, decodeWords_long hlen, decodeLong_alu (hop.symm ▸ hk), if_pos hlit, hfields, accept_of_violations_nil hv, longWords_length]
  | @mem opc k hk w =>
    obtain ⟨hopc, ha, -⟩ := memOpcode_eq_some hk
    obtain ⟨hlen, hop⟩ := encodeHead_len_opc (longLen_lt w.lit) hopc w.g w.n w.d w.a
    obtain ⟨hfields, hlit⟩ := memFields_encode hopc w
    rw [encodeMem_eq, decodeWords_long hlen, decodeLong_mem (hop.symm ▸ ha) (hop.symm ▸ hk), if_pos hlit, hfields,
      accept_of_violations_nil hv, longWords_length]
  | @async opc k hk w =>
    obtain ⟨hopc, ha, hm, -⟩ := asyncOpcode_eq_some hk
    obtain ⟨hlen, hop⟩ := encodeHead_len_opc (longLen_lt none) hopc w.g w.n w.d w.a
    rw [encodeAsync_eq, decodeWords_long hlen, decodeLong_async (hop.symm ▸ ha) (hop.symm ▸ hm) (hop.symm ▸ hk), asyncFields_encode hopc,
      accept_of_violations_nil hv]
    rfl

/-- Settles O59. The words of an instruction are those its class's table gives (`Instr.HasWords`); the decoder reads every such list, whatever
follows it (`Instr.HasWords.decodeWords_append`), and no other (`hasWords_of_decodeWords`). -/
theorem decodeEncode : Obligations.DecodeEncode := by
  unfold Obligations.DecodeEncode
  refine ⟨fun i rest hwf => ?_, fun ws i n hlt hdec => ?_⟩
  · obtain ⟨hcount, hv⟩ := Instr.wellFormed_iff.mp hwf
    have hwords := Instr.hasWords_encode hcount
    obtain ⟨-, hlength⟩ := hwords.encode_and_wordCount_eq
    rw [hlength]
    exact hwords.decodeWords_append hv rest
  · obtain ⟨pre, rest, rfl, rfl, hwords, hv⟩ := hasWords_of_decodeWords hlt hdec
    obtain ⟨henc, hcount⟩ := hwords.encode_and_wordCount_eq
    refine ⟨henc.trans List.take_left.symm, hcount.symm, Instr.wellFormed_iff.mpr ⟨?_, hv⟩⟩
    rw [hcount]
    exact mt List.eq_nil_of_length_eq_zero hwords.ne_nil

/-- Settles O58. The words are numerals, and the decoder computes on each list of them: opcode, fields, and no field at fault. -/
theorem decodeWords_of_tables : Obligations.DecodeWords := by
  unfold Obligations.DecodeWords
  exact ⟨rfl, rfl, rfl, rfl, rfl, rfl, rfl⟩

end Sys2Proof
end

section
/-! Settles O1. The instructions that write a V register of their lane. -/

namespace Sys2Proof.Machine

/-- Settles O1. Each executing lane writes the register of its own thread (`regLane_local`); a lane whose guard is false only goes on. -/
theorem registerThreadForm : Obligations.RegisterThreadForm := by
  unfold Obligations.RegisterThreadForm
  intro i f s l hform hsq hissues hguards hready
  obtain ⟨hframe, hsquads, hthreads⟩ :=
    State.execGuarded_local hissues hguards (regLane f) _ fun x hx hon => regLane_local (x := x) hsq (hready x hx hon)
  exact ⟨_, exec_regForm hform s, hframe, hsquads, hthreads⟩

end Sys2Proof.Machine
end

section
/-! Settles O6. The bit fields and the bit counts of sub-elements (07 R167, R168), each function said once by the bits of its result. -/

namespace Sys2Proof.Machine

theorem bit_mod_two_pow {n j : Nat} (hj : j < n) (x : Nat) : bit (x % 2 ^ n) j = bit x j := by
  simp [bit_eq_testBit, hj]

/-! ## Fields (R168) -/

/-- The field that a control names: none from a position beyond the sub-element, and no bit beyond its top. -/
theorem fieldLen_eq (n pos len : Nat) : fieldLen n pos len = if n ≤ pos ∨ len = 0 then 0 else min (pos + len) n - pos := by
  unfold fieldLen
  split <;> split <;> omega

theorem bit_field (a pos len j : Nat) : bit (a / 2 ^ pos % 2 ^ len) j = (decide (j < len) && bit a (pos + j)) := by
  simp [bit_eq_testBit, Nat.testBit_mod_two_pow, Nat.testBit_div_two_pow, Nat.add_comm]

/-- The sign extension of `len` bits is the library's. -/
theorem bit_wrapInt_signedOf {n j : Nat} (hj : j < n) (x len : Nat) :
    bit (wrapInt (signedOf x len) n) j = if j < len then bit x j else decide (len ≠ 0) && bit x (len - 1) := by
  have hext : wrapInt (signedOf x len) n = ((BitVec.ofNat len x).signExtend n).toNat := by
    rw [signedOf_eq_toInt, wrapInt, ← BitVec.toNat_ofInt, BitVec.signExtend]
  have hlast : len - 1 < len ↔ len ≠ 0 := by omega
  rw [hext, bit_eq_testBit, bit_eq_testBit, bit_eq_testBit, BitVec.testBit_toNat, BitVec.getLsbD_signExtend, BitVec.msb_eq_getLsbD_last,
    BitVec.getLsbD_ofNat, BitVec.getLsbD_ofNat]
  by_cases h : j < len <;> simp [hj, h, hlast]

/-- A field zero- or sign-extended to a sub-element. -/
theorem bit_extended_field {n j : Nat} (hj : j < n) (signed : Bool) (a pos len : Nat) :
    let f := a / 2 ^ pos % 2 ^ len
    bit ((if signed && len != 0 then wrapInt (signedOf f len) n else f) % 2 ^ n) j =
      if j < len then bit a (pos + j) else decide (len ≠ 0 ∧ signed = true) && bit a (pos + len - 1) := by
  intro f
  rw [bit_mod_two_pow hj]
  by_cases hs : (signed && len != 0) = true
  · obtain ⟨rfl, hlen⟩ : signed = true ∧ len ≠ 0 := by simpa using hs
    have htop : pos + (len - 1) = pos + len - 1 := by omega
    rw [if_pos hs, bit_wrapInt_signedOf hj, bit_field, bit_field, htop]
    have hlast : len - 1 < len := Nat.sub_one_lt hlen
    by_cases h : j < len
    · rw [if_pos h, if_pos h, decide_eq_true h, Bool.true_and]
    · rw [if_neg h, if_neg h, decide_eq_true hlast, decide_eq_true hlen, decide_eq_true ⟨hlen, rfl⟩, Bool.true_and, Bool.true_and]
  · have hz : ¬ (len ≠ 0 ∧ signed = true) := by simpa [and_comm] using hs
    rw [if_neg hs, bit_field]
    by_cases h : j < len <;> simp [h, hz]

/-- A field of `a` replaced by the low bits of `b`: the bits below, the new field, and the bits above. -/
theorem insert_field_eq (a b pos len : Nat) :
    a - a / 2 ^ pos % 2 ^ len * 2 ^ pos + b % 2 ^ len * 2 ^ pos =
      2 ^ pos * (2 ^ len * (a / 2 ^ (pos + len)) + b % 2 ^ len) + a % 2 ^ pos := by
  have hlow := Nat.div_add_mod a (2 ^ pos)
  have hmid := Nat.div_add_mod (a / 2 ^ pos) (2 ^ len)
  rw [Nat.div_div_eq_div_mul, ← Nat.pow_add] at hmid
  have ha : a = 2 ^ pos * (2 ^ len * (a / 2 ^ (pos + len))) + a % 2 ^ pos + a / 2 ^ pos % 2 ^ len * 2 ^ pos := by
    calc a = 2 ^ pos * (2 ^ len * (a / 2 ^ (pos + len)) + a / 2 ^ pos % 2 ^ len) + a % 2 ^ pos := by rw [hmid, hlow]
      _ = _ := by rw [Nat.mul_add, Nat.add_right_comm, Nat.mul_comm (2 ^ pos) (a / 2 ^ pos % 2 ^ len)]
  rw [Nat.sub_eq_of_eq_add ha, Nat.mul_add, Nat.add_right_comm, Nat.mul_comm (2 ^ pos) (b % 2 ^ len)]

theorem bit_insert_field (a b pos len j : Nat) :
    bit (a - a / 2 ^ pos % 2 ^ len * 2 ^ pos + b % 2 ^ len * 2 ^ pos) j =
      if pos ≤ j ∧ j < pos + len then bit b (j - pos) else bit a j := by
  rw [insert_field_eq, bit_eq_testBit, bit_eq_testBit, bit_eq_testBit, Nat.testBit_two_pow_mul_add _ (Nat.mod_lt _ (Nat.two_pow_pos pos))]
  by_cases hlow : j < pos
  · simp [hlow, Nat.not_le.mpr hlow]
  · rw [if_neg hlow, Nat.testBit_two_pow_mul_add _ (Nat.mod_lt _ (Nat.two_pow_pos len))]
    by_cases hmid : j - pos < len
    · rw [if_pos hmid, if_pos (by omega), Nat.testBit_mod_two_pow]
      simp [hmid]
    · have hj : j - pos - len + (pos + len) = j := by omega
      rw [if_neg hmid, if_neg (by omega), Nat.testBit_div_two_pow, hj]

/-! ## Counts (R167) -/

theorem foldl_add_one_if {α : Type} (p : α → Bool) (xs : List α) (c : Nat) :
    xs.foldl (fun c x => if p x then c + 1 else c) c = c + (xs.filter p).length := by
  induction xs generalizing c with
  | nil => rfl
  | cons x xs ih =>
    rw [List.foldl_cons, ih, List.filter_cons]
    split
    · rw [List.length_cons]; omega
    · rfl

theorem popCount_eq (n x : Nat) : popCount n x = ((List.range n).filter (bit x)).length := by
  rw [popCount, foldl_add_one_if, Nat.zero_add]

/-- `z` counts the places from the top of `n` down to the first at which `p` holds, or all of them. -/
def CountsDown (p : Nat → Bool) (n z : Nat) : Prop :=
  z ≤ n ∧ (∀ j, j < z → p (n - 1 - j) = false) ∧ (z < n → p (n - 1 - z) = true)

/-- The last hit of a search upwards is the first from the top. -/
theorem foldl_countsDown (p : Nat → Bool) (n : Nat) :
    CountsDown p n ((List.range n).foldl (fun c i => if p i then n - 1 - i else c) n) := by
  have hsearch (m : Nat) (hm : m ≤ n) : let z := (List.range m).foldl (fun c i => if p i then n - 1 - i else c) n
      z ≤ n ∧ (∀ i, i < m → n - 1 - i < z → p i = false) ∧ (z < n → p (n - 1 - z) = true) := by
    induction m with
    | zero => exact ⟨Nat.le_refl n, fun _ h => absurd h (Nat.not_lt_zero _), fun h => absurd h (Nat.lt_irrefl n)⟩
    | succ m ih =>
      obtain ⟨hle, hmiss, hhit⟩ := ih (by omega)
      simp only [List.range_succ, List.foldl_append, List.foldl_cons, List.foldl_nil]
      cases hp : p m with
      | true =>
        have hm' : n - 1 - (n - 1 - m) = m := by omega
        rw [if_pos rfl, hm']
        exact ⟨by omega, fun i hi hlt => by omega, fun _ => hp⟩
      | false =>
        rw [if_neg Bool.false_ne_true]
        refine ⟨hle, fun i hi hlt => ?_, hhit⟩
        rcases Nat.lt_succ_iff_lt_or_eq.mp hi with hi | rfl
        · exact hmiss i hi hlt
        · exact hp
  obtain ⟨hle, hmiss, hhit⟩ := hsearch n (Nat.le_refl n)
  exact ⟨hle, fun j hj => hmiss (n - 1 - j) (by omega) (by omega), hhit⟩

theorem popCount_le (n x : Nat) : popCount n x ≤ n := by
  rw [popCount_eq]
  exact Nat.le_trans (List.length_filter_le _ _) (Nat.le_of_eq List.length_range)

theorem leadingZeros_countsDown (n x : Nat) : CountsDown (bit x) n (leadingZeros n x) := foldl_countsDown (bit x) n

theorem trailingZeros_spec (n x : Nat) :
    trailingZeros n x ≤ n ∧ (∀ j, j < trailingZeros n x → bit x j = false) ∧
      (trailingZeros n x < n → bit x (trailingZeros n x) = true) := by
  obtain ⟨hle, hmiss, hhit⟩ : CountsDown (fun i => bit x (n - 1 - i)) n (trailingZeros n x) := foldl_countsDown _ n
  have hflip {j : Nat} (hj : j < n) : n - 1 - (n - 1 - j) = j := by omega
  refine ⟨hle, fun j hj => ?_, fun hlt => ?_⟩
  · simpa only [hflip (Nat.lt_of_lt_of_le hj hle)] using hmiss j hj
  · simpa only [hflip hlt] using hhit hlt

/-- A count of the bits of a sub-element fits in it. -/
theorem elem_bitElements_of_le (w : AluWord) {f : Nat → Nat → Nat} (hf : ∀ n x, f n x ≤ n) (r : LaneIn) {k : Nat}
    (hk : k < 64 / formatBits w.ty.toNat) :
    let n := formatBits w.ty.toNat
    elem (bitElements w (fun n a _ => f n a) r).toNat n k = f n (elem r.a.toNat n k) :=
  (elem_bitElements w _ r hk).trans (Nat.mod_eq_of_lt (Nat.lt_of_le_of_lt (hf _ _) Nat.lt_two_pow_self))

/-! ## Reversal (R167) -/

theorem testBit_add_two_pow {r k : Nat} (h : ∀ j, j ≤ k → r.testBit j = false) (j : Nat) :
    (r + 2 ^ k).testBit j = (r.testBit j || decide (k = j)) := by
  have hmod : r % 2 ^ (k + 1) = 0 := Nat.eq_of_testBit_eq fun j => by
    rw [Nat.testBit_mod_two_pow, Nat.zero_testBit]
    by_cases hj : j < k + 1
    · simp [h j (by omega)]
    · simp [hj]
  have hr := Nat.div_add_mod r (2 ^ (k + 1))
  rw [hmod, Nat.add_zero] at hr
  rw [← hr, Nat.two_pow_add_eq_or_of_lt (Nat.pow_lt_pow_right (by decide) (Nat.lt_succ_self k)), Nat.testBit_or, Nat.testBit_two_pow]

theorem bit_reverseBits {n j : Nat} (hj : j < n) (x : Nat) : bit (reverseBits n x) j = bit x (n - 1 - j) := by
  have hlow (m : Nat) (hm : m ≤ n) (j : Nat) (hj : j < n) :
      ((List.range m).foldl (fun r i => if bit x i then r + 2 ^ (n - 1 - i) else r) 0).testBit j = (decide (n - m ≤ j) && bit x (n - 1 - j)) := by
    induction m generalizing j with
    | zero => simp [Nat.not_le.mpr hj]
    | succ m ih =>
      have ih := ih (by omega)
      simp only [List.range_succ, List.foldl_append, List.foldl_cons, List.foldl_nil]
      generalize (List.range m).foldl (fun r i => if bit x i then r + 2 ^ (n - 1 - i) else r) 0 = r at ih ⊢
      have hzero (j : Nat) (hj : j ≤ n - 1 - m) : r.testBit j = false := by
        rw [ih j (by omega), decide_eq_false (by omega), Bool.false_and]
      have hadd : (if bit x m then r + 2 ^ (n - 1 - m) else r).testBit j = (r.testBit j || (bit x m && decide (n - 1 - m = j))) := by
        cases bit x m with
        | true => simpa using testBit_add_two_pow hzero j
        | false => simp
      rw [hadd]
      by_cases hjm : n - 1 - m = j
      · have hm' : n - 1 - j = m := by omega
        have hle : n - (m + 1) ≤ j := by omega
        simp [hzero j (by omega), hjm, hm', hle]
      · have hle : n - m ≤ j ↔ n - (m + 1) ≤ j := by omega
        simp [ih j hj, hjm, hle]
  rw [bit_eq_testBit, reverseBits, hlow n (Nat.le_refl n) j hj]
  simp

/-! ## The instructions -/

theorem codeSigned_of_lt_eight {ty : Nat} (h : ty < 8) : codeSigned ty = true ↔ ty % 2 = 0 := by
  rw [codeSigned, if_neg (by omega), if_neg (by omega), beq_iff_eq]

/-- BFX: every sub-element is the extended field of its own. -/
theorem bit_elem_bfxValue {w : AluWord} (hty : w.ty.toNat < 8) (r : LaneIn) {k j : Nat} (hk : k < 64 / formatBits w.ty.toNat)
    (hj : j < formatBits w.ty.toNat) :
    let n := formatBits w.ty.toNat
    let ctl := match r.lit with | some x => x.toNat % 65536 | none => r.b.toNat % 65536
    let len := fieldLen n (ctl % 256) (ctl / 256 % 256)
    bit (elem (bfxValue w r).toNat n k) j =
      if j < len then bit (elem r.a.toNat n k) (ctl % 256 + j)
      else decide (len ≠ 0 ∧ w.ty.toNat % 2 = 0) && bit (elem r.a.toNat n k) (ctl % 256 + len - 1) := by
  intro n ctl len
  have hctl : ctl / 256 % 256 = ctl / 256 := by
    have : ctl < 65536 := by
      unfold ctl
      split <;> exact Nat.mod_lt _ (by decide)
    omega
  simp only [len, hctl, ← codeSigned_of_lt_eight hty]
  exact (congrArg (bit · j) (elem_elements _ hk)).trans (bit_extended_field hj _ _ _ _)

/-- BFI: every sub-element of A takes the low bits of its sub-element of B in the field. -/
theorem bit_elem_bfiValue (w : AluWord) (r : LaneIn) {k : Nat} (j : Nat) (hk : k < 64 / formatBits w.ty.toNat) (hj : j < formatBits w.ty.toNat) :
    let n := formatBits w.ty.toNat
    let ctl := r.c.toNat % 65536
    let len := fieldLen n (ctl % 256) (ctl / 256 % 256)
    bit (elem (bfiValue w r).toNat n k) j =
      if ctl % 256 ≤ j ∧ j < ctl % 256 + len then bit (elem r.b.toNat n k) (j - ctl % 256) else bit (elem r.a.toNat n k) j := by
  intro n ctl len
  have hpos : ctl % 256 = r.c.toNat % 256 := Nat.mod_mod_of_dvd _ (by decide)
  have hlen : ctl / 256 % 256 = r.c.toNat / 256 % 256 := by omega
  simp only [len, hpos, hlen]
  exact (congrArg (bit · j) (elem_elements _ hk)).trans ((bit_mod_two_pow hj _).trans (bit_insert_field _ _ _ _ j))

/-- Settles O6. Each instruction computes its sub-elements one by one: the fields are `bit_elem_bfxValue` and `bit_elem_bfiValue`, the counts
`popCount_eq`, `leadingZeros_countsDown` and `trailingZeros_spec`, each below 2^w, and the reversal `bit_reverseBits`. -/
theorem bitCountResults : Obligations.BitCountResults := by
  unfold Obligations.BitCountResults
  intro w L k hty n a hk
  let r := aluIn w L (aluB w L)
  refine ⟨⟨_, _, rfl, rfl, fun j hj => ?_, fun j hj => ?_⟩, _, _, _, _, rfl, rfl, rfl, rfl, ?_, ?_, ?_, fun j hj => ?_⟩
  · simp only [← fieldLen_eq]
    exact bit_elem_bfxValue hty r hk hj
  · simp only [← fieldLen_eq]
    exact bit_elem_bfiValue w r j hk hj
  · exact (elem_bitElements_of_le w popCount_le r hk).trans (popCount_eq n a)
  · have hz := elem_bitElements_of_le w (fun n x => (leadingZeros_countsDown n x).1) r hk
    exact hz ▸ leadingZeros_countsDown n a
  · have hz := elem_bitElements_of_le w (fun n x => (trailingZeros_spec n x).1) r hk
    exact hz ▸ trailingZeros_spec n a
  · exact (congrArg (bit · j) (elem_bitElements w (fun n a _ => reverseBits n a) r hk)).trans
      ((bit_mod_two_pow hj _).trans (bit_reverseBits hj a))

end Sys2Proof.Machine
end

section
/-! Settles O25. SRSEED: each executing lane writes the seed of the group's block and clears the counter of its own thread. -/

namespace Sys2Proof.Machine

/-! ## Lanes that also write the blocks -/

/-- The outcome `o` does what `o'` does and beside it changes the table of blocks by `c`, which `o'` neither reads nor writes. -/
def LaneOut.AddsBlocks (o o' : LaneOut) (c : Table Block → Table Block) : Prop :=
  ∃ f f' pc, o = .done f pc ∧ o' = .done f' pc ∧ ∀ (u : State) (B : Table Block), f { u with blocks := B } = { f' u with blocks := c B }

theorem LaneOut.AddsBlocks.applyLane {o o' : LaneOut} {c : Table Block → Table Block} (h : o.AddsBlocks o' c) (u : State) (B : Table Block)
    (k : Nat) (ipc next : Word) :
    ({ u with blocks := B } : State).applyLane k ipc next o = { u.applyLane k ipc next o' with blocks := c B } := by
  obtain ⟨f, f', pc, rfl, rfl, hf⟩ := h
  simp only [State.applyLane, hf]
  rfl

theorem LaneOut.AddsBlocks.proceeds {o o' : LaneOut} {c : Table Block → Table Block} (h : o.AddsBlocks o' c) :
    o.proceeds = true ∧ o'.proceeds = true := by
  obtain ⟨f, f', pc, rfl, rfl, -⟩ := h
  exact ⟨rfl, rfl⟩

theorem LaneOut.AddsBlocks.goes_eq {o o' : LaneOut} {c : Table Block → Table Block} (h : o.AddsBlocks o' c) : o.goes = o'.goes := by
  obtain ⟨f, f', pc, rfl, rfl, -⟩ := h
  rfl

theorem foldl_applyLane_addsBlocks {l : Latch} {o o' : Nat → LaneOut} {c : Nat → Table Block → Table Block} (xs : List Nat)
    (h : ∀ x ∈ xs, (o x).AddsBlocks (o' x) (c x)) (u : State) (B : Table Block) :
    xs.foldl (fun u x => u.applyLane (l.key x) l.pc l.next (o x)) { u with blocks := B } =
      { xs.foldl (fun u x => u.applyLane (l.key x) l.pc l.next (o' x)) u with blocks := xs.foldl (fun B x => c x B) B } := by
  induction xs generalizing u B with
  | nil => rfl
  | cons x xs ih =>
    obtain ⟨hx, hxs⟩ := List.forall_mem_cons.mp h
    simp only [List.foldl_cons, hx.applyLane]
    exact ih hxs _ _

theorem State.endIssue_withBlocks (u : State) (B : Table Block) (l : Latch) (went : List (Nat × Nat)) (pc : Word) :
    ({ u with blocks := B } : State).endIssue l went pc =
      { u.endIssue l went pc with blocks := tmod B l.blk fun b => { b with bySwap := false } } := by
  have hcore (B : Table Block) : (({ u with blocks := B } : State).modBlock l.blk fun b => { b with bySwap := false }).core l.core =
    u.core l.core := rfl
  have hrun (B : Table Block) (r : Run) : (({ u with blocks := B } : State).modBlock l.blk fun b => { b with bySwap := false }).runAfter l r went pc =
    u.runAfter l r went pc := rfl
  simp only [State.endIssue, hcore, hrun]
  cases (u.core l.core).slot l.slot with
  | none => rfl
  | some r => dsimp only; split <;> rfl

theorem State.onlyGroup.withBlocks {s t : State} (h : s.onlyGroup t) (B : Table Block) : s.onlyGroup { t with blocks := B } :=
  congrArg (fun u : State => { u with blocks := B }) h

/-- An issue group whose lanes do what those of another body do, and beside it change the table of blocks. -/
theorem State.execGroup_addsBlocks {s : State} {l : Latch} (hi : s.issues l) {body body' : Lane → LaneOut} {c : Nat → Table Block → Table Block}
    (h : ∀ x ∈ l.lanesOf, (body (s.laneAt l x)).AddsBlocks (body' (s.laneAt l x)) (c x)) :
    s.execGroup body = { s.execGroup body' with
      blocks := tmod (l.lanesOf.foldl (fun B x => c x B) s.blocks) l.blk fun b => { b with bySwap := false } } := by
  have ⟨_, _, hne, _⟩ := hi
  obtain ⟨x₀, hx₀⟩ := List.exists_mem_of_ne_nil _ hne
  obtain ⟨hp, hp'⟩ := (h x₀ hx₀).proceeds
  have hdone : s.lanesDone l body = { s.lanesDone l body' with blocks := l.lanesOf.foldl (fun B x => c x B) s.blocks } :=
    foldl_applyLane_addsBlocks l.lanesOf h s s.blocks
  have hwent : s.lanesWent l body = s.lanesWent l body' := by
    simp only [State.lanesWent, State.outcomes, List.filter_map, List.map_map]
    congr 1
    exact List.filter_congr fun x hx => (h x hx).goes_eq
  rw [State.execGroup, State.execGroup, State.execThen_eq hi body _ ⟨x₀, hx₀, hp⟩, State.execThen_eq hi body' _ ⟨x₀, hx₀, hp'⟩, hdone,
    hwent, State.endIssue_withBlocks]

/-- A lane under a guard that is known adds its change when the guard holds. -/
theorem guarded_addsBlocks {s : State} {l : Latch} {x : Nat} {g : BitVec 3} {n : Bool} (hg : s.pendingPred (l.key x) g.toNat = false)
    {body body' : Lane → LaneOut} {c : Table Block → Table Block}
    (h : s.laneOn l x g n → (body (s.laneAt l x)).AddsBlocks (body' (s.laneAt l x)) c) :
    (guarded g n body (s.laneAt l x)).AddsBlocks (guarded g n body' (s.laneAt l x)) fun B => if s.laneOn l x g n then c B else B := by
  rw [guarded_eq hg, guarded_eq hg]
  by_cases hon : s.laneOn l x g n
  · simp only [if_pos hon]
    exact h hon
  · simp only [if_neg hon]
    exact ⟨_, _, _, rfl, rfl, fun _ _ => rfl⟩

/-! ## SRSEED -/

/-- SRSEED without its write of the seed. -/
def clearLane (w : AluWord) (L : Lane) : LaneOut :=
  L.checked [{ field := 1, name := aluNameA w L.t }] (.done (fun s => s.modThr L.k fun t => { t with srctr := 0 }) L.next)

theorem clearLane_local {w : AluWord} {s : State} {l : Latch} {x : Nat}
    (h : s.operandsFit l x [{ field := 1, name := aluNameA w (s.thr (l.key x)) }]) :
    (clearLane w (s.laneAt l x)).proceeds = true ∧
    LocalFx (l.key x) (fun u => u.applyLane (l.key x) l.pc l.next (clearLane w (s.laneAt l x)))
      (fun t => { t with srctr := 0, pc := l.next, stepOver := none }) :=
  LaneOut.local_of_eq (checked_ok h _) ⟨rfl, (LocalFx.modThr (l.key x) fun t => { t with srctr := 0 }).next l.pc l.next⟩

theorem srseedLane_addsBlocks {w : AluWord} {s : State} {l : Latch} {x : Nat} (hblk : (s.thr (l.key x)).blk = l.blk)
    (h : s.operandsFit l x [{ field := 1, name := aluNameA w (s.thr (l.key x)) }]) :
    (srseedLane w (s.laneAt l x)).AddsBlocks (clearLane w (s.laneAt l x)) fun B =>
      tmod B l.blk fun b => { b with srseed := s.readReg (s.thr (l.key x)) (aluNameA w (s.thr (l.key x))) } := by
  refine ⟨_, _, l.next, checked_ok h _, checked_ok h _, fun u B => ?_⟩
  have hb : (s.laneAt l x).t.blk = l.blk := hblk
  rw [hb]
  rfl

/-- A change of one entry for each of a list, one after another. -/
theorem foldl_tmod {α β : Type} (k : Nat) (f : β → α → α) (xs : List β) (t : Table α) (j : Nat) :
    tget (xs.foldl (fun t x => tmod t k (f x)) t) j = if j = k then (tget t j).map fun v => xs.foldl (fun v x => f x v) v else tget t j := by
  induction xs generalizing t with
  | nil => simp
  | cons x xs ih =>
    rw [List.foldl_cons, ih]
    by_cases hj : j = k
    · subst hj
      rw [if_pos rfl, if_pos rfl, tget_tmod_same, Option.map_map]
      rfl
    · rw [if_neg hj, if_neg hj, tget_tmod_ne _ _ _ _ hj]

/-- Of writes of the seed one after another the last stands. -/
theorem foldl_srseed (v : Nat → Word) (xs : List Nat) (b : Block) :
    xs.foldl (fun b x => { b with srseed := v x }) b =
      { b with srseed := match xs.getLast? with | some x => v x | none => b.srseed } := by
  induction xs generalizing b with
  | nil => rfl
  | cons x xs ih =>
    rw [List.foldl_cons, ih, List.getLast?_cons]
    cases xs.getLast? <;> rfl

/-- The block after each executing lane in increasing order has written the seed `v x`, and the group has issued. -/
theorem tgetD_foldl_srseed {s : State} {l : Latch} (hlisted : (tget s.blocks l.blk).isSome = true) (g : BitVec 3) (n : Bool)
    (v : Nat → Word) (b : Nat) :
    tgetD (tmod (l.lanesOf.foldl (fun B x => if s.laneOn l x g n then tmod B l.blk fun b => { b with srseed := v x } else B) s.blocks) l.blk
      fun b => { b with bySwap := false }) b noBlock =
    if b = l.blk then { s.block l.blk with
      bySwap := false
      srseed := match s.lastOn l g n with | some x => v x | none => (s.block l.blk).srseed } else s.block b := by
  have hfilter : l.lanesOf.foldl (fun B x => if s.laneOn l x g n then tmod B l.blk fun b => { b with srseed := v x } else B) s.blocks =
      (l.lanesOf.filter fun x => decide (s.laneOn l x g n)).foldl (fun B x => tmod B l.blk fun b => { b with srseed := v x }) s.blocks := by
    simp only [List.foldl_filter, decide_eq_true_eq]
  rw [hfilter]
  by_cases hb : b = l.blk
  · subst hb
    obtain ⟨c, hc⟩ := Option.isSome_iff_exists.mp hlisted
    simp only [tgetD, tget_tmod_same, foldl_tmod, hc, Option.map_some, foldl_srseed, State.block, State.lastOn, if_true,
      Option.getD_some]
  · rw [tgetD_tmod_ne _ _ _ _ _ hb, if_neg hb, tgetD, foldl_tmod, if_neg hb]
    rfl

/-- Settles O25. SRSEED clears the counters as `clearLane` does, on the threads of its lanes alone, and beside it each executing lane writes the
seed of the block (`srseedLane_addsBlocks`), so that the seed of the highest stands (`foldl_srseed`). -/
theorem srseedResult : Obligations.SrseedResult := by
  unfold Obligations.SrseedResult
  intro w s l hissues hguards hlisted hready
  have ⟨_, _, _, hthread⟩ := hissues
  obtain ⟨⟨honly, -, haccs, hothers, -⟩, hsquads, hthreads⟩ :=
    State.execGuarded_local hissues hguards (clearLane w) _ fun x hx hon => clearLane_local (hready x hx hon)
  have hexec := State.execGroup_addsBlocks hissues fun x hx =>
    have ⟨_, hblk, _⟩ := hthread x hx
    guarded_addsBlocks (hguards x hx) fun hon => srseedLane_addsBlocks hblk (hready x hx hon)
  have hblock := tgetD_foldl_srseed hlisted w.g w.n fun x => s.readReg (s.thr (l.key x)) (aluNameA w (s.thr (l.key x)))
  refine ⟨_, congrArg Host.Outcome.next hexec, ?_, haccs, hsquads, hothers, fun b hb => (hblock b).trans (if_neg hb),
    (hblock l.blk).trans (if_pos rfl), hthreads⟩
  exact honly.withBlocks _

end Sys2Proof.Machine
end

section
/-! Settles O26. QMX and DQMX: each executing lane writes consecutive V registers of its own thread, and the counter when it rounds. -/

namespace Sys2Proof.Machine

/-- Effects in a row on one thread are an effect on that thread. -/
theorem LocalFx.foldl {β : Type} {k : Nat} {fx : State → β → State} {g : Thread → β → Thread}
    (h : ∀ b, LocalFx k (fun s => fx s b) (fun t => g t b)) (bs : List β) :
    LocalFx k (fun s => bs.foldl fx s) (fun t => bs.foldl g t) := by
  induction bs with
  | nil => exact LocalFx.id k
  | cons b bs ih => exact (h b).comp ih

/-- `count` V registers of a thread from `d` written, the first from the low 64 bits of `val` (03 R56). -/
def Thread.writeRange (t : Thread) (d count val : Nat) : Thread :=
  (List.range count).foldl (fun t j => t.writeV (d + j) (BitVec.ofNat 64 (val / 2 ^ (64 * j)))) t

theorem LocalFx.writeRange (k d count val : Nat) :
    LocalFx k (fun s => s.writeRange k (.v d) count val) (fun t => t.writeRange d count val) :=
  LocalFx.foldl (fun j => LocalFx.writeV k (d + j) (BitVec.ofNat 64 (val / 2 ^ (64 * j)))) _

@[simp] theorem Thread.writeRange_srctr (t : Thread) (d count val : Nat) : (t.writeRange d count val).srctr = t.srctr :=
  List.foldlRecOn _ _ (motive := fun u : Thread => u.srctr = t.srctr) rfl fun _ h _ _ => h

/-- An instruction that rounds under the stochastic mode advances the counter once (04 R91). -/
theorem LocalFx.stepCounter (k : Nat) (rounds : Bool) (i : LaneIn) :
    LocalFx k (stepCounter rounds i k) (fun t => { t with srctr := if rounds && i.fp.rnd == 5 then t.srctr + 1 else t.srctr }) := by
  unfold Machine.stepCounter
  cases rounds && i.fp.rnd == 5 with
  | false => exact LocalFx.id k
  | true => exact LocalFx.modThr k fun t => { t with srctr := t.srctr + 1 }

/-- A lane of QMX or DQMX: `nd` registers from V[d] take the number `r.1`, the counter advances when `r.2` tells of a rounding, and the lane
goes on in sequence. -/
theorem LocalFx.writeRange_stepCounter_next (k d nd : Nat) (i : LaneIn) (r : Nat × Bool) (ipc next : Word) :
    LocalFx k (fun u => u.applyLane k ipc next (.done (fun s => Machine.stepCounter r.2 i k (s.writeRange k (.v d) nd r.1)) next)) (fun t =>
      { t.writeRange d nd r.1 with pc := next, stepOver := none, srctr := if r.2 && i.fp.rnd == 5 then t.srctr + 1 else t.srctr }) := by
  simpa only [Thread.writeRange_srctr] using ((LocalFx.writeRange k d nd r.1).comp (LocalFx.stepCounter k r.2 i)).next ipc next

/-- One lane of QMX or DQMX whose operands fit acts on its own thread. -/
theorem mxLane_local {w : AluWord} {s : State} {l : Latch} {x nd na : Nat} (f : LaneIn → Nat → Nat × Bool)
    (h : s.operandsFit l x [{ field := 0, name := .v w.d.toNat, count := nd, rd := false, wr := true },
      { field := 1, name := aluNameA w (s.thr (l.key x)), count := na }]) :
    (mxLane w nd na f (s.laneAt l x)).proceeds = true ∧
    LocalFx (l.key x) (fun u => u.applyLane (l.key x) l.pc l.next (mxLane w nd na f (s.laneAt l x))) (fun t =>
      let i := aluIn w (s.laneAt l x) 0
      let r := f i (s.readRange (s.thr (l.key x)) (aluNameA w (s.thr (l.key x))) na)
      { t.writeRange w.d.toNat nd r.1 with
        pc := l.next, stepOver := none, srctr := if r.2 && i.fp.rnd == 5 then t.srctr + 1 else t.srctr }) :=
  LaneOut.local_of_eq (checked_ok h _) ⟨rfl, LocalFx.writeRange_stepCounter_next ..⟩

/-- Settles O26. Both instructions run `mxLane` under their guard, with the counts of registers exchanged, and a lane of it acts on its own
thread (`mxLane_local`). The sub index of DQMX and its block with S = 0xFF (log 72), and which of the two round (log 31), are the model's choices. -/
theorem mxResults : Obligations.MxResults := by
  unfold Obligations.MxResults
  intro w s l hissues hguards big small ops result source
  constructor
  · intro hready
    exact ⟨_, rfl, State.execGuarded_local hissues hguards _ _ fun x hx hon => mxLane_local (qmxValue w) (hready x hx hon)⟩
  · intro hready
    exact ⟨_, rfl, State.execGuarded_local hissues hguards _ _ fun x hx hon => mxLane_local (dqmxValue w) (hready x hx hon)⟩

end Sys2Proof.Machine
end
